-- ==== Sys2Proof/Word.lean ====
section
/-! DEFINITION. The bit vectors the manual treats as bits, and their plainest arithmetic. -/

namespace Sys2Proof

/-- One byte of a line or a frame. -/
abbrev Byte := BitVec 8

/-- A 16-bit value: an item, a digest, a set of classes or ids. -/
abbrev Word := BitVec 16

/-- The low byte of a 16-bit field (sent first, 00_scope convention 2). -/
def loByte (w : Word) : Byte := w.setWidth 8

/-- The high byte of a 16-bit field (sent second). -/
def hiByte (w : Word) : Byte := (w >>> 8).setWidth 8

/-- The 16-bit field whose bytes arrive as `lo` then `hi`. -/
def wordOf (lo hi : Byte) : Word := BitVec.ofNat 16 (lo.toNat + 256 * hi.toNat)

/-- A 16-bit field as it is sent: least significant byte first. -/
def wordBytes (w : Word) : List Byte := [loByte w, hiByte w]

/-- A count or a code as one byte. -/
def byteOf (n : Nat) : Byte := BitVec.ofNat 8 n

/-- A count as a 16-bit field. -/
def wordOfNat (n : Nat) : Word := BitVec.ofNat 16 n

/-- The byte 1 for yes and 0 for no. -/
def flagByte (b : Bool) : Byte := if b then 1 else 0

/-- Clamping (00_scope convention 13). -/
def clampNat (lo hi n : Nat) : Nat := max lo (min hi n)

/-- The 8-bit sum of a run of bytes (R158). -/
def sum8 (bs : List Byte) : Byte := bs.foldr (· + ·) 0

end Sys2Proof
end

