-- ==== Sys2Proof/Syntax.lean ====
section
/-! DEFINITION. The commands: one constructor per row of spec/opcode_table.json.
A request row carries the POS, TAG and PAYLOAD bytes of its frame (R169); an event row carries the line it
happens on and what the event brings. -/

namespace Sys2Proof

/-- A position number. The CX4 has positions 0 to 3 only (00_scope "Variants"). -/
abbrev Pos := Fin 8

/-- The two kinds of port (R109). -/
inductive PortKind where
  | reader
  | keypad
deriving DecidableEq, Repr

/-- The two parts (00_scope "Variants"). -/
inductive Variant where
  | cx8
  | cx4
deriving DecidableEq, Repr

/-- Positions of the part, numbered from 0. -/
def Variant.positions : Variant → Nat
  | .cx8 => 8
  | .cx4 => 4

/-- The two flags that a keypad announces of itself (R67). -/
structure AnnounceFlags where
  display : Bool
  beeper : Bool
  deriving DecidableEq, Repr

/-- The commands of the opcode table. -/
inductive Instr where
  | identify (pos tag : Byte) (payload : List Byte)
  | post (pos tag : Byte) (payload : List Byte)
  | cancel (pos tag : Byte) (payload : List Byte)
  | resume (pos tag : Byte) (payload : List Byte)
  | query (pos tag : Byte) (payload : List Byte)
  /-- POWER with action on: position set and port kind bytes (R111). -/
  | powerOn (pos tag positionSet portKind : Byte)
  /-- POWER with action off. -/
  | powerOff (pos tag positionSet portKind : Byte)
  | set (pos tag : Byte) (payload : List Byte)
  | get (pos tag : Byte) (payload : List Byte)
  | noticeRead (pos tag : Byte) (payload : List Byte)
  | noticeClear (pos tag : Byte) (payload : List Byte)
  | noticeControl (pos tag : Byte) (payload : List Byte)
  | counters (pos tag : Byte) (payload : List Byte)
  | screenLoad (pos tag : Byte) (payload : List Byte)
  | screenDrop (pos tag : Byte) (payload : List Byte)
  | screenList (pos tag : Byte) (payload : List Byte)
  | unlock (pos tag : Byte) (payload : List Byte)
  | lock (pos tag : Byte) (payload : List Byte)
  | storeEnable (pos tag : Byte) (payload : List Byte)
  | storeWrite (pos tag : Byte) (payload : List Byte)
  | storeRead (pos tag : Byte) (payload : List Byte)
  | storeLock (pos tag : Byte) (payload : List Byte)
  | storeStatus (pos tag : Byte) (payload : List Byte)
  | restart (pos tag : Byte) (payload : List Byte)
  /-- A frame whose KIND byte names no request kind (R160). -/
  | unknownKind (kind pos tag : Byte) (payload : List Byte)
  | receiveByte (b : Byte)
  | frameGapTimeout
  | transmitDone
  | coldStart
  | warmStart
  | startComplete
  /-- The end of a store write or lock, with the result of its verify (R184). -/
  | storeWriteEnd (verifyGood : Bool)
  /-- A character byte: parity bit 4 and data bits 3 to 0 (R173). -/
  | readerCharacterByte (p : Pos) (c : BitVec 5)
  | readerEndByte (p : Pos)
  | readerFaultByte (p : Pos) (b : Byte)
  | passGapTimeout (p : Pos)
  | keyPress (p : Pos) (code : Fin 24)
  | keyRelease (p : Pos) (code : Fin 24)
  | longPressTimeout (p : Pos)
  /-- A keypad announce with its two flags (R68). `early` says that it came before the port entered ABSENT although it is
  taken after that, the meeting of R121 (log 29). -/
  | announce (p : Pos) (flags : AnnounceFlags) (early : Bool)
  | acknowledge (p : Pos)
  | keypadLineError (p : Pos) (b : Byte)
  | acknowledgeTimeout (p : Pos)
  | beepSent (p : Pos)
  | firstKeyTimeout (p : Pos)
  | interKeyTimeout (p : Pos)
  | ceilingTimeout (p : Pos)
  | waitCardTimeout (p : Pos)
  | removalTimeout (p : Pos)
  | pauseTimerExpiry (p : Pos)
  | cardPresentRises (p : Pos)
  | cardPresentFalls (p : Pos)
  | cardLeftTimeout (p : Pos)
  /-- A switch-on decision at the supervisor's clock reading `now`, in ms (R114; log 4). -/
  | portSwitchOn (now : Nat)
  /-- The sensed current of a port becomes `mA` milliamperes (R110). -/
  | portCurrentChange (p : Pos) (k : PortKind) (mA : Nat)
  | inrushAllowanceEnd (p : Pos) (k : PortKind)
  | readinessTimeout (p : Pos) (k : PortKind)
  | announceTimeout (p : Pos)
  | overTimeTrip (p : Pos) (k : PortKind)
  | underTimeExpiry (p : Pos) (k : PortKind)
  | returnTimeExpiry (p : Pos) (k : PortKind)
  | latchCeilingTimeout (p : Pos)
  | reEnergizeTimeout (p : Pos)
deriving DecidableEq, Repr

end Sys2Proof
end

