-- ==== Sys2Proof/Config.lean ====
section
/-! DEFINITION. What the part fixes, and the values the manual leaves open.
The opaque constants are free values: no proof can see what they are. -/

namespace Sys2Proof.Config

/-- The design revision, less one: R164 fixes it in the part within 1 to 255 and does not say which (log 6). -/
opaque designRevisionIndex : Fin 255

/-- The design revision of the IDENTIFY reply (R164), 1 to 255. -/
def designRevision : Byte := byteOf (designRevisionIndex.val + 1)

/-- The unique id of the part (R164): 6 bytes, different in every part (log 6). -/
opaque uniqueId : Vector Byte 6

/-- The n-th free 16-bit value: what a stored item holds after a failed verify or a cut-off write
(R184, R188; log 8). -/
opaque freeWord : Nat → Word

/-- The n-th free passcode: the same for item 19 (R184, R188; log 8). -/
opaque freePasscode : Nat → Vector Byte 8

/-- Which layout a live item 0 outside its set selects: true for B (log 9). -/
opaque layoutOfBadValue : Word → Bool

/-- Which symbol, by its place among the 20 symbols and NONE, a key map byte outside the symbol table
stands for (log 9). -/
opaque symbolOfBadByte : Byte → Fin 21

/-- Records of the step pool (R1). -/
def poolSize : Nat := 48
/-- Chain limit per position (R1, R7). -/
def chainLimit : Nat := 12
/-- Places of the report queue (R136). -/
def queueLimit : Nat := 32
/-- Whole frames the receive buffer holds (R156). -/
def frameLimit : Nat := 4
/-- KEY reports the key buffer of a position holds (R66, R79). -/
def keyLimit : Nat := 8
/-- Character bytes the pass buffer holds (R28). -/
def passLimit : Nat := 110
/-- Greatest value of a statistics counter (R152). -/
def counterMax : Nat := 65535
/-- The count at which COUNTER_HIGH is raised (R153). -/
def counterHighAt : Nat := 49152
/-- Reader gap limit in ms (R30, R33). -/
def passGapMs : Nat := 50
/-- Frame gap limit in ms (R157). -/
def frameGapMs : Nat := 20
/-- Acknowledge time of a display write in ms (R80). -/
def ackMs : Nat := 200
/-- Over-time at which a port trips, in ms (R117). -/
def overMs : Nat := 10
/-- Under-time at which a port becomes ABSENT, in ms (R118). -/
def underMs : Nat := 500
/-- Greatest payload of a frame (R169). -/
def payloadLimit : Nat := 61

end Sys2Proof.Config
end

