-- ==== Sys2Proof/Machine/Types.lean ====
section
/-! DEFINITION. The data the blocks of the part hold, chapter by chapter, with the codes of R170 to R172. -/

namespace Sys2Proof.Machine

/-- A timer: stopped, or running with the full time in ms it was started with. The passing of time is not
modelled; an expiry is a command (log 3). -/
inductive Timer where
  | stopped
  | running (ms : Nat)
deriving DecidableEq, Repr

/-- The timer is running. -/
def Timer.isRunning : Timer → Bool
  | .stopped => false
  | .running _ => true

/-! ### Chapter 1: steps and chains -/

/-- Chain state (R4, R5). -/
inductive ChainState where
  | idle
  | running
  | halted
deriving DecidableEq, Repr

/-- Chain state code (R172). -/
def ChainState.code : ChainState → Byte
  | .idle => 0
  | .running => 1
  | .halted => 2

/-- Latch state of a position (R4). -/
inductive LatchState where
  | off
  | waiting
  | energized
deriving DecidableEq, Repr

/-- Latch state code (R172). -/
def LatchState.code : LatchState → Byte
  | .off => 0
  | .waiting => 1
  | .energized => 2

/-- The kinds of step (R3). -/
inductive StepKind where
  | showText
  | waitCard
  | holdCard
  | releaseCard
  | collect
  | pause
deriving DecidableEq, Repr

/-- Step kind value (R170). -/
def StepKind.code : StepKind → Byte
  | .showText => 1
  | .waitCard => 2
  | .holdCard => 3
  | .releaseCard => 4
  | .collect => 5
  | .pause => 6

/-- The port a step kind needs (R9). -/
def StepKind.port : StepKind → Option PortKind
  | .showText | .collect => some .keypad
  | .waitCard | .holdCard | .releaseCard => some .reader
  | .pause => none

/-- How a step ended (R18). -/
inductive StepOutcome where
  | done
  | customerCancel
  | timeout
  | readFailed
  | screened
  | noCard
  | aborted
  | cardWithdrawn
  | portOff
  | portFault
  | deviceAbsent
  | keypadSilent
  | clearLimit
deriving DecidableEq, Repr

/-- Outcome code (R171). -/
def StepOutcome.code : StepOutcome → Byte
  | .done => 0
  | .customerCancel => 1
  | .timeout => 2
  | .readFailed => 3
  | .screened => 4
  | .noCard => 5
  | .aborted => 6
  | .cardWithdrawn => 7
  | .portOff => 8
  | .portFault => 9
  | .deviceAbsent => 10
  | .keypadSilent => 11
  | .clearLimit => 12

/-- Beep kinds of a keypad (R82). -/
inductive Beep where
  | short
  | long
  | error
deriving DecidableEq, Repr

/-- Entry modes of a COLLECT (R8). -/
inductive EntryMode where
  | openKeys
  | amount
  | concealed
deriving DecidableEq, Repr

/-- Entry mode code (R170). -/
def EntryMode.code : EntryMode → Byte
  | .openKeys => 0
  | .amount => 1
  | .concealed => 2

/-- The parameters of a COLLECT as applied (R8); timeouts in seconds. -/
structure CollectParams where
  mode : EntryMode
  maxLen : Nat
  minLen : Nat
  decimals : Nat
  clearLimit : Nat
  firstKey : Nat
  interKey : Nat
  ceiling : Nat
deriving DecidableEq, Repr

/-- The kind of a step with its parameters as applied (R8). -/
inductive StepParams where
  | showText (beep : Option Beep) (text : List Byte)
  | waitCard (attempts timeout : Nat)
  | holdCard
  | releaseCard (waitRemoval : Bool) (timeout : Nat)
  | collect (c : CollectParams)
  | pause (duration : Nat)
deriving DecidableEq, Repr

/-- The kind of a step's parameters. -/
def StepParams.kind : StepParams → StepKind
  | .showText _ _ => .showText
  | .waitCard _ _ => .waitCard
  | .holdCard => .holdCard
  | .releaseCard _ _ => .releaseCard
  | .collect _ => .collect
  | .pause _ => .pause

/-- The hold flag of a SCREENED outcome (R63). -/
inductive HoldFlag where
  | noFlag
  | held
  | notHeld
deriving DecidableEq, Repr

/-- Hold flag code (R171). -/
def HoldFlag.code : HoldFlag → Byte
  | .noFlag => 0
  | .held => 1
  | .notHeld => 2

/-- Outcome data of a WAIT CARD (R18, R171 note 2): the text and check flags of the pass that ended it, the
parity-error count, the entry id and hold flag of a match, and the attempt count of a TIMEOUT. -/
structure CardData where
  text : List Byte := []
  flags : Word := 0
  parityErrors : Nat := 0
  entryId : Option (Fin 16) := none
  hold : HoldFlag := .noFlag
  attempts : Nat := 0
deriving DecidableEq, Repr

/-- Outcome data (R18). The digits of an entry stay in the entry buffer until its report is admitted (R105). -/
inductive OutcomeData where
  | nothing
  | noDisplay
  | entry (mode : EntryMode) (decimals : Nat)
  | card (d : CardData)
deriving DecidableEq, Repr

/-- What an ACTIVE step waits for (R11 to R16, R63). -/
inductive Work where
  /-- A SHOW waits for its write: sent already, or still pending content (R84). -/
  | display (sent : Bool)
  /-- A WAIT CARD is armed and its timeout runs (R12). -/
  | card (timeout : Timer)
  /-- A WAIT CARD waits for the latch after a HOLD match (R63). -/
  | screenHold (entryId : Fin 16) (text : List Byte) (flags : Word)
  /-- A HOLD CARD waits for the latch (R13). -/
  | latch
  /-- A RELEASE CARD waits for the card to leave (R14). -/
  | removal (timeout : Timer)
  /-- A COLLECT waits for its entry session (R15). -/
  | session
  /-- A PAUSE waits for its timer (R16). -/
  | pause (timer : Timer)
deriving DecidableEq, Repr

/-- Sub-state of a started step, with its outcome once it ended (R3). `cancelled` says that a CANCEL was taken
while the step was COMPLETING (R20, R22). -/
inductive Progress where
  | waitingPort
  | active (w : Work)
  | completing (o : StepOutcome) (d : OutcomeData) (cancelled : Bool)
deriving DecidableEq, Repr

/-- Head sub-state code (R172). -/
def Progress.code : Option Progress → Byte
  | some .waitingPort => 0
  | some (.active _) => 1
  | some (.completing _ _ _) => 2
  | none => 3

/-- A step record (R3). A record that has not started has no progress. -/
structure StepRecord where
  params : StepParams
  tag : Byte
  notify : Bool
  stopOnFailure : Bool
  progress : Option Progress := none
deriving DecidableEq, Repr

/-! ### Chapter 4: symbols and the key unit -/

/-- The meaning of a key (R69). -/
inductive Symbol where
  | digit (d : Fin 10)
  | doubleZero
  | dot
  | enter
  | clear
  | back
  | cancel
  | f1
  | f2
  | f3
  | f4
  | nothing
deriving DecidableEq, Repr

/-- Symbol code (R171). -/
def Symbol.code : Symbol → Byte
  | .digit d => byteOf d.val
  | .doubleZero => 10
  | .dot => 11
  | .enter => 12
  | .clear => 13
  | .back => 14
  | .cancel => 15
  | .f1 => 16
  | .f2 => 17
  | .f3 => 18
  | .f4 => 19
  | .nothing => 0xFF

/-- The undecided key of the hold tracker (R71). -/
structure Undecided where
  code : Fin 24
  press : Symbol
  held : Symbol
deriving DecidableEq, Repr

/-- What the part puts on a keypad line (R173). -/
inductive KeypadOut where
  | write (text : List Byte)
  | beep (b : Beep)
deriving DecidableEq, Repr

/-- The bytes of what goes out on a keypad line (R173). -/
def KeypadOut.wire : KeypadOut → List Byte
  | .write text => 0x40 :: text
  | .beep .short => [0x50]
  | .beep .long => [0x51]
  | .beep .error => [0x52]

/-- The key unit of a keypad port (R66). Its key buffer is the KEY reports among the position's waiting reports
(R78, R137; log 22). `lastOut` is the model's own record of the last thing put on the keypad line (log 20). -/
structure KeyUnit where
  display : Bool := false
  beeper : Bool := false
  undecided : Option Undecided := none
  longPress : Timer := .stopped
  outstanding : Option (List Byte) := none
  ackTimer : Timer := .stopped
  pendingContent : Option (List Byte) := none
  waitingBeep : Option Beep := none
  lastOut : Option KeypadOut := none
deriving DecidableEq, Repr

/-! ### Chapter 2: the pass unit -/

/-- Assembly state of a pass unit (R28). -/
inductive Assembly where
  | idle
  | receiving
  | discarding
deriving DecidableEq, Repr

/-- The pass unit of a reader port (R28). -/
structure PassUnit where
  state : Assembly := .idle
  buffer : List (BitVec 5) := []
  overlong : Bool := false
  gapTimer : Timer := .stopped
  armed : Bool := false
deriving DecidableEq, Repr

/-! ### Chapter 5: the entry unit -/

/-- Session state (R86). -/
inductive SessionState where
  | closed
  | collecting
  | finished
deriving DecidableEq, Repr

/-- The entry unit of a position (R86). The step's timeouts are read from the step record. -/
structure EntryUnit where
  state : SessionState := .closed
  mode : EntryMode := .openKeys
  maxLen : Nat := 12
  minLen : Nat := 1
  decimals : Nat := 0
  clearLimit : Nat := 0
  clearCount : Nat := 0
  firstKey : Timer := .stopped
  interKey : Timer := .stopped
  ceiling : Timer := .stopped
  buffer : List (Fin 10) := []
deriving DecidableEq, Repr

/-! ### Chapter 6: ports -/

/-- Port state (R109). -/
inductive PortState where
  | off
  | starting
  | ready
  | absent
  | fault
deriving DecidableEq, Repr

/-- Port state code (R172). -/
def PortState.code : PortState → Byte
  | .off => 0
  | .starting => 1
  | .ready => 2
  | .absent => 3
  | .fault => 4

/-- Readiness checks of a switched-on STARTING port (R115, R116). `inrush` says that the 5 ms allowance after the
switch-on still runs; it stands for the time since switch-on (log 19). -/
structure Readiness where
  inrush : Bool
  currentSeen : Bool
  announceSeen : Bool
deriving DecidableEq, Repr

/-- How long an ABSENT port's current has stood at or above the lower limit (R119). -/
inductive Standing where
  | below
  | counting
  | reached
deriving DecidableEq, Repr

/-- Return checks of an ABSENT port (R119). -/
structure ReturnChecks where
  standing : Standing
  announceSeen : Bool
deriving DecidableEq, Repr

/-- The record of a port (R109) and the current it draws, in mA (log 18). -/
structure PortRecord where
  state : PortState := .off
  switchedOn : Bool := false
  readiness : Option Readiness := none
  underTime : Timer := .stopped
  returnChecks : Option ReturnChecks := none
  overTime : Timer := .stopped
  current : Nat := 0
deriving DecidableEq, Repr

/-- A port of the part (00_scope convention 6). -/
structure PortId where
  pos : Pos
  kind : PortKind
deriving DecidableEq, Repr

/-! ### Chapter 8: reports, notices, counters -/

/-- What the last CARD_SEGMENT of a WAIT CARD carries beside its text (R171 note 2). -/
structure SegmentEnd where
  tag : Byte
  outcome : StepOutcome
  data : CardData
  total : Nat
deriving DecidableEq, Repr

/-- A report (R136). A STEP_DONE whose `fromEntry` is set takes its digits from the entry buffer when it is
admitted (R105, R140). -/
inductive Report where
  | stepDone (p : Pos) (tag : Byte) (kind : StepKind) (outcome : StepOutcome) (data : List Byte) (fromEntry : Bool)
  | cardSegment (p : Pos) (number : Nat) (text : List Byte) (last : Option SegmentEnd)
  | key (p : Pos) (symbol : Symbol) (held : Bool)
  | presence (p : Pos) (present : Bool) (changes : Nat)
  | notice
deriving DecidableEq, Repr

/-- A producer of reports (R138). -/
inductive Producer where
  | position (p : Pos)
  | notices
deriving DecidableEq, Repr

/-- Where the notice unit's NOTICE report stands (R137). -/
inductive NoticeReport where
  | absent
  | waiting
  | queued
deriving DecidableEq, Repr

/-- The notice classes (R144). -/
inductive NoticeClass where
  | startComplete
  | portFault
  | deviceAbsent
  | deviceBack
  | latchOverrun
  | cardLeft
  | screenMatch
  | keysDropped
  | keypadSilent
  | unsolicitedPass
  | linkError
  | counterHigh
  | storeDone
  | storeFault
  | supervisorLockout
deriving DecidableEq, Repr

/-- Class number (R144). -/
def NoticeClass.idx : NoticeClass → Fin 15
  | .startComplete => 0
  | .portFault => 1
  | .deviceAbsent => 2
  | .deviceBack => 3
  | .latchOverrun => 4
  | .cardLeft => 5
  | .screenMatch => 6
  | .keysDropped => 7
  | .keypadSilent => 8
  | .unsolicitedPass => 9
  | .linkError => 10
  | .counterHigh => 11
  | .storeDone => 12
  | .storeFault => 13
  | .supervisorLockout => 14

/-- The record of a notice class (R144). A position set is a byte, bit n naming position n (R162). -/
structure ClassRecord where
  enabled : Bool := true
  muted : Bool := false
  pending : Bool := false
  positions : Byte := 0
  historyPending : Bool := false
  historyPositions : Byte := 0
deriving DecidableEq, Repr

/-- Per-position counters (R152). -/
inductive PosCounter where
  | passesOk
  | passesFailed
  | screenMatches
  | entriesDone
  | entriesTimedOut
  | keysDropped
  | latchOverruns
  | keyLineErrors
deriving DecidableEq, Repr

/-- Place of a per-position counter in the COUNTERS reply (R172). -/
def PosCounter.idx : PosCounter → Fin 8
  | .passesOk => 0
  | .passesFailed => 1
  | .screenMatches => 2
  | .entriesDone => 3
  | .entriesTimedOut => 4
  | .keysDropped => 5
  | .latchOverruns => 6
  | .keyLineErrors => 7

/-- Device counters (R152). -/
inductive DeviceCounter where
  | framesOk
  | framesDiscarded
  | requestsRefused
  | unsolicitedPasses
deriving DecidableEq, Repr

/-- Place of a device counter in the COUNTERS reply (R172). -/
def DeviceCounter.idx : DeviceCounter → Fin 4
  | .framesOk => 0
  | .framesDiscarded => 1
  | .requestsRefused => 2
  | .unsolicitedPasses => 3

/-! ### Chapter 3: screening -/

/-- Action of a screening entry (R52). -/
inductive ScreenAction where
  | report
  | hold
deriving DecidableEq, Repr

/-- A segment of a screening entry (R52, R58). -/
structure ScreenSegment where
  skip : Nat
  take : Nat
deriving DecidableEq, Repr

/-- A screening entry (R52); its id is its place in the table. -/
structure ScreenEntry where
  action : ScreenAction
  segments : List ScreenSegment
  digest : Word
deriving DecidableEq, Repr

/-! ### Chapter 9: the link -/

/-- A frame on the workstation link, without SYNC, LEN and CHECK (R169). -/
structure Frame where
  kind : Byte
  pos : Byte
  tag : Byte
  payload : List Byte
deriving DecidableEq, Repr

/-- Receive state (R156). -/
inductive RxState where
  | hunting
  | length
  | body
deriving DecidableEq, Repr

/-- The link interface (R156). -/
structure Link where
  rx : RxState := .hunting
  partialFrame : List Byte := []
  gapTimer : Timer := .stopped
  buffer : List Frame := []
  slot : Option Frame := none
  transmitter : Option Frame := none
  startComplete : Bool := false
  restarting : Bool := false
deriving DecidableEq, Repr

/-! ### Chapter 10: settings and store -/

/-- The position items 0, 1, 2, 10 and 11 (R175). -/
structure PosItems where
  layout : Word
  idleKeys : Word
  presence : Word
  readerUpper : Word
  keypadUpper : Word
deriving DecidableEq, Repr

/-- The items held once for the part (R175): 3 to 9, 12 to 14, the 48 entries of 15, and 16 to 18. -/
structure DeviceItems where
  longPress : Word
  leftCard : Word
  attempts : Word
  stagger : Word
  accountMin : Word
  accountMax : Word
  checkDigit : Word
  latchBudget : Word
  latchCeiling : Word
  reEnergize : Word
  keyMap : Vector Word 48
  boundary : Word
  readProtect : Word
  unlockLimit : Word
deriving DecidableEq, Repr

/-- The store image (R174). `checkGood` says whether the store check matches the item values (log 7). -/
structure StoreImage where
  posItems : PosItems
  deviceItems : DeviceItems
  passcode : Vector Byte 8
  lockFlag : Bool
  checkGood : Bool
deriving DecidableEq, Repr

/-- A store write or lock in progress (R184). -/
inductive StoreJob where
  | item (item index : Nat) (value : Word)
  | passcode (digits : Vector Byte 8)
  | lockFlag
deriving DecidableEq, Repr

/-- Result of the last store write or lock since the start (R174). -/
inductive WriteResult where
  | nothing
  | done
  | fault
deriving DecidableEq, Repr

/-- Last write result code (R172). -/
def WriteResult.code : WriteResult → Byte
  | .nothing => 0
  | .done => 1
  | .fault => 2

/-- The settings block (R174). Store state is BUSY exactly while a job is in progress; `loadPending` says that the
load of a warm start waits for that job to end (R188). -/
structure Settings where
  live : DeviceItems
  passcode : Vector Byte 8
  store : StoreImage
  job : Option StoreJob := none
  writeEnable : Bool := false
  storeLocked : Bool := false
  loadGood : Bool := true
  lastWrite : WriteResult := .nothing
  unlocked : Bool := false
  failedCount : Nat := 0
  lockout : Bool := false
  loadPending : Bool := false
deriving DecidableEq, Repr

/-! ### A position -/

/-- Everything the part holds for one position: its context (R4), chain (R2), units (R28, R66, R86), ports (R109),
latch timers (R122), waiting reports (R137), counters (R152) and live position items (R175). `cardLine` is the
card-present line itself (R120; log 5). -/
structure Position where
  chainState : ChainState := .idle
  chain : List StepRecord := []
  cardPresent : Bool := false
  latchState : LatchState := .off
  cardLeftTimer : Timer := .stopped
  cardLeftRaised : Bool := false
  attemptCount : Nat := 0
  attemptLimit : Nat := 3
  pass : PassUnit := {}
  key : KeyUnit := {}
  entry : EntryUnit := {}
  reader : PortRecord := {}
  keypad : PortRecord := {}
  ceilingTimer : Timer := .stopped
  reEnergizeTimer : Timer := .stopped
  waiting : List Report := []
  counters : Vector Nat 8 := #v[0, 0, 0, 0, 0, 0, 0, 0]
  items : PosItems
  cardLine : Bool := false
deriving DecidableEq, Repr

/-! ### Factory section (R174, R175) -/

/-- A factory key map entry: press symbol byte first, held symbol byte second (R172). -/
def keyEntry (press held : Byte) : Word := wordOf press held

/-- One layout of the factory map (R69); layouts differ in codes 12 and 15. -/
def factoryLayout (code12 code15 : Byte) : List Word :=
  ([0, 1, 2, 3, 4, 5, 6, 7, 8, 9, 10, 11, code12].map (keyEntry · 0xFF)) ++ [keyEntry 13 15, keyEntry 14 0xFF] ++
    ([code15, 16, 17, 18, 19, 0xFF, 0xFF, 0xFF, 0xFF].map (keyEntry · 0xFF))

/-- The factory map of R69, layout A then layout B. -/
def factoryKeyMap : Vector Word 48 := ⟨(factoryLayout 12 15 ++ factoryLayout 15 12).toArray, rfl⟩

/-- Factory defaults of the position items (R175). -/
def factoryPosItems : PosItems :=
  { layout := 0, idleKeys := 0, presence := 1, readerUpper := 300, keypadUpper := 150 }

/-- Factory defaults of the other items (R175). -/
def factoryDeviceItems : DeviceItems :=
  { longPress := 1200, leftCard := 60, attempts := 3, stagger := 20, accountMin := 12, accountMax := 19,
    checkDigit := 1, latchBudget := 4, latchCeiling := 120, reEnergize := 1000, keyMap := factoryKeyMap,
    boundary := 7, readProtect := 0, unlockLimit := 3 }

/-- Factory passcode 00000000 (R175). -/
def factoryPasscode : Vector Byte 8 := #v[0x30, 0x30, 0x30, 0x30, 0x30, 0x30, 0x30, 0x30]

/-- A store holding the factory values, check good, lock flag clear. -/
def factoryStore : StoreImage :=
  { posItems := factoryPosItems, deviceItems := factoryDeviceItems, passcode := factoryPasscode,
    lockFlag := false, checkGood := true }

end Sys2Proof.Machine
end

