-- ==== Sys2Proof/Machine/State.lean ====
section
/-! DEFINITION. The state of the part, the reasons a step can stop, and the state after reset. -/

namespace Sys2Proof.Machine

/-- Why a command faults. -/
inductive Fault where
  /-- Raised by every reader, keypad, card-line, port and latch event at a position the part does not have (the
  CX4 has positions 0 to 3). Safe: no such event can reach a CX4 (log 17). -/
  | noSuchPosition
deriving DecidableEq, Repr

/-- Why a command is refused. -/
inductive Refusal where
  /-- Raised by exec for a command without a meaning. No command is in that case. Safe. -/
  | notModelled (mnemonic : String)
deriving DecidableEq, Repr

/-- The part (00_scope "Block overview"; INVENTORY.md "State"). -/
structure State where
  variant : Variant
  positions : Vector Position 8
  freeRecords : Nat
  powerList : List PortId
  lastSwitchOn : Option Nat
  energized : List Pos
  latchWait : List Pos
  queue : List Report
  waitOrder : List Producer
  noticeReport : NoticeReport
  notices : Vector ClassRecord 15
  deviceCounters : Vector Nat 4
  screening : Vector (Option ScreenEntry) 16
  link : Link
  settings : Settings
  freeCount : Nat
  pending : List Instr
deriving DecidableEq, Repr

/-- A position as a start leaves it, with its live items loaded; the card-present line is a pin that a start
does not move. -/
def startedPosition (items : PosItems) (cardLine : Bool) : Position := { items := items, cardLine := cardLine }

/-- Class records after a start (R144). -/
def startedNotices : Vector ClassRecord 15 := Vector.replicate 15 {}

/-- Screening table after a start (R52). -/
def startedScreening : Vector (Option ScreenEntry) 16 := Vector.replicate 16 none

/-- The state right after a cold start of a part whose store holds the factory values: every block at its "after
start" values, the settings loaded, the start not yet complete (R4, R27, R28, R52, R66, R86, R109, R122, R136,
R144, R152, R156, R174, R187). DESIGN CHOICE: the store's contents, the variant given and the card lines low
(log 5). -/
def State.resetOf (v : Variant) : State :=
  { variant := v
    positions := Vector.replicate 8 (startedPosition factoryPosItems false)
    freeRecords := Config.poolSize
    powerList := []
    lastSwitchOn := none
    energized := []
    latchWait := []
    queue := []
    waitOrder := []
    noticeReport := .absent
    notices := startedNotices
    deviceCounters := #v[0, 0, 0, 0]
    screening := startedScreening
    link := {}
    settings := { live := factoryDeviceItems, passcode := factoryPasscode, store := factoryStore }
    freeCount := 0
    pending := [] }

/-- The state after reset: a CX8 (log 5). -/
def State.reset : State := State.resetOf .cx8

end Sys2Proof.Machine
end

