-- ==== Sys2Proof/Machine/Ops.lean ====
section
/-! DEFINITION. Named operations over the state: reading and writing a position, its ports and its head step,
counting, raising a notice, and offering reports. -/

namespace Sys2Proof.Machine

/-! ### Access -/

/-- The record of position `p`. -/
def State.pos (s : State) (p : Pos) : Position := s.positions[p]

/-- Write the record of position `p`. -/
def State.setPos (s : State) (p : Pos) (v : Position) : State := { s with positions := s.positions.set p v }

/-- Change the record of position `p`. -/
def State.modPos (s : State) (p : Pos) (f : Position → Position) : State := s.setPos p (f (s.pos p))

/-- A port of a position. -/
def Position.port (v : Position) : PortKind → PortRecord
  | .reader => v.reader
  | .keypad => v.keypad

/-- Write a port of a position. -/
def Position.setPort (v : Position) (k : PortKind) (r : PortRecord) : Position :=
  match k with
  | .reader => { v with reader := r }
  | .keypad => { v with keypad := r }

/-- The record of a port. -/
def State.port (s : State) (p : Pos) (k : PortKind) : PortRecord := (s.pos p).port k

/-- Change the record of a port. -/
def State.modPort (s : State) (p : Pos) (k : PortKind) (f : PortRecord → PortRecord) : State :=
  s.modPos p fun v => v.setPort k (f (v.port k))

/-- Every position number, in ascending order. -/
def allPos : List Pos := [0, 1, 2, 3, 4, 5, 6, 7]

/-- The positions the part has, in ascending order. -/
def State.partPos (s : State) : List Pos := allPos.filter fun p => p.val < s.variant.positions

/-- The bit of a position in a position set (R162). -/
def posBit (p : Pos) : Byte := 1 <<< p.val

/-- The head step's progress, if it has started. -/
def Position.headProgress (v : Position) : Option Progress :=
  match v.chain with
  | [] => none
  | r :: _ => r.progress

/-- A step is in flight at the position (00_scope "In flight"). -/
def Position.inFlight (v : Position) : Bool := v.headProgress.isSome

/-- What the ACTIVE head step waits for. -/
def Position.work (v : Position) : Option Work :=
  match v.headProgress with
  | some (.active w) => some w
  | _ => none

/-- Set the progress of the head step. -/
def Position.setProgress (v : Position) (g : Progress) : Position :=
  match v.chain with
  | [] => v
  | r :: rest => { v with chain := { r with progress := some g } :: rest }

/-- Set the progress of the head step of a position. -/
def State.setProgress (s : State) (p : Pos) (g : Progress) : State := s.modPos p (·.setProgress g)

/-! ### The report unit: offering (R138) -/

/-- A producer joins the tail of the admission wait order unless it is there already. -/
def joinOrder (o : List Producer) (x : Producer) : List Producer := if x ∈ o then o else o ++ [x]

/-- Reports produced at a position join the tail of its waiting reports, and the position the admission wait
order. While the queue has room they are admitted before the event ends (Machine/Settle.lean; R138; log 2). -/
def offer (p : Pos) (rs : List Report) (s : State) : State :=
  let s := s.modPos p fun v => { v with waiting := v.waiting ++ rs }
  { s with waitOrder := joinOrder s.waitOrder (.position p) }

/-! ### The notice unit (R145, R146) -/

/-- The notice unit asks for a NOTICE report, provided it holds none (R146). -/
def askNotice (s : State) : State :=
  if s.noticeReport = .absent then
    { s with noticeReport := .waiting, waitOrder := joinOrder s.waitOrder .notices }
  else s

/-- The record of a notice class. -/
def State.notice (s : State) (c : NoticeClass) : ClassRecord := s.notices[c.idx]

/-- The position set of a raising: the position given joins the set (R145). -/
def raisedSet (r : ClassRecord) (p : Option Pos) : Byte :=
  match p with
  | none => r.positions
  | some q => r.positions ||| posBit q

/-- A block raises a class, with or without a position (R145, R146). -/
def raise (c : NoticeClass) (p : Option Pos) (s : State) : State :=
  let r := s.notice c
  if r.enabled then
    let t := { s with notices := s.notices.set c.idx { r with pending := true, positions := raisedSet r p } }
    if (!r.pending || raisedSet r p != r.positions) && !r.muted then askNotice t else t
  else s

/-! ### The statistics unit (R152, R153) -/

/-- A count of one, saturating (R152). -/
def countUp (n : Nat) : Nat := if n < Config.counterMax then n + 1 else n

/-- A count of one takes the counter to the warning mark (R153). -/
def crossesHigh (n : Nat) : Bool := countUp n == Config.counterHighAt && n != Config.counterHighAt

/-- A per-position counter counts one (R152, R153). -/
def countPos (c : PosCounter) (p : Pos) (s : State) : State :=
  let n := (s.pos p).counters[c.idx]
  let t := s.modPos p fun v => { v with counters := v.counters.set c.idx (countUp n) }
  if crossesHigh n then raise .counterHigh (some p) t else t

/-- A device counter counts one (R152, R153). -/
def countDevice (c : DeviceCounter) (s : State) : State :=
  let n := s.deviceCounters[c.idx]
  let t := { s with deviceCounters := s.deviceCounters.set c.idx (countUp n) }
  if crossesHigh n then raise .counterHigh none t else t

/-! ### PRESENCE reports (R141) -/

/-- A waiting PRESENCE report takes the new value and counts the change; other reports stay. -/
def mergePresence (present : Bool) : Report → Report
  | .presence p _ n => .presence p present (min 255 (n + 1))
  | r => r

/-- A PRESENCE report. -/
def Report.isPresence : Report → Bool
  | .presence _ _ _ => true
  | _ => false

/-- A card-present change of R141: merged into a waiting PRESENCE report, or a new one if item 2 is 1. -/
def presenceChange (p : Pos) (present : Bool) (s : State) : State :=
  let v := s.pos p
  if v.waiting.any Report.isPresence then
    s.modPos p fun v => { v with waiting := v.waiting.map (mergePresence present) }
  else if v.items.presence = 1 then offer p [.presence p present 1] s
  else s

/-- The card-left timer starts, with item 4, when a card is present and no step is in flight (R26). -/
def startCardLeft (p : Pos) (s : State) : State :=
  let v := s.pos p
  if v.cardPresent && !v.inFlight then
    s.modPos p fun v => { v with cardLeftTimer := .running (s.settings.live.leftCard.toNat * 1000) }
  else s

/-! ### Where an event lands -/

/-- An event on a line of position `p`: it faults where the part has no such position (log 17). -/
def atPosition (p : Pos) (s : State) (f : State → State) : Host.Outcome State Fault Refusal :=
  if p.val < s.variant.positions then .next (f s) else .fault .noSuchPosition

end Sys2Proof.Machine
end

