-- ==== Sys2Proof/Machine/Operands.lean ====
section
/-! DEFINITION. Every operand form: frames and line bytes (R169, R173), the catalogue of requests and their
addressing (R161 to R163), step records (R170, R8), items (R175), and the layouts of reports (R171). -/

namespace Sys2Proof.Machine

/-! ### Frames (R169) -/

/-- The SYNC byte. -/
def syncByte : Byte := 0xA5

/-- The bytes from KIND to the last payload byte. -/
def Frame.body (f : Frame) : List Byte := f.kind :: f.pos :: f.tag :: f.payload

/-- The bytes from LEN to the last payload byte. -/
def Frame.summed (f : Frame) : List Byte := byteOf f.body.length :: f.body

/-- A frame as it goes over the link: SYNC, LEN, KIND, POS, TAG, payload and CHECK (R169). -/
def Frame.wire (f : Frame) : List Byte := syncByte :: (f.summed ++ [0 - sum8 f.summed])

/-- The frame whose bytes from LEN to CHECK are given (R157, R169). -/
def frameOf (bytes : List Byte) : Frame :=
  match bytes.dropLast with
  | _ :: kind :: pos :: tag :: payload => { kind := kind, pos := pos, tag := tag, payload := payload }
  | _ => { kind := 0, pos := 0, tag := 0, payload := [] }

/-! ### Line bytes (R173) -/

/-- The classes of byte on a reader line (section 2.2). -/
inductive ReaderByte where
  | character (c : BitVec 5)
  | passEnd
  | faultByte
deriving DecidableEq, Repr

/-- The class of a reader byte (R173). -/
def readerClass (b : Byte) : ReaderByte :=
  if b.toNat < 0x20 then .character (b.setWidth 5)
  else if b = 0x40 then .passEnd
  else .faultByte

/-- The classes of byte on a keypad line (section 4.2). -/
inductive KeypadByte where
  | press (code : Fin 24)
  | release (code : Fin 24)
  | announce (display beeper : Bool)
  | acknowledge
  | other
deriving DecidableEq, Repr

/-- The class of a keypad byte (R173). -/
def keypadClass (b : Byte) : KeypadByte :=
  if h : b.toNat < 24 then .press ⟨b.toNat, h⟩
  else if h : 0x20 ≤ b.toNat ∧ b.toNat - 0x20 < 24 then .release ⟨b.toNat - 0x20, h.2⟩
  else if 0x60 ≤ b.toNat && b.toNat ≤ 0x63 then .announce (b.getLsbD 0) (b.getLsbD 1)
  else if b = 0x70 then .acknowledge
  else .other

/-! ### The request catalogue and addressing (R161, R163) -/

/-- The request kinds (R163). -/
inductive RequestKind where
  | identify
  | post
  | cancel
  | resume
  | query
  | power
  | set
  | get
  | noticeRead
  | noticeClear
  | noticeControl
  | counters
  | screenLoad
  | screenDrop
  | screenList
  | unlock
  | lock
  | storeEnable
  | storeWrite
  | storeRead
  | storeLock
  | storeStatus
  | restart
deriving DecidableEq, Repr

/-- KIND code of a request (R163). -/
def RequestKind.code : RequestKind → Byte
  | .identify => 0x01
  | .post => 0x02
  | .cancel => 0x03
  | .resume => 0x04
  | .query => 0x05
  | .power => 0x06
  | .set => 0x07
  | .get => 0x08
  | .noticeRead => 0x09
  | .noticeClear => 0x0A
  | .noticeControl => 0x0B
  | .counters => 0x0C
  | .screenLoad => 0x0D
  | .screenDrop => 0x0E
  | .screenList => 0x0F
  | .unlock => 0x10
  | .lock => 0x11
  | .storeEnable => 0x12
  | .storeWrite => 0x13
  | .storeRead => 0x14
  | .storeLock => 0x15
  | .storeStatus => 0x16
  | .restart => 0x17

/-- The catalogue in the order of its KIND codes (R163). -/
def allRequests : List RequestKind :=
  [.identify, .post, .cancel, .resume, .query, .power, .set, .get, .noticeRead, .noticeClear, .noticeControl,
    .counters, .screenLoad, .screenDrop, .screenList, .unlock, .lock, .storeEnable, .storeWrite, .storeRead,
    .storeLock, .storeStatus, .restart]

/-- The request kind a KIND byte names (R160, R163). -/
def requestKind (k : Byte) : Option RequestKind := allRequests.find? fun r => r.code == k

/-- Scopes of the request kinds (R161). -/
inductive Scope where
  | position
  | device
  | either
deriving DecidableEq, Repr

/-- Scope of a request kind (R163). -/
def RequestKind.scope : RequestKind → Scope
  | .post | .cancel | .resume | .query => .position
  | .set | .get | .counters => .either
  | _ => .device

/-- The position a POS byte of 0 to 7 names: the CX4 decodes its two low bits (R161). -/
def positionOf (v : Variant) (b : Byte) : Pos :=
  match v with
  | .cx8 => ⟨b.toNat % 8, Nat.mod_lt _ (by decide)⟩
  | .cx4 => ⟨b.toNat % 4, Nat.lt_of_lt_of_le (Nat.mod_lt _ (by decide)) (by decide)⟩

/-- What a POS byte addresses (R161). -/
inductive Target where
  | device
  | position (p : Pos)
  | bad
deriving DecidableEq, Repr

/-- A POS byte read by a scope (R161). -/
def target (v : Variant) (sc : Scope) (b : Byte) : Target :=
  if b.toNat < 8 then (if sc = .device then .bad else .position (positionOf v b))
  else if b = 0xFF then (if sc = .position then .bad else .device)
  else .bad

/-- A position is named by a position set byte: on the CX4 bits n and n + 4 both name position n (R162). -/
def setNames (v : Variant) (mask : Byte) (p : Pos) : Bool :=
  match v with
  | .cx8 => mask.getLsbD p.val
  | .cx4 => p.val < 4 && (mask.getLsbD p.val || mask.getLsbD (p.val + 4))

/-- The port kinds a POWER port kind byte names, keypad first (R111, R112, R169). -/
def powerKinds (b : Byte) : Option (List PortKind) :=
  if b = 0 then some [.reader]
  else if b = 1 then some [.keypad]
  else if b = 2 then some [.keypad, .reader]
  else none

/-- The ports a POWER names, in ascending position and the keypad port before the reader port (R111, R112). -/
def powerPorts (v : Variant) (mask : Byte) (kinds : List PortKind) : List PortId :=
  (allPos.filter (setNames v mask)).flatMap fun p => kinds.map fun k => { pos := p, kind := k }

/-- Result codes (R160). -/
inductive ResultCode where
  | ok
  | badKind
  | badPos
  | badArg
  | noRoom
  | state
  | denied
  | locked
  | busy
deriving DecidableEq, Repr

/-- Value of a result code (R160). -/
def ResultCode.code : ResultCode → Byte
  | .ok => 0
  | .badKind => 1
  | .badPos => 2
  | .badArg => 3
  | .noRoom => 4
  | .state => 5
  | .denied => 6
  | .locked => 7
  | .busy => 8

/-! ### Step records of a POST (R6, R8, R170) -/

/-- A numeric parameter as applied, and whether it was clamped (R8). -/
def applied (lo hi n : Nat) : Nat × Bool := (clampNat lo hi n, clampNat lo hi n != n)

/-- A SHOW beep parameter: none within the set, or not in it (R6, R170). -/
def beepOf (b : Byte) : Option (Option Beep) :=
  if b = 0 then some none
  else if b = 1 then some (some .short)
  else if b = 2 then some (some .long)
  else if b = 3 then some (some .error)
  else none

/-- A COLLECT mode parameter (R6, R170). -/
def modeOf (b : Byte) : Option EntryMode :=
  if b = 0 then some .openKeys
  else if b = 1 then some .amount
  else if b = 2 then some .concealed
  else none

/-- A SHOW text byte (R6). -/
def isTextByte (b : Byte) : Bool := 0x20 ≤ b.toNat && b.toNat ≤ 0x7E

/-- Text padded on the right with spaces to the 16 characters of the display (R8). -/
def padRight (text : List Byte) : List Byte := text ++ List.replicate (16 - text.length) 0x20

/-- A 2-byte number, least significant byte first. -/
def num2 (lo hi : Byte) : Nat := lo.toNat + 256 * hi.toNat

/-- COLLECT parameters: the max length by the mode's range, then the min length into 1 to that result (R8). -/
def collectParams (mode : EntryMode) (mx mn dec lim first inter : Nat) (ceil : Nat) : CollectParams × Bool :=
  let mx' := applied (if mode = .concealed then 4 else 1) 12 mx
  let mn' := applied 1 mx'.1 mn
  let dec' := applied 0 3 dec
  let lim' := applied 0 7 lim
  let first' := applied 1 120 first
  let inter' := applied 1 60 inter
  let ceil' := applied 5 300 ceil
  ({ mode := mode, maxLen := mx'.1, minLen := mn'.1, decimals := dec'.1, clearLimit := lim'.1, firstKey := first'.1,
     interKey := inter'.1, ceiling := ceil'.1 },
   mx'.2 || mn'.2 || dec'.2 || lim'.2 || first'.2 || inter'.2 || ceil'.2)

/-- The parameters of a step record from its kind value and parameter bytes, with whether one was clamped; none
where the record is refused BADARG (R6, R8, R170). -/
def stepParams (kind : Byte) (ps : List Byte) : Option (StepParams × Bool) :=
  if kind = 1 then
    match ps with
    | beep :: text =>
      match beepOf beep with
      | some bp => if text.length ≤ 16 && text.all isTextByte then some (.showText bp (padRight text), false) else none
      | none => none
    | [] => none
  else if kind = 2 then
    match ps with
    | [a, lo, hi] =>
      let a' := applied 0 4 a.toNat
      let t' := applied 5 300 (num2 lo hi)
      some (.waitCard a'.1 t'.1, a'.2 || t'.2)
    | _ => none
  else if kind = 3 then
    match ps with
    | [] => some (.holdCard, false)
    | _ => none
  else if kind = 4 then
    match ps with
    | [w, lo, hi] =>
      let t' := applied 5 300 (num2 lo hi)
      if w = 0 then some (.releaseCard false t'.1, t'.2)
      else if w = 1 then some (.releaseCard true t'.1, t'.2)
      else none
    | _ => none
  else if kind = 5 then
    match ps with
    | [m, mx, mn, dec, lim, first, inter, lo, hi] =>
      match modeOf m with
      | some mode =>
        let c := collectParams mode mx.toNat mn.toNat dec.toNat lim.toNat first.toNat inter.toNat (num2 lo hi)
        some (.collect c.1, c.2)
      | none => none
    | _ => none
  else if kind = 6 then
    match ps with
    | [lo, hi] =>
      let d' := applied 1 6000 (num2 lo hi)
      some (.pause d'.1, d'.2)
    | _ => none
  else none

/-- The step records of a POST payload with their clamped marks, or none where the POST is refused BADARG (R6,
R170). The first argument bounds the recursion: the payload length is enough. -/
def stepRecords : Nat → List Byte → Option (List (StepRecord × Bool))
  | _, [] => some []
  | 0, _ :: _ => none
  | fuel + 1, kind :: flags :: tag :: len :: rest =>
    if 17 < len.toNat || rest.length < len.toNat || 3 < flags.toNat then none
    else
      match stepParams kind (rest.take len.toNat), stepRecords fuel (rest.drop len.toNat) with
      | some (ps, clamped), some more =>
        some (({ params := ps, tag := tag, notify := flags.getLsbD 0, stopOnFailure := flags.getLsbD 1 }, clamped) :: more)
      | _, _ => none
  | _ + 1, _ => none

/-- The payload of a POST: one or more whole records (R6). -/
def postRecords (payload : List Byte) : Option (List (StepRecord × Bool)) :=
  match payload with
  | [] => none
  | _ => stepRecords payload.length payload

/-- A set of numbered things as 16 bits: bit n set where the n-th is marked (R169, R172). -/
def markBits : List Bool → Nat
  | [] => 0
  | b :: bs => (if b then 1 else 0) + 2 * markBits bs

/-! ### Items (R175) -/

/-- Scope of an item (R175). -/
inductive ItemScope where
  | position
  | device
  | storeOnly
deriving DecidableEq, Repr

/-- Scope of an item number, 0 to 19 (R175). -/
def itemScope (n : Nat) : ItemScope :=
  if n ∈ [0, 1, 2, 10, 11] then .position
  else if 16 ≤ n then .storeOnly
  else .device

/-- The range of a numeric item (R175; items 10 and 11: the factory windows of R110). -/
def itemRange (n : Nat) : Option (Nat × Nat) :=
  match n with
  | 3 => some (500, 3000)
  | 4 => some (10, 300)
  | 5 => some (1, 4)
  | 6 => some (5, 50)
  | 7 => some (12, 19)
  | 8 => some (12, 19)
  | 10 => some (100, 400)
  | 11 => some (50, 200)
  | 12 => some (1, 8)
  | 13 => some (1, 600)
  | 14 => some (100, 5000)
  | 16 => some (0, 16)
  | 18 => some (0, 7)
  | _ => none

/-- A symbol byte of the table of R171. -/
def isSymbolByte (b : Byte) : Bool := b.toNat ≤ 19 || b = 0xFF

/-- The value lies in the item's set, where the item has one (R175 notes 1 and 2). -/
def inItemSet (n : Nat) (w : Word) : Bool :=
  if n ∈ [0, 1, 2, 9, 17] then w.toNat ≤ 1
  else if n = 15 then isSymbolByte (loByte w) && isSymbolByte (hiByte w)
  else true

/-- A value clamped into the range of a numeric item (R176, R182, R187). -/
def clampItem (n : Nat) (w : Word) : Word :=
  match itemRange n with
  | some (lo, hi) => wordOfNat (clampNat lo hi w.toNat)
  | none => w

/-- The index suits the item: 0, or 0 to 47 for item 15 (R175 note 2). -/
def indexOk (n index : Nat) : Bool := if n = 15 then index ≤ 47 else index = 0

/-- A position item. -/
def PosItems.read (t : PosItems) (n : Nat) : Word :=
  match n with
  | 0 => t.layout
  | 1 => t.idleKeys
  | 2 => t.presence
  | 10 => t.readerUpper
  | 11 => t.keypadUpper
  | _ => 0

/-- Write a position item. -/
def PosItems.write (t : PosItems) (n : Nat) (w : Word) : PosItems :=
  match n with
  | 0 => { t with layout := w }
  | 1 => { t with idleKeys := w }
  | 2 => { t with presence := w }
  | 10 => { t with readerUpper := w }
  | 11 => { t with keypadUpper := w }
  | _ => t

/-- A key map entry. -/
def keyMapRead (m : Vector Word 48) (index : Nat) : Word := if h : index < 48 then m[index] else 0

/-- An item held once for the part. -/
def DeviceItems.read (t : DeviceItems) (n index : Nat) : Word :=
  match n with
  | 3 => t.longPress
  | 4 => t.leftCard
  | 5 => t.attempts
  | 6 => t.stagger
  | 7 => t.accountMin
  | 8 => t.accountMax
  | 9 => t.checkDigit
  | 12 => t.latchBudget
  | 13 => t.latchCeiling
  | 14 => t.reEnergize
  | 15 => keyMapRead t.keyMap index
  | 16 => t.boundary
  | 17 => t.readProtect
  | 18 => t.unlockLimit
  | _ => 0

/-- Write an item held once for the part. -/
def DeviceItems.write (t : DeviceItems) (n index : Nat) (w : Word) : DeviceItems :=
  match n with
  | 3 => { t with longPress := w }
  | 4 => { t with leftCard := w }
  | 5 => { t with attempts := w }
  | 6 => { t with stagger := w }
  | 7 => { t with accountMin := w }
  | 8 => { t with accountMax := w }
  | 9 => { t with checkDigit := w }
  | 12 => { t with latchBudget := w }
  | 13 => { t with latchCeiling := w }
  | 14 => { t with reEnergize := w }
  | 15 => { t with keyMap := t.keyMap.setIfInBounds index w }
  | 16 => { t with boundary := w }
  | 17 => { t with readProtect := w }
  | 18 => { t with unlockLimit := w }
  | _ => t

/-- The stored value of an item 0 to 18. -/
def StoreImage.read (t : StoreImage) (n index : Nat) : Word :=
  if itemScope n = .position then t.posItems.read n else t.deviceItems.read n index

/-- Write the stored value of an item 0 to 18. -/
def StoreImage.write (t : StoreImage) (n index : Nat) (w : Word) : StoreImage :=
  if itemScope n = .position then { t with posItems := t.posItems.write n w }
  else { t with deviceItems := t.deviceItems.write n index w }

/-- The symbols in the order of their codes, NONE last (R171). -/
def symbolTable : List Symbol :=
  [.digit 0, .digit 1, .digit 2, .digit 3, .digit 4, .digit 5, .digit 6, .digit 7, .digit 8, .digit 9, .doubleZero,
    .dot, .enter, .clear, .back, .cancel, .f1, .f2, .f3, .f4, .nothing]

/-- The symbol a key map byte stands for (R171); for a byte outside the table, which only a store write that
failed its verify can leave in the map, a free value (log 9). -/
def symbolOf (b : Byte) : Symbol :=
  if b.toNat ≤ 19 then symbolTable.getD b.toNat .nothing
  else if b = 0xFF then .nothing
  else symbolTable.getD (Config.symbolOfBadByte b).val .nothing

/-- Live item 0 selects layout B (R69, R175); for a value outside its set, a free value (log 9). -/
def layoutIsB (w : Word) : Bool :=
  if w = 0 then false else if w = 1 then true else Config.layoutOfBadValue w

/-- The key map entry of a layout and scan code: index layout × 24 + scan code (R169, R175). -/
def keyIndex (layoutB : Bool) (code : Fin 24) : Nat := (if layoutB then 24 else 0) + code.val

/-! ### Report layouts (R171) -/

/-- A digit as a character. -/
def digitChar (d : Fin 10) : Byte := byteOf (0x30 + d.val)

/-- The payload of a CARD_SEGMENT (R171 and its notes 2 and 4). -/
def segmentPayload (number : Nat) (text : List Byte) (last : Option SegmentEnd) : List Byte :=
  match last with
  | none => byteOf number :: [0, 0, 0, 0, 0, 0xFF, 0, 0, 0] ++ byteOf text.length :: text
  | some e =>
    let o := e.outcome
    let d := e.data
    let withFlags := o = .done || o = .screened || o = .readFailed
    let flags := if withFlags then d.flags else 0
    let parity := if o = .readFailed then d.parityErrors else 0
    let entry := match d.entryId with | some i => if o = .screened then byteOf i.val else 0xFF | none => 0xFF
    let hold := if o = .screened then d.hold.code else 0
    let attempts := if o = .timeout then d.attempts else 0
    byteOf (number + 0x80) :: e.tag :: o.code :: (wordBytes flags ++
      [byteOf parity, entry, hold, byteOf attempts, byteOf e.total, byteOf text.length] ++ text)

/-- The frame of a report; a NOTICE report is filled with the payload given (R147, R169, R171). -/
def Report.frame (noticePayload : List Byte) : Report → Frame
  | .stepDone p tag kind o data _ =>
    { kind := 0x40, pos := byteOf p.val, tag := 0, payload := tag :: kind.code :: o.code :: byteOf data.length :: data }
  | .cardSegment p number text last =>
    { kind := 0x41, pos := byteOf p.val, tag := 0, payload := segmentPayload number text last }
  | .key p sym held => { kind := 0x42, pos := byteOf p.val, tag := 0, payload := [sym.code, flagByte held] }
  | .presence p present n =>
    { kind := 0x43, pos := byteOf p.val, tag := 0, payload := [flagByte present, byteOf n] }
  | .notice => { kind := 0x44, pos := 0xFF, tag := 0, payload := noticePayload }

end Sys2Proof.Machine
end

