-- ==== Sys2Proof/Machine/Steps.lean ====
section
/-! DEFINITION. The position sequencer's endings (R17 to R20): stopping a step's kind work, its completion
reports, and the freeing of its record; with the display writer (R80), beeps (R82) and the echo (R100 to R102). -/

namespace Sys2Proof.Machine

/-! ### Display writer and beeps -/

/-- A display write goes out: it is the write outstanding, with a fresh acknowledge timer (R80). -/
def sendWrite (text : List Byte) (u : KeyUnit) : KeyUnit :=
  { u with outstanding := some text, ackTimer := .running Config.ackMs, lastOut := some (.write text) }

/-- The display writer takes content (R80). -/
def takeContent (text : List Byte) (u : KeyUnit) : KeyUnit :=
  match u.outstanding with
  | none => sendWrite text u
  | some _ => { u with pendingContent := some text }

/-- Content of 16 characters is handed to the display writer of a position (R80). -/
def handContent (p : Pos) (text : List Byte) (s : State) : State :=
  s.modPos p fun v =>
    if v.keypad.state = .ready && v.key.display then { v with key := takeContent text v.key } else v

/-- A beep is asked of the key unit of a position (R82). Every beep, on a free line too, waits for BEEP_SENT: whether the
line is busy is no state of the model (DESIGN CHOICE, log 31). -/
def askBeep (p : Pos) (b : Beep) (s : State) : State :=
  s.modPos p fun v =>
    if v.keypad.state = .ready && v.key.beeper then { v with key := { v.key with waitingBeep := some b } } else v

/-! ### Echo (R100 to R102) -/

/-- The echo of a CONCEALED session: one star for each digit (R101). -/
def concealedEcho (buffer : List (Fin 10)) : List Byte := padRight (List.replicate buffer.length 0x2A)

/-- The amount of R102: padded with zeros to decimals + 1 digits, a point before the last `d` digits. -/
def amountText (d : Nat) (buffer : List (Fin 10)) : List Byte :=
  let s := buffer.map digitChar
  if d = 0 then (if s.isEmpty then [0x30] else s)
  else
    let t := List.replicate (d + 1 - s.length) 0x30 ++ s
    t.take (t.length - d) ++ 0x2E :: t.drop (t.length - d)

/-- Text set to the right edge of the 16 characters (R102). -/
def padLeft (text : List Byte) : List Byte := List.replicate (16 - text.length) 0x20 ++ text

/-- The echo of a session as its buffer stands; none in OPEN mode (R100 to R102). -/
def echoText (e : EntryUnit) : Option (List Byte) :=
  match e.mode with
  | .openKeys => none
  | .amount => some (padLeft (amountText e.decimals e.buffer))
  | .concealed => some (concealedEcho e.buffer)

/-- The session of a position hands its echo to the display writer (R100). -/
def handEcho (p : Pos) (s : State) : State :=
  match echoText (s.pos p).entry with
  | none => s
  | some text => handContent p text s

/-! ### Stopping kind work -/

/-- The pass unit when its reader is disarmed: a pass being received is dropped (R35, R46). -/
def PassUnit.disarm (u : PassUnit) : PassUnit :=
  if u.armed && u.state = .receiving then
    { u with armed := false, state := .discarding, buffer := [], overlong := false, gapTimer := .running Config.passGapMs }
  else { u with armed := false }

/-- The entry unit with its timers stopped, its buffer wiped and its session closed (R104, R106, R107). -/
def EntryUnit.close (e : EntryUnit) : EntryUnit :=
  { e with state := .closed, firstKey := .stopped, interKey := .stopped, ceiling := .stopped, buffer := [] }

/-- A session still collecting is closed when its COLLECT ends (R15, R107). -/
def EntryUnit.closeCollecting (e : EntryUnit) : EntryUnit := if e.state = .collecting then e.close else e

/-- A finished session is wiped at the freeing of its COLLECT's record (R106). -/
def EntryUnit.wipeFinished (e : EntryUnit) : EntryUnit := if e.state = .finished then e.close else e

/-- The kind work of a position's head step stops: the reader is disarmed, a collecting session is closed, a latch
request leaves the wait list (R17, R23, R46, R107, R129). Timers of the step end with its ACTIVE sub-state. -/
def stopWork (p : Pos) (s : State) : State :=
  let s := { s with latchWait := s.latchWait.filter (· ≠ p) }
  s.modPos p fun v =>
    { v with
      pass := v.pass.disarm
      entry := v.entry.closeCollecting
      latchState := if v.latchState = .waiting then .off else v.latchState }

/-! ### Completion reports (R18, R19) -/

/-- An outcome other than DONE (R18). -/
def StepOutcome.isFailure (o : StepOutcome) : Bool := o != .done

/-- A report is due at the end of a step (R18). -/
def StepRecord.reportDue (r : StepRecord) (o : StepOutcome) : Bool :=
  r.notify || o.isFailure || r.params.kind = .waitCard

/-- Text cut into segments of up to 48 characters, at least one; the first argument bounds how many more may
follow (R19). -/
def cutText : Nat → List Byte → List (List Byte)
  | 0, t => [t]
  | n + 1, t => if t.length ≤ 48 then [t] else t.take 48 :: cutText n (t.drop 48)

/-- The segments numbered from `n`, the last one carrying the step's values (R19, R171 note 2). -/
def numberSegments (p : Pos) (e : SegmentEnd) : Nat → List (List Byte) → List Report
  | _, [] => []
  | n, [t] => [.cardSegment p n t (some e)]
  | n, t :: ts => .cardSegment p n t none :: numberSegments p e (n + 1) ts

/-- The card data of an ending: none but the empty data for an outcome without data (R18). -/
def OutcomeData.cardData : OutcomeData → CardData
  | .card d => d
  | _ => {}

/-- The text a WAIT CARD's reports carry: only DONE and SCREENED carry one (R19). -/
def reportedText (o : StepOutcome) (d : CardData) : List Byte :=
  if o = .done || o = .screened then d.text else []


/-- Outcome data of a SHOW ending DONE: its flag byte is there with or without the flag (R171 note 1). -/
def showDoneData (d : OutcomeData) : List Byte := if d = .noDisplay then [1] else [0]

/-- The completion reports of a step (R19): one STEP_DONE, or the CARD_SEGMENT reports of a WAIT CARD. -/
def completionReports (p : Pos) (r : StepRecord) (o : StepOutcome) (d : OutcomeData) : List Report :=
  match r.params with
  | .waitCard _ _ =>
    let text := reportedText o d.cardData
    numberSegments p { tag := r.tag, outcome := o, data := d.cardData, total := text.length } 1 (cutText 2 text)
  | .showText _ _ => [.stepDone p r.tag .showText o (if o = .done then showDoneData d else []) false]
  | ps =>
    match d with
    | .entry _ _ => [.stepDone p r.tag ps.kind o [] true]
    | _ => [.stepDone p r.tag ps.kind o [] false]

/-! ### Freeing (R19, R20) -/

/-- The chain halts at the freeing of a record in COMPLETING (R20). -/
def StepRecord.halts (r : StepRecord) : Bool :=
  match r.progress with
  | some (.completing o _ cancelled) =>
    !cancelled && o != .aborted && ((o.isFailure && r.stopOnFailure) || o = .portFault || o = .deviceAbsent)
  | _ => false

/-- The chain state once the head record is freed (R5, R20). A RUNNING chain's new head starts before the event ends
(Machine/Settle.lean). -/
def freedChainState (r : StepRecord) (rest : List StepRecord) : ChainState :=
  if r.halts then .halted else if rest.isEmpty then .idle else .running

/-- The head record of a position is freed (R19, R20): it returns to the pool, a finished session is wiped, the chain
halts or goes on, and the card-left timer starts when no step is now in flight and a card is present (R26). -/
def freeHead (p : Pos) (s : State) : State :=
  match (s.pos p).chain with
  | [] => s
  | r :: rest =>
    let cs := freedChainState r rest
    let s := { s with freeRecords := s.freeRecords + 1 }
    let s := s.modPos p fun v => { v with chain := rest, chainState := cs, entry := v.entry.wipeFinished }
    if cs = .running then s else startCardLeft p s

/-- The head step of a position ends (R18, R19): its kind work stops, and it goes through COMPLETING when a report is
due; its record is freed at once when none is. -/
def endStep (p : Pos) (o : StepOutcome) (d : OutcomeData) (s : State) : State :=
  match (s.pos p).chain with
  | [] => s
  | r :: _ =>
    let s := (stopWork p s).setProgress p (.completing o d false)
    if r.reportDue o then offer p (completionReports p r o d) s else freeHead p s

end Sys2Proof.Machine
end

