-- ==== Sys2Proof/Machine/Latches.lean ====
section
/-! DEFINITION. The latch supervisor (chapter 7): eligibility, grants and de-energizing. -/

namespace Sys2Proof.Machine

/-- A position is eligible for a grant (R125). -/
def eligible (s : State) (p : Pos) : Bool :=
  let v := s.pos p
  v.reader.state = .ready && v.cardPresent && !v.reEnergizeTimer.isRunning

/-- The step of a granted position ends: a HOLD CARD DONE, a screening hold SCREENED held (R124). -/
def endGranted (p : Pos) (s : State) : State :=
  match (s.pos p).work with
  | some .latch => endStep p .done .nothing s
  | some (.screenHold i text flags) =>
    endStep p .screened (.card { text := text, flags := flags, entryId := some i, hold := .held }) s
  | _ => s

/-- A grant (R126): the request leaves the list, the latch is driven on, the ceiling timer starts with item 13
(R131), and the waiting step ends. -/
def grant (p : Pos) (s : State) : State :=
  let s := { s with latchWait := s.latchWait.filter (· ≠ p), energized := s.energized ++ [p] }
  let s := s.modPos p fun v =>
    { v with latchState := .energized, ceilingTimer := .running (s.settings.live.latchCeiling.toNat * 1000) }
  endGranted p s

/-- Grants while the energized count is below the budget and the list holds an eligible request, the oldest first
(R126); the first argument bounds how many: the length of the list is enough. -/
def grantLoop : Nat → State → State
  | 0, s => s
  | n + 1, s =>
    if s.energized.length < s.settings.live.latchBudget.toNat then
      match s.latchWait.find? (eligible s) with
      | some p => grantLoop n (grant p s)
      | none => s
    else s

/-- A grant decision (R126). -/
def grantDecision (s : State) : State := grantLoop s.latchWait.length s

/-- A latch is driven off: it leaves the energized set, its ceiling timer stops and its re-energize timer starts with
item 14 (R130 to R133). -/
def driveOff (p : Pos) (s : State) : State :=
  let s := { s with energized := s.energized.filter (· ≠ p) }
  s.modPos p fun v =>
    { v with
      latchState := .off
      ceilingTimer := .stopped
      reEnergizeTimer := .running s.settings.live.reEnergize.toNat }

/-- An energized latch is released and a grant decision is made; a latch that is not energized is left as it is
(R130, R132). -/
def deEnergize (p : Pos) (s : State) : State :=
  if (s.pos p).latchState = .energized then grantDecision (driveOff p s) else s

/-- A request joins the tail of the wait list, and a grant is tried (R124, R126). -/
def requestLatch (p : Pos) (w : Work) (s : State) : State :=
  let s := { s with latchWait := s.latchWait ++ [p] }
  let s := s.modPos p fun v => { v with latchState := .waiting }
  grantDecision (s.setProgress p (.active w))

/-- The meaning of LATCH_CEILING_TIMEOUT's event (R131). -/
def ceilingRunsOut (p : Pos) (s : State) : State :=
  if (s.pos p).ceilingTimer.isRunning then
    grantDecision (countPos .latchOverruns p (raise .latchOverrun (some p) (driveOff p s)))
  else s

/-- The meaning of RE_ENERGIZE_TIMEOUT's event (R133). -/
def reEnergizeRunsOut (p : Pos) (s : State) : State :=
  if (s.pos p).reEnergizeTimer.isRunning then
    grantDecision (s.modPos p fun v => { v with reEnergizeTimer := .stopped })
  else s

end Sys2Proof.Machine
end

