-- ==== Sys2Proof/Machine/Starting.lean ====
section
/-! DEFINITION. The position sequencer's starts (R9 to R16). -/

namespace Sys2Proof.Machine

/-- The outcome of a step whose port is not READY nor STARTING (R9, R10, R17). -/
def portOutcome : PortState → StepOutcome
  | .off => .portOff
  | .fault => .portFault
  | _ => .deviceAbsent

/-- The beep of a SHOW, if it has one, is asked of the key unit (R11, R82). -/
def askShowBeep (p : Pos) (beep : Option Beep) (s : State) : State :=
  match beep with
  | none => s
  | some b => askBeep p b s

/-- A SHOW enters ACTIVE (R11, R84): its text goes to the display writer and its beep to the key unit. -/
def activateShow (p : Pos) (beep : Option Beep) (text : List Byte) (s : State) : State :=
  let v := s.pos p
  let s := if v.key.display
    then (handContent p text s).setProgress p (.active (.display v.key.outstanding.isNone))
    else s.setProgress p (.active (.display false))
  let s := askShowBeep p beep s
  if v.key.display then s else endStep p .done .noDisplay s

/-- A WAIT CARD enters ACTIVE: the reader is armed and the timeout starts (R12, R46, R49). -/
def activateWaitCard (p : Pos) (timeout : Nat) (s : State) : State :=
  let s := s.modPos p fun v => { v with pass := { v.pass with armed := true } }
  s.setProgress p (.active (.card (.running (timeout * 1000))))

/-- A HOLD CARD enters ACTIVE (R13). -/
def activateHoldCard (p : Pos) (s : State) : State :=
  let v := s.pos p
  if v.latchState = .energized then endStep p .done .nothing s
  else if !v.cardPresent then endStep p .noCard .nothing s
  else requestLatch p .latch s

/-- A RELEASE CARD enters ACTIVE (R14, R130). The step is shown ACTIVE before the grant decision of its
release, so that the decision finds it in flight. -/
def activateReleaseCard (p : Pos) (waitRemoval : Bool) (timeout : Nat) (s : State) : State :=
  let s := s.setProgress p (.active (.removal (.running (timeout * 1000))))
  let s := deEnergize p s
  if waitRemoval && (s.pos p).cardPresent then s else endStep p .done .nothing s

/-- A COLLECT enters ACTIVE: its session opens and hands its first echo (R15, R88). -/
def activateCollect (p : Pos) (c : CollectParams) (s : State) : State :=
  let s := s.setProgress p (.active .session)
  let s := s.modPos p fun v =>
    { v with
      entry :=
        { state := .collecting, mode := c.mode, maxLen := c.maxLen, minLen := c.minLen, decimals := c.decimals,
          clearLimit := c.clearLimit, clearCount := 0, firstKey := .running (c.firstKey * 1000), interKey := .stopped,
          ceiling := .running (c.ceiling * 1000), buffer := [] } }
  handEcho p s

/-- The head step of a position enters ACTIVE and its kind's work begins (R9, R11 to R16). -/
def activate (p : Pos) (s : State) : State :=
  match (s.pos p).chain with
  | [] => s
  | r :: _ =>
    match r.params with
    | .showText beep text => activateShow p beep text s
    | .waitCard _ timeout => activateWaitCard p timeout s
    | .holdCard => activateHoldCard p s
    | .releaseCard waitRemoval timeout => activateReleaseCard p waitRemoval timeout s
    | .collect c => activateCollect p c s
    | .pause duration => s.setProgress p (.active (.pause (.running (duration * 10))))

/-- The attempt count and limit at the start of a WAIT CARD: attempts 0 means item 5 (R8, R9). -/
def startAttempts (live : DeviceItems) (ps : StepParams) (v : Position) : Position :=
  match ps with
  | .waitCard a _ => { v with attemptCount := 0, attemptLimit := if a = 0 then live.attempts.toNat else a }
  | _ => v

/-- The head step of a position starts (R9): the card-left timer stops (R26), and the port its kind needs decides. -/
def startHead (p : Pos) (s : State) : State :=
  match (s.pos p).chain with
  | [] => s
  | r :: _ =>
    let s := s.modPos p fun v => startAttempts s.settings.live r.params { v with cardLeftTimer := .stopped }
    match r.params.kind.port with
    | none => activate p s
    | some k =>
      match (s.port p k).state with
      | .ready => activate p s
      | .starting => s.setProgress p .waitingPort
      | st => endStep p (portOutcome st) .nothing s

end Sys2Proof.Machine
end

