-- ==== Sys2Proof/Machine/Settle.lean ====
section
/-! DEFINITION. What becomes due inside one event: admissions (R138 to R140), starts of head steps (R9), and the
transmit arbiter (R167). Each event's own effect is followed by these, one at a time, until nothing is due (log 2). -/

namespace Sys2Proof.Machine

/-! ### Admission (R138 to R140) -/

/-- The digits of a finished entry as they go into its STEP_DONE (R105, R171 note 1). -/
def entryData (e : EntryUnit) : List Byte :=
  e.mode.code :: (if e.mode = .amount then byteOf e.decimals else 0) :: e.buffer.map digitChar

/-- A STEP_DONE of a COLLECT takes its digits from the entry buffer at its admission (R105, R140). -/
def Report.filled (e : EntryUnit) : Report → Report
  | .stepDone p tag kind o _ true => .stepDone p tag kind o (entryData e) false
  | r => r

/-- The last completion report of a step: its admission frees the step's record (R140). -/
def Report.freesRecord : Report → Bool
  | .stepDone _ _ _ _ _ _ => true
  | .cardSegment _ _ _ (some _) => true
  | _ => false

/-- The head report of a position that heads the wait order is admitted (R139, R140). Whether the position still has reports
waiting is judged at the admission itself, before the step behind a record that it frees starts (DESIGN CHOICE, log 37). -/
def admitPosition (p : Pos) (order : List Producer) (s : State) : State :=
  match (s.pos p).waiting with
  | [] => { s with waitOrder := order }
  | r :: more =>
    let v := s.pos p
    let s := { s with
      queue := s.queue ++ [r.filled v.entry]
      waitOrder := if more.isEmpty then order else .position p :: order }
    let s := s.modPos p fun v => { v with waiting := more }
    if r.freesRecord then freeHead p s else s

/-- The head report of the producer at the head of the wait order is admitted (R139). -/
def admitHead (s : State) : State :=
  match s.waitOrder with
  | [] => s
  | .notices :: order => { s with waitOrder := order, queue := s.queue ++ [.notice], noticeReport := .queued }
  | .position p :: order => admitPosition p order s

/-! ### The transmit arbiter (R147, R167) -/

/-- Every class number, in ascending order. -/
def allClasses : List (Fin 15) := [0, 1, 2, 3, 4, 5, 6, 7, 8, 9, 10, 11, 12, 13, 14]

/-- The classes a NOTICE report is filled with: pending and unmuted (R147). -/
def noticeClasses (ns : Vector ClassRecord 15) : List (Fin 15) :=
  allClasses.filter fun i => ns[i].pending && !ns[i].muted

/-- The payload of a NOTICE report (R147, R171), the classes in ascending number (DESIGN CHOICE, log 35). -/
def noticePayload (ns : Vector ClassRecord 15) : List Byte :=
  byteOf (noticeClasses ns).length :: (noticeClasses ns).flatMap fun i => [byteOf i.val, ns[i].positions]

/-- The head report of the queue leaves it for the transmitter; a NOTICE report is filled now, or removed unsent when
no class is placed in it (R147, R167). -/
def handReport (r : Report) (q : List Report) (s : State) : State :=
  if r = .notice then
    let t := { s with queue := q, noticeReport := .absent }
    if (noticeClasses s.notices).isEmpty then t
    else { t with link := { t.link with transmitter := some (r.frame (noticePayload s.notices)) } }
  else { s with queue := q, link := { s.link with transmitter := some (r.frame []) } }

/-- The arbiter chooses while the transmitter is free: the waiting reply, or else the head report (R167). -/
def arbiter (s : State) : Option State :=
  match s.link.transmitter with
  | some _ => none
  | none =>
    match s.link.slot with
    | some f => some { s with link := { s.link with slot := none, transmitter := some f } }
    | none =>
      match s.queue with
      | [] => none
      | r :: q => some (handReport r q s)

/-! ### The next thing due -/

/-- A head step is due to start: its chain is RUNNING and it has not started (R5, R9). -/
def startDue (v : Position) : Bool := v.chainState = .running && !v.chain.isEmpty && !v.inFlight

/-- The lowest position whose head step is due to start. -/
def firstStart (s : State) : Option Pos := allPos.find? fun p => startDue (s.pos p)

/-- The next thing due inside an event: an admission, a start, or a hand-off (log 2). -/
def nextDue (s : State) : Option State :=
  if s.waitOrder ≠ [] ∧ s.queue.length < Config.queueLimit then some (admitHead s)
  else
    match firstStart s with
    | some p => some (startHead p s)
    | none => arbiter s

/-- Nothing is due inside the part. -/
abbrev Settled (s : State) : Prop := nextDue s = none

/-- What is due, one thing after another, at most `n` of them. -/
def settleFor : Nat → State → State
  | 0, s => s
  | n + 1, s =>
    match nextDue s with
    | none => s
    | some t => settleFor n t

/-- How much work a step record can still make: a step not started, in flight, or ended (log 2). -/
def StepRecord.dueWork (r : StepRecord) : Nat :=
  match r.progress with
  | none => 12
  | some .waitingPort => 10
  | some (.active _) => 10
  | some (.completing _ _ _) => 0

/-- How much work a position can still make. -/
def Position.dueWork (v : Position) : Nat := (v.chain.map StepRecord.dueWork).sum + 2 * v.waiting.length

/-- A bound on how many things can become due one after another: each of them lowers it (log 2). -/
def dueWork (s : State) : Nat :=
  (allPos.map fun p => (s.pos p).dueWork).sum + 2 * s.waitOrder.length + s.queue.length + (if s.link.slot.isSome then 1 else 0)

/-- Everything due inside an event is done, until nothing is. -/
def settle (s : State) : State := settleFor (dueWork s) s

end Sys2Proof.Machine
end

