-- ==== Sys2Proof/Machine/Keys.lean ====
section
/-! DEFINITION. The key unit (chapter 4) and the entry unit (chapter 5), with the meanings of the keypad line's events
and of the session timers. -/

namespace Sys2Proof.Machine

/-- Change the key unit of a position. -/
def State.modKey (s : State) (p : Pos) (f : KeyUnit → KeyUnit) : State :=
  s.modPos p fun v => { v with key := f v.key }

/-- Change the entry unit of a position. -/
def State.modEntry (s : State) (p : Pos) (f : EntryUnit → EntryUnit) : State :=
  s.modPos p fun v => { v with entry := f v.entry }

/-! ### KEY reports (R78, R79) -/

/-- A KEY report. -/
def Report.isKey : Report → Bool
  | .key _ _ _ => true
  | _ => false

/-- KEY reports in the key buffer of a position (R78, R137). -/
def Position.keyCount (v : Position) : Nat := v.waiting.countP Report.isKey

/-- A KEY report is produced: it joins the key buffer, or is dropped where the buffer is full (R78, R79). -/
def keyReport (p : Pos) (sym : Symbol) (held : Bool) (s : State) : State :=
  if (s.pos p).keyCount < Config.keyLimit then offer p [.key p sym held] s
  else askBeep p .error (raise .keysDropped (some p) (countPos .keysDropped p s))

/-! ### Entry sessions (R89 to R97, R103 to R105) -/

/-- The three timers of a session stop (R104). -/
def EntryUnit.stopTimers (e : EntryUnit) : EntryUnit :=
  { e with firstKey := .stopped, interKey := .stopped, ceiling := .stopped }

/-- A session ends DONE: FINISHED with its digits in AMOUNT and CONCEALED mode, CLOSED in OPEN mode (R104). -/
def EntryUnit.finish (e : EntryUnit) : EntryUnit :=
  { e.stopTimers with state := if e.mode = .openKeys then .closed else .finished }

/-- The completion data of a DONE (R105). -/
def EntryUnit.doneData (e : EntryUnit) : OutcomeData :=
  if e.mode = .openKeys then .nothing else .entry e.mode e.decimals

/-- A session ends DONE (R103, R104). The count comes before the step's end, so a COUNTER_HIGH of it is offered before the
step's report (DESIGN CHOICE, log 33). -/
def sessionDone (p : Pos) (s : State) : State :=
  let d := (s.pos p).entry.doneData
  endStep p .done d (countPos .entriesDone p (s.modEntry p EntryUnit.finish))

/-- A session ends CUSTOMER_CANCEL or CLEAR_LIMIT: it is wiped (R104). -/
def sessionFails (p : Pos) (o : StepOutcome) (s : State) : State :=
  endStep p o .nothing (s.modEntry p EntryUnit.close)

/-- A session ends TIMEOUT (R98, R104), the count before the step's end as for DONE (DESIGN CHOICE, log 33). -/
def sessionTimesOut (p : Pos) (s : State) : State :=
  endStep p .timeout .nothing (countPos .entriesTimedOut p (s.modEntry p EntryUnit.close))

/-- The buffer of a session changes and its echo is handed (R100). -/
def editBuffer (p : Pos) (b : List (Fin 10)) (s : State) : State :=
  handEcho p (s.modEntry p fun e => { e with buffer := b })

/-- An OPEN session takes a symbol (R90). The KEY report and the STEP_DONE of an ENTER stand together in the position's
waiting reports, so both are admitted before a NOTICE that the count asks for (DESIGN CHOICE, log 33). -/
def takeOpen (p : Pos) (sym : Symbol) (held : Bool) (s : State) : State :=
  let s := keyReport p sym held s
  match sym with
  | .enter => sessionDone p s
  | .cancel => sessionFails p .customerCancel s
  | _ => s

/-- The room left in a session's buffer (R91). -/
def EntryUnit.room (e : EntryUnit) : Nat := e.maxLen - e.buffer.length

/-- An AMOUNT session takes a symbol (R91, R92, R95 to R97). -/
def takeAmount (p : Pos) (sym : Symbol) (s : State) : State :=
  let e := (s.pos p).entry
  match sym with
  | .digit d =>
    if d = 0 && e.buffer.isEmpty then s
    else if 1 ≤ e.room then editBuffer p (e.buffer ++ [d]) s
    else askBeep p .error s
  | .doubleZero =>
    if e.buffer.isEmpty then s
    else if 2 ≤ e.room then editBuffer p (e.buffer ++ [0, 0]) s
    else askBeep p .error s
  | .back => if e.buffer.isEmpty then askBeep p .error s else editBuffer p e.buffer.dropLast s
  | .clear => if e.buffer.isEmpty then s else editBuffer p [] s
  | .enter => if e.minLen ≤ e.buffer.length then sessionDone p s else askBeep p .error s
  | .cancel => sessionFails p .customerCancel s
  | .dot | .f1 | .f2 | .f3 | .f4 | .nothing => askBeep p .error s

/-- The clear count rises by one, saturating at 7 (R94). -/
def EntryUnit.countClear (e : EntryUnit) : EntryUnit := { e with clearCount := min 7 (e.clearCount + 1) }

/-- A CONCEALED session takes CLEAR with digits in its buffer (R94). -/
def clearConcealed (p : Pos) (s : State) : State :=
  let s := editBuffer p [] (s.modEntry p EntryUnit.countClear)
  let e := (s.pos p).entry
  if e.clearLimit ≠ 0 && e.clearLimit ≤ e.clearCount then sessionFails p .clearLimit s else s

/-- A CONCEALED session takes a symbol (R93 to R97). -/
def takeConcealed (p : Pos) (sym : Symbol) (s : State) : State :=
  let e := (s.pos p).entry
  match sym with
  | .digit d => if 1 ≤ e.room then editBuffer p (e.buffer ++ [d]) s else askBeep p .error s
  | .back => if e.buffer.isEmpty then askBeep p .error s else editBuffer p e.buffer.dropLast s
  | .clear => if e.buffer.isEmpty then s else clearConcealed p s
  | .enter => if e.minLen ≤ e.buffer.length then sessionDone p s else askBeep p .error s
  | .cancel => sessionFails p .customerCancel s
  | .doubleZero | .dot | .f1 | .f2 | .f3 | .f4 | .nothing => askBeep p .error s

/-- An open session takes a symbol: its timers first (R89), then by its mode. -/
def takeSymbol (p : Pos) (c : CollectParams) (sym : Symbol) (held : Bool) (s : State) : State :=
  let s := s.modEntry p fun e => { e with firstKey := .stopped, interKey := .running (c.interKey * 1000) }
  match (s.pos p).entry.mode with
  | .openKeys => takeOpen p sym held s
  | .amount => takeAmount p sym s
  | .concealed => takeConcealed p sym s

/-! ### Routing (R77) -/

/-- The parameters of a COLLECT that is ACTIVE with its session collecting. -/
def Position.collecting (v : Position) : Option CollectParams :=
  match v.chain with
  | { params := .collect c, progress := some (.active .session), .. } :: _ =>
    if v.entry.state = .collecting then some c else none
  | _ => none

/-- A decided symbol is routed (R77). -/
def routeSymbol (p : Pos) (sym : Symbol) (held : Bool) (s : State) : State :=
  match (s.pos p).collecting with
  | some c => takeSymbol p c sym held s
  | none => if (s.pos p).items.idleKeys = 1 then keyReport p sym held s else s

/-! ### The hold tracker (R70 to R75) -/

/-- No key is undecided and the long-press timer is stopped. -/
def KeyUnit.noUndecided (u : KeyUnit) : KeyUnit := { u with undecided := none, longPress := .stopped }

/-- The live key map entry of a press at a position (R70). -/
def pressEntry (s : State) (p : Pos) (code : Fin 24) : Word :=
  keyMapRead s.settings.live.keyMap (keyIndex (layoutIsB (s.pos p).items.layout) code)

/-- The undecided key of a position, if any, is settled as its press symbol, routed whole before what follows (R71,
R75). -/
def settleUndecided (p : Pos) (s : State) : State :=
  match (s.pos p).key.undecided with
  | none => s
  | some u => settle (routeSymbol p u.press false (s.modKey p KeyUnit.noUndecided))

/-- A translated press reaches the hold tracker (R71). -/
def trackPress (p : Pos) (code : Fin 24) (press held : Symbol) (s : State) : State :=
  let s := settleUndecided p s
  if held = .nothing then settle (routeSymbol p press false s)
  else s.modKey p fun u =>
    { u with
      undecided := some { code := code, press := press, held := held }
      longPress := .running s.settings.live.longPress.toNat }

/-- A key press (R67, R70, R71). -/
def keyPressed (p : Pos) (code : Fin 24) (s : State) : State :=
  if (s.pos p).keypad.state = .ready then
    let w := pressEntry s p code
    let press := symbolOf (loByte w)
    if press = .nothing then s else trackPress p code press (symbolOf (hiByte w)) s
  else s

/-- A key release (R67, R73). -/
def keyReleased (p : Pos) (code : Fin 24) (s : State) : State :=
  if (s.pos p).keypad.state = .ready then
    match (s.pos p).key.undecided with
    | some u => if u.code = code then routeSymbol p u.press false (s.modKey p KeyUnit.noUndecided) else s
    | none => s
  else s

/-- The long-press timer runs out (R72). -/
def longPressRunsOut (p : Pos) (s : State) : State :=
  if (s.pos p).key.longPress.isRunning then
    match (s.pos p).key.undecided with
    | some u => routeSymbol p u.held true (s.modKey p KeyUnit.noUndecided)
    | none => s.modKey p KeyUnit.noUndecided
  else s

/-! ### The display writer's ends (R80, R81, R84) -/

/-- The SHOW in flight whose text was pending content now has its write outstanding (R84). -/
def Position.showSent (v : Position) : Position :=
  if v.work = some (.display false) then v.setProgress (.active (.display true)) else v

/-- Pending content, if any, is sent as a new write (R80, R81). -/
def sendPending (p : Pos) (s : State) : State :=
  match (s.pos p).key.pendingContent with
  | none => s
  | some text =>
    s.modPos p fun v => Position.showSent { v with key := sendWrite text { v.key with pendingContent := none } }

/-- The write outstanding is over: the SHOW waiting on it ends, then pending content is sent (R80, R81, R84). -/
def writeOver (p : Pos) (o : StepOutcome) (s : State) : State :=
  let own := (s.pos p).work = some (.display true)
  let s := s.modKey p fun u => { u with outstanding := none, ackTimer := .stopped }
  sendPending p (if own then endStep p o .nothing s else s)

/-- An acknowledge (R67, R80). -/
def acknowledged (p : Pos) (s : State) : State :=
  if (s.pos p).keypad.state = .ready && (s.pos p).key.outstanding.isSome then writeOver p .done s else s

/-- The acknowledge timer runs out (R81). The NOTICE report of KEYPAD_SILENT is offered before the report of the SHOW it
ends (DESIGN CHOICE, log 32). -/
def ackRunsOut (p : Pos) (s : State) : State :=
  if (s.pos p).key.ackTimer.isRunning then writeOver p .keypadSilent (raise .keypadSilent (some p) s) else s

/-- The waiting beep is sent on the keypad line (R82). BEEP_SENT stands for the moment the line is free, and is taken
whenever it comes (DESIGN CHOICE, log 31). -/
def beepGoesOut (p : Pos) (s : State) : State :=
  match (s.pos p).key.waitingBeep with
  | none => s
  | some b => s.modKey p fun u => { u with waitingBeep := none, lastOut := some (.beep b) }

/-- A keypad line error counts (R67); a port that is OFF or FAULT is not listened to. -/
def lineError (p : Pos) (s : State) : State :=
  match (s.pos p).keypad.state with
  | .off | .fault => s
  | _ => countPos .keyLineErrors p s

/-! ### Session timers (R98) -/

/-- A session timer runs out: TIMEOUT while the session is collecting (R98). -/
def sessionTimer (p : Pos) (t : EntryUnit → Timer) (s : State) : State :=
  let e := (s.pos p).entry
  if (t e).isRunning && e.state = .collecting then sessionTimesOut p s else s

/-! ### Meanings -/

/-- KEY_PRESS (R71). -/
def execKeyPress (p : Pos) (code : Fin 24) (s : State) : Host.Outcome State Fault Refusal :=
  atPosition p s (keyPressed p code)

/-- KEY_RELEASE (R73). -/
def execKeyRelease (p : Pos) (code : Fin 24) (s : State) : Host.Outcome State Fault Refusal :=
  atPosition p s fun s => settle (keyReleased p code s)

/-- LONG_PRESS_TIMEOUT (R72). -/
def execLongPressTimeout (p : Pos) (s : State) : Host.Outcome State Fault Refusal :=
  atPosition p s fun s => settle (longPressRunsOut p s)

/-- ACKNOWLEDGE (R80). -/
def execAcknowledge (p : Pos) (s : State) : Host.Outcome State Fault Refusal :=
  atPosition p s fun s => settle (acknowledged p s)

/-- ACKNOWLEDGE_TIMEOUT (R81). -/
def execAcknowledgeTimeout (p : Pos) (s : State) : Host.Outcome State Fault Refusal :=
  atPosition p s fun s => settle (ackRunsOut p s)

/-- BEEP_SENT (R82). -/
def execBeepSent (p : Pos) (s : State) : Host.Outcome State Fault Refusal :=
  atPosition p s (beepGoesOut p)

/-- FIRST_KEY_TIMEOUT (R98). -/
def execFirstKeyTimeout (p : Pos) (s : State) : Host.Outcome State Fault Refusal :=
  atPosition p s fun s => settle (sessionTimer p EntryUnit.firstKey s)

/-- INTER_KEY_TIMEOUT (R98). -/
def execInterKeyTimeout (p : Pos) (s : State) : Host.Outcome State Fault Refusal :=
  atPosition p s fun s => settle (sessionTimer p EntryUnit.interKey s)

/-- CEILING_TIMEOUT (R98). -/
def execCeilingTimeout (p : Pos) (s : State) : Host.Outcome State Fault Refusal :=
  atPosition p s fun s => settle (sessionTimer p EntryUnit.ceiling s)

end Sys2Proof.Machine
end

