-- ==== Sys2Proof/Machine/Flags.lean ====
section
/-! DEFINITION. The checks of a completed pass (chapter 2) and the check flags they give. -/

namespace Sys2Proof.Machine

/-- The failure flags of a pass (R38) and the two flags that stand beside them. -/
inductive CheckFlag where
  | parity
  | noStart
  | noEnd
  | lrc
  | noSep
  | acctLen
  | field
  | short
  | checkDigit
  | overlong
  | broken
deriving DecidableEq, Repr

/-- The bit of a check flag (R171 note 3). -/
def CheckFlag.bit : CheckFlag → Word
  | .parity => 0x001
  | .noStart => 0x002
  | .noEnd => 0x004
  | .lrc => 0x008
  | .noSep => 0x010
  | .acctLen => 0x020
  | .field => 0x040
  | .short => 0x080
  | .checkDigit => 0x100
  | .overlong => 0x200
  | .broken => 0x400

/-- The data value of a character, 0 to 15 (R37, R173). -/
def dataValue (c : BitVec 5) : BitVec 4 := c.setWidth 4

/-- The exclusive-or of the five bits of a character: true for an odd number of ones. -/
def oddOnes (c : BitVec 5) : Bool :=
  xor (xor (xor (c.getLsbD 0) (c.getLsbD 1)) (xor (c.getLsbD 2) (c.getLsbD 3))) (c.getLsbD 4)

/-- A character whose five bits hold an even number of ones has a parity error (R37). -/
def parityError (c : BitVec 5) : Bool := !oddOnes c

/-- Stage 1 counts the characters with a parity error (R39). -/
def parityErrors (buf : List (BitVec 5)) : Nat := buf.countP parityError

/-- Stage 2 locates the record: body and check character, or the failure (R40). -/
def findRecord (vals : List (BitVec 4)) : Except CheckFlag (List (BitVec 4) × BitVec 4) :=
  match vals with
  | [] => .error .noStart
  | first :: rest =>
    if first ≠ 11 then .error .noStart
    else
      match rest.dropWhile (· ≠ 15) with
      | _ :: check :: _ => .ok (rest.takeWhile (· ≠ 15), check)
      | _ => .error .noEnd

/-- The exclusive-or of start mark, body and end mark (R41). -/
def recordXor (body : List (BitVec 4)) : BitVec 4 := body.foldr (· ^^^ ·) (11 ^^^ 15)

/-- A digit (R37). -/
def isDigit (v : BitVec 4) : Bool := v.toNat ≤ 9

/-- A character allowed in the discretionary field (R43). -/
def isDiscretionary (v : BitVec 4) : Bool := v ≠ 11 && v ≠ 15

/-- Stage 4 on the account field (R42): the limits are items 7 and 8. -/
def checkAccount (minLen maxLen : Nat) (body : List (BitVec 4)) : Option CheckFlag :=
  if 13 ∉ body then some .noSep
  else
    let account := body.takeWhile (· ≠ 13)
    if account.length < minLen || maxLen < account.length then some .acctLen
    else if account.all isDigit then none
    else some .field

/-- The month of an expiry lies within 01 to 12 (R43). -/
def monthOk (tens units : BitVec 4) : Bool :=
  let m := tens.toNat * 10 + units.toNat
  1 ≤ m && m ≤ 12

/-- Stage 4 past the separator (R43). -/
def checkTail (tail : List (BitVec 4)) : Option CheckFlag :=
  if tail.length < 7 then some .short
  else if !(tail.take 7).all isDigit then some .field
  else if !monthOk (tail.getD 2 0) (tail.getD 3 0) then some .field
  else if (tail.drop 7).all isDiscretionary then none
  else some .field

/-- A doubled digit, with 9 subtracted from 10 or more (R44). -/
def doubled (n : Nat) : Nat := if 10 ≤ 2 * n then 2 * n - 9 else 2 * n

/-- The sum of R44 over digits from the rightmost leftwards: the first as it is, every second one doubled. -/
def luhnSum : List Nat → Nat
  | [] => 0
  | [d] => d
  | d :: e :: rest => d + doubled e + luhnSum rest

/-- Stage 5: the account's check digit (R44). -/
def checkDigitOk (account : List (BitVec 4)) : Bool := luhnSum (account.map (·.toNat)).reverse % 10 == 0

/-- The character of the decoded text for a data value: '0' to '9', ':', '<', '=' and '>' (R37, R45). -/
def textChar (v : BitVec 4) : Byte := byteOf (0x30 + v.toNat)

/-- The result of the checks (R38). -/
structure CheckResult where
  failure : Option CheckFlag
  overlong : Bool
  parityErrors : Nat
  text : List Byte
deriving DecidableEq, Repr

/-- The check flags as reported (R38, R171 note 3). -/
def CheckResult.flags (r : CheckResult) : Word :=
  (match r.failure with | some f => f.bit | none => 0) ||| (if r.overlong then CheckFlag.overlong.bit else 0)

/-- The flags of a broken pass (R34). -/
def brokenFlags (overlong : Bool) : Word :=
  CheckFlag.broken.bit ||| (if overlong then CheckFlag.overlong.bit else 0)

/-- Stages 2 to 5 over the data values: the first failure, or the record body (R38, R40 to R44). -/
def checkRecord (items : DeviceItems) (vals : List (BitVec 4)) : Except CheckFlag (List (BitVec 4)) :=
  match findRecord vals with
  | .error f => .error f
  | .ok (body, check) =>
    if recordXor body ≠ check then .error .lrc
    else
      match checkAccount items.accountMin.toNat items.accountMax.toNat body with
      | some f => .error f
      | none =>
        match checkTail ((body.dropWhile (· ≠ 13)).drop 1) with
        | some f => .error f
        | none =>
          if items.checkDigit = 1 && !checkDigitOk (body.takeWhile (· ≠ 13)) then .error .checkDigit
          else .ok body

/-- The five stages over the bytes held, with the live items 7, 8 and 9 (R38 to R45). -/
def checkPass (items : DeviceItems) (buf : List (BitVec 5)) (overlong : Bool) : CheckResult :=
  let n := parityErrors buf
  if n ≠ 0 then { failure := some .parity, overlong := overlong, parityErrors := n, text := [] }
  else
    match checkRecord items (buf.map dataValue) with
    | .error f => { failure := some f, overlong := overlong, parityErrors := 0, text := [] }
    | .ok body => { failure := none, overlong := overlong, parityErrors := 0, text := body.map textChar }

end Sys2Proof.Machine
end

