-- ==== Sys2Proof/Machine/Screening.lean ====
section
/-! DEFINITION. The screening unit (chapter 3): selection, digest and matching. -/

namespace Sys2Proof.Machine

/-- The characters an entry's segments select from the text left of the cursor on, or none when a take runs past
its end (R58). -/
def selectChars : List ScreenSegment → List Byte → Option (List Byte)
  | [], _ => some []
  | g :: gs, text =>
    if text.length < g.skip + g.take then none
    else (selectChars gs (text.drop (g.skip + g.take))).map ((text.drop g.skip).take g.take ++ ·)

/-- The 4-bit data value of a character of the decoded text (R59). -/
def charValue (c : Byte) : Nat := c.toNat - 0x30

/-- One step of the two sums (R59). -/
def digestStep (ab : Nat × Nat) (v : Nat) : Nat × Nat :=
  let a := (ab.1 + v) % 251
  (a, (ab.2 + a) % 251)

/-- The digest of a selection (R59). -/
def digestOf (sel : List Byte) : Word :=
  let ab := (sel.map charValue).foldl digestStep (1, 0)
  wordOfNat (ab.2 * 256 + ab.1)

/-- An entry matches a text (R58, R60). -/
def ScreenEntry.isMatch (e : ScreenEntry) (text : List Byte) : Bool :=
  match selectChars e.segments text with
  | none => false
  | some sel => digestOf sel == e.digest

/-- The place of the table with the given id holds an entry that matches the text (R60). -/
def placeMatches (table : Vector (Option ScreenEntry) 16) (text : List Byte) (i : Fin 16) : Bool :=
  match table[i] with
  | none => false
  | some e => e.isMatch text

/-- Every id, in ascending order. -/
def allIds : List (Fin 16) := [0, 1, 2, 3, 4, 5, 6, 7, 8, 9, 10, 11, 12, 13, 14, 15]

/-- The screening result: the lowest id whose entry matches, with its action (R60, R61). -/
def screen (table : Vector (Option ScreenEntry) 16) (text : List Byte) : Option (Fin 16 × ScreenAction) :=
  match allIds.find? (placeMatches table text) with
  | none => none
  | some i => table[i].map fun e => (i, e.action)

/-- Number of entries in the table (R52). -/
def entryCount (table : Vector (Option ScreenEntry) 16) : Nat := allIds.countP fun i => table[i].isSome

/-- Clamping of a loaded segment (R54). -/
def clampSegment (g : ScreenSegment) : ScreenSegment := { skip := min g.skip 106, take := clampNat 1 19 g.take }

end Sys2Proof.Machine
end

