-- ==== Sys2Proof/Machine/Passes.lean ====
section
/-! DEFINITION. The pass unit (chapter 2) and the meanings of the reader line's events, with the WAIT CARD timeout. -/

namespace Sys2Proof.Machine

/-- Change the pass unit of a position. -/
def State.modPass (s : State) (p : Pos) (f : PassUnit → PassUnit) : State :=
  s.modPos p fun v => { v with pass := f v.pass }

/-- The pass buffer is emptied, overlong cleared, the gap timer stopped and the state IDLE (R29, R32, R33). -/
def PassUnit.toIdle (u : PassUnit) : PassUnit :=
  { u with state := .idle, buffer := [], overlong := false, gapTimer := .stopped }

/-- The buffer is emptied and the rest of the dip is thrown away, with a fresh gap timer (R34). -/
def PassUnit.toDiscarding (u : PassUnit) : PassUnit :=
  { u with state := .discarding, buffer := [], overlong := false, gapTimer := .running Config.passGapMs }

/-- A character byte reaches the pass unit (R30, R31, R35). -/
def PassUnit.character (c : BitVec 5) (u : PassUnit) : PassUnit :=
  match u.state with
  | .idle => { u with state := .receiving, buffer := [c], gapTimer := .running Config.passGapMs }
  | .receiving =>
    if u.buffer.length < Config.passLimit then
      { u with buffer := u.buffer ++ [c], gapTimer := .running Config.passGapMs }
    else { u with overlong := true, gapTimer := .running Config.passGapMs }
  | .discarding => { u with gapTimer := .running Config.passGapMs }

/-- A pass that completes or breaks while armed fails: it counts, and at the attempt limit the WAIT CARD ends
READ_FAILED with this pass's flags and parity-error count (R48). -/
def attemptFailed (p : Pos) (flags : Word) (parity : Nat) (s : State) : State :=
  let s := countPos .passesFailed p s
  let s := s.modPos p fun v => { v with attemptCount := v.attemptCount + 1 }
  if (s.pos p).attemptCount < (s.pos p).attemptLimit then askBeep p .error s
  else endStep p .readFailed (.card { flags := flags, parityErrors := parity }) s

/-- A HOLD match at a position: the reader is disarmed and the timeout stops; the step ends held or not held at once, or
asks for the latch (R63). -/
def holdMatch (p : Pos) (i : Fin 16) (text : List Byte) (flags : Word) (s : State) : State :=
  let s := s.modPass p PassUnit.disarm
  let v := s.pos p
  let data (h : HoldFlag) : OutcomeData := .card { text := text, flags := flags, entryId := some i, hold := h }
  if v.latchState = .energized then endStep p .screened (data .held) s
  else if !v.cardPresent then endStep p .screened (data .notHeld) s
  else requestLatch p (.screenHold i text flags) s

/-- A pass that completes while armed checks good: it counts, is screened, and ends or continues the WAIT CARD (R47,
R61 to R63). -/
def goodPass (p : Pos) (text : List Byte) (flags : Word) (s : State) : State :=
  let s := countPos .passesOk p s
  match screen s.screening text with
  | none => endStep p .done (.card { text := text, flags := flags }) s
  | some (i, action) =>
    let s := raise .screenMatch (some p) (countPos .screenMatches p s)
    match action with
    | .report => endStep p .screened (.card { text := text, flags := flags, entryId := some i }) s
    | .hold => holdMatch p i text flags s

/-- A completed pass by armed (R32, R36): checked, or unsolicited. The pass unit has been emptied. -/
def passCompletes (p : Pos) (s : State) : State :=
  let u := (s.pos p).pass
  let s := s.modPass p PassUnit.toIdle
  if u.armed then
    let r := checkPass s.settings.live u.buffer u.overlong
    match r.failure with
    | none => goodPass p r.text r.flags s
    | some _ => attemptFailed p r.flags r.parityErrors s
  else raise .unsolicitedPass (some p) (countDevice .unsolicitedPasses s)

/-- A broken pass by armed, once the pass unit has been emptied (R34). -/
def passBreaks (p : Pos) (u : PassUnit) (s : State) : State :=
  if u.armed then attemptFailed p (brokenFlags u.overlong) 0 s else s

/-- A character byte on a reader line (R29 to R31, R35). -/
def readerCharacter (p : Pos) (c : BitVec 5) (s : State) : State :=
  if (s.pos p).reader.state = .ready then s.modPass p (PassUnit.character c) else s

/-- The end byte on a reader line (R29, R30, R32, R35). -/
def readerEnd (p : Pos) (s : State) : State :=
  if (s.pos p).reader.state = .ready then
    match (s.pos p).pass.state with
    | .discarding => s.modPass p PassUnit.toIdle
    | _ => passCompletes p s
  else s

/-- A fault byte on a reader line (R29, R30, R34, R35). -/
def readerFault (p : Pos) (s : State) : State :=
  if (s.pos p).reader.state = .ready then
    let u := (s.pos p).pass
    match u.state with
    | .discarding => s.modPass p fun u => { u with gapTimer := .running Config.passGapMs }
    | _ => passBreaks p u (s.modPass p PassUnit.toDiscarding)
  else s

/-- The gap timer of a pass unit runs out (R33, R35). -/
def passGap (p : Pos) (s : State) : State :=
  let u := (s.pos p).pass
  if u.gapTimer.isRunning then
    match u.state with
    | .receiving => passBreaks p u (s.modPass p PassUnit.toIdle)
    | _ => s.modPass p PassUnit.toIdle
  else s

/-- The WAIT CARD timeout runs out while the reader is armed (R49). -/
def waitCardRunsOut (p : Pos) (s : State) : State :=
  match (s.pos p).work with
  | some (.card t) =>
    if t.isRunning then endStep p .timeout (.card { attempts := (s.pos p).attemptCount }) s else s
  | _ => s

/-! ### Meanings -/

/-- READER_CHARACTER_BYTE (R31). -/
def execReaderCharacterByte (p : Pos) (c : BitVec 5) (s : State) : Host.Outcome State Fault Refusal :=
  atPosition p s (readerCharacter p c)

/-- READER_END_BYTE (R32). -/
def execReaderEndByte (p : Pos) (s : State) : Host.Outcome State Fault Refusal :=
  atPosition p s fun s => settle (readerEnd p s)

/-- READER_FAULT_BYTE (R34). The byte is read by its class (R173); a byte of another class is taken as what it is. -/
def execReaderFaultByte (p : Pos) (b : Byte) (s : State) : Host.Outcome State Fault Refusal :=
  atPosition p s fun s =>
    match readerClass b with
    | .faultByte => settle (readerFault p s)
    | .passEnd => settle (readerEnd p s)
    | .character c => readerCharacter p c s

/-- PASS_GAP_TIMEOUT (R33). -/
def execPassGapTimeout (p : Pos) (s : State) : Host.Outcome State Fault Refusal :=
  atPosition p s fun s => settle (passGap p s)

/-- WAIT_CARD_TIMEOUT (R49). -/
def execWaitCardTimeout (p : Pos) (s : State) : Host.Outcome State Fault Refusal :=
  atPosition p s fun s => settle (waitCardRunsOut p s)

end Sys2Proof.Machine
end

