-- ==== Sys2Proof/Machine/Ports.lean ====
section
/-! DEFINITION. The power supervisor (chapter 6), how a port change reaches the position (R120), and the meanings of the
port, announce, card-line, latch-timer and step-timer events. -/

namespace Sys2Proof.Machine

/-! ### Limits (R110) -/

/-- Lower current limit of a port kind, in mA (R110). -/
def lowerLimit : PortKind → Nat
  | .reader => 15
  | .keypad => 8

/-- Live upper current limit of a port, in mA (R110). -/
def Position.upperLimit (v : Position) : PortKind → Nat
  | .reader => v.items.readerUpper.toNat
  | .keypad => v.items.keypadUpper.toNat

/-- The inrush allowance of a port still runs (R117). -/
def PortRecord.inInrush (r : PortRecord) : Bool :=
  match r.readiness with
  | some c => c.inrush
  | none => false

/-- The over-time by the current and the upper limit: it runs while the current stands above the limit, on a port that
is switched on and past its inrush allowance (R110, R117). -/
def PortRecord.watchOver (upper : Nat) (r : PortRecord) : PortRecord :=
  if r.switchedOn && !r.inInrush then
    if upper < r.current then
      (if r.overTime.isRunning then r else { r with overTime := .running Config.overMs })
    else { r with overTime := .stopped }
  else r

/-- The under-time of a READY port by its current (R118). -/
def PortRecord.watchUnder (lower : Nat) (r : PortRecord) : PortRecord :=
  if r.current < lower then
    (if r.underTime.isRunning then r else { r with underTime := .running Config.underMs })
  else { r with underTime := .stopped }

/-- The return checks of an ABSENT port by its current (R119). -/
def PortRecord.watchReturn (lower : Nat) (r : PortRecord) : PortRecord :=
  match r.returnChecks with
  | none => r
  | some c =>
    if r.current < lower then { r with returnChecks := some { c with standing := .below } }
    else if c.standing = .below then { r with returnChecks := some { c with standing := .counting } }
    else r

/-- A port that is switched off (R113, R117). -/
def PortRecord.switchOff (st : PortState) (_ : PortRecord) : PortRecord := { state := st }

/-! ### How a change reaches the position (R120) -/

/-- The head step waits in WAITING_PORT for this port (R10). -/
def Position.waitsFor (v : Position) (k : PortKind) : Bool :=
  match v.chain with
  | r :: _ => r.progress = some .waitingPort && r.params.kind.port = some k
  | [] => false

/-- The head step is in WAITING_PORT or ACTIVE and needs this port (R10, R17). -/
def Position.needsPort (v : Position) (k : PortKind) : Bool :=
  match v.chain with
  | r :: _ =>
    r.params.kind.port = some k &&
      (match r.progress with
       | some .waitingPort => true
       | some (.active _) => true
       | _ => false)
  | [] => false

/-- The card-present line is taken up as a reader port becomes READY (R26, R120, R141). -/
def takeCardLine (p : Pos) (s : State) : State :=
  if (s.pos p).cardLine then
    startCardLeft p (presenceChange p true (s.modPos p fun v => { v with cardPresent := true }))
  else s

/-- A port becomes READY: the undercurrent watch begins, the card-present line is taken up on a reader port, and a step
waiting for the port enters ACTIVE (R10, R115, R116, R119, R120). Card present is taken before the step activates
(log 13). -/
def portReady (p : Pos) (k : PortKind) (s : State) : State :=
  let s := s.modPort p k fun r =>
    PortRecord.watchUnder (lowerLimit k)
      { r with state := .ready, readiness := none, returnChecks := none, underTime := .stopped }
  let s := if k = .reader then takeCardLine p s else s
  if (s.pos p).waitsFor k then activate p s else s

/-- The reader line is no longer listened to: the pass in assembly is thrown away, no card is present, and the card-left
timer stops (R26, R29, R120). -/
def readerLost (p : Pos) (s : State) : State :=
  s.modPos p fun v =>
    { v with
      pass := v.pass.toIdle
      cardPresent := false
      cardLeftTimer := .stopped
      cardLeftRaised := false }

/-- The keypad line is no longer in use: undecided key, writer state, waiting beep and announce flags go (R68, R76, R82,
R83). -/
def keypadLost (p : Pos) (s : State) : State :=
  s.modKey p fun u => { lastOut := u.lastOut }

/-- A port enters OFF, FAULT or ABSENT: its units give up their state, a step that needs it ends with the port outcome (R10,
R17), and a reader port that is switched off de-energizes its latch (R120, R132). The step ends before the grants that the
release makes at other positions (DESIGN CHOICE, log 34). -/
def portLost (p : Pos) (k : PortKind) (st : PortState) (s : State) : State :=
  let s := match k with
    | .reader => readerLost p s
    | .keypad => keypadLost p s
  let s := if (s.pos p).needsPort k then endStep p (portOutcome st) .nothing s else s
  if k = .reader && st != .absent then deEnergize p s else s

/-- A port becomes ABSENT, its supply on (R115, R116, R118): DEVICE_ABSENT is raised, before the step's end
(DESIGN CHOICE, log 34), and its return checks begin. -/
def becomeAbsent (p : Pos) (k : PortKind) (s : State) : State :=
  let s := s.modPort p k fun r =>
    PortRecord.watchReturn (lowerLimit k)
      { r with state := .absent, readiness := none, underTime := .stopped,
               returnChecks := some { standing := .below, announceSeen := false } }
  portLost p k .absent (raise .deviceAbsent (some p) s)

/-- An ABSENT port returns to READY (R119). DEVICE_BACK is raised before the reports the change makes (DESIGN CHOICE,
log 34). -/
def deviceReturns (p : Pos) (k : PortKind) (s : State) : State := portReady p k (raise .deviceBack (some p) s)

/-! ### Readiness (R115, R116) -/

/-- A STARTING port past its inrush allowance whose current stands at or above the lower limit: a reader becomes READY;
a keypad has current seen, and becomes READY if an announce was seen (R115, R116). -/
def seeCurrent (p : Pos) (k : PortKind) (s : State) : State :=
  let r := s.port p k
  match r.readiness with
  | some c =>
    if r.state = .starting && !c.inrush && lowerLimit k ≤ r.current then
      match k with
      | .reader => portReady p .reader s
      | .keypad =>
        let s := s.modPort p .keypad fun r => { r with readiness := some { c with currentSeen := true } }
        if c.announceSeen then portReady p .keypad s else s
    else s
  | none => s

/-- The sensed current of a port changes (R110, R115 to R119). A port that is not switched on draws none. -/
def currentChanges (p : Pos) (k : PortKind) (mA : Nat) (s : State) : State :=
  if (s.port p k).switchedOn then
    let upper := (s.pos p).upperLimit k
    let s := s.modPort p k fun r => PortRecord.watchOver upper { r with current := mA }
    match (s.port p k).state with
    | .starting => seeCurrent p k s
    | .ready => s.modPort p k (PortRecord.watchUnder (lowerLimit k))
    | .absent => s.modPort p k (PortRecord.watchReturn (lowerLimit k))
    | _ => s
  else s

/-- The inrush allowance of a port ends: readiness and overcurrent comparison begin (R115 to R117). -/
def inrushEnds (p : Pos) (k : PortKind) (s : State) : State :=
  let r := s.port p k
  match r.readiness with
  | some c =>
    if c.inrush then
      let upper := (s.pos p).upperLimit k
      seeCurrent p k (s.modPort p k fun r =>
        PortRecord.watchOver upper { r with readiness := some { c with inrush := false } })
    else s
  | none => s

/-- 300 ms after a switch-on without current seen (R115, R116). -/
def readinessRunsOut (p : Pos) (k : PortKind) (s : State) : State :=
  let r := s.port p k
  match r.readiness with
  | some c => if r.state = .starting && !c.currentSeen then becomeAbsent p k s else s
  | none => s

/-- 500 ms after a switch-on with current seen and no announce (R116). -/
def announceRunsOut (p : Pos) (s : State) : State :=
  let r := s.port p .keypad
  match r.readiness with
  | some c => if r.state = .starting && c.currentSeen && !c.announceSeen then becomeAbsent p .keypad s else s
  | none => s

/-- The over-time reaches 10 ms: the port trips (R117). PORT_FAULT is raised before the step's end (DESIGN CHOICE, log 34). -/
def overTrips (p : Pos) (k : PortKind) (s : State) : State :=
  if (s.port p k).overTime.isRunning then
    portLost p k .fault (raise .portFault (some p) (s.modPort p k (PortRecord.switchOff .fault)))
  else s

/-- The under-time of a READY port reaches 500 ms (R118). -/
def underRunsOut (p : Pos) (k : PortKind) (s : State) : State :=
  if (s.port p k).state = .ready && (s.port p k).underTime.isRunning then becomeAbsent p k s else s

/-- The current of an ABSENT port has stood 500 ms (R119): a reader returns; a keypad returns if it announced, and else
waits for its announce. -/
def returnRunsOut (p : Pos) (k : PortKind) (s : State) : State :=
  let r := s.port p k
  match r.returnChecks with
  | some c =>
    if r.state = .absent && c.standing = .counting then
      if k = .reader || c.announceSeen then deviceReturns p k s
      else s.modPort p k fun r => { r with returnChecks := some { c with standing := .reached } }
    else s
  | none => s

/-! ### The announce (R68, R116, R119) -/

/-- The power supervisor is told that a keypad announced (R68, R116, R119). An announce that came before an ABSENT port
entered ABSENT, though it is taken after, does not count for the return (R119, R121; log 29). -/
def announceTold (p : Pos) (early : Bool) (s : State) : State :=
  let r := s.port p .keypad
  match r.state with
  | .starting =>
    match r.readiness with
    | some c =>
      let s := s.modPort p .keypad fun r => { r with readiness := some { c with announceSeen := true } }
      if c.currentSeen then portReady p .keypad s else s
    | none => s
  | .absent =>
    match r.returnChecks with
    | some c =>
      if early then s
      else
        let s := s.modPort p .keypad fun r => { r with returnChecks := some { c with announceSeen := true } }
        if c.standing = .reached then deviceReturns p .keypad s else s
    | none => s
  | _ => s

/-- A keypad announces (R67, R68): both flags are copied, and the supervisor is told while the port is STARTING or
ABSENT. -/
def announced (p : Pos) (display beeper early : Bool) (s : State) : State :=
  match (s.pos p).keypad.state with
  | .off | .fault => s
  | _ => announceTold p early (s.modKey p fun u => { u with display := display, beeper := beeper })

/-! ### Switching (R112 to R114) -/

/-- POWER on takes one port (R112). -/
def powerOnPort (s : State) (i : PortId) : State :=
  match (s.port i.pos i.kind).state with
  | .off | .fault =>
    let s := s.modPort i.pos i.kind (PortRecord.switchOff .starting)
    { s with powerList := s.powerList ++ [i] }
  | _ => s

/-- POWER off takes one port (R113). -/
def powerOffPort (s : State) (i : PortId) : State :=
  match (s.port i.pos i.kind).state with
  | .off => s
  | _ =>
    let s := { s with powerList := s.powerList.filter (· ≠ i) }
    portLost i.pos i.kind .off (s.modPort i.pos i.kind (PortRecord.switchOff .off))

/-- The stagger has passed at a clock reading, or no port has been switched on since the start (R114). -/
def staggerPassed (s : State) (now : Nat) : Bool :=
  match s.lastSwitchOn with
  | none => true
  | some last => s.settings.live.stagger.toNat ≤ now - last

/-- A switch-on decision (R114): when the stagger has passed, the head port of the power-up list is switched on. -/
def switchOnHead (now : Nat) (s : State) : State :=
  match s.powerList with
  | [] => s
  | i :: rest =>
    if staggerPassed s now then
      let s := { s with powerList := rest, lastSwitchOn := some now }
      s.modPort i.pos i.kind fun r =>
        { r with switchedOn := true, readiness := some { inrush := true, currentSeen := false, announceSeen := false } }
    else s

/-! ### The card-present line (R26, R128, R134, R141) -/

/-- The card-present line rises. -/
def cardRises (p : Pos) (s : State) : State :=
  let s := s.modPos p fun v => { v with cardLine := true }
  if (s.pos p).reader.state = .ready && !(s.pos p).cardPresent then takeCardLine p s else s

/-- What a fall of the card-present line ends (R13, R14, R64, R128): a waiting latch request is withdrawn, a removal wait
is over. -/
def cardFallEnds (p : Pos) (s : State) : State :=
  match (s.pos p).work with
  | some .latch => endStep p .cardWithdrawn .nothing s
  | some (.screenHold i text flags) =>
    endStep p .screened (.card { text := text, flags := flags, entryId := some i, hold := .notHeld }) s
  | some (.removal _) => endStep p .done .nothing s
  | _ => s

/-- The card-present line falls. The PRESENCE report is produced before the report of a step the fall ends (log 14). -/
def cardFalls (p : Pos) (s : State) : State :=
  let s := s.modPos p fun v => { v with cardLine := false }
  if (s.pos p).reader.state = .ready && (s.pos p).cardPresent then
    let s := s.modPos p fun v =>
      { v with cardPresent := false, cardLeftTimer := .stopped, cardLeftRaised := false }
    cardFallEnds p (presenceChange p false s)
  else s

/-- The card-left timer runs out (R26). -/
def cardLeftRunsOut (p : Pos) (s : State) : State :=
  let v := s.pos p
  if v.cardLeftTimer.isRunning then
    let s := s.modPos p fun v => { v with cardLeftTimer := .stopped, cardLeftRaised := true }
    if v.cardLeftRaised then s else raise .cardLeft (some p) s
  else s

/-! ### Step timers (R14, R16) -/

/-- The removal timeout of a RELEASE CARD runs out (R14). -/
def removalRunsOut (p : Pos) (s : State) : State :=
  match (s.pos p).work with
  | some (.removal t) => if t.isRunning then endStep p .timeout .nothing s else s
  | _ => s

/-- The timer of a PAUSE runs out (R16). -/
def pauseRunsOut (p : Pos) (s : State) : State :=
  match (s.pos p).work with
  | some (.pause t) => if t.isRunning then endStep p .done .nothing s else s
  | _ => s

/-! ### Meanings -/

/-- ANNOUNCE (R68). -/
def execAnnounce (p : Pos) (flags : AnnounceFlags) (early : Bool) (s : State) : Host.Outcome State Fault Refusal :=
  atPosition p s fun s => settle (announced p flags.display flags.beeper early s)

/-- KEYPAD_LINE_ERROR (R67). The byte is read by its class (R173); a byte of a known class is taken as what it is. -/
def execKeypadLineError (p : Pos) (b : Byte) (s : State) : Host.Outcome State Fault Refusal :=
  atPosition p s fun s =>
    match keypadClass b with
    | .other => settle (lineError p s)
    | .press code => keyPressed p code s
    | .release code => settle (keyReleased p code s)
    | .announce display beeper => settle (announced p display beeper false s)
    | .acknowledge => settle (acknowledged p s)

/-- PORT_SWITCH_ON (R114). -/
def execPortSwitchOn (now : Nat) (s : State) : Host.Outcome State Fault Refusal := .next (switchOnHead now s)

/-- PORT_CURRENT_CHANGE (R110, R115 to R119). -/
def execPortCurrentChange (p : Pos) (k : PortKind) (mA : Nat) (s : State) : Host.Outcome State Fault Refusal :=
  atPosition p s fun s => settle (currentChanges p k mA s)

/-- INRUSH_ALLOWANCE_END (R115 to R117). -/
def execInrushAllowanceEnd (p : Pos) (k : PortKind) (s : State) : Host.Outcome State Fault Refusal :=
  atPosition p s fun s => settle (inrushEnds p k s)

/-- READINESS_TIMEOUT (R115, R116). -/
def execReadinessTimeout (p : Pos) (k : PortKind) (s : State) : Host.Outcome State Fault Refusal :=
  atPosition p s fun s => settle (readinessRunsOut p k s)

/-- ANNOUNCE_TIMEOUT (R116). -/
def execAnnounceTimeout (p : Pos) (s : State) : Host.Outcome State Fault Refusal :=
  atPosition p s fun s => settle (announceRunsOut p s)

/-- OVER_TIME_TRIP (R117). -/
def execOverTimeTrip (p : Pos) (k : PortKind) (s : State) : Host.Outcome State Fault Refusal :=
  atPosition p s fun s => settle (overTrips p k s)

/-- UNDER_TIME_EXPIRY (R118). -/
def execUnderTimeExpiry (p : Pos) (k : PortKind) (s : State) : Host.Outcome State Fault Refusal :=
  atPosition p s fun s => settle (underRunsOut p k s)

/-- RETURN_TIME_EXPIRY (R119). -/
def execReturnTimeExpiry (p : Pos) (k : PortKind) (s : State) : Host.Outcome State Fault Refusal :=
  atPosition p s fun s => settle (returnRunsOut p k s)

/-- CARD_PRESENT_RISES (R26, R141). -/
def execCardPresentRises (p : Pos) (s : State) : Host.Outcome State Fault Refusal :=
  atPosition p s fun s => settle (cardRises p s)

/-- CARD_PRESENT_FALLS (R128, R134). -/
def execCardPresentFalls (p : Pos) (s : State) : Host.Outcome State Fault Refusal :=
  atPosition p s fun s => settle (cardFalls p s)

/-- CARD_LEFT_TIMEOUT (R26). -/
def execCardLeftTimeout (p : Pos) (s : State) : Host.Outcome State Fault Refusal :=
  atPosition p s fun s => settle (cardLeftRunsOut p s)

/-- REMOVAL_TIMEOUT (R14). -/
def execRemovalTimeout (p : Pos) (s : State) : Host.Outcome State Fault Refusal :=
  atPosition p s fun s => settle (removalRunsOut p s)

/-- PAUSE_TIMER_EXPIRY (R16). -/
def execPauseTimerExpiry (p : Pos) (s : State) : Host.Outcome State Fault Refusal :=
  atPosition p s fun s => settle (pauseRunsOut p s)

/-- LATCH_CEILING_TIMEOUT (R131). -/
def execLatchCeilingTimeout (p : Pos) (s : State) : Host.Outcome State Fault Refusal :=
  atPosition p s fun s => settle (ceilingRunsOut p s)

/-- RE_ENERGIZE_TIMEOUT (R133). -/
def execReEnergizeTimeout (p : Pos) (s : State) : Host.Outcome State Fault Refusal :=
  atPosition p s fun s => settle (reEnergizeRunsOut p s)

end Sys2Proof.Machine
end

