-- ==== Sys2Proof/Machine/Store.lean ====
section
/-! DEFINITION. The settings block's store and the starts (chapter 10; R27, R142, R156, R166), with the meanings of
COLD_START, WARM_START, START_COMPLETE and STORE_WRITE_END. -/

namespace Sys2Proof.Machine

/-! ### The end of a store write (R184, R188) -/

/-- A value other than the one written (R184: a failed verify); which one is the free value (log 8). -/
def otherWord (written free : Word) : Word := if free = written then written + 1 else free

/-- A passcode other than the one written (R184; log 8). -/
def otherPasscode (written free : Vector Byte 8) : Vector Byte 8 :=
  if free = written then free.set 0 (free[0] + 1) else free

/-- The store after a job whose verify was good (R184). -/
def jobGood (j : StoreJob) (t : StoreImage) : StoreImage :=
  match j with
  | .item n index w => { t.write n index w with checkGood := true }
  | .passcode d => { t with passcode := d, checkGood := true }
  | .lockFlag => { t with lockFlag := true }

/-- The store after a job whose verify failed, with the n-th free value (R184). A lock leaves the flag as it was (log 16). -/
def jobFailed (n : Nat) (j : StoreJob) (t : StoreImage) : StoreImage :=
  match j with
  | .item i index w => { t.write i index (otherWord w (Config.freeWord n)) with checkGood := false }
  | .passcode d => { t with passcode := otherPasscode d (Config.freePasscode n), checkGood := false }
  | .lockFlag => t

/-- The store after a job that a cold start cut off: the item holds an indeterminate value and the check does not match;
a lock leaves the flag as it was (R188). -/
def jobCut (n : Nat) (j : StoreJob) (t : StoreImage) : StoreImage :=
  match j with
  | .item i index _ => { t.write i index (Config.freeWord n) with checkGood := false }
  | .passcode _ => { t with passcode := Config.freePasscode n, checkGood := false }
  | .lockFlag => t

/-- The job in progress ends with its verify (R184): the store, the last write result and store state. -/
def endJob (good : Bool) (j : StoreJob) (s : State) : State :=
  { s with
    freeCount := s.freeCount + 1
    settings := { s.settings with
      store := if good then jobGood j s.settings.store else jobFailed s.freeCount j s.settings.store
      job := none
      lastWrite := if good then .done else .fault } }

/-! ### The load (R187) -/

/-- Position items as loaded: items 10 and 11 clamped into their windows (R110, R187). -/
def loadPosItems (t : PosItems) : PosItems :=
  { t with readerUpper := clampItem 10 t.readerUpper, keypadUpper := clampItem 11 t.keypadUpper }

/-- Item 7 is taken down to item 8 if it stands above it (R187). -/
def interlock7 (t : DeviceItems) : DeviceItems :=
  if t.accountMax.toNat < t.accountMin.toNat then { t with accountMin := t.accountMax } else t

/-- The other items as loaded: every numeric item clamped into its range, then items 7 and 8 interlocked (R187). -/
def loadDeviceItems (t : DeviceItems) : DeviceItems :=
  interlock7
    { t with
      longPress := clampItem 3 t.longPress
      leftCard := clampItem 4 t.leftCard
      attempts := clampItem 5 t.attempts
      stagger := clampItem 6 t.stagger
      accountMin := clampItem 7 t.accountMin
      accountMax := clampItem 8 t.accountMax
      latchBudget := clampItem 12 t.latchBudget
      latchCeiling := clampItem 13 t.latchCeiling
      reEnergize := clampItem 14 t.reEnergize
      boundary := clampItem 16 t.boundary
      unlockLimit := clampItem 18 t.unlockLimit }

/-- Every position's live items become the ones given (R187). -/
def setPosItems (t : PosItems) (s : State) : State :=
  { s with positions := Vector.ofFn fun p => { s.pos p with items := t } }

/-- The store is loaded (R187): live settings from the store when its check is good, and from the factory section with
STORE_FAULT when it is not. The write-enable latch is cleared and supervisor access locked. -/
def loadSettings (s : State) : State :=
  let g := s.settings
  let g := { g with
    storeLocked := g.store.lockFlag, writeEnable := false, unlocked := false, lastWrite := .nothing, loadPending := false,
    loadGood := g.store.checkGood }
  if g.store.checkGood then
    setPosItems (loadPosItems g.store.posItems)
      { s with settings := { g with live := loadDeviceItems g.store.deviceItems, passcode := g.store.passcode } }
  else
    raise .storeFault none
      (setPosItems factoryPosItems
        { s with settings := { g with live := factoryDeviceItems, passcode := factoryPasscode } })

/-- The load of a cold start: the failed-attempt count and lockout are cleared too (R187). -/
def loadCold (s : State) : State :=
  loadSettings { s with settings := { s.settings with failedCount := 0, lockout := false } }

/-- The load of a warm start: the failed-attempt count and lockout are kept, and a lockout raises
SUPERVISOR_LOCKOUT again (R187). -/
def loadWarm (s : State) : State :=
  let s := loadSettings s
  if s.settings.lockout then raise .supervisorLockout none s else s

/-! ### Starts (R27, R109, R122, R142, R144, R152, R156, R166) -/

/-- Every block but the settings block takes its start values; the card-present lines are pins and keep their level. -/
def resetBlocks (s : State) : State :=
  { s with
    positions := Vector.ofFn fun p => startedPosition (s.pos p).items (s.pos p).cardLine
    freeRecords := Config.poolSize
    powerList := []
    lastSwitchOn := none
    energized := []
    latchWait := []
    queue := []
    waitOrder := []
    noticeReport := .absent
    notices := startedNotices
    deviceCounters := #v[0, 0, 0, 0]
    screening := startedScreening
    link := {} }

/-- A store write in progress is cut off by a cold start (R188). -/
def cutJob (s : State) : State :=
  match s.settings.job with
  | none => s
  | some j =>
    { s with
      freeCount := s.freeCount + 1
      settings := { s.settings with store := jobCut s.freeCount j s.settings.store, job := none } }

/-- A cold start (R27, R166, R187, R188). -/
def coldStarted (s : State) : State := loadCold (cutJob (resetBlocks s))

/-- A warm start (R27, R165, R187, R188): the load waits for a store write in progress. -/
def warmStarted (s : State) : State :=
  let s := resetBlocks s
  match s.settings.job with
  | none => loadWarm s
  | some _ => { s with settings := { s.settings with loadPending := true, writeEnable := false, unlocked := false } }

/-- The RESTART reply is being sent (R165): restarting is yes and its reply has left the slot for the transmitter. -/
def restartReplyOut (s : State) : Bool :=
  s.link.restarting && s.link.slot.isNone && s.link.transmitter.isSome

/-- The moment the last byte of the RESTART reply has been sent: the warm start begins (R165). -/
def restartReplySent (s : State) : State := if restartReplyOut s then warmStarted s else s

/-- The load has ended (R188): START_COMPLETE is raised and start complete becomes yes. -/
def startCompletes (s : State) : State :=
  if s.link.startComplete || s.settings.loadPending then s
  else raise .startComplete none { s with link := { s.link with startComplete := true } }

/-- A store write or lock ends (R184); during a warm start it ends without a notice, and the load follows (R188). -/
def storeWriteEnds (good : Bool) (s : State) : State :=
  match s.settings.job with
  | none => s
  | some j =>
    if s.settings.loadPending then loadWarm (endJob good j s)
    else raise (if good then .storeDone else .storeFault) none (endJob good j s)

/-! ### Meanings -/

/-- COLD_START (R166). -/
def execColdStart (s : State) : Host.Outcome State Fault Refusal := .next (settle (coldStarted s))

/-- WARM_START (R165). -/
def execWarmStart (s : State) : Host.Outcome State Fault Refusal := .next (settle (restartReplySent s))

/-- START_COMPLETE (R188). -/
def execStartComplete (s : State) : Host.Outcome State Fault Refusal := .next (settle (startCompletes s))

/-- STORE_WRITE_END (R184). -/
def execStoreWriteEnd (good : Bool) (s : State) : Host.Outcome State Fault Refusal :=
  .next (settle (storeWriteEnds good s))

end Sys2Proof.Machine
end

