-- ==== Sys2Proof/Machine/Requests.lean ====
section
/-! DEFINITION. The request handler: what each request kind does and answers (R6, R7, R21, R22, R25, R54 to R57, R111,
R148 to R150, R154, R160, R164, R165, R176 to R186), with the reply layouts of R172. -/

namespace Sys2Proof.Machine

/-- What the handler leaves and answers: the state, the result code and the bytes after it. -/
structure Answer where
  state : State
  code : ResultCode
  fields : List Byte := []

/-- A refusal that changes nothing and carries its result code alone (R160, R172). -/
def refuse (s : State) (c : ResultCode) : Answer := { state := s, code := c }

/-! ### Chapter 1 -/

/-- The records of a POST are appended (R7): an IDLE chain becomes RUNNING. -/
def appendRecords (p : Pos) (rs : List StepRecord) (s : State) : State :=
  let s := { s with freeRecords := s.freeRecords - rs.length }
  s.modPos p fun v =>
    { v with
      chain := v.chain ++ rs
      chainState := if v.chainState = .idle then .running else v.chainState }

/-- POST at a position (R6, R7). -/
def handlePost (p : Pos) (payload : List Byte) (s : State) : Answer :=
  match postRecords payload with
  | none => refuse s .badArg
  | some rs =>
    let c := (s.pos p).chain.length
    if s.freeRecords < rs.length || Config.chainLimit < c + rs.length then
      { state := s, code := .noRoom, fields := [0, byteOf c, byteOf s.freeRecords, 0, 0] }
    else
      { state := appendRecords p (rs.map Prod.fst) s, code := .ok,
        fields := [byteOf rs.length, byteOf (c + rs.length), byteOf (s.freeRecords - rs.length)] ++
          wordBytes (wordOfNat (markBits (rs.map Prod.snd))) }

/-- A record that has started. -/
def StepRecord.started (r : StepRecord) : Bool := r.progress.isSome

/-- Every unstarted record of a chain is freed, and a HALTED chain becomes IDLE (R22). -/
def dropUnstarted (p : Pos) (s : State) : State :=
  let v := s.pos p
  let dropped := v.chain.countP fun r => !r.started
  let s := { s with freeRecords := s.freeRecords + dropped }
  s.modPos p fun v =>
    { v with
      chain := v.chain.filter StepRecord.started
      chainState := if v.chainState = .halted then .idle else v.chainState }

/-- The step in flight as a CANCEL finds it (R22, R23): aborted, or marked so that no halt follows. -/
def cancelHead (p : Pos) (s : State) : State :=
  match (s.pos p).headProgress with
  | some (.completing o d _) => s.setProgress p (.completing o d true)
  | some _ => endStep p .aborted .nothing s
  | none => s

/-- The in-flight indicator of a CANCEL reply (R22, R172). -/
def inFlightCode (v : Position) : Byte :=
  match v.headProgress with
  | some (.completing _ _ _) => 2
  | some _ => 1
  | none => 0

/-- CANCEL at a position (R22). -/
def handleCancel (p : Pos) (payload : List Byte) (s : State) : Answer :=
  if payload ≠ [] then refuse s .badArg
  else
    let v := s.pos p
    { state := cancelHead p (dropUnstarted p s), code := .ok,
      fields := [byteOf (v.chain.countP fun r => !r.started), inFlightCode v] }

/-- RESUME at a position (R21): its head, if any, is due to start. The reply gives the chain state as the chain leaves the
halt, before the head starts, also where that head then ends at once (DESIGN CHOICE, log 30). A payload is refused BADARG before
the chain state is looked at (DESIGN CHOICE, log 36). -/
def handleResume (p : Pos) (payload : List Byte) (s : State) : Answer :=
  if payload ≠ [] then refuse s .badArg
  else
    let v := s.pos p
    if v.chainState = .halted then
      let cs : ChainState := if v.chain.isEmpty then .idle else .running
      { state := s.modPos p fun v => { v with chainState := cs }, code := .ok, fields := [cs.code] }
    else refuse s .state

/-- The fields of a QUERY reply (R25, R172). -/
def queryFields (v : Position) (free : Nat) : List Byte :=
  let headBytes := match v.chain with
    | [] => [0, 0, 0xFF]
    | r :: _ => [r.params.kind.code, r.tag, Progress.code r.progress]
  [v.chainState.code, byteOf v.chain.length] ++ headBytes ++
    [v.reader.state.code, v.keypad.state.code, flagByte v.cardPresent, v.latchState.code, byteOf v.entry.buffer.length,
      byteOf free]

/-- QUERY at a position (R25). -/
def handleQuery (p : Pos) (payload : List Byte) (s : State) : Answer :=
  if payload ≠ [] then refuse s .badArg
  else { state := s, code := .ok, fields := queryFields (s.pos p) s.freeRecords }

/-! ### Chapter 6 -/

/-- The fields of a POWER reply (R111, R172). -/
def powerFields (s : State) : List Byte :=
  (s.partPos.flatMap fun p => [(s.pos p).reader.state.code, (s.pos p).keypad.state.code]) ++ [byteOf s.powerList.length]

/-- POWER (R111 to R113): the ports named are taken one after another (log 12). -/
def handlePower (payload : List Byte) (s : State) : Answer :=
  match payload with
  | [mask, kind, action] =>
    match powerKinds kind with
    | none => refuse s .badArg
    | some ks =>
      let ports := powerPorts s.variant mask ks
      if action = 1 then
        let t := ports.foldl powerOnPort s
        { state := t, code := .ok, fields := powerFields t }
      else if action = 0 then
        let t := ports.foldl powerOffPort s
        { state := t, code := .ok, fields := powerFields t }
      else refuse s .badArg
  | _ => refuse s .badArg

/-! ### Chapter 10: SET and GET -/

/-- The item's scope suits what the request addresses (R176, R177). -/
def scopeSuits (n : Nat) : Target → Bool
  | .position _ => itemScope n = .position
  | .device => itemScope n ≠ .position
  | .bad => false

/-- The item is protected and the supervisor LOCKED (R176, R178). -/
def protectedNow (g : Settings) (n : Nat) : Bool := g.live.boundary.toNat ≤ n && !g.unlocked

/-- The interlock of items 7 and 8 at a SET (R176). -/
def interlocked (live : DeviceItems) (n : Nat) (w : Word) : Word :=
  if n = 7 ∧ live.accountMax.toNat < w.toNat then live.accountMax
  else if n = 8 ∧ w.toNat < live.accountMin.toNat then live.accountMin
  else w

/-- The value a SET applies: clamped, then interlocked (R176). -/
def setValue (live : DeviceItems) (n : Nat) (w : Word) : Word := interlocked live n (clampItem n w)

/-- The live value of an item, at the position addressed for a position item (R176, R177). -/
def liveValue (s : State) (t : Target) (n index : Nat) : Word :=
  match t with
  | .position p => (s.pos p).items.read n
  | _ => s.settings.live.read n index

/-- A live value is written, and what a SET sets off at once follows: the over-time of a port for items 10 and 11 (R110,
R117), a grant decision for item 12 (R126, R127). -/
def applySet (t : Target) (n index : Nat) (w : Word) (s : State) : State :=
  match t with
  | .position p =>
    let s := s.modPos p fun v => { v with items := v.items.write n w }
    if n = 10 then s.modPort p .reader (PortRecord.watchOver ((s.pos p).upperLimit .reader))
    else if n = 11 then s.modPort p .keypad (PortRecord.watchOver ((s.pos p).upperLimit .keypad))
    else s
  | _ =>
    let s := { s with settings := { s.settings with live := s.settings.live.write n index w } }
    if n = 12 then grantDecision s else s

/-- SET (R176). -/
def handleSet (t : Target) (payload : List Byte) (s : State) : Answer :=
  match payload with
  | [item, index, lo, hi] =>
    let n := item.toNat
    let w := wordOf lo hi
    if 19 < n || !indexOk n index.toNat then refuse s .badArg
    else if !scopeSuits n t then refuse s .badPos
    else if itemScope n = .storeOnly then refuse s .badArg
    else if protectedNow s.settings n then refuse s .denied
    else if !inItemSet n w then refuse s .badArg
    else
      let v := setValue s.settings.live n w
      { state := applySet t n index.toNat v s, code := .ok,
        fields := [item, index] ++ wordBytes v ++ [flagByte (v != w)] }
  | _ => refuse s .badArg

/-- Reading an item is refused by read protection (R177, R185). -/
def readProtected (g : Settings) (n : Nat) : Bool := g.live.readProtect = 1 && protectedNow g n

/-- GET (R177). -/
def handleGet (t : Target) (payload : List Byte) (s : State) : Answer :=
  match payload with
  | [item, index] =>
    let n := item.toNat
    if 19 < n || !indexOk n index.toNat then refuse s .badArg
    else if !scopeSuits n t then refuse s .badPos
    else if n = 19 then refuse s .badArg
    else if readProtected s.settings n then refuse s .denied
    else { state := s, code := .ok, fields := [item, index] ++ wordBytes (liveValue s t n index.toNat) }
  | _ => refuse s .badArg

/-! ### Chapter 8: notices and counters -/

/-- The set of classes for which `f` holds, as 16 bits (R169). -/
def classSet (ns : Vector ClassRecord 15) (f : ClassRecord → Bool) : Word :=
  wordOfNat (markBits (allClasses.map fun i => f ns[i]))

/-- The fields of a NOTICE READ reply (R148, R172). -/
def noticeReadFields (ns : Vector ClassRecord 15) : List Byte :=
  wordBytes (classSet ns ClassRecord.enabled) ++ wordBytes (classSet ns ClassRecord.muted) ++
    wordBytes (classSet ns ClassRecord.pending) ++ wordBytes (classSet ns ClassRecord.historyPending) ++
    (allClasses.map fun i => ns[i].positions) ++ (allClasses.map fun i => ns[i].historyPositions)

/-- NOTICE READ (R148). -/
def handleNoticeRead (payload : List Byte) (s : State) : Answer :=
  if payload ≠ [] then refuse s .badArg else { state := s, code := .ok, fields := noticeReadFields s.notices }

/-- A class record after a NOTICE CLEAR that names it (R149). -/
def ClassRecord.cleared (r : ClassRecord) : ClassRecord :=
  { r with pending := false, positions := 0, historyPending := r.pending, historyPositions := r.positions }

/-- The records after a change of each class by its number. -/
def mapClasses (f : Fin 15 → ClassRecord → ClassRecord) (ns : Vector ClassRecord 15) : Vector ClassRecord 15 :=
  Vector.ofFn fun i => f i ns[i]

/-- The set names a class above 14 (R149, R150). -/
def namesNoClass (w : Word) : Bool := w.getLsbD 15

/-- NOTICE CLEAR (R149). -/
def handleNoticeClear (payload : List Byte) (s : State) : Answer :=
  match payload with
  | [lo, hi] =>
    let w := wordOf lo hi
    if namesNoClass w then refuse s .badArg
    else
      { state := { s with notices := mapClasses (fun i r => if w.getLsbD i.val then r.cleared else r) s.notices },
        code := .ok,
        fields := wordBytes (classSet s.notices ClassRecord.pending &&& w) }
  | _ => refuse s .badArg

/-- The classes that cannot be disabled: PORT_FAULT, LATCH_OVERRUN, STORE_FAULT, SUPERVISOR_LOCKOUT (R144, R150). -/
def neverDisabled : Word := 0x6012

/-- A class record after a NOTICE CONTROL: enabled or disabled, muted or unmuted (R150). -/
def ClassRecord.control (en dis mu un : Bool) (r : ClassRecord) : ClassRecord :=
  { r with
    enabled := if en then true else if dis then false else r.enabled
    muted := if mu then true else if un then false else r.muted }

/-- NOTICE CONTROL's effect (R150): the classes' new settings, and a NOTICE report asked for when a class named in unmute
is pending (log 23). -/
def controlNotices (en dis mu un : Word) (s : State) : State :=
  let change (i : Fin 15) (r : ClassRecord) : ClassRecord :=
    r.control (en.getLsbD i.val) (dis.getLsbD i.val) (mu.getLsbD i.val) (un.getLsbD i.val)
  let t := { s with notices := mapClasses change s.notices }
  if classSet t.notices ClassRecord.pending &&& un ≠ 0 then askNotice t else t

/-- NOTICE CONTROL (R150). -/
def handleNoticeControl (payload : List Byte) (s : State) : Answer :=
  match payload with
  | [e0, e1, d0, d1, m0, m1, u0, u1] =>
    let en := wordOf e0 e1
    let dis := wordOf d0 d1
    let mu := wordOf m0 m1
    let un := wordOf u0 u1
    if namesNoClass en || namesNoClass dis || namesNoClass mu || namesNoClass un then refuse s .badArg
    else if en &&& dis ≠ 0 || mu &&& un ≠ 0 then refuse s .badArg
    else if dis &&& neverDisabled ≠ 0 then refuse s .badArg
    else
      let t := controlNotices en dis mu un s
      { state := t, code := .ok,
        fields := wordBytes (classSet t.notices ClassRecord.enabled) ++ wordBytes (classSet t.notices ClassRecord.muted) }
  | _ => refuse s .badArg

/-- Counters as 16-bit fields. -/
def counterFields (cs : List Nat) : List Byte := cs.flatMap fun n => wordBytes (wordOfNat n)

/-- The counters a COUNTERS addresses (R154). -/
def readCounters (t : Target) (s : State) : List Nat :=
  match t with
  | .position p => (s.pos p).counters.toList
  | _ => s.deviceCounters.toList

/-- The counters a COUNTERS addresses are set to 0 (R154). -/
def clearCounters (t : Target) (s : State) : State :=
  match t with
  | .position p => s.modPos p fun v => { v with counters := #v[0, 0, 0, 0, 0, 0, 0, 0] }
  | _ => { s with deviceCounters := #v[0, 0, 0, 0] }

/-- COUNTERS (R154). -/
def handleCounters (t : Target) (payload : List Byte) (s : State) : Answer :=
  match payload with
  | [flag] =>
    if flag = 0 then { state := s, code := .ok, fields := counterFields (readCounters t s) }
    else if flag = 1 then { state := clearCounters t s, code := .ok, fields := counterFields (readCounters t s) }
    else refuse s .badArg
  | _ => refuse s .badArg

/-! ### Chapter 3 -/

/-- Segments as skip and take bytes. -/
def segmentsOf : List Byte → List ScreenSegment
  | skip :: take :: more => { skip := skip.toNat, take := take.toNat } :: segmentsOf more
  | _ => []

/-- Skip and take bytes of segments (R172). -/
def segmentBytes (gs : List ScreenSegment) : List Byte := gs.flatMap fun g => [byteOf g.skip, byteOf g.take]

/-- The action byte of a screening entry (R169). -/
def ScreenAction.code : ScreenAction → Byte
  | .report => 0
  | .hold => 1

/-- The entry of a SCREEN LOAD payload with its id and its segments as sent, where it passes the BADARG checks (R54). -/
def loadedEntry (payload : List Byte) : Option (Fin 16 × ScreenAction × List ScreenSegment × Word) :=
  match payload with
  | id :: action :: count :: dlo :: dhi :: segs =>
    if h : id.toNat < 16 then
      if segs.length = 2 * count.toNat && 1 ≤ count.toNat && count.toNat ≤ 4 && action.toNat ≤ 1 then
        some (⟨id.toNat, h⟩, if action = 0 then .report else .hold, segmentsOf segs, wordOf dlo dhi)
      else none
    else none
  | _ => none

/-- SCREEN LOAD (R54, R55). -/
def handleScreenLoad (payload : List Byte) (s : State) : Answer :=
  if !s.settings.unlocked then refuse s .denied
  else
    match loadedEntry payload with
    | none => refuse s .badArg
    | some (i, action, sent, digest) =>
      let kept := sent.map clampSegment
      let table := s.screening.set i (some { action := action, segments := kept, digest := digest })
      { state := { s with screening := table }, code := .ok,
        fields := [flagByte s.screening[i].isSome, byteOf kept.length] ++ segmentBytes kept ++
          [byteOf (markBits (sent.map fun g => clampSegment g != g)), byteOf (entryCount table)] }

/-- SCREEN DROP (R56). -/
def handleScreenDrop (payload : List Byte) (s : State) : Answer :=
  if !s.settings.unlocked then refuse s .denied
  else
    match payload with
    | [lo, hi] =>
      let w := wordOf lo hi
      let table := Vector.ofFn fun i : Fin 16 => if w.getLsbD i.val then none else s.screening[i]
      let removed := wordOfNat (markBits (allIds.map fun i => w.getLsbD i.val && s.screening[i].isSome))
      { state := { s with screening := table }, code := .ok, fields := wordBytes removed ++ [byteOf (entryCount table)] }
    | _ => refuse s .badArg

/-- An entry as a SCREEN LIST reply gives it (R172). -/
def entryBytes (i : Fin 16) (e : ScreenEntry) : List Byte :=
  [byteOf i.val, e.action.code, byteOf e.segments.length] ++ wordBytes e.digest ++ segmentBytes e.segments

/-- The fields of a SCREEN LIST reply from a start id: up to four entries and the next id (R57, R172). -/
def screenListFields (table : Vector (Option ScreenEntry) 16) (start : Nat) : List Byte :=
  let from' := allIds.filter fun i => start ≤ i.val && table[i].isSome
  let next : Byte := match (from'.drop 4).head? with
    | some i => byteOf i.val
    | none => 0xFF
  [byteOf (entryCount table), byteOf (from'.take 4).length, next] ++
    (from'.take 4).flatMap fun i => match table[i] with
      | some e => entryBytes i e
      | none => []

/-- SCREEN LIST (R57). -/
def handleScreenList (payload : List Byte) (s : State) : Answer :=
  match payload with
  | [start] =>
    if 15 < start.toNat then refuse s .badArg
    else { state := s, code := .ok, fields := screenListFields s.screening start.toNat }
  | _ => refuse s .badArg

/-! ### Chapter 10: supervisor access and the store -/

/-- A passcode byte is a digit '0' to '9' (R175, R179). -/
def isDigitByte (b : Byte) : Bool := 0x30 ≤ b.toNat && b.toNat ≤ 0x39

/-- The passcode of 8 digit bytes (R169, R179). -/
def passcodeOf (payload : List Byte) : Option (Vector Byte 8) :=
  match payload with
  | [a, b, c, d, e, f, g, h] => if payload.all isDigitByte then some #v[a, b, c, d, e, f, g, h] else none
  | _ => none

/-- A wrong passcode (R179): the count rises, and at the attempt limit lockout is set and SUPERVISOR_LOCKOUT raised. -/
def wrongPasscode (s : State) : State :=
  let n := min 255 (s.settings.failedCount + 1)
  let limit := s.settings.live.unlockLimit.toNat
  let s := { s with settings := { s.settings with failedCount := n } }
  if limit ≠ 0 && limit ≤ n then
    raise .supervisorLockout none { s with settings := { s.settings with lockout := true } }
  else s

/-- UNLOCK (R179). -/
def handleUnlock (payload : List Byte) (s : State) : Answer :=
  match passcodeOf payload with
  | none => refuse s .badArg
  | some code =>
    if s.settings.lockout then refuse s .locked
    else if code = s.settings.passcode then
      { state := { s with settings := { s.settings with unlocked := true, failedCount := 0 } }, code := .ok }
    else { state := wrongPasscode s, code := .denied }

/-- LOCK (R180). -/
def handleLock (payload : List Byte) (s : State) : Answer :=
  if payload ≠ [] then refuse s .badArg
  else { state := { s with settings := { s.settings with unlocked := false, writeEnable := false } }, code := .ok }

/-- STORE ENABLE (R181). -/
def handleStoreEnable (payload : List Byte) (s : State) : Answer :=
  let g := s.settings
  if payload ≠ [] then refuse s .badArg
  else if g.storeLocked then refuse s .locked
  else if g.job.isSome then refuse s .busy
  else if !g.unlocked then refuse s .denied
  else { state := { s with settings := { g with writeEnable := true } }, code := .ok }

/-- A refusal BADARG of STORE WRITE or STORE LOCK clears the write-enable latch (R181 to R183). -/
def refuseClearing (s : State) : Answer :=
  refuse { s with settings := { s.settings with writeEnable := false } } .badArg

/-- The checks of a store write after its payload, and its beginning (R182, R183): an item write makes the store check
not match until it ends (R184). -/
def beginJob (j : StoreJob) (fields : List Byte) (s : State) : Answer :=
  let g := s.settings
  if g.storeLocked then refuse s .locked
  else if g.job.isSome then refuse s .busy
  else if !g.unlocked || !g.writeEnable then refuse s .denied
  else
    let store := if j = .lockFlag then g.store else { g.store with checkGood := false }
    { state := { s with settings := { g with writeEnable := false, job := some j, store := store } }, code := .ok,
      fields := fields }

/-- STORE WRITE (R182). -/
def handleStoreWrite (payload : List Byte) (s : State) : Answer :=
  match payload with
  | item :: index :: value =>
    let n := item.toNat
    if n = 19 then
      match passcodeOf value with
      | some code => if index = 0 then beginJob (.passcode code) [item, index] s else refuseClearing s
      | none => refuseClearing s
    else
      match value with
      | [lo, hi] =>
        let w := wordOf lo hi
        if 19 < n || !indexOk n index.toNat || !inItemSet n w then refuseClearing s
        else
          let v := clampItem n w
          beginJob (.item n index.toNat v) ([item, index] ++ wordBytes v ++ [flagByte (v != w)]) s
      | _ => refuseClearing s
  | _ => refuseClearing s

/-- STORE LOCK (R183). -/
def handleStoreLock (payload : List Byte) (s : State) : Answer :=
  if payload ≠ [] then refuseClearing s else beginJob .lockFlag [] s

/-- STORE READ (R185). -/
def handleStoreRead (payload : List Byte) (s : State) : Answer :=
  match payload with
  | [item, index] =>
    let n := item.toNat
    if 18 < n || !indexOk n index.toNat then refuse s .badArg
    else if s.settings.job.isSome then refuse s .busy
    else if readProtected s.settings n then refuse s .denied
    else { state := s, code := .ok, fields := [item, index] ++ wordBytes (s.settings.store.read n index.toNat) }
  | _ => refuse s .badArg

/-- The fields of a STORE STATUS reply (R186, R172). -/
def statusFields (g : Settings) : List Byte :=
  [flagByte g.job.isSome, flagByte g.writeEnable, flagByte g.storeLocked, flagByte g.store.lockFlag,
    flagByte (!g.loadGood), g.lastWrite.code, flagByte g.unlocked, byteOf g.failedCount, flagByte g.lockout]

/-- STORE STATUS (R186). -/
def handleStoreStatus (payload : List Byte) (s : State) : Answer :=
  if payload ≠ [] then refuse s .badArg else { state := s, code := .ok, fields := statusFields s.settings }

/-! ### Chapter 9 -/

/-- The fields of an IDENTIFY reply (R164, R172). -/
def identifyFields (s : State) : List Byte :=
  [byteOf s.variant.positions, byteOf s.variant.positions, Config.designRevision] ++ Config.uniqueId.toList ++
    [flagByte s.link.startComplete]

/-- IDENTIFY (R164). -/
def handleIdentify (payload : List Byte) (s : State) : Answer :=
  if payload ≠ [] then refuse s .badArg else { state := s, code := .ok, fields := identifyFields s }

/-- RESTART (R165). -/
def handleRestart (payload : List Byte) (s : State) : Answer :=
  if payload ≠ [] then refuse s .badArg
  else { state := { s with link := { s.link with restarting := true } }, code := .ok }

/-- The checks of a request's own rule, with its effects (R160 step 4). Requests of position scope are given the position
they reach. -/
def ownRule (k : RequestKind) (t : Target) (payload : List Byte) (s : State) : Answer :=
  match k, t with
  | .post, .position p => handlePost p payload s
  | .cancel, .position p => handleCancel p payload s
  | .resume, .position p => handleResume p payload s
  | .query, .position p => handleQuery p payload s
  | .post, _ | .cancel, _ | .resume, _ | .query, _ => refuse s .badPos
  | .identify, _ => handleIdentify payload s
  | .power, _ => handlePower payload s
  | .set, t => handleSet t payload s
  | .get, t => handleGet t payload s
  | .noticeRead, _ => handleNoticeRead payload s
  | .noticeClear, _ => handleNoticeClear payload s
  | .noticeControl, _ => handleNoticeControl payload s
  | .counters, t => handleCounters t payload s
  | .screenLoad, _ => handleScreenLoad payload s
  | .screenDrop, _ => handleScreenDrop payload s
  | .screenList, _ => handleScreenList payload s
  | .unlock, _ => handleUnlock payload s
  | .lock, _ => handleLock payload s
  | .storeEnable, _ => handleStoreEnable payload s
  | .storeWrite, _ => handleStoreWrite payload s
  | .storeRead, _ => handleStoreRead payload s
  | .storeLock, _ => handleStoreLock payload s
  | .storeStatus, _ => handleStoreStatus payload s
  | .restart, _ => handleRestart payload s

/-- Every request is checked in the order of R160: KIND, start complete, POS, its own rule. -/
def answer (f : Frame) (s : State) : Answer :=
  match requestKind f.kind with
  | none => { state := s, code := .badKind, fields := [f.kind] }
  | some k =>
    if !s.link.startComplete && k != .identify then refuse s .busy
    else
      match target s.variant k.scope f.pos with
      | .bad => refuse s .badPos
      | t => ownRule k t f.payload s

/-- KIND of the reply (R160): 0x80 added, or 0xFF for an unknown kind. -/
def replyKind (k : Byte) : Byte :=
  match requestKind k with
  | none => 0xFF
  | some _ => k + 0x80

/-- The reply to a request: POS and TAG as received, the result code and the fields (R160, R172). -/
def replyFrame (f : Frame) (a : Answer) : Frame :=
  { kind := replyKind f.kind, pos := f.pos, tag := f.tag, payload := a.code.code :: a.fields }

/-- The request handler takes a frame: the request is handled, its one reply placed in the slot, and a refusal counted
(R159, R160). -/
def takeFrame (f : Frame) (s : State) : State :=
  let a := answer f s
  let s := a.state
  let s := { s with link := { s.link with slot := some (replyFrame f a) } }
  if a.code = .ok then s else countDevice .requestsRefused s

end Sys2Proof.Machine
end

