-- ==== Sys2Proof/Machine/Link.lean ====
section
/-! DEFINITION. The link interface (chapter 9): receiving bytes and frames, taking requests, the end of a sent frame; and the
meanings of the link events and of every request row. -/

namespace Sys2Proof.Machine

/-! ### Taking requests (R159) -/

/-- The oldest waiting frame, where the handler may take it: the reply slot is empty and no restart is under way (R159,
R165). -/
def takeable (s : State) : Option Frame :=
  if s.link.slot.isNone && !s.link.restarting then s.link.buffer.head? else none

/-- The head frame leaves the receive buffer and is taken (R159). -/
def takeHead (f : Frame) (s : State) : State :=
  takeFrame f { s with link := { s.link with buffer := s.link.buffer.tail } }

/-- The handler takes the head frame if it may. -/
def takeDue (s : State) : State :=
  match takeable s with
  | some f => takeHead f s
  | none => s

/-- What is due is done, then the next frame is taken, and so on; the first argument bounds how many frames: the number in
the receive buffer is enough (R159, R167; log 2). -/
def serveFor : Nat → State → State
  | 0, s => settle s
  | n + 1, s =>
    let t := settle s
    match takeable t with
    | some f => serveFor n (takeHead f t)
    | none => t

/-- A link event is followed by the taking of a frame that may be taken, by what becomes due, and so on. -/
def serve (s : State) : State :=
  let t := takeDue s
  serveFor t.link.buffer.length t

/-! ### Receiving (R157, R158) -/

/-- A frame is lost: it counts in frames_discarded and raises LINK_ERROR (R157, R158). -/
def frameLost (s : State) : State := raise .linkError none (countDevice .framesDiscarded s)

/-- The receiver hunts again (R157). -/
def Link.hunt (l : Link) : Link := { l with rx := .hunting, partialFrame := [], gapTimer := .stopped }

/-- A frame whose sum is 0 joins the receive buffer, or is an overrun where the buffer holds 4 (R158). -/
def acceptFrame (f : Frame) (s : State) : State :=
  if s.link.buffer.length < Config.frameLimit then
    countDevice .framesOk { s with link := { s.link with buffer := s.link.buffer ++ [f] } }
  else frameLost s

/-- A byte continues a frame: it is added and the gap timer restarts (R157). -/
def Link.add (l : Link) (rx : RxState) (bytes : List Byte) : Link :=
  { l with rx := rx, partialFrame := bytes, gapTimer := .running Config.frameGapMs }

/-- The LEN byte of a partial frame. -/
def Link.lenByte (l : Link) : Nat := (l.partialFrame.headD 0).toNat

/-- A byte in BODY: it is added, or completes the frame, whose sum is then checked (R157, R158). -/
def bodyByte (b : Byte) (s : State) : State :=
  let bytes := s.link.partialFrame ++ [b]
  if bytes.length < s.link.lenByte + 2 then { s with link := s.link.add .body bytes }
  else
    let t := { s with link := s.link.hunt }
    serve (if sum8 bytes = 0 then acceptFrame (frameOf bytes) t else frameLost t)

/-- A byte arrives on the workstation link (R157). -/
def byteArrives (b : Byte) (s : State) : State :=
  match s.link.rx with
  | .hunting => if b = syncByte then { s with link := s.link.add .length [] } else s
  | .length =>
    if 3 ≤ b.toNat && b.toNat ≤ 64 then { s with link := s.link.add .body [b] }
    else serve (frameLost { s with link := s.link.hunt })
  | .body => bodyByte b s

/-- The frame-gap timer runs out in LENGTH or BODY: the partial frame is abandoned (R157, R158). -/
def frameGap (s : State) : State :=
  if s.link.gapTimer.isRunning && s.link.rx != .hunting then serve (frameLost { s with link := s.link.hunt }) else s

/-- A whole request frame arrives on the link (log 1): on a hunting receiver its bytes complete it, and it is taken at once
or waits; on a receiver in the middle of another frame its bytes are taken one by one. -/
def sendRequest (f : Frame) (s : State) : State :=
  if s.link.rx = .hunting ∧ f.payload.length ≤ Config.payloadLimit then serve (acceptFrame f { s with link := s.link.hunt })
  else f.wire.foldl (fun t b => byteArrives b t) s

/-- The last byte of the frame being sent leaves the transmitter (R167): the arbiter and the handler go on. The last byte of
a RESTART reply begins the warm start (R165). -/
def transmitterDone (s : State) : State :=
  if restartReplyOut s then settle (warmStarted s)
  else
    match s.link.transmitter with
    | none => s
    | some _ => serve { s with link := { s.link with transmitter := none } }

/-- A request frame of the kind given. -/
def request (k : RequestKind) (pos tag : Byte) (payload : List Byte) : Frame :=
  { kind := k.code, pos := pos, tag := tag, payload := payload }

/-! ### Meanings -/

/-- RECEIVE_BYTE (R157). -/
def execReceiveByte (b : Byte) (s : State) : Host.Outcome State Fault Refusal := .next (byteArrives b s)

/-- FRAME_GAP_TIMEOUT (R157). -/
def execFrameGapTimeout (s : State) : Host.Outcome State Fault Refusal := .next (frameGap s)

/-- TRANSMIT_DONE (R167). -/
def execTransmitDone (s : State) : Host.Outcome State Fault Refusal := .next (transmitterDone s)

/-- IDENTIFY (R164). -/
def execIdentify (pos tag : Byte) (pl : List Byte) (s : State) : Host.Outcome State Fault Refusal :=
  .next (sendRequest (request .identify pos tag pl) s)

/-- POST (R6, R7). -/
def execPost (pos tag : Byte) (pl : List Byte) (s : State) : Host.Outcome State Fault Refusal :=
  .next (sendRequest (request .post pos tag pl) s)

/-- CANCEL (R22). -/
def execCancel (pos tag : Byte) (pl : List Byte) (s : State) : Host.Outcome State Fault Refusal :=
  .next (sendRequest (request .cancel pos tag pl) s)

/-- RESUME (R21). -/
def execResume (pos tag : Byte) (pl : List Byte) (s : State) : Host.Outcome State Fault Refusal :=
  .next (sendRequest (request .resume pos tag pl) s)

/-- QUERY (R25). -/
def execQuery (pos tag : Byte) (pl : List Byte) (s : State) : Host.Outcome State Fault Refusal :=
  .next (sendRequest (request .query pos tag pl) s)

/-- POWER_ON (R112): a POWER with action 1 (R169). -/
def execPowerOn (pos tag mask kind : Byte) (s : State) : Host.Outcome State Fault Refusal :=
  .next (sendRequest (request .power pos tag [mask, kind, 1]) s)

/-- POWER_OFF (R113): a POWER with action 0 (R169). -/
def execPowerOff (pos tag mask kind : Byte) (s : State) : Host.Outcome State Fault Refusal :=
  .next (sendRequest (request .power pos tag [mask, kind, 0]) s)

/-- SET (R176). -/
def execSet (pos tag : Byte) (pl : List Byte) (s : State) : Host.Outcome State Fault Refusal :=
  .next (sendRequest (request .set pos tag pl) s)

/-- GET (R177). -/
def execGet (pos tag : Byte) (pl : List Byte) (s : State) : Host.Outcome State Fault Refusal :=
  .next (sendRequest (request .get pos tag pl) s)

/-- NOTICE_READ (R148). -/
def execNoticeRead (pos tag : Byte) (pl : List Byte) (s : State) : Host.Outcome State Fault Refusal :=
  .next (sendRequest (request .noticeRead pos tag pl) s)

/-- NOTICE_CLEAR (R149). -/
def execNoticeClear (pos tag : Byte) (pl : List Byte) (s : State) : Host.Outcome State Fault Refusal :=
  .next (sendRequest (request .noticeClear pos tag pl) s)

/-- NOTICE_CONTROL (R150). -/
def execNoticeControl (pos tag : Byte) (pl : List Byte) (s : State) : Host.Outcome State Fault Refusal :=
  .next (sendRequest (request .noticeControl pos tag pl) s)

/-- COUNTERS (R154). -/
def execCounters (pos tag : Byte) (pl : List Byte) (s : State) : Host.Outcome State Fault Refusal :=
  .next (sendRequest (request .counters pos tag pl) s)

/-- SCREEN_LOAD (R55). -/
def execScreenLoad (pos tag : Byte) (pl : List Byte) (s : State) : Host.Outcome State Fault Refusal :=
  .next (sendRequest (request .screenLoad pos tag pl) s)

/-- SCREEN_DROP (R56). -/
def execScreenDrop (pos tag : Byte) (pl : List Byte) (s : State) : Host.Outcome State Fault Refusal :=
  .next (sendRequest (request .screenDrop pos tag pl) s)

/-- SCREEN_LIST (R57). -/
def execScreenList (pos tag : Byte) (pl : List Byte) (s : State) : Host.Outcome State Fault Refusal :=
  .next (sendRequest (request .screenList pos tag pl) s)

/-- UNLOCK (R179). -/
def execUnlock (pos tag : Byte) (pl : List Byte) (s : State) : Host.Outcome State Fault Refusal :=
  .next (sendRequest (request .unlock pos tag pl) s)

/-- LOCK (R180). -/
def execLock (pos tag : Byte) (pl : List Byte) (s : State) : Host.Outcome State Fault Refusal :=
  .next (sendRequest (request .lock pos tag pl) s)

/-- STORE_ENABLE (R181). -/
def execStoreEnable (pos tag : Byte) (pl : List Byte) (s : State) : Host.Outcome State Fault Refusal :=
  .next (sendRequest (request .storeEnable pos tag pl) s)

/-- STORE_WRITE (R182). -/
def execStoreWrite (pos tag : Byte) (pl : List Byte) (s : State) : Host.Outcome State Fault Refusal :=
  .next (sendRequest (request .storeWrite pos tag pl) s)

/-- STORE_READ (R185). -/
def execStoreRead (pos tag : Byte) (pl : List Byte) (s : State) : Host.Outcome State Fault Refusal :=
  .next (sendRequest (request .storeRead pos tag pl) s)

/-- STORE_LOCK (R183). -/
def execStoreLock (pos tag : Byte) (pl : List Byte) (s : State) : Host.Outcome State Fault Refusal :=
  .next (sendRequest (request .storeLock pos tag pl) s)

/-- STORE_STATUS (R186). -/
def execStoreStatus (pos tag : Byte) (pl : List Byte) (s : State) : Host.Outcome State Fault Refusal :=
  .next (sendRequest (request .storeStatus pos tag pl) s)

/-- RESTART (R165). -/
def execRestart (pos tag : Byte) (pl : List Byte) (s : State) : Host.Outcome State Fault Refusal :=
  .next (sendRequest (request .restart pos tag pl) s)

/-- UNKNOWN_KIND (R160). -/
def execUnknownKind (kind pos tag : Byte) (pl : List Byte) (s : State) : Host.Outcome State Fault Refusal :=
  .next (sendRequest { kind := kind, pos := pos, tag := tag, payload := pl } s)

end Sys2Proof.Machine
end

