-- ==== Sys2Proof/Machine/Dispatch.lean ====
section
/-! DEFINITION. The meaning of every command. -/

namespace Sys2Proof.Machine

/-- The effect of a command on everything but the queue of waiting commands. -/
def exec (i : Instr) (s : State) : Host.Outcome State Fault Refusal :=
  match i with
  | .identify pos tag payload => Sys2Proof.Machine.execIdentify pos tag payload s
  | .post pos tag payload => Sys2Proof.Machine.execPost pos tag payload s
  | .cancel pos tag payload => Sys2Proof.Machine.execCancel pos tag payload s
  | .resume pos tag payload => Sys2Proof.Machine.execResume pos tag payload s
  | .query pos tag payload => Sys2Proof.Machine.execQuery pos tag payload s
  | .powerOn pos tag positionSet portKind => Sys2Proof.Machine.execPowerOn pos tag positionSet portKind s
  | .powerOff pos tag positionSet portKind => Sys2Proof.Machine.execPowerOff pos tag positionSet portKind s
  | .set pos tag payload => Sys2Proof.Machine.execSet pos tag payload s
  | .get pos tag payload => Sys2Proof.Machine.execGet pos tag payload s
  | .noticeRead pos tag payload => Sys2Proof.Machine.execNoticeRead pos tag payload s
  | .noticeClear pos tag payload => Sys2Proof.Machine.execNoticeClear pos tag payload s
  | .noticeControl pos tag payload => Sys2Proof.Machine.execNoticeControl pos tag payload s
  | .counters pos tag payload => Sys2Proof.Machine.execCounters pos tag payload s
  | .screenLoad pos tag payload => Sys2Proof.Machine.execScreenLoad pos tag payload s
  | .screenDrop pos tag payload => Sys2Proof.Machine.execScreenDrop pos tag payload s
  | .screenList pos tag payload => Sys2Proof.Machine.execScreenList pos tag payload s
  | .unlock pos tag payload => Sys2Proof.Machine.execUnlock pos tag payload s
  | .lock pos tag payload => Sys2Proof.Machine.execLock pos tag payload s
  | .storeEnable pos tag payload => Sys2Proof.Machine.execStoreEnable pos tag payload s
  | .storeWrite pos tag payload => Sys2Proof.Machine.execStoreWrite pos tag payload s
  | .storeRead pos tag payload => Sys2Proof.Machine.execStoreRead pos tag payload s
  | .storeLock pos tag payload => Sys2Proof.Machine.execStoreLock pos tag payload s
  | .storeStatus pos tag payload => Sys2Proof.Machine.execStoreStatus pos tag payload s
  | .restart pos tag payload => Sys2Proof.Machine.execRestart pos tag payload s
  | .unknownKind kind pos tag payload => Sys2Proof.Machine.execUnknownKind kind pos tag payload s
  | .receiveByte b => Sys2Proof.Machine.execReceiveByte b s
  | .frameGapTimeout => Sys2Proof.Machine.execFrameGapTimeout s
  | .transmitDone => Sys2Proof.Machine.execTransmitDone s
  | .coldStart => Sys2Proof.Machine.execColdStart s
  | .warmStart => Sys2Proof.Machine.execWarmStart s
  | .startComplete => Sys2Proof.Machine.execStartComplete s
  | .storeWriteEnd verifyGood => Sys2Proof.Machine.execStoreWriteEnd verifyGood s
  | .readerCharacterByte p c => Sys2Proof.Machine.execReaderCharacterByte p c s
  | .readerEndByte p => Sys2Proof.Machine.execReaderEndByte p s
  | .readerFaultByte p b => Sys2Proof.Machine.execReaderFaultByte p b s
  | .passGapTimeout p => Sys2Proof.Machine.execPassGapTimeout p s
  | .keyPress p code => Sys2Proof.Machine.execKeyPress p code s
  | .keyRelease p code => Sys2Proof.Machine.execKeyRelease p code s
  | .longPressTimeout p => Sys2Proof.Machine.execLongPressTimeout p s
  | .announce p flags early => Sys2Proof.Machine.execAnnounce p flags early s
  | .acknowledge p => Sys2Proof.Machine.execAcknowledge p s
  | .keypadLineError p b => Sys2Proof.Machine.execKeypadLineError p b s
  | .acknowledgeTimeout p => Sys2Proof.Machine.execAcknowledgeTimeout p s
  | .beepSent p => Sys2Proof.Machine.execBeepSent p s
  | .firstKeyTimeout p => Sys2Proof.Machine.execFirstKeyTimeout p s
  | .interKeyTimeout p => Sys2Proof.Machine.execInterKeyTimeout p s
  | .ceilingTimeout p => Sys2Proof.Machine.execCeilingTimeout p s
  | .waitCardTimeout p => Sys2Proof.Machine.execWaitCardTimeout p s
  | .removalTimeout p => Sys2Proof.Machine.execRemovalTimeout p s
  | .pauseTimerExpiry p => Sys2Proof.Machine.execPauseTimerExpiry p s
  | .cardPresentRises p => Sys2Proof.Machine.execCardPresentRises p s
  | .cardPresentFalls p => Sys2Proof.Machine.execCardPresentFalls p s
  | .cardLeftTimeout p => Sys2Proof.Machine.execCardLeftTimeout p s
  | .portSwitchOn now => Sys2Proof.Machine.execPortSwitchOn now s
  | .portCurrentChange p k mA => Sys2Proof.Machine.execPortCurrentChange p k mA s
  | .inrushAllowanceEnd p k => Sys2Proof.Machine.execInrushAllowanceEnd p k s
  | .readinessTimeout p k => Sys2Proof.Machine.execReadinessTimeout p k s
  | .announceTimeout p => Sys2Proof.Machine.execAnnounceTimeout p s
  | .overTimeTrip p k => Sys2Proof.Machine.execOverTimeTrip p k s
  | .underTimeExpiry p k => Sys2Proof.Machine.execUnderTimeExpiry p k s
  | .returnTimeExpiry p k => Sys2Proof.Machine.execReturnTimeExpiry p k s
  | .latchCeilingTimeout p => Sys2Proof.Machine.execLatchCeilingTimeout p s
  | .reEnergizeTimeout p => Sys2Proof.Machine.execReEnergizeTimeout p s

end Sys2Proof.Machine
end

