-- ==== Sys2Proof/Safety.lean ====
section
/-! DEFINITION. What counts as a good state of the part: the state at rest between two commands, the limits every state
keeps, and the link ready for a request. The statements of Certificates are written with these. -/

namespace Sys2Proof.Machine

/-! ### Between two commands -/

/-- Nothing is due between two commands: while the queue holds room nobody waits for admission (R138), the head of
every RUNNING chain is in flight (R5), and a free transmitter has nothing to send (R167). -/
def AtRest (s : State) : Prop :=
  (s.queue.length < Config.queueLimit → s.waitOrder = []) ∧
  (∀ p, startDue (s.pos p) = false) ∧
  (s.link.transmitter = none → s.link.slot = none ∧ s.queue = [])

/-- The part can take a request at once: the receiver hunts, no frame and no reply waits and no restart is under way
(R156, R159, R165). The link's counters do not reach the mark of R153 with this request. -/
structure LinkFree (s : State) : Prop where
  rest : AtRest s
  rx : s.link.rx = .hunting
  partialEmpty : s.link.partialFrame = []
  gapStopped : s.link.gapTimer = .stopped
  bufferEmpty : s.link.buffer = []
  slotEmpty : s.link.slot = none
  notRestarting : s.link.restarting = false
  okLow : s.deviceCounters[DeviceCounter.framesOk.idx] < Config.counterHighAt - 1
  refusedLow : s.deviceCounters[DeviceCounter.requestsRefused.idx] < Config.counterHighAt - 1

/-- The part can take a request at once, and its start is complete (R160, R188). -/
structure LinkReady (s : State) : Prop extends LinkFree s where
  started : s.link.startComplete = true

/-- A request frame has been counted in frames_ok (R158). -/
def counted (s : State) : State :=
  { s with deviceCounters := s.deviceCounters.set 0 (s.deviceCounters[0] + 1) }

/-- A refusal has been counted in requests_refused (R160). -/
def countedRefusal (s : State) : State :=
  { s with deviceCounters := s.deviceCounters.set 2 (s.deviceCounters[2] + 1) }

/-- A reply has been placed: on a free transmitter it is being sent, else it waits in the reply slot (R159, R167). -/
def withReply (r : Frame) (s : State) : State :=
  { s with
    link := if s.link.transmitter = none then { s.link with transmitter := some r } else { s.link with slot := some r } }

/-- The reply to a request of the kind given with result OK: KIND with 0x80 added, POS and TAG as received (R160,
R172). -/
def okReply (k : RequestKind) (pos tag : Byte) (fields : List Byte) : Frame :=
  { kind := k.code + 0x80, pos := pos, tag := tag, payload := 0 :: fields }

/-- The reply to a request refused with the code given, carrying the code alone (R172). -/
def refusalReply (k : RequestKind) (pos tag : Byte) (c : ResultCode) : Frame :=
  { kind := k.code + 0x80, pos := pos, tag := tag, payload := [c.code] }

/-- A report has been admitted to a queue that has room: on a free transmitter it is being sent, else it is the last of the
queue (R138, R167). -/
def withReport (r : Report) (s : State) : State :=
  if s.link.transmitter = none then { s with link := { s.link with transmitter := some (r.frame []) } }
  else { s with queue := s.queue ++ [r] }

/-- The notice records after a raising of an enabled class (R145). -/
def raisedNotices (c : NoticeClass) (p : Option Pos) (s : State) : Vector ClassRecord 15 :=
  if (s.notice c).enabled then
    s.notices.set c.idx { s.notice c with pending := true, positions := raisedSet (s.notice c) p }
  else s.notices

/-- The raising asks for a NOTICE report: the class is enabled and unmuted, the raising sets it pending or adds a position,
and the notice unit holds no NOTICE report (R146). -/
def noticeAsked (c : NoticeClass) (p : Option Pos) (s : State) : Bool :=
  let r := s.notice c
  r.enabled && (!r.pending || raisedSet r p != r.positions) && !r.muted && s.noticeReport = .absent

/-- A class has been raised on a queue that has room (R145 to R147): the record is written, and the NOTICE report asked for,
if any, is being sent or is the last of the queue. -/
def withNotice (c : NoticeClass) (p : Option Pos) (s : State) : State :=
  let ns := raisedNotices c p s
  if noticeAsked c p s then
    if s.link.transmitter = none then
      { s with notices := ns, link := { s.link with transmitter := some (Report.notice.frame (noticePayload ns)) } }
    else { s with notices := ns, queue := s.queue ++ [.notice], noticeReport := .queued }
  else { s with notices := ns }

/-- The one step of a position has ended and its record is freed (R17, R19, R20, R26): the chain is empty, and IDLE or
HALTED; the reader is disarmed, a session is wiped, a latch request withdrawn, and the card-left timer runs where a card is
present. -/
def stepFreed (p : Pos) (halted : Bool) (s : State) : State :=
  State.modPos { s with freeRecords := s.freeRecords + 1, latchWait := s.latchWait.filter (· ≠ p) } p fun v =>
    { v with
      chain := []
      chainState := if halted then .halted else .idle
      pass := v.pass.disarm
      entry := if v.entry.state = .closed then v.entry else v.entry.close
      latchState := if v.latchState = .waiting then .off else v.latchState
      cardLeftTimer := if v.cardPresent then .running (s.settings.live.leftCard.toNat * 1000) else v.cardLeftTimer }

/-- The record behind a freed head, a PAUSE, has started (R9, R16). -/
def pauseStarted : List StepRecord → List StepRecord
  | [] => []
  | n :: more =>
    match n.params with
    | .pause d => { n with progress := some (.active (.pause (.running (d * 10)))) } :: more
    | _ => n :: more

/-- The records behind the head begin with a PAUSE that has not started, or there are none. -/
def PauseNext (rest : List StepRecord) : Prop := ∀ n ∈ rest.head?, n.progress = none ∧ ∃ d, n.params = .pause d

/-- The head step of a position has ended and its record is freed, with the records `rest` behind it (R5, R19, R20): a halt
leaves them untouched; without one the first of them, a PAUSE, has started. -/
def stepFreedTo (p : Pos) (halted : Bool) (rest : List StepRecord) (s : State) : State :=
  (stepFreed p halted s).modPos p fun v =>
    if rest = [] then v
    else if halted then { v with chain := rest }
    else { v with chain := pauseStarted rest, chainState := .running, cardLeftTimer := .stopped }

/-- Reports have been admitted one after another to a queue that has room for them. -/
def withReports (rs : List Report) (s : State) : State := rs.foldl (fun t r => withReport r t) s

/-- The report of a step that ended by a failure that has no outcome data (R19, R171). -/
def failureReport (p : Pos) (r : StepRecord) (o : StepOutcome) : Report :=
  match r.params with
  | .waitCard _ _ => .cardSegment p 1 [] (some { tag := r.tag, outcome := o, data := {}, total := 0 })
  | ps => .stepDone p r.tag ps.kind o [] false

/-- The one step of a position has ended while a reply was placed: the reply goes first, and the step's report, where one is
due, is the last of the queue (log 15). -/
def endedWithReply (reply : Frame) (p : Pos) (halted : Bool) (report : Option Report) (s : State) : State :=
  { withReply reply (stepFreed p halted s) with queue := s.queue ++ report.toList }

/-- The latch of a position has been driven off (R130 to R133). -/
def latchOff (p : Pos) (s : State) : State :=
  State.modPos { s with energized := s.energized.filter (· ≠ p) } p fun v =>
    { v with
      latchState := .off
      ceilingTimer := .stopped
      reEnergizeTimer := .running s.settings.live.reEnergize.toNat }

/-- The latch has been granted to a position and driven on (R126, R131). -/
def latchOn (p : Pos) (s : State) : State :=
  State.modPos { s with energized := s.energized ++ [p] } p fun v =>
    { v with latchState := .energized, ceilingTimer := .running (s.settings.live.latchCeiling.toNat * 1000) }

/-- A grant decision passes over the request of a position: it has no READY reader, no card present, or a running re-energize
timer (R125, R126). -/
def PassedOver (x : Pos) (s : State) : Prop :=
  (s.pos x).reader.state ≠ .ready ∨ (s.pos x).cardPresent = false ∨ (s.pos x).reEnergizeTimer.isRunning = true

/-- The position waits for the latch and is the oldest that is eligible (R124 to R126): the requests before its own are passed
over. Its step is a HOLD CARD with notify set, or a
WAIT CARD after a HOLD match, whose report of the grant is `rep` and whose end halts the chain as `halted` says. -/
structure OldestWaiter (q : Pos) (r : StepRecord) (rep : Report) (halted : Bool) (s : State) : Prop where
  oldest : ∃ before after, s.latchWait = before ++ q :: after ∧ ∀ x ∈ before, PassedOver x s
  ready : (s.pos q).reader.state = .ready
  card : (s.pos q).cardPresent = true
  interval : (s.pos q).reEnergizeTimer = .stopped
  state : (s.pos q).latchState = .waiting
  chain : (s.pos q).chain = [r]
  noneWaiting : (s.pos q).waiting = []
  step :
    (r.params = .holdCard ∧ r.progress = some (.active .latch) ∧ r.notify = true ∧
      rep = .stepDone q r.tag .holdCard .done [] false ∧ halted = false) ∨
    ∃ a t i text flags, r.params = .waitCard a t ∧ r.progress = some (.active (.screenHold i text flags)) ∧
      text.length ≤ 48 ∧ halted = r.stopOnFailure ∧
      rep = .cardSegment q 1 text
        (some
          { tag := r.tag
            outcome := .screened
            data := { text := text, flags := flags, entryId := some i, hold := .held }
            total := text.length })

/-- The position is IDLE with an empty chain, and the pool has a free record. -/
def EmptyIdle (p : Pos) (s : State) : Prop :=
  (s.pos p).chainState = .idle ∧ (s.pos p).chain = [] ∧ 1 ≤ s.freeRecords

/-- One record has been posted to an empty IDLE chain and started: the chain is RUNNING with the record as given, and the
card-left timer has stopped (R5, R7, R9, R26). -/
def posted (p : Pos) (r : StepRecord) (s : State) : State :=
  State.modPos { counted s with freeRecords := s.freeRecords - 1 } p fun v =>
    { v with chain := [r], chainState := .running, cardLeftTimer := .stopped }

/-- The reply to the POST of one record to an empty chain: records taken, chain length, free records, clamped marks (R7,
R172). -/
def postReply (pos tag : Byte) (s : State) (clamped : Bool) : Frame :=
  okReply .post pos tag ([1, 1, byteOf (s.freeRecords - 1)] ++ wordBytes (if clamped then 1 else 0))

/-- An event at the position finds the part at rest, room in the report queue, and none of the position's reports waiting. -/
structure Quiet (p : Pos) (s : State) : Prop where
  present : p.val < s.variant.positions
  rest : AtRest s
  room : s.queue.length < Config.queueLimit
  noneWaiting : (s.pos p).waiting = []

/-- The state every start leaves, with the settings and live position items given: every other block at its start values. The
card-present lines keep their level (log 5). -/
def startedWith (items : PosItems) (g : Settings) (s : State) : State :=
  { variant := s.variant
    positions := Vector.ofFn fun p => { items := items, cardLine := (s.pos p).cardLine }
    freeRecords := 48
    powerList := []
    lastSwitchOn := none
    energized := []
    latchWait := []
    queue := []
    waitOrder := []
    noticeReport := .absent
    notices := Vector.replicate 15 {}
    deviceCounters := #v[0, 0, 0, 0]
    screening := Vector.replicate 16 none
    link := {}
    settings := g
    freeCount := s.freeCount
    pending := s.pending }

/-! ### Limits -/

/-- The step pool is shared out: free records and the records of all chains are 48 together, and no chain is longer
than 12 (R1). -/
def PoolKept (s : State) : Prop :=
  s.freeRecords + (allPos.map fun p => (s.pos p).chain.length).sum = 48 ∧ ∀ p, (s.pos p).chain.length ≤ 12

/-- The report queue holds at most 32 reports (R136) and the receive buffer at most 4 frames (R156). -/
def QueuesBounded (s : State) : Prop := s.queue.length ≤ 32 ∧ s.link.buffer.length ≤ 4

/-- No counter exceeds 65535 (R152). -/
def CountersBounded (s : State) : Prop :=
  (∀ p, ∀ i : Fin 8, (s.pos p).counters[i] ≤ 65535) ∧ ∀ i : Fin 4, s.deviceCounters[i] ≤ 65535

/-- The energized set and the wait list say what the latch states say, no position is energized twice, and a ceiling
runs only on an energized latch (R122, R131). -/
def LatchesAgree (s : State) : Prop :=
  (∀ p, p ∈ s.energized ↔ (s.pos p).latchState = .energized) ∧
  (∀ p, p ∈ s.latchWait ↔ (s.pos p).latchState = .waiting) ∧
  s.energized.Nodup ∧
  ∀ p, (s.pos p).ceilingTimer.isRunning = true → (s.pos p).latchState = .energized

/-- A closed session and an OPEN session hold no digit (R87, R104). -/
def EntryWiped (s : State) : Prop :=
  ∀ p, ((s.pos p).entry.state = .closed ∨ (s.pos p).entry.mode = .openKeys) → (s.pos p).entry.buffer = []

/-- The write-enable latch is set only while the supervisor is UNLOCKED (R174), and live item 7 does not exceed live
item 8 (R176). -/
def SettingsSound (s : State) : Prop :=
  (s.settings.writeEnable = true → s.settings.unlocked = true) ∧
  s.settings.live.accountMin.toNat ≤ s.settings.live.accountMax.toNat

end Sys2Proof.Machine

/-- The frame of a request row: KIND, POS, TAG and payload (R163, R169; log 1). POWER_ON and POWER_OFF are POWER with the
action byte 1 and 0. -/
def Sys2Proof.Instr.requestFrame : Sys2Proof.Instr → Option Sys2Proof.Machine.Frame
  | .identify pos tag pl => some (Sys2Proof.Machine.request .identify pos tag pl)
  | .post pos tag pl => some (Sys2Proof.Machine.request .post pos tag pl)
  | .cancel pos tag pl => some (Sys2Proof.Machine.request .cancel pos tag pl)
  | .resume pos tag pl => some (Sys2Proof.Machine.request .resume pos tag pl)
  | .query pos tag pl => some (Sys2Proof.Machine.request .query pos tag pl)
  | .powerOn pos tag mask kind => some (Sys2Proof.Machine.request .power pos tag [mask, kind, 1])
  | .powerOff pos tag mask kind => some (Sys2Proof.Machine.request .power pos tag [mask, kind, 0])
  | .set pos tag pl => some (Sys2Proof.Machine.request .set pos tag pl)
  | .get pos tag pl => some (Sys2Proof.Machine.request .get pos tag pl)
  | .noticeRead pos tag pl => some (Sys2Proof.Machine.request .noticeRead pos tag pl)
  | .noticeClear pos tag pl => some (Sys2Proof.Machine.request .noticeClear pos tag pl)
  | .noticeControl pos tag pl => some (Sys2Proof.Machine.request .noticeControl pos tag pl)
  | .counters pos tag pl => some (Sys2Proof.Machine.request .counters pos tag pl)
  | .screenLoad pos tag pl => some (Sys2Proof.Machine.request .screenLoad pos tag pl)
  | .screenDrop pos tag pl => some (Sys2Proof.Machine.request .screenDrop pos tag pl)
  | .screenList pos tag pl => some (Sys2Proof.Machine.request .screenList pos tag pl)
  | .unlock pos tag pl => some (Sys2Proof.Machine.request .unlock pos tag pl)
  | .lock pos tag pl => some (Sys2Proof.Machine.request .lock pos tag pl)
  | .storeEnable pos tag pl => some (Sys2Proof.Machine.request .storeEnable pos tag pl)
  | .storeWrite pos tag pl => some (Sys2Proof.Machine.request .storeWrite pos tag pl)
  | .storeRead pos tag pl => some (Sys2Proof.Machine.request .storeRead pos tag pl)
  | .storeLock pos tag pl => some (Sys2Proof.Machine.request .storeLock pos tag pl)
  | .storeStatus pos tag pl => some (Sys2Proof.Machine.request .storeStatus pos tag pl)
  | .restart pos tag pl => some (Sys2Proof.Machine.request .restart pos tag pl)
  | .unknownKind kind pos tag pl => some { kind := kind, pos := pos, tag := tag, payload := pl }
  | .receiveByte _ | .frameGapTimeout | .transmitDone | .coldStart | .warmStart | .startComplete | .storeWriteEnd _
  | .readerCharacterByte _ _ | .readerEndByte _ | .readerFaultByte _ _ | .passGapTimeout _ | .keyPress _ _
  | .keyRelease _ _ | .longPressTimeout _ | .announce _ _ _ | .acknowledge _ | .keypadLineError _ _
  | .acknowledgeTimeout _ | .beepSent _ | .firstKeyTimeout _ | .interKeyTimeout _ | .ceilingTimeout _
  | .waitCardTimeout _ | .removalTimeout _ | .pauseTimerExpiry _ | .cardPresentRises _ | .cardPresentFalls _
  | .cardLeftTimeout _ | .portSwitchOn _ | .portCurrentChange _ _ _ | .inrushAllowanceEnd _ _ | .readinessTimeout _ _
  | .announceTimeout _ | .overTimeTrip _ _ | .underTimeExpiry _ _ | .returnTimeExpiry _ _ | .latchCeilingTimeout _
  | .reEnergizeTimeout _ => none
end

