-- ==== Sys2Proof/WellFormed.lean ====
section
/-! DEFINITION. Which commands a part of a given variant can be sent. -/

namespace Sys2Proof

/-- The payload fits a frame (R169: LEN within 3 to 64). -/
def payloadFits (payload : List Byte) : Bool := payload.length ≤ Config.payloadLimit

/-- The part has the position (00_scope "Variants"). -/
def Variant.has (v : Variant) (p : Pos) : Bool := p.val < v.positions

/-- A KIND byte that names a request kind (R163). -/
def isRequestKind (k : Byte) : Bool := 1 ≤ k.toNat && k.toNat ≤ 0x17

/-- A reader byte that is neither a character nor the end byte (R173). -/
def isReaderFault (b : Byte) : Bool := 0x20 ≤ b.toNat && b.toNat != 0x40

/-- A keypad byte of no known class (R67, R173). -/
def isKeypadError (b : Byte) : Bool :=
  let n := b.toNat
  !(n ≤ 0x17 || (0x20 ≤ n && n ≤ 0x37) || (0x60 ≤ n && n ≤ 0x63) || n == 0x70)

/-- The checks on a command's operands. -/
def Instr.wf (v : Variant) : Instr → Bool
  | .identify _ _ pl | .post _ _ pl | .cancel _ _ pl | .resume _ _ pl | .query _ _ pl
  | .set _ _ pl | .get _ _ pl | .noticeRead _ _ pl | .noticeClear _ _ pl | .noticeControl _ _ pl
  | .counters _ _ pl | .screenLoad _ _ pl | .screenDrop _ _ pl | .screenList _ _ pl | .unlock _ _ pl
  | .lock _ _ pl | .storeEnable _ _ pl | .storeWrite _ _ pl | .storeRead _ _ pl | .storeLock _ _ pl
  | .storeStatus _ _ pl | .restart _ _ pl => payloadFits pl
  | .unknownKind k _ _ pl => !isRequestKind k && payloadFits pl
  | .powerOn _ _ _ _ | .powerOff _ _ _ _ => true
  | .receiveByte _ | .frameGapTimeout | .transmitDone | .coldStart | .warmStart | .startComplete
  | .storeWriteEnd _ | .portSwitchOn _ => true
  | .readerFaultByte p b => v.has p && isReaderFault b
  | .keypadLineError p b => v.has p && isKeypadError b
  | .readerCharacterByte p _ | .readerEndByte p | .passGapTimeout p | .keyPress p _ | .keyRelease p _
  | .longPressTimeout p | .announce p _ _ | .acknowledge p | .acknowledgeTimeout p | .beepSent p
  | .firstKeyTimeout p | .interKeyTimeout p | .ceilingTimeout p | .waitCardTimeout p | .removalTimeout p
  | .pauseTimerExpiry p | .cardPresentRises p | .cardPresentFalls p | .cardLeftTimeout p
  | .portCurrentChange p _ _ | .inrushAllowanceEnd p _ | .readinessTimeout p _ | .announceTimeout p
  | .overTimeTrip p _ | .underTimeExpiry p _ | .returnTimeExpiry p _ | .latchCeilingTimeout p
  | .reEnergizeTimeout p => v.has p

/-- A command the part can be sent. -/
abbrev Instr.WellFormed (v : Variant) (i : Instr) : Prop := i.wf v = true

/-- The position on whose line or at whose timer an event happens; none for the requests and for the events of the part
as a whole. -/
def Instr.line : Instr → Option Pos
  | .readerCharacterByte p _ | .readerEndByte p | .readerFaultByte p _ | .passGapTimeout p | .keyPress p _
  | .keyRelease p _ | .longPressTimeout p | .announce p _ _ | .acknowledge p | .keypadLineError p _
  | .acknowledgeTimeout p | .beepSent p | .firstKeyTimeout p | .interKeyTimeout p | .ceilingTimeout p
  | .waitCardTimeout p | .removalTimeout p | .pauseTimerExpiry p | .cardPresentRises p | .cardPresentFalls p
  | .cardLeftTimeout p | .portCurrentChange p _ _ | .inrushAllowanceEnd p _ | .readinessTimeout p _
  | .announceTimeout p | .overTimeTrip p _ | .underTimeExpiry p _ | .returnTimeExpiry p _ | .latchCeilingTimeout p
  | .reEnergizeTimeout p => some p
  | .identify _ _ _ | .post _ _ _ | .cancel _ _ _ | .resume _ _ _ | .query _ _ _ | .powerOn _ _ _ _
  | .powerOff _ _ _ _ | .set _ _ _ | .get _ _ _ | .noticeRead _ _ _ | .noticeClear _ _ _ | .noticeControl _ _ _
  | .counters _ _ _ | .screenLoad _ _ _ | .screenDrop _ _ _ | .screenList _ _ _ | .unlock _ _ _ | .lock _ _ _
  | .storeEnable _ _ _ | .storeWrite _ _ _ | .storeRead _ _ _ | .storeLock _ _ _ | .storeStatus _ _ _
  | .restart _ _ _ | .unknownKind _ _ _ _ | .receiveByte _ | .frameGapTimeout | .transmitDone | .coldStart
  | .warmStart | .startComplete | .storeWriteEnd _ | .portSwitchOn _ => none

end Sys2Proof
end

