-- ==== Sys2Proof/Certificates/Slice0/Obligations.lean ====
section
/-! DEFINITION. The statements about the part, for the provers: what each command does, what the shared computations give,
and what every command keeps. -/

section

open Sys2Proof Sys2Proof.Machine

/-! ### The queue of commands and the line events -/

/-- One step takes the command at the front of the queue and runs it with the queue's rest; an empty queue leaves the
part as it is (log 3). -/
def Obligations.StepRunsFrontCommand : Prop :=
  (∀ (s : State) (c : Instr) (rest : List Instr), s.pending = c :: rest → step s = exec c { s with pending := rest }) ∧
  ∀ s : State, s.pending = [] → step s = .next s

/-- Every command but an event at a position the part does not have completes, and no command changes the variant or the
queue of commands. An event on a line of a position the part does not have faults (log 17). -/
def Obligations.CommandsCompleteOrFault : Prop :=
  ∀ (s : State) (c : Instr),
    ((∀ p, c.line = some p → p.val < s.variant.positions) →
      ∃ t, exec c s = .next t ∧ t.variant = s.variant ∧ t.pending = s.pending) ∧
    (∀ p, c.line = some p → s.variant.positions ≤ p.val → exec c s = .fault .noSuchPosition)

/-- The state after reset of either part: every position IDLE with an empty chain, no card, latch and ports OFF, units idle,
and the limits that hold from then on. The CX8, the factory store and the low card lines are the model's choice (log 5). -/
def Obligations.ResetIsStarted : Prop :=
  ∀ v : Variant,
    let s := State.resetOf v
    (∀ p, s.pos p = startedPosition factoryPosItems false) ∧
    s.freeRecords = 48 ∧ s.energized = [] ∧ s.latchWait = [] ∧ s.powerList = [] ∧ s.lastSwitchOn = none ∧ s.queue = [] ∧
    s.link.startComplete = false ∧ s.settings.unlocked = false ∧ s.settings.writeEnable = false ∧
    AtRest s ∧ PoolKept s ∧ QueuesBounded s ∧ CountersBounded s ∧ LatchesAgree s ∧ EntryWiped s ∧ SettingsSound s

/-! ### Requests: the frame on the link, and the refusals -/

/-- A request row is its frame: while the receiver hunts, the row does what the frame's bytes do one after another (R157,
R158; log 1). -/
def Obligations.RequestIsItsBytes : Prop :=
  ∀ (s : State) (c : Instr) (f : Frame), c.requestFrame = some f → f.payload.length ≤ 61 → s.link.rx = .hunting →
    exec c s = .next (f.wire.foldl (fun t b => byteArrives b t) s)

/-- A frame whose KIND is not in the catalogue is answered BADKIND, with reply KIND FF and the unknown KIND. Every request but
IDENTIFY is answered BUSY, and nothing else, while a start is in progress. -/
def Obligations.UntakenRequestsAnswered : Prop :=
  ∀ (s : State) (pos tag : Byte) (payload : List Byte), LinkFree s → payload.length ≤ 61 →
    (∀ k : Byte, isRequestKind k = false →
      exec (.unknownKind k pos tag payload) s =
        .next (withReply { kind := 0xFF, pos := pos, tag := tag, payload := [1, k] } (countedRefusal (counted s)))) ∧
    (∀ (c : Instr) (k : RequestKind), s.link.startComplete = false → c.requestFrame = some (request k pos tag payload) →
      k ≠ .identify → exec c s = .next (withReply (refusalReply k pos tag .busy) (countedRefusal (counted s))))

/-- A POS byte that does not suit the scope of the request is answered BADPOS, and nothing else: 0 to 7 and FF are the only
POS bytes, 0 to 7 for the requests of position scope, FF for those of device scope, both for SET, GET and COUNTERS. A payload
of a form the request does not have is answered BADARG, and nothing else; a SET or GET of an item whose scope does not suit
POS is answered BADPOS; a SET of a store-only item, and a SET or GET of the passcode, BADARG. That a RESUME
with a payload is answered BADARG in every chain state, and not STATE, is the model's choice (log 36). -/
def Obligations.BadPosAndPayloadRefused : Prop :=
  ∀ (s : State) (c : Instr) (k : RequestKind) (pos tag : Byte) (payload : List Byte), LinkReady s →
    c.requestFrame = some (request k pos tag payload) → payload.length ≤ 61 →
    let refused (code : ResultCode) := Host.Outcome.next (withReply (refusalReply k pos tag code) (countedRefusal (counted s)))
    ((8 ≤ pos.toNat ∧ pos ≠ 0xFF) ∨
      (pos = 0xFF ∧ k ∈ [RequestKind.post, .cancel, .resume, .query]) ∨
      (pos.toNat < 8 ∧ k ∉ [RequestKind.post, .cancel, .resume, .query, .set, .get, .counters]) →
      exec c s = refused .badPos) ∧
    (payload ≠ [] →
      ((k ∈ [RequestKind.cancel, .resume, .query] ∧ pos.toNat < 8) ∨
        (k ∈ [RequestKind.identify, .noticeRead, .lock, .storeEnable, .storeStatus, .restart] ∧ pos = 0xFF)) →
      exec c s = refused .badArg) ∧
    (pos = 0xFF →
      ((k = .noticeControl ∧ payload.length ≠ 8) ∨
        (k = .unlock ∧ (payload.length ≠ 8 ∨ ∃ b ∈ payload, b.toNat < 0x30 ∨ 0x39 < b.toNat)) ∨
        (k = .power ∧ ∃ mask kind action, payload = [mask, kind, action] ∧ 2 < kind.toNat) ∨
        (k = .screenLoad ∧ s.settings.unlocked = true ∧
          ∀ id action count dlo dhi segs, payload = id :: action :: count :: dlo :: dhi :: segs →
            15 < id.toNat ∨ 1 < action.toNat ∨ count.toNat < 1 ∨ 4 < count.toNat ∨ segs.length ≠ 2 * count.toNat)) →
      exec c s = refused .badArg) ∧
    (pos = 0xFF → k = .screenLoad → s.settings.unlocked = false → exec c s = refused .denied) ∧
    (pos.toNat < 8 ∨ pos = 0xFF →
      ((k = .set ∧ payload.length ≠ 4) ∨ (k = .get ∧ payload.length ≠ 2) → exec c s = refused .badArg) ∧
      ∀ item index rest, payload = item :: index :: rest → (k = .set ∧ rest.length = 2) ∨ (k = .get ∧ rest = []) →
        let n := item.toNat
        (19 < n ∨ (if n = 15 then 47 < index.toNat else index ≠ 0) → exec c s = refused .badArg) ∧
        (n ≤ 19 → (if n = 15 then index.toNat ≤ 47 else index = 0) → (n ∈ [0, 1, 2, 10, 11] ↔ pos = 0xFF) →
          exec c s = refused .badPos) ∧
        (n = 19 ∨ (k = .set ∧ 16 ≤ n ∧ n ≤ 18) → index = 0 → pos = 0xFF → exec c s = refused .badArg))

/-! ### Requests that change nothing -/

/-- IDENTIFY, NOTICE READ, STORE STATUS and QUERY: refused BADPOS at a POS byte that does not suit them and BADARG with a
payload, else answered OK with the fields of their rules. They change nothing but the counts of frames and refusals. IDENTIFY
is answered before the start is complete as well; the design revision and the unique identifier it gives are free values of
the model (log 6). -/
def Obligations.StateIsRead : Prop :=
  ∀ (s : State) (pos tag : Byte) (payload : List Byte), payload.length ≤ 61 →
    let refused (k : RequestKind) (c : ResultCode) := withReply (refusalReply k pos tag c) (countedRefusal (counted s))
    (LinkFree s →
      exec (.identify pos tag payload) s =
        .next (if pos ≠ 0xFF then refused .identify .badPos
          else if payload ≠ [] then refused .identify .badArg
          else withReply
            (okReply .identify pos tag
              ([byteOf s.variant.positions, byteOf s.variant.positions, Config.designRevision] ++ Config.uniqueId.toList ++
                [flagByte s.link.startComplete]))
            (counted s))) ∧
    (LinkReady s →
      exec (.noticeRead pos tag payload) s =
        .next (if pos ≠ 0xFF then refused .noticeRead .badPos
          else if payload ≠ [] then refused .noticeRead .badArg
          else withReply
            (okReply .noticeRead pos tag
              (wordBytes (classSet s.notices ClassRecord.enabled) ++ wordBytes (classSet s.notices ClassRecord.muted) ++
                wordBytes (classSet s.notices ClassRecord.pending) ++
                wordBytes (classSet s.notices ClassRecord.historyPending) ++
                (allClasses.map fun i => s.notices[i].positions) ++ (allClasses.map fun i => s.notices[i].historyPositions)))
            (counted s)) ∧
      exec (.storeStatus pos tag payload) s =
        .next (if pos ≠ 0xFF then refused .storeStatus .badPos
          else if payload ≠ [] then refused .storeStatus .badArg
          else withReply
            (okReply .storeStatus pos tag
              [flagByte s.settings.job.isSome, flagByte s.settings.writeEnable, flagByte s.settings.storeLocked,
                flagByte s.settings.store.lockFlag, flagByte (!s.settings.loadGood), s.settings.lastWrite.code,
                flagByte s.settings.unlocked, byteOf s.settings.failedCount, flagByte s.settings.lockout])
            (counted s)) ∧
      exec (.query pos tag payload) s =
        .next (if 8 ≤ pos.toNat then refused .query .badPos
          else if payload ≠ [] then refused .query .badArg
          else
            let v := s.pos (positionOf s.variant pos)
            withReply
              (okReply .query pos tag
                ([v.chainState.code, byteOf v.chain.length] ++
                  (match v.chain with
                   | [] => [0, 0, 0xFF]
                   | r :: _ => [r.params.kind.code, r.tag, Progress.code r.progress]) ++
                  [v.reader.state.code, v.keypad.state.code, flagByte v.cardPresent, v.latchState.code,
                    byteOf v.entry.buffer.length, byteOf s.freeRecords]))
              (counted s)))

/-- GET answers with the live value of an item: a position item at the position addressed, a part-wide item at FF; an item at
or above the boundary item is refused while read protection is on and the supervisor LOCKED. It changes nothing. -/
def Obligations.GetReadsItem : Prop :=
  ∀ (s : State) (pos tag item index : Byte), LinkReady s → item.toNat ≤ 18 → indexOk item.toNat index.toNat = true →
    let n := item.toNat
    ((n ∈ [0, 1, 2, 10, 11] ∧ pos.toNat < 8) ∨ (n ∉ [0, 1, 2, 10, 11] ∧ pos = 0xFF)) →
    exec (.get pos tag [item, index]) s =
      if s.settings.live.readProtect = 1 ∧ s.settings.live.boundary.toNat ≤ n ∧ s.settings.unlocked = false then
        .next (withReply (refusalReply .get pos tag .denied) (countedRefusal (counted s)))
      else
        .next (withReply
          (okReply .get pos tag
            ([item, index] ++
              wordBytes (if n ∈ [0, 1, 2, 10, 11] then (s.pos (positionOf s.variant pos)).items.read n
                else s.settings.live.read n index.toNat)))
          (counted s))

/-- STORE READ: refused BADPOS at a POS byte other than FF; BADARG for a payload that is not an item 0 to 18 and an index
it has; BUSY while a store write is in progress; DENIED by read protection; otherwise answered OK with the stored value. It
changes nothing but the counts of frames and refusals. -/
def Obligations.StoreReadReadsItem : Prop :=
  ∀ (s : State) (pos tag : Byte) (payload : List Byte), LinkReady s → payload.length ≤ 61 →
    let refused (c : ResultCode) := withReply (refusalReply .storeRead pos tag c) (countedRefusal (counted s))
    exec (.storeRead pos tag payload) s =
      .next (if pos ≠ 0xFF then refused .badPos
        else match payload with
          | [item, index] =>
            if 18 < item.toNat ∨ (if item = 15 then 47 < index.toNat else index ≠ 0) then refused .badArg
            else if s.settings.job.isSome then refused .busy
            else if s.settings.live.readProtect = 1 ∧ s.settings.live.boundary.toNat ≤ item.toNat ∧
                s.settings.unlocked = false then refused .denied
            else withReply
              (okReply .storeRead pos tag ([item, index] ++ wordBytes (s.settings.store.read item.toNat index.toNat)))
              (counted s)
          | _ => refused .badArg)

/-! ### Requests that change counters, settings and notices -/

/-- COUNTERS: refused BADPOS at a POS byte 8 to 254 and BADARG for a payload that is not one flag 0 or 1; otherwise it
answers with the eight counters of a position, or with the four of the device at FF, and with clear flag 1 sets those counters
and no others to 0 in the same event. -/
def Obligations.CountersReadAndCleared : Prop :=
  ∀ (s : State) (pos tag : Byte) (payload : List Byte), LinkReady s → payload.length ≤ 61 →
    let p := positionOf s.variant pos
    let refused (c : ResultCode) := withReply (refusalReply .counters pos tag c) (countedRefusal (counted s))
    exec (.counters pos tag payload) s =
      .next (if 8 ≤ pos.toNat ∧ pos ≠ 0xFF then refused .badPos
        else match payload with
          | [flag] =>
            if 1 < flag.toNat then refused .badArg
            else if pos = 0xFF then
              withReply
                (okReply .counters pos tag ((counted s).deviceCounters.toList.flatMap fun n => wordBytes (wordOfNat n)))
                (if flag = 1 then { counted s with deviceCounters := #v[0, 0, 0, 0] } else counted s)
            else
              withReply
                (okReply .counters pos tag ((s.pos p).counters.toList.flatMap fun n => wordBytes (wordOfNat n)))
                (if flag = 1 then (counted s).modPos p fun v => { v with counters := #v[0, 0, 0, 0, 0, 0, 0, 0] }
                  else counted s)
          | _ => refused .badArg)

/-- SET of a position item: refused DENIED when protected, BADARG when outside the item's set; otherwise the clamped value
(its range or set as SetDeviceItem says) becomes the live value at that position, and the over-time of a port whose upper
limit was set is judged by the new value. -/
def Obligations.SetPositionItem : Prop :=
  ∀ (s : State) (pos tag item lo hi : Byte), LinkReady s → pos.toNat < 8 → item.toNat ∈ [0, 1, 2, 10, 11] →
    let n := item.toNat
    let p := positionOf s.variant pos
    let w := wordOf lo hi
    let v := if n = 10 then wordOfNat (clampNat 100 400 w.toNat) else if n = 11 then wordOfNat (clampNat 50 200 w.toNat) else w
    exec (.set pos tag [item, 0, lo, hi]) s =
      if s.settings.live.boundary.toNat ≤ n ∧ s.settings.unlocked = false then
        .next (withReply (refusalReply .set pos tag .denied) (countedRefusal (counted s)))
      else if n ≤ 2 ∧ 1 < w.toNat then
        .next (withReply (refusalReply .set pos tag .badArg) (countedRefusal (counted s)))
      else
        .next (withReply (okReply .set pos tag ([item, 0] ++ wordBytes v ++ [flagByte (v != w)]))
          ((counted s).modPos p fun x =>
            { x with
              items := x.items.write n v
              reader := if n = 10 then x.reader.watchOver v.toNat else x.reader
              keypad := if n = 11 then x.keypad.watchOver v.toNat else x.keypad }))

/-- SET of a part-wide item 3 to 9 or 12 to 15: refused DENIED when protected, BADARG when outside the item's set; otherwise
the value, clamped and with items 7 and 8 interlocked, becomes the live value. The first clauses say each numeric item's range
and each other item's set. A SET of item 12 is followed by a grant decision: nothing is granted where the budget is then full
or every request is passed over, and else the oldest eligible request is granted, the reply going before the report of its
step (log 15); this is stated where the decision then ends. -/
def Obligations.SetDeviceItem : Prop :=
  (∀ n lo hi, (n, lo, hi) ∈ [(3, 500, 3000), (4, 10, 300), (5, 1, 4), (6, 5, 50), (7, 12, 19), (8, 12, 19), (10, 100, 400),
      (11, 50, 200), (12, 1, 8), (13, 1, 600), (14, 100, 5000), (16, 0, 16), (18, 0, 7)] →
    ∀ w : Word, (clampItem n w).toNat = clampNat lo hi w.toNat ∧ inItemSet n w = true) ∧
  (∀ n ∈ [0, 1, 2, 9, 17], ∀ w : Word, clampItem n w = w ∧ (inItemSet n w = true ↔ w.toNat ≤ 1)) ∧
  (∀ lo hi : Byte, clampItem 15 (wordOf lo hi) = wordOf lo hi ∧
    (inItemSet 15 (wordOf lo hi) = true ↔ (lo.toNat ≤ 19 ∨ lo = 0xFF) ∧ (hi.toNat ≤ 19 ∨ hi = 0xFF))) ∧
  ∀ (s : State) (tag item index lo hi : Byte), LinkReady s → item.toNat ∈ [3, 4, 5, 6, 7, 8, 9, 12, 13, 14, 15] →
    (if item.toNat = 15 then index.toNat ≤ 47 else index = 0) →
    let n := item.toNat
    let w := wordOf lo hi
    let c := clampItem n w
    let v := if n = 7 ∧ s.settings.live.accountMax.toNat < c.toNat then s.settings.live.accountMax
      else if n = 8 ∧ c.toNat < s.settings.live.accountMin.toNat then s.settings.live.accountMin
      else c
    let reply := okReply .set 0xFF tag ([item, index] ++ wordBytes v ++ [flagByte (v != w)])
    let t := { counted s with settings := { s.settings with live := s.settings.live.write n index.toNat v } }
    let isProtected := s.settings.live.boundary.toNat ≤ n ∧ s.settings.unlocked = false
    ((n = 12 → v.toNat ≤ s.energized.length ∨ ∀ x ∈ s.latchWait, PassedOver x s) →
      exec (.set 0xFF tag [item, index, lo, hi]) s =
        if isProtected then .next (withReply (refusalReply .set 0xFF tag .denied) (countedRefusal (counted s)))
        else if inItemSet n w = false then .next (withReply (refusalReply .set 0xFF tag .badArg) (countedRefusal (counted s)))
        else .next (withReply reply t)) ∧
    (∀ q r rep halted, n = 12 → ¬isProtected → s.queue.length < 32 → OldestWaiter q r rep halted s →
      s.energized.length < v.toNat → (s.energized.length + 1 = v.toNat ∨ ∀ x ∈ s.latchWait, x ≠ q → PassedOver x s) →
      exec (.set 0xFF tag [item, index, lo, hi]) s = .next (endedWithReply reply q halted (some rep) (latchOn q t)))

/-- NOTICE CLEAR: refused BADPOS at a POS byte other than FF and BADARG for a payload that is not one class set or names class
15; otherwise each named class gives its pending flag and position set to its history and is no longer pending, and the reply
names the named classes that were pending. Nothing else changes. -/
def Obligations.NoticeClearMovesToHistory : Prop :=
  ∀ (s : State) (pos tag : Byte) (payload : List Byte), LinkReady s → payload.length ≤ 61 →
    let refused (c : ResultCode) := withReply (refusalReply .noticeClear pos tag c) (countedRefusal (counted s))
    exec (.noticeClear pos tag payload) s =
      .next (if pos ≠ 0xFF then refused .badPos
        else match payload with
          | [lo, hi] =>
            let w := wordOf lo hi
            if w.getLsbD 15 then refused .badArg
            else
              withReply
                (okReply .noticeClear pos tag (wordBytes (classSet s.notices ClassRecord.pending &&& w)))
                { counted s with
                  notices := Vector.ofFn fun i =>
                    if w.getLsbD i.val then
                      { s.notices[i] with
                        pending := false
                        positions := 0
                        historyPending := s.notices[i].pending
                        historyPositions := s.notices[i].positions }
                    else s.notices[i] }
          | _ => refused .badArg)

/-- NOTICE CONTROL: refused BADARG for a class above 14, for a class both enabled and disabled or both muted and unmuted, and
for the disabling of PORT_FAULT, LATCH_OVERRUN, STORE_FAULT or SUPERVISOR_LOCKOUT; otherwise the named classes are enabled,
disabled, muted and unmuted, and the unmuting of a pending class asks for a NOTICE report, muted before or not (log 23). On a
free transmitter the reply is being sent and the NOTICE report stands in the queue (log 15). -/
def Obligations.NoticeControlChangesClasses : Prop :=
  ∀ (s : State) (tag e0 e1 d0 d1 m0 m1 u0 u1 : Byte), LinkReady s → s.queue.length < 32 →
    let en := wordOf e0 e1
    let dis := wordOf d0 d1
    let mu := wordOf m0 m1
    let un := wordOf u0 u1
    let ns : Vector ClassRecord 15 := Vector.ofFn fun i =>
      { s.notices[i] with
        enabled := if en.getLsbD i.val then true else if dis.getLsbD i.val then false else s.notices[i].enabled
        muted := if mu.getLsbD i.val then true else if un.getLsbD i.val then false else s.notices[i].muted }
    let t := withReply
      (okReply .noticeControl 0xFF tag (wordBytes (classSet ns ClassRecord.enabled) ++ wordBytes (classSet ns ClassRecord.muted)))
      { counted s with notices := ns }
    exec (.noticeControl 0xFF tag [e0, e1, d0, d1, m0, m1, u0, u1]) s =
      if en.getLsbD 15 ∨ dis.getLsbD 15 ∨ mu.getLsbD 15 ∨ un.getLsbD 15 ∨ en &&& dis ≠ 0 ∨ mu &&& un ≠ 0 ∨
          dis.getLsbD 1 ∨ dis.getLsbD 4 ∨ dis.getLsbD 13 ∨ dis.getLsbD 14 then
        .next (withReply (refusalReply .noticeControl 0xFF tag .badArg) (countedRefusal (counted s)))
      else if (∃ i : Fin 15, un.getLsbD i.val ∧ s.notices[i].pending) ∧ s.noticeReport = .absent then
        .next { t with queue := s.queue ++ [.notice], noticeReport := .queued }
      else .next t

/-! ### Requests to the screening table -/

/-- SCREEN LOAD: refused DENIED while the supervisor is LOCKED; otherwise the place of the id holds the entry, its segments
clamped to a skip of at most 106 and a take of 1 to 19, and the reply tells what was kept. -/
def Obligations.ScreenLoadPutsEntry : Prop :=
  ∀ (s : State) (tag action dlo dhi : Byte) (i : Fin 16) (sent : List (Byte × Byte)), LinkReady s → action.toNat ≤ 1 →
    1 ≤ sent.length → sent.length ≤ 4 →
    let payload := [byteOf i.val, action, byteOf sent.length, dlo, dhi] ++ sent.flatMap fun g => [g.1, g.2]
    let kept : List ScreenSegment := sent.map fun g => { skip := min g.1.toNat 106, take := clampNat 1 19 g.2.toNat }
    let table := s.screening.set i
      (some { action := if action = 0 then .report else .hold, segments := kept, digest := wordOf dlo dhi })
    exec (.screenLoad 0xFF tag payload) s =
      if s.settings.unlocked then
        .next (withReply
          (okReply .screenLoad 0xFF tag
            ([flagByte s.screening[i].isSome, byteOf sent.length] ++ (kept.flatMap fun g => [byteOf g.skip, byteOf g.take]) ++
              [byteOf (markBits (sent.map fun g => decide (106 < g.1.toNat ∨ g.2.toNat < 1 ∨ 19 < g.2.toNat))),
                byteOf (entryCount table)]))
          { counted s with screening := table })
      else .next (withReply (refusalReply .screenLoad 0xFF tag .denied) (countedRefusal (counted s)))

/-- SCREEN DROP: refused BADPOS at a POS byte other than FF, DENIED while the supervisor is LOCKED, BADARG for a payload that
is not one id set, in that order; otherwise the named places are emptied, and the reply gives the set of those that held an
entry and the number left. -/
def Obligations.ScreenDropEmptiesPlaces : Prop :=
  ∀ (s : State) (pos tag : Byte) (payload : List Byte), LinkReady s → payload.length ≤ 61 →
    let refused (c : ResultCode) := withReply (refusalReply .screenDrop pos tag c) (countedRefusal (counted s))
    exec (.screenDrop pos tag payload) s =
      .next (if pos ≠ 0xFF then refused .badPos
        else if s.settings.unlocked = false then refused .denied
        else match payload with
          | [lo, hi] =>
            let w := wordOf lo hi
            let table : Vector (Option ScreenEntry) 16 :=
              Vector.ofFn fun i => if w.getLsbD i.val then none else s.screening[i]
            withReply
              (okReply .screenDrop pos tag
                (wordBytes (wordOfNat (markBits (allIds.map fun i => w.getLsbD i.val && s.screening[i].isSome))) ++
                  [byteOf (entryCount table)]))
              { counted s with screening := table }
          | _ => refused .badArg)

/-- SCREEN LIST: refused BADPOS at a POS byte other than FF and BADARG for a payload that is not one start id 0 to 15;
otherwise the reply gives the number of entries and up to four of them from the start id on, in ascending id, with the
id of the next, or FF. Nothing changes but the counts of frames and refusals. -/
def Obligations.ScreenListGivesEntries : Prop :=
  ∀ (s : State) (pos tag : Byte) (payload : List Byte), LinkReady s → payload.length ≤ 61 →
    let refused (c : ResultCode) := withReply (refusalReply .screenList pos tag c) (countedRefusal (counted s))
    exec (.screenList pos tag payload) s =
      .next (if pos ≠ 0xFF then refused .badPos
        else match payload with
          | [start] =>
            if 15 < start.toNat then refused .badArg
            else
              let ids := allIds.filter fun i => start.toNat ≤ i.val && s.screening[i].isSome
              withReply
                (okReply .screenList pos tag
                  ([byteOf (entryCount s.screening), byteOf (ids.take 4).length,
                      (match ids.drop 4 with
                       | [] => 0xFF
                       | i :: _ => byteOf i.val)] ++
                    (ids.take 4).flatMap fun i =>
                      match s.screening[i] with
                      | none => []
                      | some e =>
                        [byteOf i.val, if e.action = .report then 0 else 1, byteOf e.segments.length] ++
                          wordBytes e.digest ++ e.segments.flatMap fun g => [byteOf g.skip, byteOf g.take]))
                (counted s)
          | _ => refused .badArg)

/-! ### Supervisor access, the store, and RESTART -/

/-- UNLOCK with 8 digits: LOCKED with nothing changed during lockout; OK, UNLOCKED and a count of 0 on a match; DENIED and a
count one higher, saturating at 255, on a mismatch, with lockout and SUPERVISOR_LOCKOUT when the count reaches item 18. On a
free transmitter the DENIED reply is being sent and the NOTICE report of the lockout stands in the queue (log 15). -/
def Obligations.UnlockComparesPasscode : Prop :=
  ∀ (s : State) (tag : Byte) (d : Vector Byte 8), LinkReady s → s.queue.length < 32 →
    (∀ b ∈ d.toList, 0x30 ≤ b.toNat ∧ b.toNat ≤ 0x39) →
    let n := min 255 (s.settings.failedCount + 1)
    let g := { s.settings with failedCount := n }
    let denied := refusalReply .unlock 0xFF tag .denied
    exec (.unlock 0xFF tag d.toList) s =
      if s.settings.lockout then
        .next (withReply (refusalReply .unlock 0xFF tag .locked) (countedRefusal (counted s)))
      else if d = s.settings.passcode then
        .next (withReply (okReply .unlock 0xFF tag [])
          { counted s with settings := { s.settings with unlocked := true, failedCount := 0 } })
      else if s.settings.live.unlockLimit = 0 ∨ n < s.settings.live.unlockLimit.toNat then
        .next (withReply denied (countedRefusal { counted s with settings := g }))
      else
        let t := withReply denied (countedRefusal
          { counted s with settings := { g with lockout := true }, notices := raisedNotices .supervisorLockout none s })
        if noticeAsked .supervisorLockout none s then .next { t with queue := s.queue ++ [.notice], noticeReport := .queued }
        else .next t

/-- LOCK: refused BADPOS when POS is not FF and BADARG when a payload is present; otherwise the supervisor is LOCKED and the
write-enable latch cleared, the reply is OK whatever the state was before, and nothing else changes. -/
def Obligations.LockClosesAccess : Prop :=
  ∀ (s : State) (pos tag : Byte) (payload : List Byte), LinkReady s → payload.length ≤ 61 →
    exec (.lock pos tag payload) s =
      if pos ≠ 0xFF then .next (withReply (refusalReply .lock pos tag .badPos) (countedRefusal (counted s)))
      else if payload ≠ [] then .next (withReply (refusalReply .lock pos tag .badArg) (countedRefusal (counted s)))
      else
        .next (withReply (okReply .lock pos tag [])
          { counted s with settings := { s.settings with unlocked := false, writeEnable := false } })

/-- STORE ENABLE: refused LOCKED, BUSY or DENIED, in that order, for a locked store, a write in progress, a LOCKED supervisor;
otherwise the write-enable latch is set. -/
def Obligations.StoreEnableSetsLatch : Prop :=
  ∀ (s : State) (tag : Byte), LinkReady s →
    let refusal (c : ResultCode) := withReply (refusalReply .storeEnable 0xFF tag c) (countedRefusal (counted s))
    exec (.storeEnable 0xFF tag []) s =
      if s.settings.storeLocked then .next (refusal .locked)
      else if s.settings.job.isSome then .next (refusal .busy)
      else if s.settings.unlocked = false then .next (refusal .denied)
      else
        .next (withReply (okReply .storeEnable 0xFF tag []) { counted s with settings := { s.settings with writeEnable := true } })

/-- STORE WRITE of an item 0 to 18: BADARG, clearing the latch, for a bad item, index or value; LOCKED, BUSY and DENIED with
the latch as it was; otherwise the latch is cleared and the write of the clamped value is in progress, the store check not
matching. The ranges and sets are those SetDeviceItem says. -/
def Obligations.StoreWriteBeginsItem : Prop :=
  ∀ (s : State) (tag item index lo hi : Byte), LinkReady s → item.toNat ≠ 19 →
    let n := item.toNat
    let w := wordOf lo hi
    let v := clampItem n w
    let refusal (c : ResultCode) (t : State) := withReply (refusalReply .storeWrite 0xFF tag c) (countedRefusal t)
    exec (.storeWrite 0xFF tag [item, index, lo, hi]) s =
      if 18 < n ∨ indexOk n index.toNat = false ∨ inItemSet n w = false then
        .next (refusal .badArg { counted s with settings := { s.settings with writeEnable := false } })
      else if s.settings.storeLocked then .next (refusal .locked (counted s))
      else if s.settings.job.isSome then .next (refusal .busy (counted s))
      else if s.settings.unlocked = false ∨ s.settings.writeEnable = false then .next (refusal .denied (counted s))
      else
        .next (withReply (okReply .storeWrite 0xFF tag ([item, index] ++ wordBytes v ++ [flagByte (v != w)]))
          { counted s with
            settings := { s.settings with
              writeEnable := false
              job := some (.item n index.toNat v)
              store := { s.settings.store with checkGood := false } } })

/-- STORE WRITE of the passcode (item 19, index 0, 8 digits) and STORE LOCK begin as a write of an item does: LOCKED, BUSY and
DENIED with the latch as it was; otherwise the latch is cleared and the write in progress. A payload of no form STORE WRITE
has, and a STORE LOCK with a payload, are refused BADARG and clear the latch. -/
def Obligations.PasscodeAndLockBegin : Prop :=
  ∀ (s : State) (tag : Byte) (d : Vector Byte 8) (payload : List Byte), LinkReady s →
    (∀ b ∈ d.toList, 0x30 ≤ b.toNat ∧ b.toNat ≤ 0x39) → payload.length ≤ 61 →
    let g := s.settings
    let refusal (k : RequestKind) (c : ResultCode) (t : State) := withReply (refusalReply k 0xFF tag c) (countedRefusal t)
    let cleared : State := { counted s with settings := { g with writeEnable := false } }
    let begins (k : RequestKind) (taken : State) : State :=
      if g.storeLocked then refusal k .locked (counted s)
      else if g.job.isSome then refusal k .busy (counted s)
      else if g.unlocked = false ∨ g.writeEnable = false then refusal k .denied (counted s)
      else taken
    exec (.storeWrite 0xFF tag (19 :: 0 :: d.toList)) s =
      .next (begins .storeWrite (withReply (okReply .storeWrite 0xFF tag [19, 0])
        { counted s with
          settings := { g with
            writeEnable := false
            job := some (.passcode d)
            store := { g.store with checkGood := false } } })) ∧
    exec (.storeLock 0xFF tag []) s =
      .next (begins .storeLock (withReply (okReply .storeLock 0xFF tag [])
        { counted s with settings := { g with writeEnable := false, job := some .lockFlag } })) ∧
    ((∀ index value, payload = 19 :: index :: value →
        index ≠ 0 ∨ value.length ≠ 8 ∨ ∃ b ∈ value, b.toNat < 0x30 ∨ 0x39 < b.toNat) →
      (payload.head? ≠ some 19 → payload.length ≠ 4) →
      exec (.storeWrite 0xFF tag payload) s = .next (refusal .storeWrite .badArg cleared)) ∧
    (payload ≠ [] → exec (.storeLock 0xFF tag payload) s = .next (refusal .storeLock .badArg cleared))

/-- RESTART is answered OK, and a restart is under way. While it is, no frame is taken: a request that comes to a hunting
receiver waits in the receive buffer, and TRANSMIT_DONE hands the waiting reply to the transmitter and leaves the buffer as it
is. -/
def Obligations.RestartAnswersFirst : Prop :=
  (∀ (s : State) (tag : Byte), LinkReady s →
    exec (.restart 0xFF tag []) s =
      .next (withReply (okReply .restart 0xFF tag []) { counted s with link := { s.link with restarting := true } })) ∧
  ∀ s : State, AtRest s → s.link.restarting = true →
    (∀ (c : Instr) (f : Frame), c.requestFrame = some f → f.payload.length ≤ 61 → s.link.rx = .hunting →
      s.link.buffer.length < 4 → s.deviceCounters[0] < 49151 →
      exec c s =
        .next { counted s with
          link := { s.link with partialFrame := [], gapTimer := .stopped, buffer := s.link.buffer ++ [f] } }) ∧
    (∀ f g, s.link.transmitter = some f → s.link.slot = some g →
      exec .transmitDone s = .next { s with link := { s.link with transmitter := some g, slot := none } })

/-! ### POST, CANCEL, RESUME, POWER -/

/-- The records of a POST payload, one for each step kind: flags bit 0 is notify and bit 1 stop-on-failure, numeric parameters
are clamped into their ranges, and a mark tells whether one was. A payload is records laid end to end, and it is refused where
it is empty, where less than a record's first four bytes or less than its parameters are left, and where a record has more
than 17 parameter bytes, a kind or a flags bit that is not one, a parameter length that does not suit its kind, or an
enumerated parameter outside its set. -/
def Obligations.StepRecordsParsed : Prop :=
  (∀ flags tag : Byte, flags.toNat ≤ 3 →
     let rec' (ps : StepParams) : StepRecord :=
       { params := ps, tag := tag, notify := flags.getLsbD 0, stopOnFailure := flags.getLsbD 1 }
     (∀ (b : Byte) (text : List Byte), b.toNat ≤ 3 → text.length ≤ 16 → (∀ c ∈ text, 0x20 ≤ c.toNat ∧ c.toNat ≤ 0x7E) →
       postRecords ([1, flags, tag, byteOf (1 + text.length), b] ++ text) =
         some [(rec' (.showText (if b = 0 then none else if b = 1 then some .short else if b = 2 then some .long else some .error)
           (text ++ List.replicate (16 - text.length) 0x20)), false)]) ∧
     (∀ a lo hi : Byte,
       postRecords [2, flags, tag, 3, a, lo, hi] =
         some [(rec' (.waitCard (clampNat 0 4 a.toNat) (clampNat 5 300 (num2 lo hi))),
           decide (4 < a.toNat ∨ num2 lo hi < 5 ∨ 300 < num2 lo hi))]) ∧
     postRecords [3, flags, tag, 0] = some [(rec' .holdCard, false)] ∧
     (∀ w lo hi : Byte, w.toNat ≤ 1 →
       postRecords [4, flags, tag, 3, w, lo, hi] =
         some [(rec' (.releaseCard (w = 1) (clampNat 5 300 (num2 lo hi))), decide (num2 lo hi < 5 ∨ 300 < num2 lo hi))]) ∧
     (∀ m mx mn dec lim first inter lo hi : Byte, m.toNat ≤ 2 →
       let least := if m = 2 then 4 else 1
       let most := clampNat least 12 mx.toNat
       postRecords [5, flags, tag, 9, m, mx, mn, dec, lim, first, inter, lo, hi] =
         some [(rec' (.collect
           { mode := if m = 0 then .openKeys else if m = 1 then .amount else .concealed
             maxLen := most
             minLen := clampNat 1 most mn.toNat
             decimals := clampNat 0 3 dec.toNat
             clearLimit := clampNat 0 7 lim.toNat
             firstKey := clampNat 1 120 first.toNat
             interKey := clampNat 1 60 inter.toNat
             ceiling := clampNat 5 300 (num2 lo hi) }),
           decide (most ≠ mx.toNat ∨ mn.toNat < 1 ∨ most < mn.toNat ∨ 3 < dec.toNat ∨ 7 < lim.toNat ∨ first.toNat < 1 ∨
             120 < first.toNat ∨ inter.toNat < 1 ∨ 60 < inter.toNat ∨ num2 lo hi < 5 ∨ 300 < num2 lo hi))]) ∧
     (∀ lo hi : Byte,
       postRecords [6, flags, tag, 2, lo, hi] =
         some [(rec' (.pause (clampNat 1 6000 (num2 lo hi))), decide (num2 lo hi < 1 ∨ 6000 < num2 lo hi))])) ∧
  (∀ a : List Byte, a.length < 4 → postRecords a = none) ∧
  (∀ (kind flags tag len : Byte) (rest : List Byte),
    let ps := rest.take len.toNat
    (17 < len.toNat ∨ rest.length < len.toNat ∨ 3 < flags.toNat ∨ kind = 0 ∨ 6 < kind.toNat ∨
      (kind = 1 ∧ (len = 0 ∨ 3 < (ps.headD 0).toNat ∨ ∃ c ∈ ps.tail, c.toNat < 0x20 ∨ 0x7E < c.toNat)) ∨
      (kind = 2 ∧ len ≠ 3) ∨ (kind = 3 ∧ len ≠ 0) ∨ (kind = 4 ∧ (len ≠ 3 ∨ 1 < (ps.headD 0).toNat)) ∨
      (kind = 5 ∧ (len ≠ 9 ∨ 2 < (ps.headD 0).toNat)) ∨ (kind = 6 ∧ len ≠ 2)) →
    postRecords (kind :: flags :: tag :: len :: rest) = none) ∧
  (∀ a b xs, postRecords a = some xs → b ≠ [] → postRecords (a ++ b) = (postRecords b).map (xs ++ ·))

/-- POST: refused BADARG for a payload that is not one or more whole records, NOROOM when the pool or the chain cannot take
them all; otherwise, at a chain that is HALTED or RUNNING with records, every record joins the tail of the chain. -/
def Obligations.PostAppendsOrRefuses : Prop :=
  ∀ (s : State) (pos tag : Byte) (payload : List Byte), LinkReady s → pos.toNat < 8 → payload.length ≤ 61 →
    let p := positionOf s.variant pos
    let c := (s.pos p).chain.length
    ((s.pos p).chainState = .halted ∨ ((s.pos p).chainState = .running ∧ (s.pos p).chain ≠ []) ∨
      ∀ rs, postRecords payload = some rs → s.freeRecords < rs.length ∨ 12 < c + rs.length) →
    exec (.post pos tag payload) s =
      match postRecords payload with
      | none => .next (withReply (refusalReply .post pos tag .badArg) (countedRefusal (counted s)))
      | some rs =>
        if s.freeRecords < rs.length ∨ 12 < c + rs.length then
          .next (withReply { kind := 0x82, pos := pos, tag := tag, payload := [4, 0, byteOf c, byteOf s.freeRecords, 0, 0] }
            (countedRefusal (counted s)))
        else
          .next (withReply
            (okReply .post pos tag
              ([byteOf rs.length, byteOf (c + rs.length), byteOf (s.freeRecords - rs.length)] ++
                wordBytes (wordOfNat (markBits (rs.map Prod.snd)))))
            (State.modPos { counted s with freeRecords := s.freeRecords - rs.length } p fun v =>
              { v with chain := v.chain ++ rs.map Prod.fst }))

/-- POST of a PAUSE to an empty IDLE chain starts it: ACTIVE, its timer running for its duration in units of 10 ms. -/
def Obligations.PostStartsPause : Prop :=
  ∀ (s : State) (pos tag flags rtag lo hi : Byte), LinkReady s → pos.toNat < 8 → flags.toNat ≤ 3 →
    let p := positionOf s.variant pos
    let d := clampNat 1 6000 (num2 lo hi)
    EmptyIdle p s →
    exec (.post pos tag [6, flags, rtag, 2, lo, hi]) s =
      .next (withReply (postReply pos tag s (num2 lo hi < 1 || 6000 < num2 lo hi))
        (posted p
          { params := .pause d, tag := rtag, notify := flags.getLsbD 0, stopOnFailure := flags.getLsbD 1,
            progress := some (.active (.pause (.running (d * 10)))) } s))

/-- POST of a WAIT CARD to an empty IDLE chain, by its reader port: READY arms the reader, starts the timeout and sets the
attempts; STARTING leaves the step in WAITING_PORT; OFF, FAULT and ABSENT end it with the port outcome, the chain HALTED by
FAULT, by ABSENT or by stop-on-failure, and its report in the queue. Where the step ends, the reply still shows chain length 1
and the record taken (log 11), and it goes before the report (log 15); the attempts are set before the port is looked at (log
27). -/
def Obligations.PostStartsWaitCard : Prop :=
  ∀ (s : State) (pos tag flags rtag a lo hi : Byte), LinkReady s → pos.toNat < 8 → flags.toNat ≤ 3 →
    let p := positionOf s.variant pos
    let attempts := clampNat 0 4 a.toNat
    let t := clampNat 5 300 (num2 lo hi)
    let limit := if attempts = 0 then s.settings.live.attempts.toNat else attempts
    let r (g : Progress) : StepRecord :=
      { params := .waitCard attempts t, tag := rtag, notify := flags.getLsbD 0, stopOnFailure := flags.getLsbD 1, progress := some g }
    let reply := postReply pos tag s (4 < a.toNat || num2 lo hi < 5 || 300 < num2 lo hi)
    let started (g : Progress) := State.modPos (posted p (r g) s) p fun v => { v with attemptCount := 0, attemptLimit := limit }
    let ended (o : StepOutcome) :=
      { withReply reply (stepFreed p (o != .portOff || flags.getLsbD 1) (started (.completing o .nothing false))) with
        queue := s.queue ++ [.cardSegment p 1 [] (some { tag := rtag, outcome := o, data := {}, total := 0 })] }
    EmptyIdle p s → s.queue.length < 32 → (s.pos p).waiting = [] →
    exec (.post pos tag [2, flags, rtag, 3, a, lo, hi]) s =
      .next (match (s.pos p).reader.state with
        | .ready =>
          withReply reply ((started (.active (.card (.running (t * 1000))))).modPos p fun v =>
            { v with pass := { v.pass with armed := true } })
        | .starting => withReply reply (started .waitingPort)
        | .off => ended .portOff
        | .fault => ended .portFault
        | .absent => ended .deviceAbsent)

/-- POST to an empty IDLE chain at a READY keypad. A COLLECT opens its session: an empty buffer, the first-key and ceiling
timers running, and in AMOUNT and CONCEALED mode the echo handed to the display. A SHOW hands its 16 characters to the display
and asks its beep of a keypad that has a beeper (log 31); it waits for the acknowledge of the write that carries its text, and
without a display it ends DONE at once with the flag no display: the reply still shows chain length 1 and the record taken
(log 11), and it goes before the report (log 15). -/
def Obligations.PostOpensSession : Prop :=
  ∀ (s : State) (pos tag flags rtag : Byte), LinkReady s → pos.toNat < 8 → flags.toNat ≤ 3 →
    let p := positionOf s.variant pos
    let r (ps : StepParams) (w : Work) : StepRecord :=
      { params := ps, tag := rtag, notify := flags.getLsbD 0, stopOnFailure := flags.getLsbD 1, progress := some (.active w) }
    EmptyIdle p s → (s.pos p).keypad.state = .ready →
    (∀ (m mx mn dec lim first inter lo hi : Byte) (mode : EntryMode), modeOf m = some mode →
      let c := collectParams mode mx.toNat mn.toNat dec.toNat lim.toNat first.toNat inter.toNat (num2 lo hi)
      let blank := List.replicate 16 (0x20 : Byte)
      let zero := List.replicate (14 - c.1.decimals) (0x20 : Byte) ++ [0x30, 0x2E] ++ List.replicate c.1.decimals 0x30
      let echo : Option (List Byte) := match mode with
        | .openKeys => none
        | .amount => some (if c.1.decimals = 0 then List.replicate 15 0x20 ++ [0x30] else zero)
        | .concealed => some blank
      exec (.post pos tag [5, flags, rtag, 9, m, mx, mn, dec, lim, first, inter, lo, hi]) s =
        .next (withReply (postReply pos tag s c.2)
          ((posted p (r (.collect c.1) .session) s).modPos p fun v =>
            { v with
              entry :=
                { state := .collecting, mode := mode, maxLen := c.1.maxLen, minLen := c.1.minLen, decimals := c.1.decimals,
                  clearLimit := c.1.clearLimit, clearCount := 0, firstKey := .running (c.1.firstKey * 1000),
                  interKey := .stopped, ceiling := .running (c.1.ceiling * 1000), buffer := [] }
              key := match echo with
                | none => v.key
                | some text => if v.key.display then takeContent text v.key else v.key }))) ∧
    ∀ (b : Byte) (text : List Byte) (beep : Option Beep), beepOf b = some beep → text.length ≤ 16 →
      (∀ c ∈ text, 0x20 ≤ c.toNat ∧ c.toNat ≤ 0x7E) →
      let shown := text ++ List.replicate (16 - text.length) 0x20
      let beeped (u : KeyUnit) : KeyUnit := if beep ≠ none ∧ u.beeper = true then { u with waitingBeep := beep } else u
      let reply := postReply pos tag s false
      let free := (s.pos p).key.outstanding = none
      ((s.pos p).key.display = true →
        exec (.post pos tag ([1, flags, rtag, byteOf (1 + text.length), b] ++ text)) s =
          .next (withReply reply
            ((posted p (r (.showText beep shown) (.display (decide free))) s).modPos p fun v =>
              { v with
                key := beeped
                  (if free then
                    { v.key with outstanding := some shown, ackTimer := .running 200, lastOut := some (.write shown) }
                  else { v.key with pendingContent := some shown }) }))) ∧
      ((s.pos p).key.display = false → s.queue.length < 32 → (s.pos p).waiting = [] →
        exec (.post pos tag ([1, flags, rtag, byteOf (1 + text.length), b] ++ text)) s =
          .next (endedWithReply reply p false
            (if flags.getLsbD 0 then some (.stepDone p rtag .showText .done [1] false) else none)
            ((posted p (r (.showText beep shown) (.display false)) s).modPos p fun v => { v with key := beeped v.key })))

/-- POST to an empty IDLE chain at a READY reader port. A HOLD CARD ends DONE at once where the latch is ENERGIZED, and
NO_CARD where no card is present; else it asks for the latch: with the wait list empty the latch is energized and the step
ends DONE while the budget has room and the re-energize interval is over, and otherwise the request waits. A RELEASE CARD
drives an energized latch off, stated where no request waits; with wait-removal and a card present it stays, its removal timer
running, and else it ends DONE. The reply shows chain length 1 and the record taken (log 11), and it goes before the step's
report (log 15). -/
def Obligations.PostHoldCardAsksLatch : Prop :=
  ∀ (s : State) (pos tag flags rtag : Byte), LinkReady s → pos.toNat < 8 → flags.toNat ≤ 3 →
    let p := positionOf s.variant pos
    let r (ps : StepParams) (w : Work) : StepRecord :=
      { params := ps, tag := rtag, notify := flags.getLsbD 0, stopOnFailure := flags.getLsbD 1, progress := some (.active w) }
    let done (k : StepKind) : Option Report := if flags.getLsbD 0 then some (.stepDone p rtag k .done [] false) else none
    EmptyIdle p s → s.queue.length < 32 → (s.pos p).waiting = [] → (s.pos p).reader.state = .ready →
    (let reply := postReply pos tag s false
      let asked := posted p (r .holdCard .latch) s
      (s.pos p).latchState = .energized ∨ (s.pos p).cardPresent = false ∨ ((s.pos p).latchState = .off ∧ s.latchWait = []) →
      exec (.post pos tag [3, flags, rtag, 0]) s =
        if (s.pos p).latchState = .energized then .next (endedWithReply reply p false (done .holdCard) asked)
        else if (s.pos p).cardPresent = false then
          .next (endedWithReply reply p (flags.getLsbD 1) (some (.stepDone p rtag .holdCard .noCard [] false)) asked)
        else if s.energized.length < s.settings.live.latchBudget.toNat ∧ (s.pos p).reEnergizeTimer.isRunning = false then
          .next (endedWithReply reply p false (done .holdCard) (latchOn p asked))
        else .next (withReply reply (State.modPos { asked with latchWait := [p] } p fun v => { v with latchState := .waiting }))) ∧
    ∀ w lo hi : Byte, w.toNat ≤ 1 → ((s.pos p).latchState = .energized → s.latchWait = []) →
      let t := clampNat 5 300 (num2 lo hi)
      let reply := postReply pos tag s (num2 lo hi < 5 || 300 < num2 lo hi)
      let active := posted p (r (.releaseCard (w = 1) t) (.removal (.running (t * 1000)))) s
      let off := if (s.pos p).latchState = .energized then latchOff p active else active
      exec (.post pos tag [4, flags, rtag, 3, w, lo, hi]) s =
        .next (if w = 1 ∧ (s.pos p).cardPresent = true then withReply reply off
          else endedWithReply reply p false (done .releaseCard) off)

/-- CANCEL: every unstarted record is freed and a HALTED chain becomes IDLE; a step in COMPLETING keeps its outcome and halts
nothing; a step in WAITING_PORT or ACTIVE ends ABORTED, the reply before its report (log 15). -/
def Obligations.CancelDropsChain : Prop :=
  ∀ (s : State) (pos tag : Byte), LinkReady s → pos.toNat < 8 →
    let p := positionOf s.variant pos
    (∀ v, s.pos p = v → v.chainState = .halted → (∀ r ∈ v.chain, r.progress = none) →
      exec (.cancel pos tag []) s =
        .next (withReply (okReply .cancel pos tag [byteOf v.chain.length, 0])
          (State.modPos { counted s with freeRecords := s.freeRecords + v.chain.length } p fun v =>
            { v with chain := [], chainState := .idle }))) ∧
    (∀ r rest o d c, (s.pos p).chain = r :: rest → r.progress = some (.completing o d c) →
      (∀ x ∈ rest, x.progress = none) → (s.pos p).chainState = .running →
      exec (.cancel pos tag []) s =
        .next (withReply (okReply .cancel pos tag [byteOf rest.length, 2])
          (State.modPos { counted s with freeRecords := s.freeRecords + rest.length } p fun v =>
            { v with chain := [{ r with progress := some (.completing o d true) }] }))) ∧
    (∀ r rest g, (s.pos p).chain = r :: rest → r.progress = some g → (g = .waitingPort ∨ ∃ w, g = .active w) →
      (∀ x ∈ rest, x.progress = none) → (s.pos p).chainState = .running →
      s.queue.length < 32 → (s.pos p).waiting = [] →
      exec (.cancel pos tag []) s =
        .next
          { withReply (okReply .cancel pos tag [byteOf rest.length, 1])
              (stepFreed p false { counted s with freeRecords := s.freeRecords + rest.length }) with
            queue := s.queue ++ [failureReport p r .aborted] })

/-- RESUME: refused STATE when the chain is not HALTED; otherwise an empty chain becomes IDLE, and a chain with a PAUSE at its
head is RUNNING with the PAUSE started. For a head that ends at once, for which this is not stated, the reply is log 30's. -/
def Obligations.ResumeLeavesHalt : Prop :=
  ∀ (s : State) (pos tag : Byte), LinkReady s → pos.toNat < 8 →
    let p := positionOf s.variant pos
    ((s.pos p).chainState ≠ .halted →
      exec (.resume pos tag []) s =
        .next (withReply (refusalReply .resume pos tag .state) (countedRefusal (counted s)))) ∧
    ((s.pos p).chainState = .halted → (s.pos p).chain = [] →
      exec (.resume pos tag []) s =
        .next (withReply (okReply .resume pos tag [0]) ((counted s).modPos p fun v => { v with chainState := .idle }))) ∧
    (∀ r rest d, (s.pos p).chainState = .halted → (s.pos p).chain = r :: rest → r.params = .pause d → r.progress = none →
      exec (.resume pos tag []) s =
        .next (withReply (okReply .resume pos tag [1])
          ((counted s).modPos p fun v =>
            { v with
              chainState := .running
              cardLeftTimer := .stopped
              chain := { r with progress := some (.active (.pause (.running (d * 10)))) } :: rest })))

/-- POWER with action on: every named port in OFF or FAULT becomes STARTING, not switched on, and joins the tail of the
power-up list, in ascending position and the keypad port before the reader port; every other port is left as it is. The
reply carries the state of every port and the length of the list. -/
def Obligations.PowerOnStartsPorts : Prop :=
  ∀ (s : State) (tag mask kind : Byte) (ks : List PortKind), LinkReady s → powerKinds kind = some ks →
    let named := powerPorts s.variant mask ks
    let starts (i : PortId) : Bool := (s.port i.pos i.kind).state = .off || (s.port i.pos i.kind).state = .fault
    let become (p : Pos) (k : PortKind) : PortRecord :=
      if { pos := p, kind := k } ∈ named ∧ starts { pos := p, kind := k } then { state := .starting } else s.port p k
    ∃ t, exec (.powerOn 0xFF tag mask kind) s =
        .next (withReply
          (okReply .power 0xFF tag
            ((s.partPos.flatMap fun p => [(become p .reader).state.code, (become p .keypad).state.code]) ++
              [byteOf (s.powerList ++ named.filter starts).length]))
          t) ∧
      (∀ p, t.pos p = { s.pos p with reader := become p .reader, keypad := become p .keypad }) ∧
      t = { counted s with positions := t.positions, powerList := s.powerList ++ named.filter starts }

/-- POWER with action off names one port: an OFF port is left as it is; any other is OFF and off the list, its line's units
give up their state, and the step of its position that needs it ends PORT_OFF. An ENERGIZED latch of a reader that is switched
off is driven off, its re-energize timer running. The reply goes before the report of the step (log 15). The release of a
latch is stated where no request waits. -/
def Obligations.PowerOffStopsPort : Prop :=
  ∀ (s : State) (tag mask kind : Byte) (p : Pos) (k : PortKind), LinkReady s → powerKinds kind = some [k] →
    allPos.filter (setNames s.variant mask) = [p] →
    let become (q : Pos) (l : PortKind) : PortRecord := if q = p ∧ l = k then { state := .off } else s.port q l
    let list := s.powerList.filter (· ≠ { pos := p, kind := k })
    let lost : State := State.modPos { counted s with powerList := list } p fun v =>
      match k with
      | .reader =>
        { v with
          reader := { state := .off }
          pass := { v.pass with state := .idle, buffer := [], overlong := false, gapTimer := .stopped }
          cardPresent := false
          cardLeftTimer := .stopped
          cardLeftRaised := false }
      | .keypad => { v with keypad := { state := .off }, key := { lastOut := v.key.lastOut } }
    let off : State := if k = .reader ∧ (s.pos p).latchState = .energized then latchOff p lost else lost
    let reply : Frame := okReply .power 0xFF tag
      ((s.partPos.flatMap fun q => [(become q .reader).state.code, (become q .keypad).state.code]) ++ [byteOf list.length])
    ((s.port p k).state = .off →
      exec (.powerOff 0xFF tag mask kind) s =
        .next (withReply
          (okReply .power 0xFF tag
            ((s.partPos.flatMap fun q => [(s.port q .reader).state.code, (s.port q .keypad).state.code]) ++
              [byteOf s.powerList.length]))
          (counted s))) ∧
    ((s.port p k).state ≠ .off → (k = .reader → (s.pos p).latchState = .energized → s.latchWait = []) →
      ((s.pos p).needsPort k = false → exec (.powerOff 0xFF tag mask kind) s = .next (withReply reply off)) ∧
      (∀ r, (s.pos p).needsPort k = true → (s.pos p).chain = [r] → (s.pos p).waiting = [] → s.queue.length < 32 →
        exec (.powerOff 0xFF tag mask kind) s =
          .next { withReply reply (stepFreed p r.stopOnFailure off) with
            queue := s.queue ++ [failureReport p r .portOff] }))

/-! ### The link's own events, starts and store writes -/

/-- RECEIVE_BYTE by the receive state: A5 opens a frame and any other byte is dropped while hunting; a LEN of 3 to 64 opens
the body; a byte of an unfinished body is added, each with a fresh gap timer; and a frame whose bytes sum to 0 joins the
receive buffer, where it waits as the reply slot is occupied or a restart is under way. It counts in frames_ok, which raises
COUNTER_HIGH at 49152 and stays at 65535. -/
def Obligations.ReceiveByteBuildsFrame : Prop :=
  ∀ (s : State) (b : Byte),
    (s.link.rx = .hunting →
      exec (.receiveByte b) s =
        .next (if b = 0xA5 then
          { s with link := { s.link with rx := .length, partialFrame := [], gapTimer := .running 20 } } else s)) ∧
    (s.link.rx = .length → 3 ≤ b.toNat → b.toNat ≤ 64 →
      exec (.receiveByte b) s =
        .next { s with link := { s.link with rx := .body, partialFrame := [b], gapTimer := .running 20 } }) ∧
    (∀ len rest, s.link.rx = .body → s.link.partialFrame = len :: rest → rest.length < len.toNat →
      exec (.receiveByte b) s =
        .next { s with
          link := { s.link with rx := .body, partialFrame := (len :: rest) ++ [b], gapTimer := .running 20 } }) ∧
    (∀ len kind pos tag payload, s.link.rx = .body → s.link.partialFrame = len :: kind :: pos :: tag :: payload →
      len.toNat = payload.length + 3 → sum8 (len :: kind :: pos :: tag :: payload ++ [b]) = 0 → AtRest s →
      (s.link.slot ≠ none ∨ s.link.restarting = true) → s.link.buffer.length < 4 → s.queue.length < 32 →
      exec (.receiveByte b) s =
        .next (let n := s.deviceCounters[0]
          let t : State :=
            { s with
              deviceCounters := s.deviceCounters.set 0 (if n < 65535 then n + 1 else n)
              link := { s.link with
                rx := .hunting
                partialFrame := []
                gapTimer := .stopped
                buffer := s.link.buffer ++ [{ kind := kind, pos := pos, tag := tag, payload := payload }] } }
          if n = 49151 then withNotice .counterHigh none t else t))

/-- A frame is lost in four ways: a LEN outside 3 to 64, the end of the frame gap, a sum that is not 0, and a fifth frame at a
full receive buffer. Each counts in frames_discarded and raises LINK_ERROR, and the receiver hunts. That FRAME_GAP_TIMEOUT on
a hunting receiver changes nothing is the model's choice (log 3). -/
def Obligations.LostFrameCounts : Prop :=
  ∀ s : State, AtRest s → s.queue.length < 32 → s.deviceCounters[1] < 49151 →
    (s.link.slot ≠ none ∨ s.link.restarting = true ∨ s.link.buffer = []) →
    let t := withNotice .linkError none
      { s with
        link := { s.link with rx := .hunting, partialFrame := [], gapTimer := .stopped }
        deviceCounters := s.deviceCounters.set 1 (s.deviceCounters[1] + 1) }
    (∀ b : Byte, s.link.rx = .length → (b.toNat < 3 ∨ 64 < b.toNat) → exec (.receiveByte b) s = .next t) ∧
    (s.link.rx ≠ .hunting → s.link.gapTimer.isRunning = true → exec .frameGapTimeout s = .next t) ∧
    (s.link.rx = .hunting → exec .frameGapTimeout s = .next s) ∧
    (∀ b len rest, s.link.rx = .body → s.link.partialFrame = len :: rest → rest.length = len.toNat →
      (sum8 (len :: rest ++ [b]) ≠ 0 ∨ s.link.buffer.length = 4) → exec (.receiveByte b) s = .next t)

/-- TRANSMIT_DONE frees the transmitter, and the waiting reply, or else the head report, is handed to it; a NOTICE report is
filled as it is handed, its classes in ascending number (log 35), and with no class to place it is dropped. With the reply
slot emptied, the frame that waits is taken (stated for an unknown KIND); with a place of the full queue freed, the head
producer's report is admitted (stated for a KEY). -/
def Obligations.TransmitDoneHandsNext : Prop :=
  ∀ (s : State) (f : Frame), AtRest s → s.link.transmitter = some f →
    (s.link.buffer = [] → s.waitOrder = [] →
      (∀ g, s.link.slot = some g →
        exec .transmitDone s = .next { s with link := { s.link with transmitter := some g, slot := none } }) ∧
      (s.link.slot = none → s.link.restarting = false → s.queue = [] →
        exec .transmitDone s = .next { s with link := { s.link with transmitter := none } }) ∧
      (∀ r q, s.link.slot = none → s.link.restarting = false → s.queue = r :: q → r ≠ .notice →
        exec .transmitDone s =
          .next { s with queue := q, link := { s.link with transmitter := some (r.frame []) } }) ∧
      (∀ q, s.link.slot = none → s.link.restarting = false → s.queue = .notice :: q →
        (∃ i : Fin 15, s.notices[i].pending = true ∧ s.notices[i].muted = false) →
        exec .transmitDone s =
          .next { s with
            queue := q
            noticeReport := .absent
            link := { s.link with
              transmitter := some
                { kind := 0x44
                  pos := 0xFF
                  tag := 0
                  payload := noticePayload s.notices } } }) ∧
      (s.link.slot = none → s.link.restarting = false → s.queue = [.notice] →
        (∀ i : Fin 15, s.notices[i].pending = true → s.notices[i].muted = true) →
        exec .transmitDone s =
          .next { s with queue := [], noticeReport := .absent, link := { s.link with transmitter := none } })) ∧
    (∀ g k pos tag payload, s.link.slot = some g → s.link.restarting = false → s.waitOrder = [] →
      s.link.buffer = [{ kind := k, pos := pos, tag := tag, payload := payload }] → isRequestKind k = false →
      s.deviceCounters[2] < 49151 →
      exec .transmitDone s =
        .next (countedRefusal
          { s with
            link := { s.link with
              buffer := []
              transmitter := some g
              slot := some { kind := 0xFF, pos := pos, tag := tag, payload := [1, k] } } })) ∧
    (∀ r q p x h, s.link.slot = none → s.link.restarting = false → s.link.buffer = [] → s.queue = r :: q → r ≠ .notice →
      s.queue.length = 32 → s.waitOrder = [.position p] → (s.pos p).waiting = [.key p x h] →
      exec .transmitDone s =
        .next (State.modPos
          { s with
            queue := q ++ [.key p x h]
            waitOrder := []
            link := { s.link with transmitter := some (r.frame []) } } p fun v => { v with waiting := [] }))

/-- A cold start, and the warm start that the sent RESTART reply begins, leave every block at its start values and load the
store: its values when its check is good, the factory values and STORE_FAULT when it is not. A cold start clears the
failed-attempt count and lockout, a warm start keeps them and raises SUPERVISOR_LOCKOUT on a lockout; with the check failed
too, both classes are pending and one NOTICE report names them, class 13 first (log 35). The first clauses say what the load
makes of each stored item, its range and the interlock of items 7 and 8, and the factory values but for the key map. -/
def Obligations.StartLoadsStore : Prop :=
  (∀ d : DeviceItems,
    (∀ n lo hi, (n, lo, hi) ∈ [(3, 500, 3000), (4, 10, 300), (5, 1, 4), (6, 5, 50), (8, 12, 19), (12, 1, 8), (13, 1, 600),
        (14, 100, 5000), (16, 0, 16), (18, 0, 7)] →
      ((loadDeviceItems d).read n 0).toNat = clampNat lo hi (d.read n 0).toNat) ∧
    ((loadDeviceItems d).read 7 0).toNat = min (clampNat 12 19 (d.read 7 0).toNat) (clampNat 12 19 (d.read 8 0).toNat) ∧
    ∀ n ∈ [9, 15, 17], ∀ i, (loadDeviceItems d).read n i = d.read n i) ∧
  (∀ x : PosItems,
    ((loadPosItems x).read 10).toNat = clampNat 100 400 (x.read 10).toNat ∧
    ((loadPosItems x).read 11).toNat = clampNat 50 200 (x.read 11).toNat ∧
    ∀ n ∈ [0, 1, 2], (loadPosItems x).read n = x.read n) ∧
  (∀ n v, (n, v) ∈ [(3, 1200), (4, 60), (5, 3), (6, 20), (7, 12), (8, 19), (9, 1), (12, 4), (13, 120), (14, 1000), (16, 7), (17, 0),
      (18, 3)] → factoryDeviceItems.read n 0 = BitVec.ofNat 16 v) ∧
  (∀ n v, (n, v) ∈ [(0, 0), (1, 0), (2, 1), (10, 300), (11, 150)] → factoryPosItems.read n = BitVec.ofNat 16 v) ∧
  factoryPasscode = Vector.replicate 8 0x30 ∧
  ∀ s : State, s.settings.job = none →
    let st := s.settings.store
    let loaded (n : Nat) (l : Bool) : Settings :=
      { live := if st.checkGood then loadDeviceItems st.deviceItems else factoryDeviceItems
        passcode := if st.checkGood then st.passcode else factoryPasscode
        store := st
        storeLocked := st.lockFlag
        loadGood := st.checkGood
        failedCount := n
        lockout := l }
    let items := if st.checkGood then loadPosItems st.posItems else factoryPosItems
    let t (n : Nat) (l : Bool) : State := startedWith items (loaded n l) s
    exec .coldStart s = .next (if st.checkGood then t 0 false else withNotice .storeFault none (t 0 false)) ∧
    (s.link.restarting = true → s.link.slot = none → s.link.transmitter ≠ none →
      exec .transmitDone s = exec .warmStart s ∧
      (s.settings.lockout = false →
        exec .warmStart s =
          .next (if st.checkGood then t s.settings.failedCount false
            else withNotice .storeFault none (t s.settings.failedCount false))) ∧
      (s.settings.lockout = true → st.checkGood = true →
        exec .warmStart s = .next (withNotice .supervisorLockout none (t s.settings.failedCount true))) ∧
      (s.settings.lockout = true → st.checkGood = false →
        exec .warmStart s =
          .next { t s.settings.failedCount true with
            notices := ((Vector.replicate 15 {}).set 13 { pending := true }).set 14 { pending := true }
            link := { transmitter := some { kind := 0x44, pos := 0xFF, tag := 0, payload := [2, 13, 0, 14, 0] } } })) ∧
    (AtRest s → s.link.restarting = false → exec .warmStart s = .next s)

/-- A store write in progress at a start: a cold start cuts it off, so that its item holds an open value (log 8) and the store
check does not match (a lock leaves the flag as it was, log 16). A warm start, which the sent RESTART reply begins (log 25),
lets it run on: every other block takes its start values at once, the write-enable latch cleared and the supervisor LOCKED
among them (log 21), the start is not complete before the load, and at the write's end the part loads as a warm start does
(log 10), without STORE_DONE or STORE_FAULT for the write. The load finds the store as the write left it: with the new value
and a matching check, or after a failed verify with only that item at some other value and the check not matching (a lock
leaves the flag as it was). -/
def Obligations.StartMeetsStoreWrite : Prop :=
  ∀ (s : State) (j : StoreJob), s.settings.job = some j →
    let before := s.settings.store
    let cut : StoreImage := match j with
      | .item n index _ => { before.write n index (Config.freeWord s.freeCount) with checkGood := false }
      | .passcode _ => { before with passcode := Config.freePasscode s.freeCount, checkGood := false }
      | .lockFlag => before
    let written : StoreImage := match j with
      | .item n index w => { before.write n index w with checkGood := true }
      | .passcode d => { before with passcode := d, checkGood := true }
      | .lockFlag => { before with lockFlag := true }
    let ended (st : StoreImage) : State :=
      { s with freeCount := s.freeCount + 1, settings := { s.settings with job := none, store := st } }
    exec .coldStart s = exec .coldStart (ended cut) ∧
    (s.link.restarting = true → s.link.slot = none → s.link.transmitter ≠ none →
      let waits := { s.settings with loadPending := true, writeEnable := false, unlocked := false }
      let t : State :=
        { startedWith factoryPosItems waits s with
          positions := Vector.ofFn fun p => { items := (s.pos p).items, cardLine := (s.pos p).cardLine } }
      exec .warmStart s = .next t ∧
      exec .startComplete t = .next t ∧
      exec (.storeWriteEnd true) t = exec .warmStart (ended written) ∧
      ∃ st, exec (.storeWriteEnd false) t = exec .warmStart (ended st) ∧
        match j with
        | .item n index w => ∃ w', w' ≠ w ∧ st = { before.write n index w' with checkGood := false }
        | .passcode d => ∃ d', d' ≠ d ∧ st = { before with passcode := d', checkGood := false }
        | .lockFlag => st = before)

/-- START_COMPLETE, once the load has ended: the start is complete and the notice START_COMPLETE raised. That it changes
nothing at any other time, the start complete already or the load still waiting, is the model's choice (logs 3, 10). -/
def Obligations.StartCompletes : Prop :=
  ∀ s : State, AtRest s → s.queue.length < 32 →
    exec .startComplete s =
      .next (if s.link.startComplete = false ∧ s.settings.loadPending = false then
        withNotice .startComplete none { s with link := { s.link with startComplete := true } } else s)

/-- STORE_WRITE_END with a good verify: the item, the passcode or the lock flag is stored, the store check matches again for a
stored value, and STORE_DONE is raised. With a failed verify: the item holds some other value and the check does not match (a
lock leaves the flag as it was, log 16), and STORE_FAULT is raised. The store is IDLE again. -/
def Obligations.StoreWriteEnds : Prop :=
  ∀ (s : State) (j : StoreJob), AtRest s → s.queue.length < 32 → s.settings.job = some j → s.settings.loadPending = false →
    let st := s.settings.store
    let ends (t : StoreImage) (r : WriteResult) : State :=
      { s with freeCount := s.freeCount + 1, settings := { s.settings with store := t, job := none, lastWrite := r } }
    exec (.storeWriteEnd true) s =
      .next (withNotice .storeDone none (ends
        (match j with
         | .item n index w => { st.write n index w with checkGood := true }
         | .passcode d => { st with passcode := d, checkGood := true }
         | .lockFlag => { st with lockFlag := true }) .done)) ∧
    ∃ t, exec (.storeWriteEnd false) s = .next (withNotice .storeFault none (ends t .fault)) ∧
      match j with
      | .item n index w => ∃ w', w' ≠ w ∧ t = { st.write n index w' with checkGood := false }
      | .passcode d => ∃ d', d' ≠ d ∧ t = { st with passcode := d', checkGood := false }
      | .lockFlag => t = st

/-! ### Events on the reader line -/

/-- READER_CHARACTER_BYTE, READER_END_BYTE, READER_FAULT_BYTE and PASS_GAP_TIMEOUT on a reader that is not armed, by port and
assembly state. A reader that is not READY is not listened to. A completed pass is unsolicited. That PASS_GAP_TIMEOUT with the
gap timer stopped changes nothing is the model's choice (log 3). -/
def Obligations.UnarmedReaderAssembles : Prop :=
  ∀ (s : State) (p : Pos) (c : BitVec 5) (b : Byte), Quiet p s → readerClass b = .faultByte →
    let u := (s.pos p).pass
    let passIs (t : State) (w : PassUnit) : State := t.modPos p fun v => { v with pass := w }
    ((s.pos p).reader.state ≠ .ready →
      exec (.readerCharacterByte p c) s = .next s ∧ exec (.readerEndByte p) s = .next s ∧
        exec (.readerFaultByte p b) s = .next s) ∧
    (u.gapTimer = .stopped → exec (.passGapTimeout p) s = .next s) ∧
    ((s.pos p).reader.state = .ready →
      (u.state = .idle →
        exec (.readerCharacterByte p c) s =
          .next (passIs s { u with state := .receiving, buffer := [c], gapTimer := .running 50 })) ∧
      (u.state = .receiving → u.buffer.length < 110 →
        exec (.readerCharacterByte p c) s =
          .next (passIs s { u with buffer := u.buffer ++ [c], gapTimer := .running 50 })) ∧
      (u.state = .receiving → 110 ≤ u.buffer.length →
        exec (.readerCharacterByte p c) s = .next (passIs s { u with overlong := true, gapTimer := .running 50 })) ∧
      (u.state = .discarding →
        exec (.readerCharacterByte p c) s = .next (passIs s { u with gapTimer := .running 50 }) ∧
        exec (.readerFaultByte p b) s = .next (passIs s { u with gapTimer := .running 50 }) ∧
        exec (.readerEndByte p) s =
          .next (passIs s { u with state := .idle, buffer := [], overlong := false, gapTimer := .stopped })) ∧
      (u.state ≠ .discarding → u.armed = false →
        exec (.readerFaultByte p b) s =
          .next (passIs s { u with state := .discarding, buffer := [], overlong := false, gapTimer := .running 50 }) ∧
        (s.deviceCounters[3] < 49151 →
          exec (.readerEndByte p) s =
            .next (withNotice .unsolicitedPass (some p)
              (passIs { s with deviceCounters := s.deviceCounters.set 3 (s.deviceCounters[3] + 1) }
                { u with state := .idle, buffer := [], overlong := false, gapTimer := .stopped }))))) ∧
    (u.gapTimer.isRunning = true → (u.state = .discarding ∨ u.armed = false) →
      exec (.passGapTimeout p) s =
        .next (passIs s { u with state := .idle, buffer := [], overlong := false, gapTimer := .stopped }))

/-- An attempt that fails while armed, by a pass that fails its checks, a fault byte or a gap: passes_failed counts one and
the attempt count rises. Below the limit the keypad is asked for an error beep, which waits for BEEP_SENT (log 31); at the
limit the WAIT CARD ends READ_FAILED with the flags and the parity-error count of this pass. -/
def Obligations.FailedAttemptCounts : Prop :=
  ∀ (s : State) (p : Pos) (r : StepRecord) (a t ms : Nat) (b : Byte), Quiet p s → readerClass b = .faultByte →
    (s.pos p).chain = [r] → r.params = .waitCard a t → r.progress = some (.active (.card (.running ms))) →
    (s.pos p).reader.state = .ready → (s.pos p).pass.armed = true → (s.pos p).pass.state = .receiving →
    (s.pos p).counters[1] < 49151 →
    let v := s.pos p
    let u := v.pass
    let checked := checkPass s.settings.live u.buffer u.overlong
    let brokenBits : Word := if u.overlong then 0x600 else 0x400
    let failed (w : PassUnit) (flags : Word) (parity : Nat) : State :=
      let t := s.modPos p fun v =>
        { v with
          pass := w
          attemptCount := v.attemptCount + 1
          counters := v.counters.set 1 (v.counters[1] + 1) }
      if v.attemptCount + 1 < v.attemptLimit then
        (if v.keypad.state = .ready ∧ v.key.beeper = true then
          t.modPos p fun v => { v with key := { v.key with waitingBeep := some .error } } else t)
      else
        withReport
          (.cardSegment p 1 []
            (some { tag := r.tag, outcome := .readFailed, data := { flags := flags, parityErrors := parity }, total := 0 }))
          (stepFreed p r.stopOnFailure t)
    let idle : PassUnit := { u with state := .idle, buffer := [], overlong := false, gapTimer := .stopped }
    let dropping : PassUnit := { u with state := .discarding, buffer := [], overlong := false, gapTimer := .running 50 }
    (checked.failure ≠ none →
      exec (.readerEndByte p) s = .next (failed idle checked.flags checked.parityErrors)) ∧
    exec (.readerFaultByte p b) s = .next (failed dropping brokenBits 0) ∧
    (u.gapTimer.isRunning = true → exec (.passGapTimeout p) s = .next (failed idle brokenBits 0))

/-- A pass that checks good while armed ends the WAIT CARD: DONE with its text where no screening entry matches; SCREENED with
the entry's id on a REPORT match, and on a HOLD match that finds the latch ENERGIZED (held) or no card (not held), with the
match counted and SCREEN_MATCH raised, before the reports of the step. The text goes out in segments of 48 characters. A HOLD
match that finds a card and a latch that is not ENERGIZED asks for the latch: it is held at once where the budget has room and
the re-energize interval is over, and otherwise the request waits; the reader is disarmed and the timeout over. The grant is
stated where no older request is eligible. -/
def Obligations.GoodPassEndsWaitCard : Prop :=
  ∀ (s : State) (p : Pos) (r : StepRecord) (a t ms : Nat), Quiet p s →
    (s.pos p).chain = [r] → r.params = .waitCard a t → r.progress = some (.active (.card (.running ms))) →
    (s.pos p).reader.state = .ready → (s.pos p).pass.armed = true → (s.pos p).pass.state = .receiving →
    (s.pos p).counters[0] < 49151 → (s.pos p).counters[2] < 49151 →
    let u := (s.pos p).pass
    let checked := checkPass s.settings.live u.buffer u.overlong
    let text := checked.text
    checked.failure = none →
    s.queue.length + (if text.length ≤ 48 then 1 else if text.length ≤ 96 then 2 else 3) < 32 →
    let emptied := s.modPos p fun v =>
      { v with
        pass := { u with state := .idle, buffer := [], overlong := false, gapTimer := .stopped }
        counters := v.counters.set 0 (v.counters[0] + 1) }
    let again := emptied.modPos p fun v => { v with counters := v.counters.set 2 (v.counters[2] + 1) }
    let matched := withNotice .screenMatch (some p) again
    let ended (o : StepOutcome) (id : Option (Fin 16)) (h : HoldFlag) (b : Bool) (x : State) : State :=
      let last (n : Nat) (part : List Byte) : Report :=
        .cardSegment p n part
          (some
            { tag := r.tag
              outcome := o
              data := { text := text, flags := checked.flags, entryId := id, hold := h }
              total := text.length })
      withReports
        (if text.length ≤ 48 then [last 1 text]
          else if text.length ≤ 96 then [.cardSegment p 1 (text.take 48) none, last 2 (text.drop 48)]
          else [.cardSegment p 1 (text.take 48) none, .cardSegment p 2 ((text.drop 48).take 48) none, last 3 (text.drop 96)])
        (stepFreed p b x)
    (screen s.screening text = none →
      exec (.readerEndByte p) s = .next (ended .done none .noFlag false emptied)) ∧
    (∀ i, screen s.screening text = some (i, .report) →
      exec (.readerEndByte p) s = .next (ended .screened (some i) .noFlag r.stopOnFailure matched)) ∧
    (∀ i, screen s.screening text = some (i, .hold) →
      ((s.pos p).latchState = .energized →
        exec (.readerEndByte p) s = .next (ended .screened (some i) .held r.stopOnFailure matched)) ∧
      ((s.pos p).latchState ≠ .energized → (s.pos p).cardPresent = false →
        exec (.readerEndByte p) s = .next (ended .screened (some i) .notHeld r.stopOnFailure matched)) ∧
      ((s.pos p).latchState ≠ .energized → (s.pos p).cardPresent = true →
        (s.energized.length < s.settings.live.latchBudget.toNat → (s.pos p).reEnergizeTimer = .stopped →
          (∀ x ∈ s.latchWait, PassedOver x s) →
          exec (.readerEndByte p) s = .next (ended .screened (some i) .held r.stopOnFailure (latchOn p matched))) ∧
        (s.settings.live.latchBudget.toNat ≤ s.energized.length ∨
            ((s.pos p).reEnergizeTimer.isRunning = true ∧ ∀ x ∈ s.latchWait, PassedOver x s) →
          exec (.readerEndByte p) s =
            .next (withNotice .screenMatch (some p)
              (State.modPos { again with latchWait := s.latchWait ++ [p] } p fun v =>
                { v with
                  pass := { v.pass with armed := false }
                  latchState := .waiting
                  chain := [{ r with progress := some (.active (.screenHold i text checked.flags)) }] })))))

/-! ### Step and session timers -/

/-- WAIT_CARD_TIMEOUT, REMOVAL_TIMEOUT and the three session timers end their step TIMEOUT, PAUSE_TIMER_EXPIRY ends its PAUSE
DONE; the report is due on a failure and with notify set. A session that times out is wiped and counts in entries_timed_out.
At the freeing of the record the chain goes on to the record behind it, whose start is stated for a PAUSE, or it halts and
leaves the records behind as they are. That none of them changes anything with no step in flight, or with its session timer
stopped, is the model's choice (log 3). -/
def Obligations.TimersEndSteps : Prop :=
  ∀ (s : State) (p : Pos), Quiet p s →
    (∀ r rest, (s.pos p).chain = r :: rest → (∀ n ∈ rest.head?, n.progress = none) →
      (r.stopOnFailure = true ∨ PauseNext rest →
        (∀ a t ms, r.params = .waitCard a t → r.progress = some (.active (.card (.running ms))) →
          exec (.waitCardTimeout p) s =
            .next (withReport
              (.cardSegment p 1 []
                (some { tag := r.tag, outcome := .timeout, data := { attempts := (s.pos p).attemptCount }, total := 0 }))
              (stepFreedTo p r.stopOnFailure rest s))) ∧
        (∀ w t ms, r.params = .releaseCard w t → r.progress = some (.active (.removal (.running ms))) →
          exec (.removalTimeout p) s =
            .next (withReport (.stepDone p r.tag .releaseCard .timeout [] false) (stepFreedTo p r.stopOnFailure rest s))) ∧
        (∀ c, r.params = .collect c → r.progress = some (.active .session) → (s.pos p).entry.state = .collecting →
          (s.pos p).counters[4] < 49151 →
          let out := withReport (.stepDone p r.tag .collect .timeout [] false)
            (stepFreedTo p r.stopOnFailure rest
              (s.modPos p fun v => { v with counters := v.counters.set 4 (v.counters[4] + 1) }))
          ((s.pos p).entry.firstKey.isRunning = true → exec (.firstKeyTimeout p) s = .next out) ∧
          ((s.pos p).entry.interKey.isRunning = true → exec (.interKeyTimeout p) s = .next out) ∧
          ((s.pos p).entry.ceiling.isRunning = true → exec (.ceilingTimeout p) s = .next out))) ∧
      (∀ d ms, r.params = .pause d → r.progress = some (.active (.pause (.running ms))) → PauseNext rest →
        exec (.pauseTimerExpiry p) s =
          .next (let t := stepFreedTo p false rest s
            if r.notify then withReport (.stepDone p r.tag .pause .done [] false) t else t))) ∧
    ((s.pos p).inFlight = false →
      exec (.waitCardTimeout p) s = .next s ∧ exec (.removalTimeout p) s = .next s ∧
        exec (.pauseTimerExpiry p) s = .next s) ∧
    ((s.pos p).entry.firstKey = .stopped → exec (.firstKeyTimeout p) s = .next s) ∧
    ((s.pos p).entry.interKey = .stopped → exec (.interKeyTimeout p) s = .next s) ∧
    ((s.pos p).entry.ceiling = .stopped → exec (.ceilingTimeout p) s = .next s)

/-! ### Keys -/

/-- KEY_PRESS, KEY_RELEASE and LONG_PRESS_TIMEOUT at a READY keypad with no session collecting: a press without a held symbol
is decided at once, one with a held symbol is undecided until its release (press symbol), its long-press timeout (held symbol)
or the next press. A decided symbol is a KEY report where idle-key reporting is on, and nothing otherwise. At a full report
queue the KEY report joins the waiting reports of the position, or, where 8 KEY reports wait, it is dropped: keys_dropped
counts, KEYS_DROPPED is raised and an error beep asked (log 31; stated for a press decided at once). That LONG_PRESS_TIMEOUT
with its timer stopped changes nothing is the model's choice (log 3). -/
def Obligations.KeysBecomeSymbols : Prop :=
  ∀ (s : State) (p : Pos) (code : Fin 24), (s.pos p).keypad.state = .ready → (s.pos p).collecting = none →
    let k := (s.pos p).key
    let w := pressEntry s p code
    let press := symbolOf (loByte w)
    let held := symbolOf (hiByte w)
    (Quiet p s →
      let decided (x : Symbol) (h : Bool) (t : State) : State :=
        if (s.pos p).items.idleKeys = 1 then withReport (.key p x h) t else t
      let clear := s.modPos p fun v => { v with key := { v.key with undecided := none, longPress := .stopped } }
      (press = .nothing → exec (.keyPress p code) s = .next s) ∧
      (k.undecided = none → press ≠ .nothing → held = .nothing → exec (.keyPress p code) s = .next (decided press false s)) ∧
      (k.undecided = none → press ≠ .nothing → held ≠ .nothing →
        exec (.keyPress p code) s =
          .next (s.modPos p fun v =>
            { v with
              key := { v.key with
                undecided := some { code := code, press := press, held := held }
                longPress := .running s.settings.live.longPress.toNat } })) ∧
      (k.undecided = none → exec (.keyRelease p code) s = .next s) ∧
      (∀ u, k.undecided = some u →
        (u.code = code → exec (.keyRelease p code) s = .next (decided u.press false clear)) ∧
        (u.code ≠ code → exec (.keyRelease p code) s = .next s) ∧
        (k.longPress.isRunning = true → exec (.longPressTimeout p) s = .next (decided u.held true clear)) ∧
        (press ≠ .nothing →
          exec (.keyPress p code) s = exec (.keyPress p code) (decided u.press false clear))) ∧
      (k.longPress = .stopped → exec (.longPressTimeout p) s = .next s)) ∧
    (p.val < s.variant.positions → AtRest s → s.queue.length = 32 → (s.pos p).items.idleKeys = 1 → k.undecided = none →
      press ≠ .nothing → held = .nothing →
      let keys := (s.pos p).waiting.countP fun x => match x with
        | .key _ _ _ => true
        | _ => false
      let joined (x : Producer) : List Producer := if x ∈ s.waitOrder then s.waitOrder else s.waitOrder ++ [x]
      (keys < 8 →
        exec (.keyPress p code) s =
          .next { s.modPos p fun v => { v with waiting := v.waiting ++ [.key p press false] } with
            waitOrder := joined (.position p) }) ∧
      (8 ≤ keys → (s.pos p).counters[5] < 49151 →
        let t : State :=
          { s.modPos p fun v =>
              { v with
                counters := v.counters.set 5 (v.counters[5] + 1)
                key := if v.key.beeper then { v.key with waitingBeep := some .error } else v.key } with
            notices := raisedNotices .keysDropped (some p) s }
        exec (.keyPress p code) s =
          .next (if noticeAsked .keysDropped (some p) s then { t with noticeReport := .waiting, waitOrder := joined .notices }
            else t)))

/-- A key whose press is decided at once reaches the collecting session of its position. Every symbol stops the first-key
timer and restarts the inter-key timer. In OPEN mode it is a KEY report, after which ENTER ends the entry DONE and CANCEL ends
it CUSTOMER_CANCEL (DONE stated with notify set). In AMOUNT and CONCEALED mode a digit with room, BACK and CLEAR change the
buffer and hand the echo, a digit without room and the function keys get an error beep (log 31), ENTER at the least length or
above ends the entry DONE and CANCEL ends it CUSTOMER_CANCEL; a CLEAR of digits in CONCEALED mode counts, and ends it
CLEAR_LIMIT at the limit. -/
def Obligations.SessionTakesKeys : Prop :=
  ∀ (s : State) (p : Pos) (code : Fin 24) (r : StepRecord) (c : CollectParams), Quiet p s →
    (s.pos p).keypad.state = .ready → (s.pos p).chain = [r] → r.params = .collect c →
    r.progress = some (.active .session) → (s.pos p).entry.state = .collecting →
    (s.pos p).key.undecided = none → symbolOf (hiByte (pressEntry s p code)) = .nothing →
    (s.pos p).counters[3] < 49151 →
    let e := (s.pos p).entry
    let press := symbolOf (loByte (pressEntry s p code))
    let timed (x : EntryUnit) : EntryUnit := { x with firstKey := .stopped, interKey := .running (c.interKey * 1000) }
    let unchanged := s.modPos p fun v => { v with entry := timed v.entry }
    let edited (b : List (Fin 10)) : State := s.modPos p fun v =>
      { v with
        entry := { timed v.entry with buffer := b }
        key := if v.key.display then
            takeContent ((echoText { e with buffer := b }).getD []) v.key
          else v.key }
    let beeped := s.modPos p fun v =>
      { v with
        entry := timed v.entry
        key := if v.key.beeper then { v.key with waitingBeep := some .error } else v.key }
    let freed (n : Nat) (o : StepOutcome) := stepFreed p (o != .done && r.stopOnFailure)
      (s.modPos p fun v => { v with counters := v.counters.set 3 n })
    let keyed (t : State) : State := withReport (.key p press false) t
    (e.mode = .openKeys → e.buffer = [] → s.queue.length < 31 →
      (press ∉ [Symbol.nothing, .enter, .cancel] → exec (.keyPress p code) s = .next (keyed unchanged)) ∧
      (press = .enter → r.notify = true →
        exec (.keyPress p code) s =
          .next (withReport (.stepDone p r.tag .collect .done [] false)
            (stepFreed p false
              (keyed (s.modPos p fun v => { v with counters := v.counters.set 3 (v.counters[3] + 1) }))))) ∧
      (press = .cancel →
        exec (.keyPress p code) s =
          .next (withReport (.stepDone p r.tag .collect .customerCancel [] false)
            (stepFreed p r.stopOnFailure (keyed s))))) ∧
    (e.mode = .concealed → e.buffer ≠ [] → press = .clear →
      let n := min 7 (e.clearCount + 1)
      let wiped := s.modPos p fun v =>
        { v with
          entry := { timed v.entry with buffer := [], clearCount := n }
          key := if v.key.display then takeContent (List.replicate 16 0x20) v.key else v.key }
      exec (.keyPress p code) s =
        .next (if e.clearLimit ≠ 0 ∧ e.clearLimit ≤ n then
            withReport (.stepDone p r.tag .collect .clearLimit [] false) (stepFreed p r.stopOnFailure wiped)
          else wiped)) ∧
    (e.mode ≠ .openKeys →
      (∀ d, press = .digit d →
        exec (.keyPress p code) s =
          .next (if e.mode = .amount ∧ d = 0 ∧ e.buffer = [] then unchanged
            else if e.buffer.length < e.maxLen then edited (e.buffer ++ [d]) else beeped)) ∧
      (press = .doubleZero →
        exec (.keyPress p code) s =
          .next (if e.mode = .concealed then beeped
            else if e.buffer = [] then unchanged
            else if e.buffer.length + 2 ≤ e.maxLen then edited (e.buffer ++ [0, 0]) else beeped)) ∧
      (press = .back →
        exec (.keyPress p code) s = .next (if e.buffer = [] then beeped else edited e.buffer.dropLast)) ∧
      (press = .clear → (e.mode = .amount ∨ e.buffer = []) →
        exec (.keyPress p code) s = .next (if e.buffer = [] then unchanged else edited [])) ∧
      (press ∈ [Symbol.dot, .f1, .f2, .f3, .f4] → exec (.keyPress p code) s = .next beeped) ∧
      (press = .enter → e.buffer.length < e.minLen → exec (.keyPress p code) s = .next beeped) ∧
      (press = .enter → e.minLen ≤ e.buffer.length →
        exec (.keyPress p code) s =
          .next (let t := freed ((s.pos p).counters[3] + 1) .done
            if r.notify then
              withReport
                (.stepDone p r.tag .collect .done
                  (e.mode.code :: (if e.mode = .amount then byteOf e.decimals else 0) ::
                    e.buffer.map fun d => byteOf (0x30 + d.val)) false) t
            else t)) ∧
      (press = .cancel →
        exec (.keyPress p code) s =
          .next (withReport (.stepDone p r.tag .collect .customerCancel [] false)
            (freed ((s.pos p).counters[3]) .customerCancel))))

/-- ACKNOWLEDGE and ACKNOWLEDGE_TIMEOUT end the write outstanding, send the pending content if there is any, and end the SHOW
that waits on the write, DONE or KEYPAD_SILENT; BEEP_SENT sends the waiting beep; KEYPAD_LINE_ERROR counts, raising
COUNTER_HIGH at 49152 and staying at 65535; ANNOUNCE at a READY keypad copies its two flags. The model's choices: with its
timer stopped ACKNOWLEDGE_TIMEOUT, and with no beep waiting BEEP_SENT, changes nothing (log 3); the last output of the keypad
line is kept (log 20); BEEP_SENT sends whenever it is taken (log 31); KEYPAD_SILENT's report comes first (log 32). -/
def Obligations.KeypadAnswers : Prop :=
  ∀ (s : State) (p : Pos) (b : Byte) (display beeper early : Bool), Quiet p s → s.queue.length < 31 →
    let k := (s.pos p).key
    let keyIs (t : State) (w : KeyUnit) : State := t.modPos p fun v => { v with key := w }
    let next : KeyUnit := match k.pendingContent with
      | none => { k with outstanding := none, ackTimer := .stopped }
      | some text =>
        { k with outstanding := some text, ackTimer := .running 200, pendingContent := none, lastOut := some (.write text) }
    ((s.pos p).inFlight = false → (s.pos p).keypad.state = .ready → k.outstanding ≠ none →
      exec (.acknowledge p) s = .next (keyIs s next)) ∧
    (k.outstanding = none → exec (.acknowledge p) s = .next s) ∧
    ((s.pos p).inFlight = false → k.ackTimer.isRunning = true →
      exec (.acknowledgeTimeout p) s = .next (withNotice .keypadSilent (some p) (keyIs s next))) ∧
    (k.ackTimer = .stopped → exec (.acknowledgeTimeout p) s = .next s) ∧
    (∀ r bp text, (s.pos p).chain = [r] → r.params = .showText bp text → r.progress = some (.active (.display true)) →
      (k.outstanding ≠ none → (s.pos p).keypad.state = .ready →
        exec (.acknowledge p) s =
          .next (let t := stepFreed p false (keyIs s next)
            if r.notify then withReport (.stepDone p r.tag .showText .done [0] false) t else t)) ∧
      (k.ackTimer.isRunning = true →
        exec (.acknowledgeTimeout p) s =
          .next (withReport (.stepDone p r.tag .showText .keypadSilent [] false)
            (stepFreed p r.stopOnFailure (withNotice .keypadSilent (some p) (keyIs s next)))))) ∧
    exec (.beepSent p) s =
      .next (match k.waitingBeep with
        | none => s
        | some bp => keyIs s { k with waitingBeep := none, lastOut := some (.beep bp) }) ∧
    (keypadClass b = .other →
      exec (.keypadLineError p b) s =
        .next (if (s.pos p).keypad.state = .off ∨ (s.pos p).keypad.state = .fault then s
          else
            let n := (s.pos p).counters[7]
            let t := s.modPos p fun v => { v with counters := v.counters.set 7 (if n < 65535 then n + 1 else n) }
            if n = 49151 then withNotice .counterHigh (some p) t else t)) ∧
    ((s.pos p).keypad.state = .ready →
      exec (.announce p ⟨display, beeper⟩ early) s = .next (keyIs s { k with display := display, beeper := beeper })) ∧
    ((s.pos p).keypad.state = .off ∨ (s.pos p).keypad.state = .fault →
      exec (.announce p ⟨display, beeper⟩ early) s = .next s)

/-! ### Ports -/

/-- PORT_SWITCH_ON switches on the head of the power-up list once the stagger has passed since the last switch-on, or where
there was none; the port begins its readiness checks. Otherwise nothing changes. The time of the switch-on is the clock
reading the command carries (log 4). -/
def Obligations.SwitchOnTakesHead : Prop :=
  ∀ (s : State) (now : Nat),
    (s.powerList = [] → exec (.portSwitchOn now) s = .next s) ∧
    (∀ last, s.lastSwitchOn = some last → now < last + s.settings.live.stagger.toNat → last ≤ now →
      exec (.portSwitchOn now) s = .next s) ∧
    ∀ i rest, s.powerList = i :: rest →
      (s.lastSwitchOn = none ∨ ∃ last, s.lastSwitchOn = some last ∧ last + s.settings.live.stagger.toNat ≤ now) →
      exec (.portSwitchOn now) s =
        .next (State.modPort { s with powerList := rest, lastSwitchOn := some now } i.pos i.kind fun r =>
          { r with switchedOn := true, readiness := some { inrush := true, currentSeen := false, announceSeen := false } })

/-- The readiness of a switched-on STARTING port: after the inrush allowance a reader becomes READY when its current reaches
15 mA, a keypad when it has both drawn 8 mA and announced; at the end of its time without that the port is ABSENT and
DEVICE_ABSENT is raised. A reader that becomes READY takes up a high card-present line. A step in WAITING_PORT enters ACTIVE
as its port becomes READY, a WAIT CARD arming the reader and a SHOW writing its text and asking its beep (log 31), and ends
DEVICE_ABSENT, the chain HALTED, as the port becomes ABSENT, the NOTICE report before the step's (log 34). The three moments
of the checks are commands of the table (log 19). Stated with the current within the upper limit, and for a step with the line
low. -/
def Obligations.StartingPortBecomesReady : Prop :=
  ∀ (s : State) (p : Pos) (mA : Nat) (display beeper early : Bool), Quiet p s →
    let ready (c : Nat) : PortRecord := { state := .ready, switchedOn := true, current := c }
    let absent (c lower : Nat) : PortRecord :=
      { state := .absent
        switchedOn := true
        current := c
        returnChecks := some { standing := if c < lower then .below else .counting, announceSeen := false } }
    let starting (i c a : Bool) (n : Nat) : PortRecord :=
      { state := .starting
        switchedOn := true
        readiness := some { inrush := i, currentSeen := c, announceSeen := a }
        current := n }
    let readerIs (r : PortRecord) : State := s.modPos p fun v => { v with reader := r }
    let keypadIs (r : PortRecord) : State := s.modPos p fun v => { v with keypad := r }
    let lost (k : PortKind) (n : Nat) : State :=
      withNotice .deviceAbsent (some p)
        (s.modPos p fun v =>
          match k with
          | .reader =>
            { v with
              reader := absent n 15
              pass := { v.pass with state := .idle, buffer := [], overlong := false, gapTimer := .stopped }
              cardPresent := false
              cardLeftTimer := .stopped
              cardLeftRaised := false }
          | .keypad => { v with keypad := absent n 8, key := { lastOut := v.key.lastOut } })
    let upper := (s.pos p).items
    ((s.pos p).inFlight = false → (s.pos p).cardLine = false →
      (∀ n a, (s.pos p).reader = starting false false a n → mA ≤ upper.readerUpper.toNat →
        exec (.portCurrentChange p .reader mA) s =
          .next (readerIs (if 15 ≤ mA then ready mA else starting false false a mA)) ∧
        exec (.readinessTimeout p .reader) s = .next (lost .reader n)) ∧
      (∀ n a, (s.pos p).reader = starting true false a n → n ≤ upper.readerUpper.toNat →
        exec (.inrushAllowanceEnd p .reader) s =
          .next (readerIs (if 15 ≤ n then ready n else starting false false a n))) ∧
      (∀ n a, (s.pos p).keypad = starting false false a n → mA ≤ upper.keypadUpper.toNat →
        exec (.portCurrentChange p .keypad mA) s =
          .next (keypadIs (if mA < 8 then starting false false a mA
            else if a then ready mA else starting false true a mA)) ∧
        exec (.readinessTimeout p .keypad) s = .next (lost .keypad n)) ∧
      (∀ n, (s.pos p).keypad = starting false true false n → 8 ≤ n →
        exec (.announce p ⟨display, beeper⟩ early) s =
          .next (s.modPos p fun v =>
            { v with keypad := ready n, key := { v.key with display := display, beeper := beeper } }) ∧
        exec (.announceTimeout p) s = .next (lost .keypad n))) ∧
    ((s.pos p).inFlight = false → (s.pos p).cardLine = true → ∀ n a, (s.pos p).reader = starting false false a n → 15 ≤ mA →
      mA ≤ upper.readerUpper.toNat →
      exec (.portCurrentChange p .reader mA) s =
        .next (let t := s.modPos p fun v =>
            { v with
              reader := ready mA
              cardPresent := true
              cardLeftTimer := .running (s.settings.live.leftCard.toNat * 1000) }
          if upper.presence = 1 then withReport (.presence p true 1) t else t)) ∧
    ∀ r, (s.pos p).chain = [r] → r.progress = some .waitingPort →
      (∀ n a tries t, (s.pos p).cardLine = false → (s.pos p).reader = starting false false a n → r.params = .waitCard tries t →
        15 ≤ mA → mA ≤ upper.readerUpper.toNat →
        exec (.portCurrentChange p .reader mA) s =
          .next (s.modPos p fun v =>
            { v with
              reader := ready mA
              chain := [{ r with progress := some (.active (.card (.running (t * 1000)))) }]
              pass := { v.pass with armed := true } })) ∧
      (∀ n beep text, (s.pos p).keypad = starting false true false n → 8 ≤ n → r.params = .showText beep text →
        (s.pos p).key.outstanding = none →
        exec (.announce p ⟨true, beeper⟩ early) s =
          .next (s.modPos p fun v =>
            { v with
              keypad := ready n
              chain := [{ r with progress := some (.active (.display true)) }]
              key :=
                { v.key with
                  display := true
                  beeper := beeper
                  outstanding := some text
                  ackTimer := .running 200
                  lastOut := some (.write text)
                  waitingBeep := if beeper = true ∧ beep ≠ none then beep else v.key.waitingBeep } })) ∧
      ∀ k n a, s.port p k = starting false false a n → r.params.kind.port = some k → s.queue.length < 31 →
        exec (.readinessTimeout p k) s =
          .next (withReport (failureReport p r .deviceAbsent) (stepFreed p true (lost k n)))

/-- The supervision of a switched-on port: OVER_TIME_TRIP makes the port FAULT and raises PORT_FAULT, and drives an energized
latch off at a reader; UNDER_TIME_EXPIRY makes a READY port ABSENT and raises DEVICE_ABSENT, and leaves the latch. The step
that needs the port ends with the port outcome and halts the chain, the NOTICE report before the step's (log 34).
RETURN_TIME_EXPIRY makes an ABSENT reader, or a keypad that announced, READY and raises DEVICE_BACK; an ANNOUNCE at an ABSENT
keypad whose current has stood does the same, but not one that came before the keypad was ABSENT (log 29). The change of the
current of a READY port runs and stops the over-time and the under-time. That an expiry with its timer stopped or its checks
absent, and a change of the current of a port that is not switched on, change nothing is the model's choice (logs 3, 18). The
release of a latch is stated where no request waits, a return with no step in flight and the card line low. -/
def Obligations.PortIsSupervised : Prop :=
  ∀ (s : State) (p : Pos) (k : PortKind) (mA : Nat), Quiet p s →
    let r := s.port p k
    let lower := match k with
      | .reader => 15
      | .keypad => 8
    let upper := match k with
      | .reader => (s.pos p).items.readerUpper.toNat
      | .keypad => (s.pos p).items.keypadUpper.toNat
    let lost (w : PortRecord) : State := s.modPos p fun v =>
      match k with
      | .reader =>
        { v with
          reader := w
          pass := { v.pass with state := .idle, buffer := [], overlong := false, gapTimer := .stopped }
          cardPresent := false
          cardLeftTimer := .stopped
          cardLeftRaised := false }
      | .keypad => { v with keypad := w, key := { lastOut := v.key.lastOut } }
    let portIs (w : PortRecord) : State := s.modPort p k fun _ => w
    let tripped : State := withNotice .portFault (some p)
      (if k = .reader ∧ (s.pos p).latchState = .energized then latchOff p (lost { state := .fault }) else lost { state := .fault })
    let gone : State := withNotice .deviceAbsent (some p)
      (lost { r with
        state := .absent
        readiness := none
        underTime := .stopped
        returnChecks := some { standing := .below, announceSeen := false } })
    let returned : PortRecord := { r with state := .ready, readiness := none, returnChecks := none, underTime := .stopped }
    (r.overTime.isRunning = true → (k = .reader → (s.pos p).latchState = .energized → s.latchWait = []) →
      ((s.pos p).needsPort k = false → exec (.overTimeTrip p k) s = .next tripped) ∧
      (∀ x, (s.pos p).needsPort k = true → (s.pos p).chain = [x] → s.queue.length < 31 →
        exec (.overTimeTrip p k) s = .next (withReport (failureReport p x .portFault) (stepFreed p true tripped)))) ∧
    (r.overTime = .stopped → exec (.overTimeTrip p k) s = .next s) ∧
    (r.state = .ready → r.underTime.isRunning = true → r.current < lower →
      ((s.pos p).needsPort k = false → exec (.underTimeExpiry p k) s = .next gone) ∧
      (∀ x, (s.pos p).needsPort k = true → (s.pos p).chain = [x] → s.queue.length < 31 →
        exec (.underTimeExpiry p k) s = .next (withReport (failureReport p x .deviceAbsent) (stepFreed p true gone)))) ∧
    (r.underTime = .stopped → exec (.underTimeExpiry p k) s = .next s) ∧
    (∀ a, (s.pos p).inFlight = false → (s.pos p).cardLine = false → r.state = .absent →
      r.returnChecks = some { standing := .counting, announceSeen := a } → lower ≤ r.current →
      exec (.returnTimeExpiry p k) s =
        .next (if k = .reader ∨ a = true then withNotice .deviceBack (some p) (portIs returned)
          else portIs { r with returnChecks := some { standing := .reached, announceSeen := a } })) ∧
    (r.returnChecks = none → exec (.returnTimeExpiry p k) s = .next s) ∧
    (∀ display beeper early standing a, k = .keypad → (s.pos p).inFlight = false → r.state = .absent →
      r.returnChecks = some { standing := standing, announceSeen := a } → (standing = .reached → 8 ≤ r.current) →
      let told (w : PortRecord) : State := s.modPos p fun v =>
        { v with keypad := w, key := { v.key with display := display, beeper := beeper } }
      exec (.announce p ⟨display, beeper⟩ early) s =
        .next (if early then told r
          else if standing = .reached then withNotice .deviceBack (some p) (told returned)
          else told { r with returnChecks := some { standing := standing, announceSeen := true } })) ∧
    (r.state = .ready → r.switchedOn = true → r.readiness = none →
      exec (.portCurrentChange p k mA) s =
        .next (portIs
          { r with
            current := mA
            overTime := if upper < mA then (if r.overTime.isRunning then r.overTime else .running 10) else .stopped
            underTime := if mA < lower then (if r.underTime.isRunning then r.underTime else .running 500) else .stopped })) ∧
    (r.switchedOn = false → exec (.portCurrentChange p k mA) s = .next s)

/-! ### The card line and the latch -/

/-- CARD_PRESENT_RISES and CARD_PRESENT_FALLS at a READY reader: card present follows the line, a PRESENCE report is made
where item 2 is 1, and with no step in flight the card-left timer starts at the rise; a fall stops it. A fall ends a RELEASE
CARD that waits for it DONE, a HOLD CARD that waits for the latch CARD_WITHDRAWN, and a WAIT CARD that waits for the latch
SCREENED not held (its text of one segment), the report behind the PRESENCE report (log 14). At a full report queue the change
is merged into the PRESENCE report that waits, whatever item 2 is, or a new one joins the waiting reports. CARD_LEFT_TIMEOUT
raises CARD_LEFT once for an insertion. That at a reader that is not READY only the line's level moves, and that
CARD_LEFT_TIMEOUT with its timer stopped changes nothing, is the model's choice (log 3). -/
def Obligations.CardLineFollowed : Prop :=
  ∀ (s : State) (p : Pos),
    (Quiet p s → s.queue.length < 31 →
      let report (b : Bool) (t : State) : State :=
        if (s.pos p).items.presence = 1 then withReport (.presence p b 1) t else t
      let gone := s.modPos p fun v =>
        { v with cardLine := false, cardPresent := false, cardLeftTimer := .stopped, cardLeftRaised := false }
      ((s.pos p).reader.state = .ready → (s.pos p).cardPresent = false →
        exec (.cardPresentRises p) s =
          .next (report true (s.modPos p fun v =>
            { v with
              cardLine := true
              cardPresent := true
              cardLeftTimer := if v.inFlight then v.cardLeftTimer
                else .running (s.settings.live.leftCard.toNat * 1000) }))) ∧
      ((s.pos p).reader.state = .ready → (s.pos p).cardPresent = true → (s.pos p).inFlight = false →
        exec (.cardPresentFalls p) s = .next (report false gone)) ∧
      (∀ r w, (s.pos p).reader.state = .ready → (s.pos p).cardPresent = true → (s.pos p).chain = [r] →
        r.progress = some (.active w) →
        ((∃ x t ms, r.params = .releaseCard x t ∧ w = .removal ms) → r.notify = true →
          exec (.cardPresentFalls p) s =
            .next (withReport (.stepDone p r.tag .releaseCard .done [] false) (stepFreed p false (report false gone)))) ∧
        (r.params = .holdCard → w = .latch →
          exec (.cardPresentFalls p) s =
            .next (withReport (.stepDone p r.tag .holdCard .cardWithdrawn [] false)
              (stepFreed p r.stopOnFailure (report false gone)))) ∧
        (∀ a t i text flags, r.params = .waitCard a t → w = .screenHold i text flags → text.length ≤ 48 →
          exec (.cardPresentFalls p) s =
            .next (withReport
              (.cardSegment p 1 text
                (some
                  { tag := r.tag
                    outcome := .screened
                    data := { text := text, flags := flags, entryId := some i, hold := .notHeld }
                    total := text.length }))
              (stepFreed p r.stopOnFailure (report false gone))))) ∧
      ((s.pos p).reader.state ≠ .ready →
        exec (.cardPresentRises p) s = .next (s.modPos p fun v => { v with cardLine := true }) ∧
        exec (.cardPresentFalls p) s = .next (s.modPos p fun v => { v with cardLine := false })) ∧
      ((s.pos p).cardLeftTimer.isRunning = true →
        exec (.cardLeftTimeout p) s =
          .next (let t := s.modPos p fun v => { v with cardLeftTimer := .stopped, cardLeftRaised := true }
            if (s.pos p).cardLeftRaised then t else withNotice .cardLeft (some p) t)) ∧
      ((s.pos p).cardLeftTimer = .stopped → exec (.cardLeftTimeout p) s = .next s)) ∧
    (p.val < s.variant.positions → AtRest s → s.queue.length = 32 → (s.pos p).reader.state = .ready →
      (s.pos p).work = none → ∀ b : Bool, (s.pos p).cardPresent = !b →
      let changes := if b then exec (.cardPresentRises p) s else exec (.cardPresentFalls p) s
      let isPresence (x : Report) : Prop := ∃ q c n, x = .presence q c n
      let moved (waiting : List Report) : State := s.modPos p fun v =>
        { v with
          cardLine := b
          cardPresent := b
          cardLeftTimer := if b = false then .stopped else if v.inFlight then v.cardLeftTimer
            else .running (s.settings.live.leftCard.toNat * 1000)
          cardLeftRaised := b && v.cardLeftRaised
          waiting := waiting }
      (∀ before after c n, (s.pos p).waiting = before ++ .presence p c n :: after →
        (∀ x ∈ before ++ after, ¬ isPresence x) →
        changes = .next (moved (before ++ .presence p b (min 255 (n + 1)) :: after))) ∧
      ((∀ x ∈ (s.pos p).waiting, ¬ isPresence x) →
        changes =
          .next (if (s.pos p).items.presence = 1 then
              { moved ((s.pos p).waiting ++ [.presence p b 1]) with
                waitOrder := if .position p ∈ s.waitOrder then s.waitOrder else s.waitOrder ++ [.position p] }
            else moved (s.pos p).waiting)))

/-- LATCH_CEILING_TIMEOUT drives the latch off, starts its re-energize timer, counts the overrun and raises LATCH_OVERRUN;
RE_ENERGIZE_TIMEOUT ends the timer. Both make a grant decision: while the budget has room the latch goes to the oldest request
whose position has a READY reader, a card and no running re-energize timer, passing over the others, and the step of that
position ends, a HOLD CARD DONE and a WAIT CARD SCREENED held. With no room or nobody eligible nothing is granted. A grant is
stated where it is the only one of its decision. That neither changes anything with its timer stopped is the model's choice
(log 3). -/
def Obligations.LatchTimersRunOut : Prop :=
  ∀ (s : State) (p : Pos), Quiet p s →
    ((s.pos p).ceilingTimer.isRunning = true → (s.pos p).counters[6] < 49151 →
      let off := (latchOff p s).modPos p fun v => { v with counters := v.counters.set 6 (v.counters[6] + 1) }
      (s.settings.live.latchBudget.toNat ≤ off.energized.length ∨ (∀ x ∈ s.latchWait, PassedOver x off) →
        exec (.latchCeilingTimeout p) s = .next (withNotice .latchOverrun (some p) off)) ∧
      (∀ q r rep b, OldestWaiter q r rep b off → s.queue.length < 31 →
        off.energized.length < s.settings.live.latchBudget.toNat →
        off.energized.length + 1 = s.settings.live.latchBudget.toNat ∨ (∀ x ∈ s.latchWait, x ≠ q → PassedOver x off) →
        exec (.latchCeilingTimeout p) s =
          .next (withReport rep (stepFreed q b (latchOn q (withNotice .latchOverrun (some p) off)))))) ∧
    ((s.pos p).ceilingTimer = .stopped → exec (.latchCeilingTimeout p) s = .next s) ∧
    ((s.pos p).reEnergizeTimer.isRunning = true →
      let lapsed := s.modPos p fun v => { v with reEnergizeTimer := .stopped }
      (s.settings.live.latchBudget.toNat ≤ s.energized.length ∨ (∀ x ∈ s.latchWait, PassedOver x lapsed) →
        exec (.reEnergizeTimeout p) s = .next lapsed) ∧
      (∀ q r rep b, OldestWaiter q r rep b lapsed → s.energized.length < s.settings.live.latchBudget.toNat →
        s.energized.length + 1 = s.settings.live.latchBudget.toNat ∨ (∀ x ∈ s.latchWait, x ≠ q → PassedOver x lapsed) →
        exec (.reEnergizeTimeout p) s = .next (withReport rep (stepFreed q b (latchOn q lapsed))))) ∧
    ((s.pos p).reEnergizeTimer = .stopped → exec (.reEnergizeTimeout p) s = .next s)


/-! ### Checks of a pass, digests and echoes -/

/-- The checks of a completed pass, stage by stage. Stage 1 fails a pass by any character with an even number of ones,
wherever it stands in the buffer, and counts them. Stage 2 wants a start mark first, and behind the first end mark one more
character, the check character. Stage 3 compares the exclusive-or over the record with it. Stage 4 finds the first separator,
and checks the account before it for its length by items 7 and 8 and its digits, then the seven digits behind it, the month
among them, and the rest. Stage 5 weighs the account digits from the right, doubling every second one, and runs only where
item 9 is 1. The first failure is the result; a pass without one has the text of its body. -/
def Obligations.PassChecksSum : Prop :=
  ∀ (g : DeviceItems) (buffer : List (BitVec 5)) (overlong : Bool),
    let r := checkPass g buffer overlong
    let ones (c : BitVec 5) : Nat := (List.range 5).countP fun i => c.getLsbD i
    let bad := (buffer.filter fun c => ones c % 2 = 0).length
    let values : List (BitVec 4) := buffer.map fun c => c.setWidth 4
    r.overlong = overlong ∧ (r.failure ≠ none → r.text = []) ∧
    (0 < bad → r.failure = some .parity ∧ r.parityErrors = bad) ∧
    (bad = 0 → r.failure ≠ some .parity ∧ r.parityErrors = 0) ∧
    (bad = 0 → values.head? ≠ some 11 → r.failure = some .noStart) ∧
    (∀ rest : List (BitVec 4), bad = 0 → values = 11 :: rest → 15 ∉ rest.dropLast → r.failure = some .noEnd) ∧
    ∀ (body : List (BitVec 4)) (check : BitVec 4) (more : List (BitVec 4)), bad = 0 →
      values = 11 :: body ++ 15 :: check :: more → 15 ∉ body →
      let total := (11 :: body ++ [15]).foldl (· ^^^ ·) (0 : BitVec 4)
      (r.failure = some .lrc ↔ total ≠ check) ∧
      (total = check → 13 ∉ body → r.failure = some .noSep) ∧
      (r.failure = none → r.text = body.map fun v => byteOf (0x30 + v.toNat)) ∧
      ∀ account tail : List (BitVec 4), total = check → body = account ++ 13 :: tail → 13 ∉ account →
        let month := 10 * (tail.getD 2 0).toNat + (tail.getD 3 0).toNat
        let digit (i : Nat) : Nat := (account.reverse.getD i 0).toNat
        let weight (i : Nat) : Nat :=
          if i % 2 = 0 then digit i else if 10 ≤ 2 * digit i then 2 * digit i - 9 else 2 * digit i
        let sum := ((List.range account.length).map weight).sum
        r.failure =
          if account.length < g.accountMin.toNat ∨ g.accountMax.toNat < account.length then some .acctLen
          else if ∃ v ∈ account, 9 < v.toNat then some .field
          else if tail.length < 7 then some .short
          else if (∃ v ∈ tail.take 7, 9 < v.toNat) ∨ month < 1 ∨ 12 < month ∨ 11 ∈ tail.drop 7 then some .field
          else if g.checkDigit = 1 ∧ sum % 10 ≠ 0 then some .checkDigit
          else none

/-- The screening of a text. Each segment of an entry takes its characters behind its skip, the next segment from there on,
and a take past the end of the text selects nothing. The digest of a selection has the sum B as its high byte and the sum A as
its low byte, both modulo 251, where after each character A has added its value and B has added the new A; both stay at most
250. An entry matches where its digest is the selection's, and the result is the match of the lowest id, or none. -/
def Obligations.DigestSums : Prop :=
  (∀ sel : List Byte, (∀ c ∈ sel, 0x30 ≤ c.toNat ∧ c.toNat ≤ 0x3F) →
    let values := sel.map fun c => c.toNat - 0x30
    let a (n : Nat) : Nat := (1 + (values.take n).sum) % 251
    let b := (((List.range sel.length).map fun k => a (k + 1)).sum) % 251
    (digestOf sel).toNat = b * 256 + a sel.length ∧ (hiByte (digestOf sel)).toNat ≤ 250 ∧
      (loByte (digestOf sel)).toNat ≤ 250) ∧
  (∀ (segments : List ScreenSegment) (text : List Byte),
    let cursor (k : Nat) : Nat := ((segments.take k).map fun g => g.skip + g.take).sum
    selectChars segments text =
      if text.length < cursor segments.length then none
      else some (segments.zipIdx.flatMap fun x => (text.drop (cursor x.2 + x.1.skip)).take x.1.take)) ∧
  ∀ (table : Vector (Option ScreenEntry) 16) (text : List Byte),
    let hit (i : Fin 16) (a : ScreenAction) : Prop := ∃ e sel, table[i] = some e ∧ e.action = a ∧
      selectChars e.segments text = some sel ∧ digestOf sel = e.digest
    (screen table text = none ↔ ∀ i a, ¬hit i a) ∧
    ∀ i a, screen table text = some (i, a) ↔ hit i a ∧ ∀ j, j < i → ∀ b, ¬hit j b

/-- The echo of a session of at most 12 digits and at most 3 decimals is 16 characters: stars from the left edge in CONCEALED
mode; in AMOUNT mode the digits at the right edge, 0 for none without decimals, and with decimals padded with zeros to one
more than these and a point before the last of them. An OPEN session has no echo. -/
def Obligations.EchoShapes : Prop :=
  ∀ e : EntryUnit, e.buffer.length ≤ 12 → e.decimals ≤ 3 →
    let digits : List Byte := e.buffer.map fun d => byteOf (0x30 + d.val)
    let spaces (n : Nat) : List Byte := List.replicate n 0x20
    (e.mode = .openKeys → echoText e = none) ∧
    (e.mode ≠ .openKeys → ∃ text, echoText e = some text ∧ text.length = 16) ∧
    (e.mode = .concealed → echoText e = some (List.replicate e.buffer.length 0x2A ++ spaces (16 - e.buffer.length))) ∧
    (e.mode = .amount → e.decimals = 0 →
      echoText e = some (if digits = [] then spaces 15 ++ [0x30] else spaces (16 - digits.length) ++ digits)) ∧
    (e.mode = .amount → 0 < e.decimals → ∀ whole frac : List Byte,
      whole ++ frac = List.replicate (e.decimals + 1 - digits.length) 0x30 ++ digits → frac.length = e.decimals →
      echoText e = some (spaces (16 - (whole.length + 1 + frac.length)) ++ whole ++ [0x2E] ++ frac))

/-! ### What every command keeps -/

/-- Whatever the command, a part at rest is at rest after it: nobody waits for admission while the report queue has room,
every RUNNING chain has its head in flight, and a free transmitter has nothing to send. -/
def Obligations.AtRestKept : Prop := ∀ s t : State, AtRest s → step s = .next t → AtRest t

/-- Whatever the command, no step record is lost or made: free records and chains are 48 together, no chain longer than 12. -/
def Obligations.PoolKeptByEveryStep : Prop := ∀ s t : State, PoolKept s → step s = .next t → PoolKept t

/-- Whatever the command, the energized set and the wait list go on saying what the latch states say, and a ceiling timer
runs only on an energized latch. -/
def Obligations.LatchesAgreeAfterEveryStep : Prop := ∀ s t : State, LatchesAgree s → step s = .next t → LatchesAgree t

/-- Whatever the command, each of these limits is kept: the report queue and receive buffer hold no more than 32 and 4; no
counter exceeds 65535; a closed or OPEN session holds no digit; the write-enable latch is set only with the supervisor
UNLOCKED and live item 7 does not exceed item 8. -/
def Obligations.LimitsKeptByEveryStep : Prop :=
  ∀ s t : State, step s = .next t →
    (QueuesBounded s → QueuesBounded t) ∧ (CountersBounded s → CountersBounded t) ∧ (EntryWiped s → EntryWiped t) ∧
    (SettingsSound s → SettingsSound t)

/-- An event on a line of one position, or at one of its timers, leaves every other position, the settings and store, the
screening table, the power-up list and the stagger clock as they were, and takes no frame. Stated where no other position
waits for the latch, since a release of this latch may be granted to one that does. -/
def Obligations.LineEventStaysAtItsPosition : Prop :=
  ∀ (s t : State) (c : Instr) (p : Pos), c.line = some p → AtRest s → (∀ q ∈ s.latchWait, q = p) → exec c s = .next t →
    (∀ q, q ≠ p → t.pos q = s.pos q) ∧ t.settings = s.settings ∧ t.screening = s.screening ∧
    t.powerList = s.powerList ∧ t.lastSwitchOn = s.lastSwitchOn ∧ t.variant = s.variant ∧ t.pending = s.pending ∧
    t.link.buffer = s.link.buffer ∧ t.link.rx = s.link.rx ∧ t.link.partialFrame = s.link.partialFrame

end
end

