-- ==== Sys2Proof/Laws/State.lean ====
section
/-! SUPPORT. The small lemmas of the state record: what writing one position reads back as, and that it leaves every
other field alone. Writes of a part of a position are all brought to State.modPos. -/

namespace Sys2Proof.Machine

/-! ### One form for every write of a position -/

@[simp] theorem State.setProgress_eq (s : State) (p : Pos) (g : Progress) :
    s.setProgress p g = s.modPos p (·.setProgress g) := rfl
@[simp] theorem State.modPort_eq (s : State) (p : Pos) (k : PortKind) (f : PortRecord → PortRecord) :
    s.modPort p k f = s.modPos p fun v => v.setPort k (f (v.port k)) := rfl
@[simp] theorem State.modPass_eq (s : State) (p : Pos) (f : PassUnit → PassUnit) :
    s.modPass p f = s.modPos p fun v => { v with pass := f v.pass } := rfl
@[simp] theorem State.modKey_eq (s : State) (p : Pos) (f : KeyUnit → KeyUnit) :
    s.modKey p f = s.modPos p fun v => { v with key := f v.key } := rfl
@[simp] theorem State.modEntry_eq (s : State) (p : Pos) (f : EntryUnit → EntryUnit) :
    s.modEntry p f = s.modPos p fun v => { v with entry := f v.entry } := rfl
@[simp] theorem State.port_eq (s : State) (p : Pos) (k : PortKind) : s.port p k = (s.pos p).port k := rfl

/-! ### Reading positions -/

@[simp] theorem State.positions_get (s : State) (p : Pos) : s.positions[(p : Nat)] = s.pos p := rfl

theorem State.pos_setPos (s : State) (p q : Pos) (v : Position) :
    (s.setPos p v).pos q = if q = p then v else s.pos q := by
  show (s.positions.set p v)[(q : Nat)] = _
  rw [Vector.getElem_set]
  by_cases h : q = p
  · simp [h]
  · have : ¬ (p : Nat) = q := fun e => h (Fin.ext e.symm)
    simp [h, this]

@[simp] theorem State.pos_setPos_self (s : State) (p : Pos) (v : Position) : (s.setPos p v).pos p = v := by
  simp [State.pos_setPos]

@[simp] theorem State.pos_setPos_ne (s : State) {p q : Pos} (h : q ≠ p) (v : Position) :
    (s.setPos p v).pos q = s.pos q := by
  simp [State.pos_setPos, h]

theorem State.pos_modPos (s : State) (p q : Pos) (f : Position → Position) :
    (s.modPos p f).pos q = if q = p then f (s.pos q) else s.pos q := by
  unfold State.modPos
  rw [State.pos_setPos]
  by_cases h : q = p <;> simp [h]

@[simp] theorem State.pos_modPos_self (s : State) (p : Pos) (f : Position → Position) :
    (s.modPos p f).pos p = f (s.pos p) := by
  simp [State.pos_modPos]

@[simp] theorem State.pos_modPos_ne (s : State) {p q : Pos} (h : q ≠ p) (f : Position → Position) :
    (s.modPos p f).pos q = s.pos q := by
  simp [State.pos_modPos, h]

/-- Two states are equal when their positions and every other field are. -/
theorem State.ext_pos {s t : State} (hp : ∀ p, s.pos p = t.pos p) (h : { s with positions := t.positions } = t) :
    s = t := by
  have : s.positions = t.positions := by
    ext i hi
    exact hp ⟨i, hi⟩
  rw [← h, ← this]

/-- Writing back what a position holds changes nothing. -/
@[simp] theorem State.modPos_id (s : State) (p : Pos) (f : Position → Position) (h : f (s.pos p) = s.pos p) :
    s.modPos p f = s := by
  refine State.ext_pos (fun q => ?_) rfl
  rw [State.pos_modPos]
  split
  · rename_i e; rw [e, h]
  · rfl

@[simp] theorem State.modPos_modPos (s : State) (p : Pos) (f g : Position → Position) :
    (s.modPos p f).modPos p g = s.modPos p (fun v => g (f v)) := by
  refine State.ext_pos (fun q => ?_) rfl
  simp only [State.pos_modPos]
  split <;> rfl

/-! ### Fields a write of a position leaves alone -/

@[simp] theorem State.variant_setPos (s : State) (p : Pos) (v : Position) : (s.setPos p v).variant = s.variant := rfl
@[simp] theorem State.freeRecords_setPos (s : State) (p : Pos) (v : Position) : (s.setPos p v).freeRecords = s.freeRecords := rfl
@[simp] theorem State.powerList_setPos (s : State) (p : Pos) (v : Position) : (s.setPos p v).powerList = s.powerList := rfl
@[simp] theorem State.lastSwitchOn_setPos (s : State) (p : Pos) (v : Position) : (s.setPos p v).lastSwitchOn = s.lastSwitchOn := rfl
@[simp] theorem State.energized_setPos (s : State) (p : Pos) (v : Position) : (s.setPos p v).energized = s.energized := rfl
@[simp] theorem State.latchWait_setPos (s : State) (p : Pos) (v : Position) : (s.setPos p v).latchWait = s.latchWait := rfl
@[simp] theorem State.queue_setPos (s : State) (p : Pos) (v : Position) : (s.setPos p v).queue = s.queue := rfl
@[simp] theorem State.waitOrder_setPos (s : State) (p : Pos) (v : Position) : (s.setPos p v).waitOrder = s.waitOrder := rfl
@[simp] theorem State.noticeReport_setPos (s : State) (p : Pos) (v : Position) : (s.setPos p v).noticeReport = s.noticeReport := rfl
@[simp] theorem State.notices_setPos (s : State) (p : Pos) (v : Position) : (s.setPos p v).notices = s.notices := rfl
@[simp] theorem State.deviceCounters_setPos (s : State) (p : Pos) (v : Position) : (s.setPos p v).deviceCounters = s.deviceCounters := rfl
@[simp] theorem State.screening_setPos (s : State) (p : Pos) (v : Position) : (s.setPos p v).screening = s.screening := rfl
@[simp] theorem State.link_setPos (s : State) (p : Pos) (v : Position) : (s.setPos p v).link = s.link := rfl
@[simp] theorem State.settings_setPos (s : State) (p : Pos) (v : Position) : (s.setPos p v).settings = s.settings := rfl
@[simp] theorem State.freeCount_setPos (s : State) (p : Pos) (v : Position) : (s.setPos p v).freeCount = s.freeCount := rfl
@[simp] theorem State.pending_setPos (s : State) (p : Pos) (v : Position) : (s.setPos p v).pending = s.pending := rfl

@[simp] theorem State.variant_modPos (s : State) (p : Pos) (f : Position → Position) : (s.modPos p f).variant = s.variant := rfl
@[simp] theorem State.freeRecords_modPos (s : State) (p : Pos) (f : Position → Position) : (s.modPos p f).freeRecords = s.freeRecords := rfl
@[simp] theorem State.powerList_modPos (s : State) (p : Pos) (f : Position → Position) : (s.modPos p f).powerList = s.powerList := rfl
@[simp] theorem State.lastSwitchOn_modPos (s : State) (p : Pos) (f : Position → Position) : (s.modPos p f).lastSwitchOn = s.lastSwitchOn := rfl
@[simp] theorem State.energized_modPos (s : State) (p : Pos) (f : Position → Position) : (s.modPos p f).energized = s.energized := rfl
@[simp] theorem State.latchWait_modPos (s : State) (p : Pos) (f : Position → Position) : (s.modPos p f).latchWait = s.latchWait := rfl
@[simp] theorem State.queue_modPos (s : State) (p : Pos) (f : Position → Position) : (s.modPos p f).queue = s.queue := rfl
@[simp] theorem State.waitOrder_modPos (s : State) (p : Pos) (f : Position → Position) : (s.modPos p f).waitOrder = s.waitOrder := rfl
@[simp] theorem State.noticeReport_modPos (s : State) (p : Pos) (f : Position → Position) : (s.modPos p f).noticeReport = s.noticeReport := rfl
@[simp] theorem State.notices_modPos (s : State) (p : Pos) (f : Position → Position) : (s.modPos p f).notices = s.notices := rfl
@[simp] theorem State.deviceCounters_modPos (s : State) (p : Pos) (f : Position → Position) : (s.modPos p f).deviceCounters = s.deviceCounters := rfl
@[simp] theorem State.screening_modPos (s : State) (p : Pos) (f : Position → Position) : (s.modPos p f).screening = s.screening := rfl
@[simp] theorem State.link_modPos (s : State) (p : Pos) (f : Position → Position) : (s.modPos p f).link = s.link := rfl
@[simp] theorem State.settings_modPos (s : State) (p : Pos) (f : Position → Position) : (s.modPos p f).settings = s.settings := rfl
@[simp] theorem State.freeCount_modPos (s : State) (p : Pos) (f : Position → Position) : (s.modPos p f).freeCount = s.freeCount := rfl
@[simp] theorem State.pending_modPos (s : State) (p : Pos) (f : Position → Position) : (s.modPos p f).pending = s.pending := rfl

/-! ### Positions a write of another field leaves alone -/

/-- A state written out reads its positions where they were written. -/
@[simp] theorem State.pos_mk (va : Variant) (ps : Vector Position 8) (fr : Nat) (pl : List PortId) (ls : Option Nat)
    (en lw : List Pos) (q : List Report) (wo : List Producer) (nr : NoticeReport) (ns : Vector ClassRecord 15)
    (dc : Vector Nat 4) (sc : Vector (Option ScreenEntry) 16) (l : Link) (st : Settings) (fc : Nat) (pe : List Instr)
    (p : Pos) :
    (State.mk va ps fr pl ls en lw q wo nr ns dc sc l st fc pe).pos p = ps[(p : Nat)] := rfl

/-! ### Fields of a position that a write of its head step or of a port leaves alone -/

@[simp] theorem Position.chainState_setProgress (v : Position) (g : Progress) : (v.setProgress g).chainState = v.chainState := by
  unfold Position.setProgress; split <;> rfl
@[simp] theorem Position.cardPresent_setProgress (v : Position) (g : Progress) : (v.setProgress g).cardPresent = v.cardPresent := by
  unfold Position.setProgress; split <;> rfl
@[simp] theorem Position.latchState_setProgress (v : Position) (g : Progress) : (v.setProgress g).latchState = v.latchState := by
  unfold Position.setProgress; split <;> rfl
@[simp] theorem Position.cardLeftTimer_setProgress (v : Position) (g : Progress) : (v.setProgress g).cardLeftTimer = v.cardLeftTimer := by
  unfold Position.setProgress; split <;> rfl
@[simp] theorem Position.cardLeftRaised_setProgress (v : Position) (g : Progress) : (v.setProgress g).cardLeftRaised = v.cardLeftRaised := by
  unfold Position.setProgress; split <;> rfl
@[simp] theorem Position.attemptCount_setProgress (v : Position) (g : Progress) : (v.setProgress g).attemptCount = v.attemptCount := by
  unfold Position.setProgress; split <;> rfl
@[simp] theorem Position.attemptLimit_setProgress (v : Position) (g : Progress) : (v.setProgress g).attemptLimit = v.attemptLimit := by
  unfold Position.setProgress; split <;> rfl
@[simp] theorem Position.pass_setProgress (v : Position) (g : Progress) : (v.setProgress g).pass = v.pass := by
  unfold Position.setProgress; split <;> rfl
@[simp] theorem Position.key_setProgress (v : Position) (g : Progress) : (v.setProgress g).key = v.key := by
  unfold Position.setProgress; split <;> rfl
@[simp] theorem Position.entry_setProgress (v : Position) (g : Progress) : (v.setProgress g).entry = v.entry := by
  unfold Position.setProgress; split <;> rfl
@[simp] theorem Position.reader_setProgress (v : Position) (g : Progress) : (v.setProgress g).reader = v.reader := by
  unfold Position.setProgress; split <;> rfl
@[simp] theorem Position.keypad_setProgress (v : Position) (g : Progress) : (v.setProgress g).keypad = v.keypad := by
  unfold Position.setProgress; split <;> rfl
@[simp] theorem Position.ceilingTimer_setProgress (v : Position) (g : Progress) : (v.setProgress g).ceilingTimer = v.ceilingTimer := by
  unfold Position.setProgress; split <;> rfl
@[simp] theorem Position.reEnergizeTimer_setProgress (v : Position) (g : Progress) : (v.setProgress g).reEnergizeTimer = v.reEnergizeTimer := by
  unfold Position.setProgress; split <;> rfl
@[simp] theorem Position.waiting_setProgress (v : Position) (g : Progress) : (v.setProgress g).waiting = v.waiting := by
  unfold Position.setProgress; split <;> rfl
@[simp] theorem Position.counters_setProgress (v : Position) (g : Progress) : (v.setProgress g).counters = v.counters := by
  unfold Position.setProgress; split <;> rfl
@[simp] theorem Position.items_setProgress (v : Position) (g : Progress) : (v.setProgress g).items = v.items := by
  unfold Position.setProgress; split <;> rfl
@[simp] theorem Position.cardLine_setProgress (v : Position) (g : Progress) : (v.setProgress g).cardLine = v.cardLine := by
  unfold Position.setProgress; split <;> rfl
@[simp] theorem Position.chain_setPort (v : Position) (k : PortKind) (r : PortRecord) : (v.setPort k r).chain = v.chain := by
  cases k <;> rfl
@[simp] theorem Position.chainState_setPort (v : Position) (k : PortKind) (r : PortRecord) : (v.setPort k r).chainState = v.chainState := by
  cases k <;> rfl
@[simp] theorem Position.cardPresent_setPort (v : Position) (k : PortKind) (r : PortRecord) : (v.setPort k r).cardPresent = v.cardPresent := by
  cases k <;> rfl
@[simp] theorem Position.latchState_setPort (v : Position) (k : PortKind) (r : PortRecord) : (v.setPort k r).latchState = v.latchState := by
  cases k <;> rfl
@[simp] theorem Position.cardLeftTimer_setPort (v : Position) (k : PortKind) (r : PortRecord) : (v.setPort k r).cardLeftTimer = v.cardLeftTimer := by
  cases k <;> rfl
@[simp] theorem Position.cardLeftRaised_setPort (v : Position) (k : PortKind) (r : PortRecord) : (v.setPort k r).cardLeftRaised = v.cardLeftRaised := by
  cases k <;> rfl
@[simp] theorem Position.attemptCount_setPort (v : Position) (k : PortKind) (r : PortRecord) : (v.setPort k r).attemptCount = v.attemptCount := by
  cases k <;> rfl
@[simp] theorem Position.attemptLimit_setPort (v : Position) (k : PortKind) (r : PortRecord) : (v.setPort k r).attemptLimit = v.attemptLimit := by
  cases k <;> rfl
@[simp] theorem Position.pass_setPort (v : Position) (k : PortKind) (r : PortRecord) : (v.setPort k r).pass = v.pass := by
  cases k <;> rfl
@[simp] theorem Position.key_setPort (v : Position) (k : PortKind) (r : PortRecord) : (v.setPort k r).key = v.key := by
  cases k <;> rfl
@[simp] theorem Position.entry_setPort (v : Position) (k : PortKind) (r : PortRecord) : (v.setPort k r).entry = v.entry := by
  cases k <;> rfl
@[simp] theorem Position.ceilingTimer_setPort (v : Position) (k : PortKind) (r : PortRecord) : (v.setPort k r).ceilingTimer = v.ceilingTimer := by
  cases k <;> rfl
@[simp] theorem Position.reEnergizeTimer_setPort (v : Position) (k : PortKind) (r : PortRecord) : (v.setPort k r).reEnergizeTimer = v.reEnergizeTimer := by
  cases k <;> rfl
@[simp] theorem Position.waiting_setPort (v : Position) (k : PortKind) (r : PortRecord) : (v.setPort k r).waiting = v.waiting := by
  cases k <;> rfl
@[simp] theorem Position.counters_setPort (v : Position) (k : PortKind) (r : PortRecord) : (v.setPort k r).counters = v.counters := by
  cases k <;> rfl
@[simp] theorem Position.items_setPort (v : Position) (k : PortKind) (r : PortRecord) : (v.setPort k r).items = v.items := by
  cases k <;> rfl
@[simp] theorem Position.cardLine_setPort (v : Position) (k : PortKind) (r : PortRecord) : (v.setPort k r).cardLine = v.cardLine := by
  cases k <;> rfl
@[simp] theorem Position.port_setPort (v : Position) (k : PortKind) (r : PortRecord) : (v.setPort k r).port k = r := by
  cases k <;> rfl
theorem Position.port_setPort_ne (v : Position) {k l : PortKind} (h : l ≠ k) (r : PortRecord) :
    (v.setPort k r).port l = v.port l := by
  cases k <;> cases l <;> first | rfl | exact absurd rfl h

@[simp] theorem Position.chain_setProgress_length (v : Position) (g : Progress) :
    (v.setProgress g).chain.length = v.chain.length := by
  unfold Position.setProgress
  split <;> simp_all

end Sys2Proof.Machine
end

