-- ==== Sys2Proof/Laws/Ops.lean ====
section
/-! SUPPORT. The frame of the shared operations: what the work of a position, a notice, a grant can touch. One relation
says it once, and each operation has one lemma. -/

namespace Sys2Proof.Machine

/-- `t` differs from `s` at most in the positions of `P`, the pool count, the power-up list, the latch lists, the wait
order, the notice unit and the device counters: what the work of positions can touch before anything is admitted or
sent. -/
structure Touches (P : Pos → Prop) (s t : State) : Prop where
  pos : ∀ q, ¬ P q → t.pos q = s.pos q
  variant : t.variant = s.variant
  lastSwitchOn : t.lastSwitchOn = s.lastSwitchOn
  queue : t.queue = s.queue
  screening : t.screening = s.screening
  link : t.link = s.link
  settings : t.settings = s.settings
  freeCount : t.freeCount = s.freeCount
  pending : t.pending = s.pending

theorem Touches.refl (P : Pos → Prop) (s : State) : Touches P s s :=
  ⟨fun _ _ => rfl, rfl, rfl, rfl, rfl, rfl, rfl, rfl, rfl⟩

theorem Touches.trans {P : Pos → Prop} {s t u : State} (h : Touches P s t) (k : Touches P t u) : Touches P s u :=
  ⟨fun q hq => (k.pos q hq).trans (h.pos q hq), k.variant.trans h.variant, k.lastSwitchOn.trans h.lastSwitchOn,
    k.queue.trans h.queue, k.screening.trans h.screening, k.link.trans h.link, k.settings.trans h.settings,
    k.freeCount.trans h.freeCount, k.pending.trans h.pending⟩

/-- The work of the positions of `P`: where only these wait for a latch, `t` differs from `s` as `Touches` says, only
these wait for a latch after it, and only these and the notice unit have joined the wait order. -/
def Within (P : Pos → Prop) (s t : State) : Prop :=
  (∀ q ∈ s.latchWait, P q) →
    Touches P s t ∧ (∀ q ∈ t.latchWait, P q) ∧
    ∀ x ∈ t.waitOrder, x ∈ s.waitOrder ∨ x = .notices ∨ ∃ q, P q ∧ x = .position q

variable {P : Pos → Prop}

theorem Within.refl (s : State) : Within P s s :=
  fun hw => ⟨Touches.refl P s, hw, fun _ h => Or.inl h⟩

theorem Within.trans {s t u : State} (h : Within P s t) (k : Within P t u) : Within P s u := by
  intro hw
  obtain ⟨h1, h2, h3⟩ := h hw
  obtain ⟨k1, k2, k3⟩ := k h2
  refine ⟨h1.trans k1, k2, fun x hx => ?_⟩
  rcases k3 x hx with h | h | h
  · exact h3 x h
  · exact Or.inr (Or.inl h)
  · exact Or.inr (Or.inr h)

/-- A change that keeps the positions outside `P`, the latch wait list and the wait order. -/
theorem Within.of_touches {s t : State} (h : Touches P s t) (hw : t.latchWait = s.latchWait)
    (ho : t.waitOrder = s.waitOrder) : Within P s t :=
  fun hq => ⟨h, by rw [hw]; exact hq, fun x hx => Or.inl (by rwa [ho] at hx)⟩

theorem within_modPos {p : Pos} (hp : P p) (s : State) (f : Position → Position) : Within P s (s.modPos p f) := by
  refine Within.of_touches ⟨fun q hq => State.pos_modPos_ne s (fun e => hq (by rw [e]; exact hp)) f, rfl, rfl, rfl, rfl, rfl, rfl, rfl,
    rfl⟩ rfl rfl

/-- A change of the pool count, the energized set, the power-up list, the notice unit or the device counters alone. -/
theorem within_counts (s : State) (fr : Nat) (pl : List PortId) (en : List Pos) (nr : NoticeReport)
    (ns : Vector ClassRecord 15) (dc : Vector Nat 4) :
    Within P s
      { s with
        freeRecords := fr
        powerList := pl
        energized := en
        noticeReport := nr
        notices := ns
        deviceCounters := dc } :=
  Within.of_touches ⟨fun _ _ => rfl, rfl, rfl, rfl, rfl, rfl, rfl, rfl, rfl⟩ rfl rfl

/-- Requests leave the latch wait list. -/
theorem within_leaveLatch (s : State) (f : Pos → Bool) : Within P s { s with latchWait := s.latchWait.filter f } :=
  fun hw => ⟨⟨fun _ _ => rfl, rfl, rfl, rfl, rfl, rfl, rfl, rfl, rfl⟩,
    fun q hq => hw q (List.mem_of_mem_filter hq), fun _ h => Or.inl h⟩

/-- A producer joins the wait order. -/
theorem mem_joinOrder (o : List Producer) (x y : Producer) : y ∈ joinOrder o x ↔ y ∈ o ∨ y = x := by
  unfold joinOrder
  split
  · rename_i h
    exact ⟨Or.inl, fun h' => h'.elim id fun e => e ▸ h⟩
  · simp

theorem within_joinOrder (s : State) (x : Producer) (hx : x = .notices ∨ ∃ q, P q ∧ x = .position q) :
    Within P s { s with waitOrder := joinOrder s.waitOrder x } :=
  fun hw => ⟨⟨fun _ _ => rfl, rfl, rfl, rfl, rfl, rfl, rfl, rfl, rfl⟩, hw,
    fun y hy => ((mem_joinOrder _ _ _).1 hy).imp id fun e => by rw [e]; exact hx⟩

/-! ### Reports, notices, counters -/

theorem within_offer {p : Pos} (hp : P p) (rs : List Report) (s : State) : Within P s (offer p rs s) :=
  (within_modPos hp s fun v => { v with waiting := v.waiting ++ rs }).trans
    (within_joinOrder _ (.position p) (Or.inr ⟨p, hp, rfl⟩))

theorem within_askNotice (s : State) : Within P s (askNotice s) := by
  unfold askNotice
  split
  · exact (within_counts s s.freeRecords s.powerList s.energized .waiting s.notices s.deviceCounters).trans
      (within_joinOrder _ .notices (Or.inl rfl))
  · exact Within.refl s

theorem within_raise (c : NoticeClass) (p : Option Pos) (s : State) : Within P s (raise c p s) := by
  have h (ns : Vector ClassRecord 15) : Within P s { s with notices := ns } :=
    within_counts s s.freeRecords s.powerList s.energized s.noticeReport ns s.deviceCounters
  unfold raise
  simp only
  split
  · split
    · exact (h _).trans (within_askNotice _)
    · exact h _
  · exact Within.refl s

/-- A raising touches the notice unit and the wait order alone. -/
theorem raise_keeps (c : NoticeClass) (p : Option Pos) (s : State) :
    (raise c p s).positions = s.positions ∧ (raise c p s).freeRecords = s.freeRecords ∧
    (raise c p s).energized = s.energized ∧ (raise c p s).latchWait = s.latchWait ∧
    (raise c p s).powerList = s.powerList ∧ (raise c p s).link = s.link ∧ (raise c p s).settings = s.settings ∧
    (raise c p s).queue = s.queue ∧ (raise c p s).deviceCounters = s.deviceCounters ∧
    (raise c p s).screening = s.screening := by
  unfold raise askNotice
  simp only
  split
  · split
    · split <;> exact ⟨rfl, rfl, rfl, rfl, rfl, rfl, rfl, rfl, rfl, rfl⟩
    · exact ⟨rfl, rfl, rfl, rfl, rfl, rfl, rfl, rfl, rfl, rfl⟩
  · exact ⟨rfl, rfl, rfl, rfl, rfl, rfl, rfl, rfl, rfl, rfl⟩

section RaiseFields

variable (c : NoticeClass) (p : Option Pos) (s : State)

@[simp] theorem positions_raise : (raise c p s).positions = s.positions := (raise_keeps c p s).1
@[simp] theorem freeRecords_raise : (raise c p s).freeRecords = s.freeRecords := (raise_keeps c p s).2.1
@[simp] theorem energized_raise : (raise c p s).energized = s.energized := (raise_keeps c p s).2.2.1
@[simp] theorem latchWait_raise : (raise c p s).latchWait = s.latchWait := (raise_keeps c p s).2.2.2.1
@[simp] theorem powerList_raise : (raise c p s).powerList = s.powerList := (raise_keeps c p s).2.2.2.2.1
@[simp] theorem link_raise : (raise c p s).link = s.link := (raise_keeps c p s).2.2.2.2.2.1
@[simp] theorem settings_raise : (raise c p s).settings = s.settings := (raise_keeps c p s).2.2.2.2.2.2.1
@[simp] theorem queue_raise : (raise c p s).queue = s.queue := (raise_keeps c p s).2.2.2.2.2.2.2.1
@[simp] theorem deviceCounters_raise : (raise c p s).deviceCounters = s.deviceCounters :=
  (raise_keeps c p s).2.2.2.2.2.2.2.2.1
@[simp] theorem screening_raise : (raise c p s).screening = s.screening := (raise_keeps c p s).2.2.2.2.2.2.2.2.2
@[simp] theorem pos_raise (q : Pos) : (raise c p s).pos q = s.pos q := by
  show (raise c p s).positions[(q : Nat)] = s.positions[(q : Nat)]
  simp

end RaiseFields

/-- The records of the classes after a raising: the class raised, if enabled, is pending with the position added (R145);
every other class is as it was. -/
theorem notices_raise (c : NoticeClass) (p : Option Pos) (s : State) :
    (raise c p s).notices =
      if (s.notice c).enabled then
        s.notices.set c.idx { s.notice c with pending := true, positions := raisedSet (s.notice c) p }
      else s.notices := by
  unfold raise askNotice
  simp only
  split
  · split
    · split <;> rfl
    · rfl
  · rfl

theorem within_countPos {p : Pos} (hp : P p) (c : PosCounter) (s : State) : Within P s (countPos c p s) := by
  unfold countPos
  simp only
  split
  · exact (within_modPos hp s _).trans (within_raise _ _ _)
  · exact within_modPos hp s _

theorem within_countDevice (c : DeviceCounter) (s : State) : Within P s (countDevice c s) := by
  have h (dc : Vector Nat 4) : Within P s { s with deviceCounters := dc } :=
    within_counts s s.freeRecords s.powerList s.energized s.noticeReport s.notices dc
  unfold countDevice
  simp only
  split
  · exact (h _).trans (within_raise _ _ _)
  · exact h _

/-- A count at a position writes that counter alone among the positions' fields. -/
theorem pos_countPos (c : PosCounter) (p q : Pos) (s : State) :
    (countPos c p s).pos q =
      if q = p then { s.pos p with counters := (s.pos p).counters.set c.idx (countUp (s.pos p).counters[c.idx]) }
      else s.pos q := by
  unfold countPos
  simp only
  split <;> simp only [pos_raise, State.pos_modPos] <;> split <;> simp_all

/-- A count touches one counter, the notice unit and the wait order alone. -/
theorem countPos_keeps (c : PosCounter) (p : Pos) (s : State) :
    (countPos c p s).latchWait = s.latchWait ∧ (countPos c p s).energized = s.energized ∧
    (countPos c p s).freeRecords = s.freeRecords ∧ (countPos c p s).link = s.link ∧
    (countPos c p s).settings = s.settings ∧ (countPos c p s).queue = s.queue ∧
    (countPos c p s).deviceCounters = s.deviceCounters := by
  unfold countPos
  simp only
  split <;> simp

@[simp] theorem pos_countDevice (c : DeviceCounter) (s : State) (q : Pos) : (countDevice c s).pos q = s.pos q := by
  unfold countDevice
  simp only
  split
  · rw [pos_raise]; rfl
  · rfl

@[simp] theorem link_countDevice (c : DeviceCounter) (s : State) : (countDevice c s).link = s.link := by
  unfold countDevice
  simp only
  split <;> simp

@[simp] theorem settings_countDevice (c : DeviceCounter) (s : State) : (countDevice c s).settings = s.settings := by
  unfold countDevice
  simp only
  split <;> simp

@[simp] theorem deviceCounters_countDevice (c : DeviceCounter) (s : State) :
    (countDevice c s).deviceCounters = s.deviceCounters.set c.idx (countUp s.deviceCounters[c.idx]) := by
  unfold countDevice
  simp only
  split <;> simp

/-- A count that does not cross the mark of R153 writes the counter and nothing else. -/
theorem countDevice_low (c : DeviceCounter) (s : State) (h : s.deviceCounters[c.idx] < Config.counterHighAt - 1) :
    countDevice c s = { s with deviceCounters := s.deviceCounters.set c.idx (s.deviceCounters[c.idx] + 1) } := by
  have hu : countUp s.deviceCounters[c.idx] = s.deviceCounters[c.idx] + 1 := by
    unfold countUp Config.counterMax
    unfold Config.counterHighAt at h
    rw [if_pos (by omega)]
  have hc : crossesHigh s.deviceCounters[c.idx] = false := by
    unfold crossesHigh
    rw [hu]
    simp only [Bool.and_eq_false_imp, beq_iff_eq]
    unfold Config.counterHighAt at h ⊢
    omega
  unfold countDevice
  simp only [hc, Bool.false_eq_true, if_false]
  rw [hu]

theorem within_presenceChange {p : Pos} (hp : P p) (present : Bool) (s : State) :
    Within P s (presenceChange p present s) := by
  unfold presenceChange
  simp only
  split
  · exact within_modPos hp _ _
  · split
    · exact within_offer hp _ _
    · exact Within.refl s

/-! ### Display and beeps -/

theorem within_handContent {p : Pos} (hp : P p) (text : List Byte) (s : State) : Within P s (handContent p text s) :=
  within_modPos hp _ _

theorem within_askBeep {p : Pos} (hp : P p) (b : Beep) (s : State) : Within P s (askBeep p b s) := within_modPos hp _ _

theorem within_handEcho {p : Pos} (hp : P p) (s : State) : Within P s (handEcho p s) := by
  unfold handEcho
  split
  · exact Within.refl s
  · exact within_handContent hp _ _

/-! ### Ending a step -/

theorem within_startCardLeft {p : Pos} (hp : P p) (s : State) : Within P s (startCardLeft p s) := by
  unfold startCardLeft
  simp only
  split
  · exact within_modPos hp _ _
  · exact Within.refl s

theorem within_stopWork {p : Pos} (hp : P p) (s : State) : Within P s (stopWork p s) := by
  unfold stopWork
  exact (within_leaveLatch s _).trans (within_modPos hp _ _)

theorem within_freeHead {p : Pos} (hp : P p) (s : State) : Within P s (freeHead p s) := by
  unfold freeHead
  split
  · exact Within.refl s
  · have h : Within P s { s with freeRecords := s.freeRecords + 1 } :=
      within_counts s (s.freeRecords + 1) s.powerList s.energized s.noticeReport s.notices s.deviceCounters
    simp only
    split
    · exact h.trans (within_modPos hp _ _)
    · exact (h.trans (within_modPos hp _ _)).trans (within_startCardLeft hp _)

theorem within_endStep {p : Pos} (hp : P p) (o : StepOutcome) (d : OutcomeData) (s : State) :
    Within P s (endStep p o d s) := by
  unfold endStep
  split
  · exact Within.refl s
  · have h : Within P s ((stopWork p s).setProgress p (.completing o d false)) :=
      (within_stopWork hp s).trans (within_modPos hp _ _)
    simp only
    split
    · exact h.trans (within_offer hp _ _)
    · exact h.trans (within_freeHead hp _)

/-! ### Latches -/

theorem within_endGranted {p : Pos} (hp : P p) (s : State) : Within P s (endGranted p s) := by
  unfold endGranted
  split
  · exact within_endStep hp _ _ _
  · exact within_endStep hp _ _ _
  · exact Within.refl s

theorem within_grant {p : Pos} (hp : P p) (s : State) : Within P s (grant p s) := by
  have h : Within P s { s with latchWait := s.latchWait.filter (· ≠ p), energized := s.energized ++ [p] } :=
    (within_leaveLatch s _).trans
      (within_counts { s with latchWait := s.latchWait.filter (· ≠ p) } s.freeRecords s.powerList (s.energized ++ [p])
        s.noticeReport s.notices s.deviceCounters)
  unfold grant
  exact (h.trans (within_modPos hp _ _)).trans (within_endGranted hp _)

theorem within_grantLoop (n : Nat) (s : State) : Within P s (grantLoop n s) := by
  induction n generalizing s with
  | zero => exact Within.refl s
  | succ n ih =>
    unfold grantLoop
    split
    · split
      · rename_i p hp
        intro hw
        exact ((within_grant (hw p (List.mem_of_find?_eq_some hp)) s).trans (ih _)) hw
      · exact Within.refl s
    · exact Within.refl s

/-- A grant decision touches positions of the wait list alone. -/
theorem within_grantDecision (s : State) : Within P s (grantDecision s) := within_grantLoop _ s

theorem within_driveOff {p : Pos} (hp : P p) (s : State) : Within P s (driveOff p s) := by
  have h : Within P s { s with energized := s.energized.filter (· ≠ p) } :=
    within_counts s s.freeRecords s.powerList (s.energized.filter (· ≠ p)) s.noticeReport s.notices s.deviceCounters
  unfold driveOff
  exact h.trans (within_modPos hp _ _)

theorem within_deEnergize {p : Pos} (hp : P p) (s : State) : Within P s (deEnergize p s) := by
  unfold deEnergize
  split
  · exact (within_driveOff hp s).trans (within_grantDecision _)
  · exact Within.refl s

theorem within_requestLatch {p : Pos} (hp : P p) (w : Work) (s : State) : Within P s (requestLatch p w s) := by
  have h : Within P s { s with latchWait := s.latchWait ++ [p] } := by
    intro hw
    refine ⟨⟨fun _ _ => rfl, rfl, rfl, rfl, rfl, rfl, rfl, rfl, rfl⟩, fun q hq => ?_, fun _ hx => Or.inl hx⟩
    rcases List.mem_append.1 hq with hq | hq
    · exact hw q hq
    · rw [List.mem_singleton.1 hq]; exact hp
  unfold requestLatch
  exact ((h.trans (within_modPos hp _ _)).trans (within_modPos hp _ _)).trans (within_grantDecision _)

theorem within_ceilingRunsOut {p : Pos} (hp : P p) (s : State) : Within P s (ceilingRunsOut p s) := by
  unfold ceilingRunsOut
  split
  · exact (((within_driveOff hp s).trans (within_raise _ _ _)).trans (within_countPos hp _ _)).trans
      (within_grantDecision _)
  · exact Within.refl s

theorem within_reEnergizeRunsOut {p : Pos} (hp : P p) (s : State) : Within P s (reEnergizeRunsOut p s) := by
  unfold reEnergizeRunsOut
  split
  · exact (within_modPos hp _ _).trans (within_grantDecision _)
  · exact Within.refl s

/-! ### A step that does not wait for the latch is not ended by a grant -/

/-- The step of a position does not wait for the latch. -/
def Position.noLatchWork (v : Position) : Prop :=
  v.work ≠ some .latch ∧ ∀ i t f, v.work ≠ some (.screenHold i t f)

theorem work_of_chain {v w : Position} (h : v.chain = w.chain) : v.work = w.work := by
  simp [Position.work, Position.headProgress, h]

theorem noLatchWork_of_chain {v w : Position} (h : v.chain = w.chain) (hw : w.noLatchWork) : v.noLatchWork := by
  unfold Position.noLatchWork
  rw [work_of_chain h]
  exact hw

theorem endGranted_of_noLatchWork {p : Pos} {s : State} (h : (s.pos p).noLatchWork) : endGranted p s = s := by
  unfold endGranted
  split
  · exact absurd ‹_› h.1
  · exact absurd ‹_› (h.2 _ _ _)
  · rfl

theorem pos_stopWork_ne {p q : Pos} (h : q ≠ p) (s : State) : (stopWork p s).pos q = s.pos q := by
  unfold stopWork
  simp [h]

theorem pos_offer_ne {p q : Pos} (h : q ≠ p) (rs : List Report) (s : State) : (offer p rs s).pos q = s.pos q := by
  unfold offer
  simp [h]

theorem pos_startCardLeft_ne {p q : Pos} (h : q ≠ p) (s : State) : (startCardLeft p s).pos q = s.pos q := by
  unfold startCardLeft
  simp only
  split <;> simp [h]

theorem pos_freeHead_ne {p q : Pos} (h : q ≠ p) (s : State) : (freeHead p s).pos q = s.pos q := by
  unfold freeHead
  split
  · rfl
  · simp only
    split
    · simp [h]
    · rw [pos_startCardLeft_ne h]; simp [h]

theorem pos_endStep_ne {p q : Pos} (h : q ≠ p) (o : StepOutcome) (d : OutcomeData) (s : State) :
    (endStep p o d s).pos q = s.pos q := by
  unfold endStep
  split
  · rfl
  · simp only
    split
    · rw [pos_offer_ne h, State.setProgress_eq, State.pos_modPos_ne _ h, pos_stopWork_ne h]
    · rw [pos_freeHead_ne h, State.setProgress_eq, State.pos_modPos_ne _ h, pos_stopWork_ne h]

theorem pos_grant_ne {p q : Pos} (h : q ≠ p) (s : State) : (grant p s).pos q = s.pos q := by
  unfold grant endGranted
  simp only
  split <;> (try rw [pos_endStep_ne h]) <;> simp [h]

theorem chain_grant (p q : Pos) (s : State) (h : (s.pos q).noLatchWork) :
    ((grant p s).pos q).chain = (s.pos q).chain := by
  by_cases hq : q = p
  · subst hq
    unfold grant
    simp only
    rw [endGranted_of_noLatchWork (noLatchWork_of_chain (by simp) h)]
    simp
  · rw [pos_grant_ne hq]

theorem chain_grantLoop (n : Nat) (q : Pos) (s : State) (h : (s.pos q).noLatchWork) :
    ((grantLoop n s).pos q).chain = (s.pos q).chain := by
  induction n generalizing s with
  | zero => rfl
  | succ n ih =>
    unfold grantLoop
    split
    · split
      · rename_i p _
        have hc := chain_grant p q s h
        rw [ih (grant p s) (noLatchWork_of_chain hc h), hc]
      · rfl
    · rfl

theorem chain_deEnergize (p q : Pos) (s : State) (h : (s.pos q).noLatchWork) :
    ((deEnergize p s).pos q).chain = (s.pos q).chain := by
  unfold deEnergize
  split
  · have hd : ((driveOff p s).pos q).chain = (s.pos q).chain := by
      unfold driveOff
      simp only [State.pos_modPos]
      split <;> rfl
    unfold grantDecision
    rw [chain_grantLoop _ _ _ (noLatchWork_of_chain hd h), hd]
  · rfl

end Sys2Proof.Machine
end

