-- ==== Sys2Proof/Laws/Due.lean ====
section
/-! SUPPORT. What `settle` does: each thing due lowers `dueWork`, so nothing is due when it ends, and it leaves a state at
rest as it is. -/

namespace Sys2Proof.Machine

/-! ### The measure, position by position -/

/-- The work the positions can still make. -/
def posWork (s : State) : Nat := (allPos.map fun p => (s.pos p).dueWork).sum

/-- The work outside the positions. -/
def otherWork (s : State) : Nat :=
  2 * s.waitOrder.length + s.queue.length + (if s.link.slot.isSome then 1 else 0)

theorem dueWork_eq (s : State) : dueWork s = posWork s + otherWork s := by
  simp [dueWork, posWork, otherWork]; omega

theorem sum_map_update (l : List Pos) (hl : l.Nodup) (f g : Pos → Nat) (p : Pos) (h : ∀ q, q ≠ p → g q = f q) :
    (l.map g).sum + (if p ∈ l then f p else 0) = (l.map f).sum + (if p ∈ l then g p else 0) := by
  induction l with
  | nil => simp
  | cons a l ih =>
    obtain ⟨ha, hl⟩ := List.nodup_cons.mp hl
    have ih := ih hl
    by_cases hp : a = p
    · subst hp
      simp only [ha, if_false] at ih
      simp; omega
    · have hpa : ¬ p = a := fun e => hp e.symm
      simp only [List.map_cons, List.sum_cons, List.mem_cons, hpa, false_or, h a hp]
      omega

theorem mem_allPos (p : Pos) : p ∈ allPos := by
  revert p; decide

theorem nodup_allPos : allPos.Nodup := by decide

theorem posWork_modPos (s : State) (p : Pos) (f : Position → Position) :
    posWork (s.modPos p f) + (s.pos p).dueWork = posWork s + (f (s.pos p)).dueWork := by
  have h := sum_map_update allPos nodup_allPos (fun q => (s.pos q).dueWork)
    (fun q => ((s.modPos p f).pos q).dueWork) p (fun q hq => by simp [hq])
  simpa [posWork, mem_allPos p] using h

/-- A write that keeps a position's chain and waiting reports keeps the work. -/
theorem dueWork_modPos_same (s : State) (p : Pos) (f : Position → Position)
    (hc : (f (s.pos p)).chain = (s.pos p).chain) (hw : (f (s.pos p)).waiting = (s.pos p).waiting) :
    dueWork (s.modPos p f) = dueWork s := by
  have h := posWork_modPos s p f
  have : (f (s.pos p)).dueWork = (s.pos p).dueWork := by simp [Position.dueWork, hc, hw]
  have e : otherWork (s.modPos p f) = otherWork s := rfl
  rw [dueWork_eq, dueWork_eq, e]
  omega

/-- The work of a position whose head record is `r`. -/
theorem dueWork_cons {v : Position} {r : StepRecord} {rest : List StepRecord} (h : v.chain = r :: rest) :
    v.dueWork = r.dueWork + (rest.map StepRecord.dueWork).sum + 2 * v.waiting.length := by
  simp [Position.dueWork, h]

/-- A new progress of the head step replaces that step's work. -/
theorem dueWork_setProgress (s : State) (p : Pos) (g : Progress) {r : StepRecord} {rest : List StepRecord}
    (h : (s.pos p).chain = r :: rest) :
    dueWork (s.setProgress p g) + r.dueWork = dueWork s + { r with progress := some g : StepRecord }.dueWork := by
  have hm := posWork_modPos s p (·.setProgress g)
  have hc : ((s.pos p).setProgress g).chain = { r with progress := some g } :: rest := by
    simp [Position.setProgress, h]
  have hw : ((s.pos p).setProgress g).waiting = (s.pos p).waiting := by simp
  rw [dueWork_cons h, dueWork_cons hc, hw] at hm
  have e : otherWork (s.setProgress p g) = otherWork s := rfl
  have e' : posWork (s.setProgress p g) = posWork (s.modPos p (·.setProgress g)) := rfl
  rw [dueWork_eq, dueWork_eq, e, e']
  omega

/-! ### Offering and freeing -/

theorem length_joinOrder (o : List Producer) (x : Producer) : (joinOrder o x).length ≤ o.length + 1 := by
  unfold joinOrder; split <;> simp

theorem dueWork_offer (p : Pos) (rs : List Report) (s : State) :
    dueWork (offer p rs s) ≤ dueWork s + 2 * rs.length + 2 := by
  have hm := posWork_modPos s p fun v => { v with waiting := v.waiting ++ rs }
  have hj := length_joinOrder s.waitOrder (.position p)
  simp only [Position.dueWork, List.length_append] at hm
  have hp : posWork (offer p rs s) = posWork (s.modPos p fun v => { v with waiting := v.waiting ++ rs }) := rfl
  have ho : otherWork (offer p rs s) = 2 * (joinOrder s.waitOrder (.position p)).length + s.queue.length +
      (if s.link.slot.isSome then 1 else 0) := rfl
  rw [dueWork_eq, dueWork_eq, hp, ho, otherWork]
  omega

theorem dueWork_startCardLeft (p : Pos) (s : State) : dueWork (startCardLeft p s) = dueWork s := by
  unfold startCardLeft
  simp only
  split
  · exact dueWork_modPos_same _ _ _ rfl rfl
  · rfl

theorem dueWork_freeHead (p : Pos) (s : State) {r : StepRecord} {rest : List StepRecord}
    (h : (s.pos p).chain = r :: rest) : dueWork (freeHead p s) + r.dueWork ≤ dueWork s := by
  let s1 : State := { s with freeRecords := s.freeRecords + 1 }
  let s2 := s1.modPos p fun v =>
    { v with chain := rest, chainState := freedChainState r rest, entry := v.entry.wipeFinished }
  have hm := posWork_modPos s1 p fun v =>
    { v with chain := rest, chainState := freedChainState r rest, entry := v.entry.wipeFinished }
  have hp : (s1.pos p).dueWork = r.dueWork + (rest.map StepRecord.dueWork).sum + 2 * (s.pos p).waiting.length :=
    dueWork_cons h
  have h2 : dueWork s2 + r.dueWork = dueWork s := by
    have e1 : posWork s1 = posWork s := rfl
    have e2 : otherWork s2 = otherWork s := rfl
    rw [hp] at hm
    simp only [Position.dueWork] at hm
    have e3 : (s1.pos p).waiting = (s.pos p).waiting := rfl
    rw [e3, e1] at hm
    rw [dueWork_eq, dueWork_eq, e2]
    show posWork (s1.modPos p _) + _ + _ = _
    omega
  have hf : dueWork (freeHead p s) = dueWork s2 := by
    unfold freeHead
    rw [h]
    simp only
    split
    · rfl
    · exact dueWork_startCardLeft p s2
  omega

theorem dueWork_freeHead_le (p : Pos) (s : State) : dueWork (freeHead p s) ≤ dueWork s := by
  cases h : (s.pos p).chain with
  | nil => simp [freeHead, h]
  | cons r rest => have := dueWork_freeHead p s h; omega

/-! ### Ending a step -/

theorem length_cutText (n : Nat) (t : List Byte) : (cutText n t).length ≤ n + 1 := by
  induction n generalizing t with
  | zero => simp [cutText]
  | succ n ih =>
    unfold cutText
    split
    · simp
    · simpa using ih _

theorem length_numberSegments (p : Pos) (e : SegmentEnd) (n : Nat) (ts : List (List Byte)) :
    (numberSegments p e n ts).length = ts.length := by
  induction ts generalizing n with
  | nil => rfl
  | cons t ts ih =>
    cases ts with
    | nil => rfl
    | cons u us => simp [numberSegments, ih]

/-- A step has at most three completion reports (R19, R137). -/
theorem length_completionReports (p : Pos) (r : StepRecord) (o : StepOutcome) (d : OutcomeData) :
    (completionReports p r o d).length ≤ 3 := by
  unfold completionReports
  split
  · rw [length_numberSegments]; exact length_cutText 2 _
  · simp
  · split <;> simp

theorem chain_stopWork (p q : Pos) (s : State) : ((stopWork p s).pos q).chain = (s.pos q).chain := by
  unfold stopWork
  simp only [State.pos_modPos]
  split <;> rfl

theorem dueWork_stopWork (p : Pos) (s : State) : dueWork (stopWork p s) = dueWork s := by
  unfold stopWork
  exact dueWork_modPos_same _ _ _ rfl rfl

/-- The end of a step leaves less work than the step itself stood for. -/
theorem dueWork_endStep (p : Pos) (o : StepOutcome) (d : OutcomeData) (s : State) {r : StepRecord}
    {rest : List StepRecord} (h : (s.pos p).chain = r :: rest) :
    dueWork (endStep p o d s) + r.dueWork ≤ dueWork s + 8 := by
  have hc : ((stopWork p s).pos p).chain = r :: rest := by rw [chain_stopWork, h]
  have hs := dueWork_setProgress (stopWork p s) p (.completing o d false) hc
  rw [dueWork_stopWork] at hs
  have h0 : { r with progress := some (.completing o d false) : StepRecord }.dueWork = 0 := rfl
  unfold endStep
  rw [h]
  simp only
  split
  · have := dueWork_offer p (completionReports p r o d) ((stopWork p s).setProgress p (.completing o d false))
    have := length_completionReports p r o d
    omega
  · have := dueWork_freeHead_le p ((stopWork p s).setProgress p (.completing o d false))
    omega

/-! ### Latches -/

/-- The work of a position is that of its head record at least. -/
theorem work_le_ten {v : Position} {w : Work} (h : v.work = some w) :
    ∃ r rest, v.chain = r :: rest ∧ r.dueWork = 10 := by
  unfold Position.work Position.headProgress at h
  cases hc : v.chain with
  | nil => simp [hc] at h
  | cons r rest =>
    refine ⟨r, rest, rfl, ?_⟩
    rw [hc] at h
    unfold StepRecord.dueWork
    cases hp : r.progress with
    | none => simp [hp] at h
    | some g => cases g <;> simp_all

theorem dueWork_endGranted (p : Pos) (s : State) : dueWork (endGranted p s) ≤ dueWork s := by
  unfold endGranted
  split
  · obtain ⟨r, rest, hc, hw⟩ := work_le_ten ‹_›
    have := dueWork_endStep p .done .nothing s hc
    omega
  · rename_i i text flags hw
    obtain ⟨r, rest, hc, hw⟩ := work_le_ten hw
    have := dueWork_endStep p .screened
      (.card { text := text, flags := flags, entryId := some i, hold := .held }) s hc
    omega
  · exact Nat.le_refl _

theorem dueWork_grant (p : Pos) (s : State) : dueWork (grant p s) ≤ dueWork s := by
  unfold grant
  refine Nat.le_trans (dueWork_endGranted _ _) (Nat.le_of_eq ?_)
  exact dueWork_modPos_same _ _ _ rfl rfl

theorem dueWork_grantLoop (n : Nat) (s : State) : dueWork (grantLoop n s) ≤ dueWork s := by
  induction n generalizing s with
  | zero => exact Nat.le_refl _
  | succ n ih =>
    unfold grantLoop
    split
    · split
      · exact Nat.le_trans (ih _) (dueWork_grant _ _)
      · exact Nat.le_refl _
    · exact Nat.le_refl _

theorem dueWork_grantDecision (s : State) : dueWork (grantDecision s) ≤ dueWork s := dueWork_grantLoop _ s

theorem dueWork_driveOff (p : Pos) (s : State) : dueWork (driveOff p s) = dueWork s := by
  unfold driveOff
  exact dueWork_modPos_same _ _ _ rfl rfl

theorem dueWork_deEnergize (p : Pos) (s : State) : dueWork (deEnergize p s) ≤ dueWork s := by
  unfold deEnergize
  split
  · exact Nat.le_trans (dueWork_grantDecision _) (Nat.le_of_eq (dueWork_driveOff p s))
  · exact Nat.le_refl _

/-! ### Starting -/

theorem dueWork_handContent (p : Pos) (text : List Byte) (s : State) : dueWork (handContent p text s) = dueWork s := by
  unfold handContent
  exact dueWork_modPos_same _ _ _ (by split <;> rfl) (by split <;> rfl)

theorem dueWork_askBeep (p : Pos) (b : Beep) (s : State) : dueWork (askBeep p b s) = dueWork s := by
  unfold askBeep
  exact dueWork_modPos_same _ _ _ (by split <;> rfl) (by split <;> rfl)

theorem dueWork_handEcho (p : Pos) (s : State) : dueWork (handEcho p s) = dueWork s := by
  unfold handEcho
  split
  · rfl
  · exact dueWork_handContent _ _ _

theorem chain_modPos_self (s : State) (p : Pos) (f : Position → Position) (h : ∀ v, (f v).chain = v.chain) (q : Pos) :
    ((s.modPos p f).pos q).chain = (s.pos q).chain := by
  rw [State.pos_modPos]; split <;> simp [h]

theorem chain_handContent (p : Pos) (text : List Byte) (s : State) (q : Pos) :
    ((handContent p text s).pos q).chain = (s.pos q).chain := by
  unfold handContent
  exact chain_modPos_self _ _ _ (fun v => by split <;> rfl) q

theorem chain_askBeep (p : Pos) (b : Beep) (s : State) (q : Pos) :
    ((askBeep p b s).pos q).chain = (s.pos q).chain := by
  unfold askBeep
  exact chain_modPos_self _ _ _ (fun v => by split <;> rfl) q

/-- The chain of a position whose head step's progress is set. -/
theorem chain_setProgress {s : State} {p : Pos} {r : StepRecord} {rest : List StepRecord} (g : Progress)
    (h : (s.pos p).chain = r :: rest) : ((s.setProgress p g).pos p).chain = { r with progress := some g } :: rest := by
  simp [Position.setProgress, h]

theorem chain_setProgress_ne {s : State} {p q : Pos} (g : Progress) (h : q ≠ p) :
    ((s.setProgress p g).pos q).chain = (s.pos q).chain := by
  simp [h]

/-- An ACTIVE step stands for 10. -/
theorem dueWork_activeProgress (s : State) (p : Pos) (w : Work) {r : StepRecord} {rest : List StepRecord}
    (h : (s.pos p).chain = r :: rest) : dueWork (s.setProgress p (.active w)) + r.dueWork = dueWork s + 10 := by
  have := dueWork_setProgress s p (.active w) h
  exact this

/-- A step that is ACTIVE and ends at once leaves less work than a step that stays ACTIVE. -/
theorem dueWork_endActive (p : Pos) (o : StepOutcome) (d : OutcomeData) (w : Work) (n : Nat) (t : State)
    {r : StepRecord} {rest : List StepRecord} (hn : dueWork t ≤ n)
    (h : (t.pos p).chain = { r with progress := some (.active w) } :: rest) : dueWork (endStep p o d t) ≤ n := by
  have := dueWork_endStep p o d t h
  have e10 : { r with progress := some (.active w) : StepRecord }.dueWork = 10 := rfl
  omega

section Activate

variable (p : Pos) (s : State) {r : StepRecord} {rest : List StepRecord} (h : (s.pos p).chain = r :: rest)
include h

theorem dueWork_activateShow (beep : Option Beep) (text : List Byte) :
    dueWork (activateShow p beep text s) + r.dueWork ≤ dueWork s + 10 := by
  have beeped (u : State) : dueWork (askShowBeep p beep u) = dueWork u ∧
      ((askShowBeep p beep u).pos p).chain = (u.pos p).chain := by
    cases beep with
    | none => exact ⟨rfl, rfl⟩
    | some b => exact ⟨dueWork_askBeep _ _ _, chain_askBeep _ _ _ _⟩
  unfold activateShow
  by_cases hd : (s.pos p).key.display = true
  · simp only [hd, if_true]
    have hc := (chain_handContent p text s p).trans h
    have ha := dueWork_activeProgress (handContent p text s) p (.display (s.pos p).key.outstanding.isNone) hc
    rw [(beeped _).1]
    rw [dueWork_handContent] at ha
    omega
  · simp only [hd, Bool.false_eq_true, if_false]
    have ha := dueWork_activeProgress s p (.display false) h
    have := dueWork_endActive p .done .noDisplay (.display false) (dueWork (s.setProgress p (.active (.display false))))
      _ (Nat.le_of_eq (beeped _).1) ((beeped _).2.trans (chain_setProgress _ h))
    omega

theorem dueWork_activateWaitCard (timeout : Nat) :
    dueWork (activateWaitCard p timeout s) + r.dueWork ≤ dueWork s + 10 := by
  unfold activateWaitCard
  have hc := (chain_modPos_self s p (fun v => { v with pass := { v.pass with armed := true } }) (fun _ => rfl) p).trans h
  have ha := dueWork_activeProgress _ p (.card (.running (timeout * 1000))) hc
  rw [dueWork_modPos_same s p (fun v => { v with pass := { v.pass with armed := true } }) rfl rfl] at ha
  exact Nat.le_of_eq ha

theorem dueWork_requestLatch (w : Work) : dueWork (requestLatch p w s) + r.dueWork ≤ dueWork s + 10 := by
  unfold requestLatch
  simp only
  have hc := (chain_modPos_self { s with latchWait := s.latchWait ++ [p] } p (fun v => { v with latchState := .waiting })
    (fun _ => rfl) p).trans h
  have ha := dueWork_activeProgress _ p w hc
  have e := dueWork_modPos_same { s with latchWait := s.latchWait ++ [p] } p (fun v => { v with latchState := .waiting })
    rfl rfl
  have e' : dueWork { s with latchWait := s.latchWait ++ [p] } = dueWork s := rfl
  have hg := dueWork_grantDecision (State.setProgress (State.modPos { s with latchWait := s.latchWait ++ [p] } p
    (fun v => { v with latchState := .waiting })) p (.active w))
  omega

theorem dueWork_activateHoldCard : dueWork (activateHoldCard p s) + r.dueWork ≤ dueWork s + 10 := by
  unfold activateHoldCard
  simp only
  split
  · have := dueWork_endStep p .done .nothing s h; omega
  · split
    · have := dueWork_endStep p .noCard .nothing s h; omega
    · exact dueWork_requestLatch p s h .latch

theorem dueWork_activateReleaseCard (waitRemoval : Bool) (timeout : Nat) :
    dueWork (activateReleaseCard p waitRemoval timeout s) + r.dueWork ≤ dueWork s + 10 := by
  unfold activateReleaseCard
  simp only
  generalize hw : Work.removal (.running (timeout * 1000)) = w
  have ha := dueWork_activeProgress s p w h
  have hc := chain_setProgress (.active w) h
  have hx : ((s.setProgress p (.active w)).pos p).work = some w := by
    simp only [Position.work, Position.headProgress, hc]
  have hc2 := chain_deEnergize p p (s.setProgress p (.active w)) (by unfold Position.noLatchWork; rw [hx, ← hw]; simp)
  have hd := dueWork_deEnergize p (s.setProgress p (.active w))
  split
  · omega
  · have := dueWork_endActive p .done .nothing w _ _ hd (hc2.trans hc)
    omega

theorem dueWork_activateCollect (c : CollectParams) :
    dueWork (activateCollect p c s) + r.dueWork ≤ dueWork s + 10 := by
  have ha := dueWork_activeProgress s p .session h
  have e (e' : EntryUnit) := dueWork_modPos_same (s.setProgress p (.active .session)) p
    (fun v => { v with entry := e' }) rfl rfl
  unfold activateCollect
  simp only
  rw [dueWork_handEcho, e]
  omega

/-- Entering ACTIVE leaves at most the work of an ACTIVE step. -/
theorem dueWork_activate : dueWork (activate p s) + r.dueWork ≤ dueWork s + 10 := by
  unfold activate
  rw [h]
  simp only
  split
  · exact dueWork_activateShow p s h _ _
  · exact dueWork_activateWaitCard p s h _
  · exact dueWork_activateHoldCard p s h
  · exact dueWork_activateReleaseCard p s h _ _
  · exact dueWork_activateCollect p s h _
  · rename_i duration _
    have := dueWork_activeProgress s p (.pause (.running (duration * 10))) h
    omega

end Activate

/-- Starting a step that has not started leaves less work. -/
theorem dueWork_startHead (p : Pos) (s : State) (h : startDue (s.pos p) = true) :
    dueWork (startHead p s) < dueWork s := by
  unfold startDue Position.inFlight Position.headProgress at h
  unfold startHead
  cases hc : (s.pos p).chain with
  | nil => simp [hc] at h
  | cons r rest =>
    have hr : r.dueWork = 12 := by
      unfold StepRecord.dueWork
      cases hp : r.progress with
      | none => rfl
      | some g => simp [hc, hp] at h
    simp only
    generalize hu : (s.modPos p fun v => startAttempts s.settings.live r.params { v with cardLeftTimer := .stopped }) = u
    have e : dueWork u = dueWork s := by
      rw [← hu]
      exact dueWork_modPos_same _ _ _ (by cases r.params <;> rfl) (by cases r.params <;> rfl)
    have hc' : (u.pos p).chain = r :: rest := by
      rw [← hu, State.pos_modPos_self, ← hc]; cases r.params <;> rfl
    have ha := dueWork_activate p u hc'
    split
    · omega
    · rename_i k _
      split
      · omega
      · have := dueWork_setProgress u p .waitingPort hc'
        have e10 : { r with progress := some Progress.waitingPort : StepRecord }.dueWork = 10 := rfl
        omega
      · have := dueWork_endStep p (portOutcome (u.port p k).state) .nothing u hc'
        omega

/-! ### Admissions and hand-offs -/

theorem posWork_same {s t : State} (h : ∀ p, t.pos p = s.pos p) : posWork t = posWork s := by
  simp [posWork, h]

theorem dueWork_admitPosition (p : Pos) (order : List Producer) (s : State) (h : s.waitOrder = .position p :: order) :
    dueWork (admitPosition p order s) < dueWork s := by
  have hlen : s.waitOrder.length = order.length + 1 := by simp [h]
  unfold admitPosition
  split
  · have e : otherWork { s with waitOrder := order } + 2 = otherWork s := by
      unfold otherWork; simp only; omega
    have e' : posWork { s with waitOrder := order } = posWork s := rfl
    rw [dueWork_eq, dueWork_eq, e']
    omega
  · rename_i r more hw
    simp only
    have hl : (if more.isEmpty = true then order else Producer.position p :: order).length ≤ order.length + 1 := by
      split <;> simp
    generalize (if more.isEmpty = true then order else Producer.position p :: order) = wo at hl ⊢
    have key : dueWork (State.modPos { s with queue := s.queue ++ [r.filled (s.pos p).entry], waitOrder := wo } p
        fun v => { v with waiting := more }) < dueWork s := by
      have hm := posWork_modPos { s with queue := s.queue ++ [r.filled (s.pos p).entry], waitOrder := wo } p
        fun v => { v with waiting := more }
      have e1 : posWork { s with queue := s.queue ++ [r.filled (s.pos p).entry], waitOrder := wo } = posWork s := rfl
      have e2 : otherWork (State.modPos { s with queue := s.queue ++ [r.filled (s.pos p).entry], waitOrder := wo } p
          fun v => { v with waiting := more }) + 2 * s.waitOrder.length = otherWork s + 2 * wo.length + 1 := by
        have hq : (s.queue ++ [r.filled (s.pos p).entry]).length = s.queue.length + 1 := by simp
        show 2 * wo.length + (s.queue ++ [r.filled (s.pos p).entry]).length + (if s.link.slot.isSome then 1 else 0) +
          2 * s.waitOrder.length =
          2 * s.waitOrder.length + s.queue.length + (if s.link.slot.isSome then 1 else 0) + 2 * wo.length + 1
        omega
      rw [e1] at hm
      have e3 : (State.pos { s with queue := s.queue ++ [r.filled (s.pos p).entry], waitOrder := wo } p) = s.pos p := rfl
      rw [e3] at hm
      simp only [Position.dueWork, hw, List.length_cons] at hm
      rw [dueWork_eq, dueWork_eq]
      omega
    split
    · exact Nat.lt_of_le_of_lt (dueWork_freeHead_le _ _) key
    · exact key

theorem dueWork_admitHead (s : State) (h : s.waitOrder ≠ []) : dueWork (admitHead s) < dueWork s := by
  unfold admitHead
  split
  · exact absurd ‹_› h
  · rename_i order ho
    have e : otherWork { s with waitOrder := order, queue := s.queue ++ [.notice], noticeReport := .queued } + 1 =
        otherWork s := by
      unfold otherWork; simp [ho]; omega
    have e' : posWork { s with waitOrder := order, queue := s.queue ++ [.notice], noticeReport := .queued } = posWork s :=
      rfl
    rw [dueWork_eq, dueWork_eq, e']
    omega
  · exact dueWork_admitPosition _ _ _ ‹_›

theorem dueWork_arbiter (s t : State) (h : arbiter s = some t) : dueWork t < dueWork s := by
  unfold arbiter at h
  split at h
  · cases h
  · split at h
    · rename_i f hf
      cases h
      have e' : posWork { s with link := { s.link with slot := none, transmitter := some f } } = posWork s := rfl
      rw [dueWork_eq, dueWork_eq, e']
      simp [otherWork, hf]
    · split at h
      · cases h
      · rename_i hs _ r q hq
        cases h
        unfold handReport
        have hl : s.queue.length = q.length + 1 := by simp [hq]
        split
        · simp only
          split
          · have e' : posWork { s with queue := q, noticeReport := .absent } = posWork s := rfl
            rw [dueWork_eq, dueWork_eq, e']
            simp [otherWork, hs, hl]
          · have e' : posWork ({ s with
                queue := q, noticeReport := .absent,
                link := { s.link with transmitter := some (r.frame (noticePayload s.notices)) } } : State) = posWork s := rfl
            rw [dueWork_eq, dueWork_eq, e']
            simp [otherWork, hs, hl]
        · have e' : posWork ({ s with
              queue := q, link := { s.link with transmitter := some (r.frame []) } } : State) = posWork s := rfl
          rw [dueWork_eq, dueWork_eq, e']
          simp [otherWork, hs, hl]

/-! ### `settle` -/

/-- Everything due lowers the work that can still become due. -/
theorem dueWork_nextDue {s t : State} (h : nextDue s = some t) : dueWork t < dueWork s := by
  unfold nextDue at h
  split at h
  · cases h; exact dueWork_admitHead s (by tauto)
  · split at h
    · rename_i p hp
      cases h
      exact dueWork_startHead p s (by simpa using List.find?_some hp)
    · exact dueWork_arbiter s t h

theorem settled_settleFor (n : Nat) (s : State) (h : dueWork s ≤ n) : Settled (settleFor n s) := by
  induction n generalizing s with
  | zero =>
    unfold settleFor Settled
    cases hd : nextDue s with
    | none => rfl
    | some t => have := dueWork_nextDue hd; omega
  | succ n ih =>
    unfold settleFor
    cases hd : nextDue s with
    | none => exact hd
    | some t => exact ih t (by have := dueWork_nextDue hd; omega)

/-- Nothing is due when `settle` ends. -/
theorem settled_settle (s : State) : Settled (settle s) := settled_settleFor _ s (Nat.le_refl _)

/-- Where nothing is due, `settle` changes nothing. -/
theorem settle_of_settled {s : State} (h : Settled s) : settle s = s := by
  unfold settle
  cases dueWork s with
  | zero => rfl
  | succ n => simp only [settleFor]; rw [show nextDue s = none from h]

/-- What every due thing keeps, `settle` keeps. -/
theorem settle_keeps (P : State → Prop) (h : ∀ s t, P s → nextDue s = some t → P t) (s : State) (hs : P s) :
    P (settle s) := by
  have key (n : Nat) : ∀ s, P s → P (settleFor n s) := by
    induction n with
    | zero => exact fun s hs => hs
    | succ n ih =>
      intro s hs
      unfold settleFor
      cases hd : nextDue s with
      | none => exact hs
      | some t => exact ih t (h s t hs hd)
  exact key _ s hs

/-- Nothing is due exactly in a state at rest. -/
theorem settled_iff_atRest (s : State) : Settled s ↔ AtRest s := by
  have hf : firstStart s = none ↔ ∀ p, startDue (s.pos p) = false := by
    unfold firstStart
    rw [List.find?_eq_none]
    exact ⟨fun h p => by simpa using h p (mem_allPos p), fun h p _ => by simp [h p]⟩
  have ha : arbiter s = none ↔ (s.link.transmitter = none → s.link.slot = none ∧ s.queue = []) := by
    unfold arbiter
    cases s.link.transmitter <;> cases s.link.slot <;> cases s.queue <;> simp
  unfold Settled nextDue AtRest
  rw [← ha, ← hf]
  constructor
  · intro h
    split at h
    · cases h
    · rename_i hn
      refine ⟨fun hq => ?_, ?_⟩
      · by_contra hw; exact hn ⟨hw, hq⟩
      · cases hp : firstStart s with
        | none => rw [hp] at h; exact ⟨rfl, h⟩
        | some p => rw [hp] at h; cases h
  · rintro ⟨h1, h2, h3⟩
    rw [if_neg (by tauto), h2]
    exact h3

/-- A change that leaves the queue, the wait order, the link and the starts due alone leaves a state at rest. -/
theorem AtRest.of_same {s t : State} (h : AtRest s) (hq : t.queue = s.queue) (hw : t.waitOrder = s.waitOrder)
    (hl : t.link = s.link) (hp : ∀ p, startDue (t.pos p) = startDue (s.pos p)) : AtRest t := by
  obtain ⟨h1, h2, h3⟩ := h
  refine ⟨?_, fun p => (hp p).trans (h2 p), ?_⟩
  · rw [hq, hw]; exact h1
  · rw [hl, hq]; exact h3

theorem settle_of_atRest {s : State} (h : AtRest s) : settle s = s := settle_of_settled ((settled_iff_atRest s).2 h)

theorem atRest_settle (s : State) : AtRest (settle s) := (settled_iff_atRest _).1 (settled_settle s)

end Sys2Proof.Machine
end

