-- ==== Sys2Proof/Laws/Events.lean ====
section
/-! SUPPORT. The frame of every event's own effect at a position, and of what becomes due after it. -/

namespace Sys2Proof.Machine

variable {P : Pos → Prop} {p : Pos}

/-! ### Starts -/

theorem within_askShowBeep (hp : P p) (b : Option Beep) (s : State) : Within P s (askShowBeep p b s) := by
  cases b with
  | none => exact Within.refl s
  | some b => exact within_askBeep hp b s

theorem within_activate (hp : P p) (s : State) : Within P s (activate p s) := by
  unfold activate
  split
  · exact Within.refl s
  · split
    · unfold activateShow
      simp only
      split
      · exact ((within_handContent hp _ s).trans (within_modPos hp _ _)).trans (within_askShowBeep hp _ _)
      · exact ((within_modPos hp _ _).trans (within_askShowBeep hp _ _)).trans (within_endStep hp _ _ _)
    · unfold activateWaitCard
      exact (within_modPos hp _ _).trans (within_modPos hp _ _)
    · unfold activateHoldCard
      simp only
      split
      · exact within_endStep hp _ _ _
      · split
        · exact within_endStep hp _ _ _
        · exact within_requestLatch hp _ _
    · unfold activateReleaseCard
      have h (w : Work) : Within P s (deEnergize p (s.setProgress p (.active w))) :=
        (within_modPos hp _ _).trans (within_deEnergize hp _)
      simp only
      split
      · exact h _
      · exact (h _).trans (within_endStep hp _ _ _)
    · unfold activateCollect
      exact ((within_modPos hp _ _).trans (within_modPos hp _ _)).trans (within_handEcho hp _)
    · exact within_modPos hp _ _

theorem within_startHead (hp : P p) (s : State) : Within P s (startHead p s) := by
  unfold startHead
  split
  · exact Within.refl s
  · simp only
    split
    · exact (within_modPos hp _ _).trans (within_activate hp _)
    · split
      · exact (within_modPos hp _ _).trans (within_activate hp _)
      · exact (within_modPos hp _ _).trans (within_modPos hp _ _)
      · exact (within_modPos hp _ _).trans (within_endStep hp _ _ _)

/-! ### The reader line -/

theorem within_attemptFailed (hp : P p) (flags : Word) (parity : Nat) (s : State) :
    Within P s (attemptFailed p flags parity s) := by
  unfold attemptFailed
  simp only
  split
  · exact ((within_countPos hp _ _).trans (within_modPos hp _ _)).trans (within_askBeep hp _ _)
  · exact ((within_countPos hp _ _).trans (within_modPos hp _ _)).trans (within_endStep hp _ _ _)

theorem within_holdMatch (hp : P p) (i : Fin 16) (text : List Byte) (flags : Word) (s : State) :
    Within P s (holdMatch p i text flags s) := by
  unfold holdMatch
  simp only
  split
  · exact (within_modPos hp _ _).trans (within_endStep hp _ _ _)
  · split
    · exact (within_modPos hp _ _).trans (within_endStep hp _ _ _)
    · exact (within_modPos hp _ _).trans (within_requestLatch hp _ _)

theorem within_goodPass (hp : P p) (text : List Byte) (flags : Word) (s : State) :
    Within P s (goodPass p text flags s) := by
  unfold goodPass
  simp only
  split
  · exact (within_countPos hp _ _).trans (within_endStep hp _ _ _)
  · have h := ((within_countPos hp .passesOk s).trans (within_countPos hp .screenMatches _)).trans
      (within_raise .screenMatch (some p) _)
    split
    · exact h.trans (within_endStep hp _ _ _)
    · exact h.trans (within_holdMatch hp _ _ _ _)

theorem within_passCompletes (hp : P p) (s : State) : Within P s (passCompletes p s) := by
  unfold passCompletes
  simp only
  split
  · split
    · exact (within_modPos hp _ _).trans (within_goodPass hp _ _ _)
    · exact (within_modPos hp _ _).trans (within_attemptFailed hp _ _ _)
  · exact ((within_modPos hp _ _).trans (within_countDevice _ _)).trans (within_raise _ _ _)

theorem within_passBreaks (hp : P p) (u : PassUnit) (s : State) : Within P s (passBreaks p u s) := by
  unfold passBreaks
  split
  · exact within_attemptFailed hp _ _ _
  · exact Within.refl s

theorem within_readerCharacter (hp : P p) (c : BitVec 5) (s : State) : Within P s (readerCharacter p c s) := by
  unfold readerCharacter
  split
  · exact within_modPos hp _ _
  · exact Within.refl s

theorem within_readerEnd (hp : P p) (s : State) : Within P s (readerEnd p s) := by
  unfold readerEnd
  split
  · split
    · exact within_modPos hp _ _
    · exact within_passCompletes hp _
  · exact Within.refl s

theorem within_readerFault (hp : P p) (s : State) : Within P s (readerFault p s) := by
  unfold readerFault
  split
  · simp only
    split
    · exact within_modPos hp _ _
    · exact (within_modPos hp _ _).trans (within_passBreaks hp _ _)
  · exact Within.refl s

theorem within_passGap (hp : P p) (s : State) : Within P s (passGap p s) := by
  unfold passGap
  simp only
  split
  · split
    · exact (within_modPos hp _ _).trans (within_passBreaks hp _ _)
    · exact within_modPos hp _ _
  · exact Within.refl s

theorem within_waitCardRunsOut (hp : P p) (s : State) : Within P s (waitCardRunsOut p s) := by
  unfold waitCardRunsOut
  split
  · split
    · exact within_endStep hp _ _ _
    · exact Within.refl s
  · exact Within.refl s

/-! ### The keypad line -/

theorem within_keyReport (hp : P p) (sym : Symbol) (held : Bool) (s : State) :
    Within P s (keyReport p sym held s) := by
  unfold keyReport
  split
  · exact within_offer hp _ _
  · exact ((within_countPos hp _ _).trans (within_raise _ _ _)).trans (within_askBeep hp _ _)

theorem within_sessionDone (hp : P p) (s : State) : Within P s (sessionDone p s) :=
  ((within_modPos hp _ _).trans (within_countPos hp _ _)).trans (within_endStep hp _ _ _)

theorem within_sessionFails (hp : P p) (o : StepOutcome) (s : State) : Within P s (sessionFails p o s) :=
  (within_modPos hp _ _).trans (within_endStep hp _ _ _)

theorem within_sessionTimesOut (hp : P p) (s : State) : Within P s (sessionTimesOut p s) :=
  ((within_modPos hp _ _).trans (within_countPos hp _ _)).trans (within_endStep hp _ _ _)

theorem within_editBuffer (hp : P p) (b : List (Fin 10)) (s : State) : Within P s (editBuffer p b s) :=
  (within_modPos hp _ _).trans (within_handEcho hp _)

theorem within_takeOpen (hp : P p) (sym : Symbol) (held : Bool) (s : State) : Within P s (takeOpen p sym held s) := by
  unfold takeOpen
  simp only
  split
  · exact (within_keyReport hp _ _ _).trans (within_sessionDone hp _)
  · exact (within_keyReport hp _ _ _).trans (within_sessionFails hp _ _)
  · exact within_keyReport hp _ _ _

theorem within_takeAmount (hp : P p) (sym : Symbol) (s : State) : Within P s (takeAmount p sym s) := by
  unfold takeAmount
  simp only
  repeat' split
  all_goals first
    | exact Within.refl s
    | exact within_editBuffer hp _ _
    | exact within_askBeep hp _ _
    | exact within_sessionDone hp _
    | exact within_sessionFails hp _ _

theorem within_clearConcealed (hp : P p) (s : State) : Within P s (clearConcealed p s) := by
  unfold clearConcealed
  simp only
  split
  · exact ((within_modPos hp _ _).trans (within_editBuffer hp _ _)).trans (within_sessionFails hp _ _)
  · exact (within_modPos hp _ _).trans (within_editBuffer hp _ _)

theorem within_takeConcealed (hp : P p) (sym : Symbol) (s : State) : Within P s (takeConcealed p sym s) := by
  unfold takeConcealed
  simp only
  repeat' split
  all_goals first
    | exact Within.refl s
    | exact within_editBuffer hp _ _
    | exact within_askBeep hp _ _
    | exact within_sessionDone hp _
    | exact within_sessionFails hp _ _
    | exact within_clearConcealed hp _

theorem within_routeSymbol (hp : P p) (sym : Symbol) (held : Bool) (s : State) :
    Within P s (routeSymbol p sym held s) := by
  unfold routeSymbol
  split
  · unfold takeSymbol
    simp only
    split
    · exact (within_modPos hp _ _).trans (within_takeOpen hp _ _ _)
    · exact (within_modPos hp _ _).trans (within_takeAmount hp _ _)
    · exact (within_modPos hp _ _).trans (within_takeConcealed hp _ _)
  · split
    · exact within_keyReport hp _ _ _
    · exact Within.refl s

theorem within_keyReleased (hp : P p) (code : Fin 24) (s : State) : Within P s (keyReleased p code s) := by
  unfold keyReleased
  split
  · split
    · split
      · exact (within_modPos hp _ _).trans (within_routeSymbol hp _ _ _)
      · exact Within.refl s
    · exact Within.refl s
  · exact Within.refl s

theorem within_longPressRunsOut (hp : P p) (s : State) : Within P s (longPressRunsOut p s) := by
  unfold longPressRunsOut
  split
  · split
    · exact (within_modPos hp _ _).trans (within_routeSymbol hp _ _ _)
    · exact within_modPos hp _ _
  · exact Within.refl s

theorem within_writeOver (hp : P p) (o : StepOutcome) (s : State) : Within P s (writeOver p o s) := by
  have hs (t : State) : Within P t (sendPending p t) := by
    unfold sendPending
    split
    · exact Within.refl t
    · exact within_modPos hp _ _
  unfold writeOver
  simp only
  split
  · exact ((within_modPos hp _ _).trans (within_endStep hp _ _ _)).trans (hs _)
  · exact (within_modPos hp _ _).trans (hs _)

theorem within_acknowledged (hp : P p) (s : State) : Within P s (acknowledged p s) := by
  unfold acknowledged
  split
  · exact within_writeOver hp _ _
  · exact Within.refl s

theorem within_ackRunsOut (hp : P p) (s : State) : Within P s (ackRunsOut p s) := by
  unfold ackRunsOut
  split
  · exact (within_raise _ _ _).trans (within_writeOver hp _ _)
  · exact Within.refl s

theorem within_beepGoesOut (hp : P p) (s : State) : Within P s (beepGoesOut p s) := by
  unfold beepGoesOut
  split
  · exact Within.refl s
  · exact within_modPos hp _ _

theorem within_lineError (hp : P p) (s : State) : Within P s (lineError p s) := by
  unfold lineError
  split
  · exact Within.refl s
  · exact Within.refl s
  · exact within_countPos hp _ _

theorem within_sessionTimer (hp : P p) (t : EntryUnit → Timer) (s : State) : Within P s (sessionTimer p t s) := by
  unfold sessionTimer
  simp only
  split
  · exact within_sessionTimesOut hp _
  · exact Within.refl s

/-! ### Ports, card line and step timers -/

theorem within_takeCardLine (hp : P p) (s : State) : Within P s (takeCardLine p s) := by
  unfold takeCardLine
  split
  · exact ((within_modPos hp _ _).trans (within_presenceChange hp _ _)).trans (within_startCardLeft hp _)
  · exact Within.refl s

theorem within_portReady (hp : P p) (k : PortKind) (s : State) : Within P s (portReady p k s) := by
  unfold portReady
  cases k <;> simp only [reduceCtorEq, if_true, if_false] <;> split
  · exact ((within_modPos hp _ _).trans (within_takeCardLine hp _)).trans (within_activate hp _)
  · exact (within_modPos hp _ _).trans (within_takeCardLine hp _)
  · exact (within_modPos hp _ _).trans (within_activate hp _)
  · exact within_modPos hp _ _

theorem within_portLost (hp : P p) (k : PortKind) (st : PortState) (s : State) :
    Within P s (portLost p k st s) := by
  have hr : Within P s (readerLost p s) := by
    unfold readerLost
    exact within_modPos hp _ _
  have hk : Within P s (keypadLost p s) := by
    unfold keypadLost
    exact within_modPos hp _ _
  have step (t : State) (ht : Within P s t) : Within P s (if (t.pos p).needsPort k then endStep p (portOutcome st) .nothing t else t) := by
    split
    · exact ht.trans (within_endStep hp _ _ _)
    · exact ht
  have last (t : State) (ht : Within P s t) : Within P s (if k = .reader && st != .absent then deEnergize p t else t) := by
    split
    · exact ht.trans (within_deEnergize hp _)
    · exact ht
  cases k
  · exact last _ (step _ hr)
  · exact last _ (step _ hk)

theorem within_becomeAbsent (hp : P p) (k : PortKind) (s : State) : Within P s (becomeAbsent p k s) :=
  ((within_modPos hp _ _).trans (within_raise _ _ _)).trans (within_portLost hp _ _ _)

theorem within_deviceReturns (hp : P p) (k : PortKind) (s : State) : Within P s (deviceReturns p k s) :=
  (within_raise _ _ _).trans (within_portReady hp _ _)

theorem within_seeCurrent (hp : P p) (k : PortKind) (s : State) : Within P s (seeCurrent p k s) := by
  unfold seeCurrent
  cases k <;> (try simp only) <;> split
  · split
    · exact within_portReady hp _ _
    · exact Within.refl s
  · exact Within.refl s
  · split
    · split
      · exact (within_modPos hp _ _).trans (within_portReady hp _ _)
      · exact within_modPos hp _ _
    · exact Within.refl s
  · exact Within.refl s

theorem within_currentChanges (hp : P p) (k : PortKind) (mA : Nat) (s : State) :
    Within P s (currentChanges p k mA s) := by
  unfold currentChanges
  split
  · simp only
    split
    · exact (within_modPos hp _ _).trans (within_seeCurrent hp _ _)
    · exact (within_modPos hp _ _).trans (within_modPos hp _ _)
    · exact (within_modPos hp _ _).trans (within_modPos hp _ _)
    · exact within_modPos hp _ _
  · exact Within.refl s

theorem within_inrushEnds (hp : P p) (k : PortKind) (s : State) : Within P s (inrushEnds p k s) := by
  unfold inrushEnds
  simp only
  split
  · split
    · exact (within_modPos hp _ _).trans (within_seeCurrent hp _ _)
    · exact Within.refl s
  · exact Within.refl s

theorem within_readinessRunsOut (hp : P p) (k : PortKind) (s : State) : Within P s (readinessRunsOut p k s) := by
  unfold readinessRunsOut
  simp only
  split
  · split
    · exact within_becomeAbsent hp _ _
    · exact Within.refl s
  · exact Within.refl s

theorem within_announceRunsOut (hp : P p) (s : State) : Within P s (announceRunsOut p s) := by
  unfold announceRunsOut
  simp only
  split
  · split
    · exact within_becomeAbsent hp _ _
    · exact Within.refl s
  · exact Within.refl s

theorem within_overTrips (hp : P p) (k : PortKind) (s : State) : Within P s (overTrips p k s) := by
  unfold overTrips
  split
  · exact ((within_modPos hp _ _).trans (within_raise _ _ _)).trans (within_portLost hp _ _ _)
  · exact Within.refl s

theorem within_underRunsOut (hp : P p) (k : PortKind) (s : State) : Within P s (underRunsOut p k s) := by
  unfold underRunsOut
  split
  · exact within_becomeAbsent hp _ _
  · exact Within.refl s

theorem within_returnRunsOut (hp : P p) (k : PortKind) (s : State) : Within P s (returnRunsOut p k s) := by
  unfold returnRunsOut
  simp only
  split
  · split
    · split
      · exact within_deviceReturns hp _ _
      · exact within_modPos hp _ _
    · exact Within.refl s
  · exact Within.refl s

theorem within_announced (hp : P p) (display beeper early : Bool) (s : State) :
    Within P s (announced p display beeper early s) := by
  have ht (t : State) : Within P t (announceTold p early t) := by
    unfold announceTold
    simp only
    split
    · split
      · split
        · exact (within_modPos hp _ _).trans (within_portReady hp _ _)
        · exact within_modPos hp _ _
      · exact Within.refl t
    · split
      · split
        · exact Within.refl t
        · split
          · exact (within_modPos hp _ _).trans (within_deviceReturns hp _ _)
          · exact within_modPos hp _ _
      · exact Within.refl t
    · exact Within.refl t
  unfold announced
  split
  · exact Within.refl s
  · exact Within.refl s
  · exact (within_modPos hp _ _).trans (ht _)

theorem within_cardRises (hp : P p) (s : State) : Within P s (cardRises p s) := by
  unfold cardRises
  simp only
  split
  · exact (within_modPos hp _ _).trans (within_takeCardLine hp _)
  · exact within_modPos hp _ _

theorem within_cardFalls (hp : P p) (s : State) : Within P s (cardFalls p s) := by
  have he (t : State) : Within P t (cardFallEnds p t) := by
    unfold cardFallEnds
    split
    · exact within_endStep hp _ _ _
    · exact within_endStep hp _ _ _
    · exact within_endStep hp _ _ _
    · exact Within.refl t
  unfold cardFalls
  simp only
  split
  · exact (((within_modPos hp _ _).trans (within_modPos hp _ _)).trans (within_presenceChange hp _ _)).trans (he _)
  · exact within_modPos hp _ _

theorem within_cardLeftRunsOut (hp : P p) (s : State) : Within P s (cardLeftRunsOut p s) := by
  unfold cardLeftRunsOut
  simp only
  split
  · split
    · exact within_modPos hp _ _
    · exact (within_modPos hp _ _).trans (within_raise _ _ _)
  · exact Within.refl s

theorem within_removalRunsOut (hp : P p) (s : State) : Within P s (removalRunsOut p s) := by
  unfold removalRunsOut
  split
  · split
    · exact within_endStep hp _ _ _
    · exact Within.refl s
  · exact Within.refl s

theorem within_pauseRunsOut (hp : P p) (s : State) : Within P s (pauseRunsOut p s) := by
  unfold pauseRunsOut
  split
  · split
    · exact within_endStep hp _ _ _
    · exact Within.refl s
  · exact Within.refl s

/-- POWER on takes a port: only that port's record and the power-up list change. -/
theorem within_powerOnPort (s : State) (i : PortId) (hp : P i.pos) : Within P s (powerOnPort s i) := by
  have h (t : State) (pl : List PortId) : Within P t { t with powerList := pl } :=
    within_counts t t.freeRecords pl t.energized t.noticeReport t.notices t.deviceCounters
  unfold powerOnPort
  split
  · exact (within_modPos hp _ _).trans (h _ _)
  · exact (within_modPos hp _ _).trans (h _ _)
  · exact Within.refl s

theorem within_powerOffPort (s : State) (i : PortId) (hp : P i.pos) : Within P s (powerOffPort s i) := by
  have h (t : State) (pl : List PortId) : Within P t { t with powerList := pl } :=
    within_counts t t.freeRecords pl t.energized t.noticeReport t.notices t.deviceCounters
  unfold powerOffPort
  split
  · exact Within.refl s
  · exact ((h s _).trans (within_modPos hp _ _)).trans (within_portLost hp _ _ _)

end Sys2Proof.Machine
end

