-- ==== Sys2Proof/Laws/Link.lean ====
section
/-! SUPPORT. What a request does on a free link: it is counted, handled, and its reply placed; and what settling makes of a
reply or a report on a state at rest. -/

namespace Sys2Proof.Machine

/-! ### The handler leaves the link alone -/

/-- Every handler but RESTART's leaves the link as it is. -/
theorem link_of_within {s t : State} (h : Within (fun _ => True) s t) : t.link = s.link :=
  (h fun _ _ => trivial).1.link

theorem within_foldl (f : State → PortId → State) (h : ∀ s i, Within (fun _ => True) s (f s i)) (l : List PortId)
    (s : State) : Within (fun _ => True) s (l.foldl f s) := by
  induction l generalizing s with
  | nil => exact Within.refl s
  | cons i l ih => exact (h s i).trans (ih _)

theorem link_cancelHead (p : Pos) (s : State) : (cancelHead p s).link = s.link := by
  unfold cancelHead
  split
  · rfl
  · exact link_of_within (within_endStep trivial _ _ _)
  · rfl

theorem link_applySet (t : Target) (n index : Nat) (w : Word) (s : State) : (applySet t n index w s).link = s.link := by
  unfold applySet
  split
  · simp only
    split
    · simp
    · split <;> simp
  · simp only
    split
    · exact (link_of_within (within_grantDecision _)).trans rfl
    · rfl

theorem link_wrongPasscode (s : State) : (wrongPasscode s).link = s.link := by
  unfold wrongPasscode
  simp only
  split <;> simp

theorem link_askNotice (s : State) : (askNotice s).link = s.link := link_of_within (within_askNotice s)

theorem link_beginJob (j : StoreJob) (fields : List Byte) (s : State) : (beginJob j fields s).state.link = s.link := by
  unfold beginJob refuse
  simp only
  repeat' split
  all_goals rfl

/-- What a request's own rule leaves of the link: the receive buffer, the reply slot and the transmitter stand as they were;
only RESTART marks the link as restarting (R165). -/
theorem link_ownRule (k : RequestKind) (t : Target) (payload : List Byte) (s : State) :
    (ownRule k t payload s).state.link =
      if k = .restart ∧ payload = [] then { s.link with restarting := true } else s.link := by
  have hr (c : ResultCode) : (refuse s c).state.link = s.link := rfl
  cases k
  all_goals try simp only [reduceCtorEq, false_and, if_false]
  case restart =>
    show (handleRestart payload s).state.link = _
    unfold handleRestart
    split <;> simp_all [refuse]
  case post =>
    cases t <;> try rfl
    show (handlePost _ _ _).state.link = _
    unfold handlePost
    split
    · rfl
    · simp only; split <;> rfl
  case cancel =>
    cases t <;> try rfl
    show (handleCancel _ _ _).state.link = _
    unfold handleCancel
    split
    · rfl
    · exact link_cancelHead _ _
  case resume =>
    cases t <;> try rfl
    show (handleResume _ _ _).state.link = _
    unfold handleResume
    split
    · rfl
    · simp only; split <;> rfl
  case query =>
    cases t <;> try rfl
    show (handleQuery _ _ _).state.link = _
    unfold handleQuery
    split <;> rfl
  case identify =>
    show (handleIdentify _ _).state.link = _
    unfold handleIdentify
    split <;> rfl
  case power =>
    show (handlePower _ _).state.link = _
    unfold handlePower
    repeat' split
    all_goals first
      | rfl
      | exact link_of_within (within_foldl _ (fun s i => within_powerOnPort s i trivial) _ _)
      | exact link_of_within (within_foldl _ (fun s i => within_powerOffPort s i trivial) _ _)
  case set =>
    show (handleSet _ _ _).state.link = _
    unfold handleSet
    split
    · simp only
      repeat' split
      all_goals first | rfl | exact link_applySet _ _ _ _ _
    · rfl
  case get =>
    show (handleGet _ _ _).state.link = _
    unfold handleGet
    split
    · simp only
      repeat' split
      all_goals rfl
    · rfl
  case noticeRead =>
    show (handleNoticeRead _ _).state.link = _
    unfold handleNoticeRead
    split <;> rfl
  case noticeClear =>
    show (handleNoticeClear _ _).state.link = _
    unfold handleNoticeClear
    split
    · simp only; split <;> rfl
    · rfl
  case noticeControl =>
    show (handleNoticeControl _ _).state.link = _
    unfold handleNoticeControl controlNotices
    split
    · simp only
      repeat' split
      all_goals first | rfl | exact link_askNotice _
    · rfl
  case counters =>
    show (handleCounters _ _ _).state.link = _
    unfold handleCounters clearCounters
    repeat' split
    all_goals rfl
  case screenLoad =>
    show (handleScreenLoad _ _).state.link = _
    unfold handleScreenLoad
    repeat' split
    all_goals rfl
  case screenDrop =>
    show (handleScreenDrop _ _).state.link = _
    unfold handleScreenDrop
    repeat' split
    all_goals rfl
  case screenList =>
    show (handleScreenList _ _).state.link = _
    unfold handleScreenList
    repeat' split
    all_goals rfl
  case unlock =>
    show (handleUnlock _ _).state.link = _
    unfold handleUnlock
    repeat' split
    all_goals first | rfl | exact link_wrongPasscode _
  case lock =>
    show (handleLock _ _).state.link = _
    unfold handleLock
    split <;> rfl
  case storeEnable =>
    show (handleStoreEnable _ _).state.link = _
    unfold handleStoreEnable
    simp only
    repeat' split
    all_goals rfl
  case storeWrite =>
    show (handleStoreWrite _ _).state.link = _
    unfold handleStoreWrite refuseClearing
    split
    · simp only
      repeat' split
      all_goals first | rfl | exact link_beginJob _ _ _
    · rfl
  case storeLock =>
    show (handleStoreLock _ _).state.link = _
    unfold handleStoreLock refuseClearing
    split
    · rfl
    · exact link_beginJob _ _ _
  case storeRead =>
    show (handleStoreRead _ _).state.link = _
    unfold handleStoreRead
    split
    · simp only
      repeat' split
      all_goals rfl
    · rfl
  case storeStatus =>
    show (handleStoreStatus _ _).state.link = _
    unfold handleStoreStatus
    split <;> rfl

end Sys2Proof.Machine
end

