-- ==== Sys2Proof/Laws/Rest.lean ====
section
/-! SUPPORT. What settling makes of a reply, a report or a raised notice on a state at rest, and what a request does on a
free link. -/

namespace Sys2Proof.Machine

/-! ### Settling one thing at a time -/

theorem settleFor_settled (n : Nat) {s : State} (h : nextDue s = none) : settleFor n s = s := by
  cases n with
  | zero => rfl
  | succ n => simp only [settleFor]; rw [h]

theorem settleFor_enough (n m : Nat) (s : State) (hn : dueWork s ≤ n) (hm : dueWork s ≤ m) :
    settleFor n s = settleFor m s := by
  induction n generalizing m s with
  | zero =>
    have : nextDue s = none := by
      cases h : nextDue s with
      | none => rfl
      | some t => have := dueWork_nextDue h; omega
    rw [settleFor_settled _ this, settleFor_settled _ this]
  | succ n ih =>
    cases h : nextDue s with
    | none => rw [settleFor_settled _ h, settleFor_settled _ h]
    | some t =>
      have hd := dueWork_nextDue h
      cases m with
      | zero => omega
      | succ m => simp only [settleFor, h]; exact ih m t (by omega) (by omega)

/-- The first thing due, then the rest. -/
theorem settle_next {s t : State} (h : nextDue s = some t) : settle s = settle t := by
  have hd := dueWork_nextDue h
  unfold settle
  cases hs : dueWork s with
  | zero => omega
  | succ n => simp only [settleFor, h]; exact settleFor_enough _ _ _ (by omega) (Nat.le_refl _)

theorem nextDue_admit {s : State} (hw : s.waitOrder ≠ []) (hq : s.queue.length < Config.queueLimit) :
    nextDue s = some (admitHead s) := by
  unfold nextDue; rw [if_pos ⟨hw, hq⟩]

theorem nextDue_arbiter {s : State} (hw : s.queue.length < Config.queueLimit → s.waitOrder = [])
    (hp : ∀ p, startDue (s.pos p) = false) : nextDue s = arbiter s := by
  have hf : firstStart s = none := by
    unfold firstStart
    rw [List.find?_eq_none]
    exact fun p _ => by simp [hp p]
  unfold nextDue
  rw [if_neg (by tauto), hf]

/-! ### Replies -/

/-- A reply placed on a state at rest is being sent, or waits. -/
theorem settle_slot {s : State} (h : AtRest s) (f : Frame) :
    settle { s with link := { s.link with slot := some f } } = withReply f s := by
  obtain ⟨h1, h2, h3⟩ := h
  unfold withReply
  cases ht : s.link.transmitter with
  | none =>
    have hd : nextDue { s with link := { s.link with slot := some f } } =
        some { s with link := { s.link with slot := none, transmitter := some f } } :=
      (nextDue_arbiter (s := { s with link := { s.link with slot := some f } }) h1 h2).trans (by simp [arbiter, ht])
    obtain ⟨h4, -⟩ := h3 ht
    refine (settle_next hd).trans
      ((settle_of_atRest (s := { s with link := { s.link with slot := none, transmitter := some f } })
        ⟨h1, h2, fun e => by simp at e⟩).trans ?_)
    rw [if_pos rfl, ← h4]
  | some g =>
    rw [if_neg (by simp)]
    exact settle_of_atRest ⟨h1, h2, fun e => by simp [ht] at e⟩

/-! ### A request on a free link -/

theorem counted_rest {s : State} (h : AtRest s) : AtRest (counted s) :=
  h.of_same rfl rfl rfl fun _ => rfl

theorem link_answer (f : Frame) (s : State) :
    (answer f s).state.link = { s.link with restarting := (answer f s).state.link.restarting } := by
  unfold answer
  split
  · rfl
  · split
    · rfl
    · split
      · rfl
      · rw [link_ownRule]; split <;> rfl

theorem buffer_takeFrame (f : Frame) (s : State) : (takeFrame f s).link.buffer = s.link.buffer := by
  have h := link_answer f s
  unfold takeFrame
  simp only
  split
  · simp only; rw [h]
  · rw [link_countDevice]; simp only; rw [h]

/-- On a free link a request is counted, handled and its reply placed; then what is due is done. -/
theorem sendRequest_free {s : State} (h : LinkFree s) (f : Frame) (hf : f.payload.length ≤ Config.payloadLimit) :
    sendRequest f s = settle (takeFrame f (counted s)) := by
  have hh : s.link.hunt = s.link := by
    unfold Link.hunt
    rw [← h.rx, ← h.partialEmpty, ← h.gapStopped]
  have ha : acceptFrame f s = { counted s with link := { s.link with buffer := [f] } } := by
    unfold acceptFrame
    rw [if_pos (by rw [h.bufferEmpty]; decide), h.bufferEmpty]
    exact countDevice_low .framesOk { s with link := { s.link with buffer := [f] } } h.okLow
  have hu : sendRequest f s = serve (acceptFrame f s) := by
    unfold sendRequest
    rw [if_pos ⟨h.rx, hf⟩, hh]
  rw [hu, ha]
  have hd : takeDue { counted s with link := { s.link with buffer := [f] } } = takeFrame f (counted s) := by
    have ht : takeable { counted s with link := { s.link with buffer := [f] } } = some f := by
      simp [takeable, h.slotEmpty, h.notRestarting]
    have hl : { s.link with buffer := [] } = s.link := by rw [← h.bufferEmpty]
    unfold takeDue
    rw [ht]
    show takeFrame f { counted s with link := { s.link with buffer := [] } } = _
    rw [hl]
    rfl
  unfold serve
  rw [hd]
  have hb : (takeFrame f (counted s)).link.buffer = [] := by
    rw [buffer_takeFrame]; exact h.bufferEmpty
  show serveFor (takeFrame f (counted s)).link.buffer.length (takeFrame f (counted s)) = _
  rw [hb]
  rfl

/-- A request answered OK whose effect leaves nothing due: the effect, and the reply. -/
theorem sendRequest_ok {s t : State} (h : LinkFree s) (f : Frame) (hf : f.payload.length ≤ Config.payloadLimit)
    {fields : List Byte} (ha : answer f (counted s) = { state := t, code := .ok, fields := fields }) (ht : AtRest t) :
    sendRequest f s = withReply { kind := replyKind f.kind, pos := f.pos, tag := f.tag, payload := 0 :: fields } t := by
  rw [sendRequest_free h f hf]
  unfold takeFrame
  rw [ha]
  simp only [if_true]
  exact settle_slot ht _

/-- A request refused whose effect leaves nothing due: the refusal is counted, and the reply. -/
theorem sendRequest_refused {s t : State} (h : LinkFree s) (f : Frame) (hf : f.payload.length ≤ Config.payloadLimit)
    {c : ResultCode} {fields : List Byte} (hc : c ≠ .ok)
    (ha : answer f (counted s) = { state := t, code := c, fields := fields }) (ht : AtRest t)
    (hd : t.deviceCounters = (counted s).deviceCounters) :
    sendRequest f s =
      withReply { kind := replyKind f.kind, pos := f.pos, tag := f.tag, payload := c.code :: fields } (countedRefusal t) := by
  rw [sendRequest_free h f hf]
  unfold takeFrame
  rw [ha]
  simp only [if_neg hc]
  rw [countDevice_low]
  · exact settle_slot (s := countedRefusal t) (ht.of_same rfl rfl rfl fun _ => rfl) _
  · show t.deviceCounters[DeviceCounter.requestsRefused.idx] < _
    rw [hd]
    have := h.refusedLow
    simpa [counted, DeviceCounter.idx] using this

/-! ### Reports and notices -/

/-- A report at the end of the queue of a state at rest that has room. -/
theorem settle_queue {s : State} (h : AtRest s) (hq : s.queue.length < Config.queueLimit) {r : Report} (hr : r ≠ .notice) :
    settle { s with queue := s.queue ++ [r] } = withReport r s := by
  obtain ⟨h1, h2, h3⟩ := h
  have hw := h1 hq
  unfold withReport
  cases ht : s.link.transmitter with
  | none =>
    obtain ⟨h4, h5⟩ := h3 ht
    have hd : nextDue { s with queue := s.queue ++ [r] } =
        some { s with link := { s.link with transmitter := some (r.frame []) } } :=
      (nextDue_arbiter (s := { s with queue := s.queue ++ [r] }) (fun _ => hw) h2).trans (by
        simp [arbiter, ht, h4, h5, handReport, hr])
    rw [if_pos rfl]
    exact (settle_next hd).trans (settle_of_atRest ⟨fun _ => hw, h2, fun e => by simp at e⟩)
  | some g =>
    rw [if_neg (by simp)]
    exact settle_of_atRest ⟨fun _ => hw, h2, fun e => by simp [ht] at e⟩

/-- A report offered by a position that had none waiting is admitted at once where the queue has room. -/
theorem settle_offer {s : State} (hw : s.waitOrder = []) (hq : s.queue.length < Config.queueLimit) {p : Pos}
    (he : (s.pos p).waiting = []) (r : Report) :
    settle (offer p [r] s) =
      settle (let t := { s with queue := s.queue ++ [r.filled (s.pos p).entry] }
        if r.freesRecord then freeHead p t else t) := by
  have ho : offer p [r] s =
      { s.modPos p fun v => { v with waiting := v.waiting ++ [r] } with waitOrder := [.position p] } := by
    unfold offer; simp [hw, joinOrder]
  have hd : nextDue (offer p [r] s) = some (admitHead (offer p [r] s)) :=
    nextDue_admit (by rw [ho]; simp) (by rw [ho]; exact hq)
  have hs : s.modPos p (fun v => { v with waiting := [] }) = s :=
    State.modPos_id s p _ (by simp [← he])
  rw [settle_next hd]
  congr 1
  have hp : ({ s.modPos p (fun v => { v with waiting := v.waiting ++ [r] }) with waitOrder := [Producer.position p] } : State).pos p
      = { s.pos p with waiting := [r] } := by
    show (s.modPos p (fun v => { v with waiting := v.waiting ++ [r] })).pos p = _
    simp [he]
  rw [ho]
  unfold admitHead
  simp only
  unfold admitPosition
  rw [hp]
  simp only [List.isEmpty_nil, if_true]
  have hm : (({ (s.modPos p (fun v => { v with waiting := v.waiting ++ [r] })) with
      waitOrder := [], queue := s.queue ++ [r.filled (s.pos p).entry] } : State).modPos p fun v => { v with waiting := [] })
      = { s with queue := s.queue ++ [r.filled (s.pos p).entry] } := by
    refine State.ext_pos (fun q => ?_) ?_
    · rw [State.pos_modPos]
      by_cases e : q = p
      · subst e
        rw [if_pos rfl]
        show { (s.modPos q (fun v => { v with waiting := v.waiting ++ [r] })).pos q with waiting := [] } = s.pos q
        simp [← he]
      · rw [if_neg e]
        show (s.modPos p (fun v => { v with waiting := v.waiting ++ [r] })).pos q = s.pos q
        simp [e]
    · simp [hw, State.modPos, State.setPos]
  have hm' : (({ (s.modPos p (fun v => { v with waiting := v.waiting ++ [r] })) with
      queue := s.queue ++ [r.filled (s.pos p).entry], waitOrder := [] } : State).modPos p fun v => { v with waiting := [] })
      = { s with queue := s.queue ++ [r.filled (s.pos p).entry] } := hm
  simp only [State.queue_modPos]
  rw [hm']

theorem mem_allClasses (i : Fin 15) : i ∈ allClasses := by
  revert i; decide

/-- A class raised on a state at rest that has room. -/
theorem settle_raise {s : State} (h : AtRest s) (hq : s.queue.length < Config.queueLimit) (c : NoticeClass) (p : Option Pos) :
    settle (raise c p s) = withNotice c p s := by
  obtain ⟨h1, h2, h3⟩ := h
  have hw := h1 hq
  have rest (ns : Vector ClassRecord 15) : AtRest { s with notices := ns } := ⟨h1, h2, h3⟩
  unfold raise withNotice raisedNotices noticeAsked
  simp only
  generalize hns : s.notices.set c.idx { s.notice c with pending := true, positions := raisedSet (s.notice c) p } = ns
  by_cases he : (s.notice c).enabled = true
  case neg =>
    rw [if_neg he, if_neg he, if_neg (by simp [he])]
    exact settle_of_atRest ⟨h1, h2, h3⟩
  case pos =>
    rw [if_pos he, if_pos he]
    by_cases hk : ((!(s.notice c).pending || raisedSet (s.notice c) p != (s.notice c).positions) && !(s.notice c).muted) = true
    · by_cases ha : s.noticeReport = .absent
      · rw [if_pos hk, if_pos (by simp only [he, ha, Bool.true_and, decide_true, Bool.and_true]; exact hk)]
        have hask : askNotice { s with notices := ns } =
            { s with notices := ns, noticeReport := .waiting, waitOrder := [.notices] } := by
          unfold askNotice
          simp [ha, hw, joinOrder]
        rw [hask]
        have hd : nextDue { s with notices := ns, noticeReport := .waiting, waitOrder := [.notices] } =
            some { s with notices := ns, noticeReport := .queued, queue := s.queue ++ [.notice] } := by
          refine (nextDue_admit (s := { s with notices := ns, noticeReport := .waiting, waitOrder := [.notices] })
            (by simp) hq).trans ?_
          simp [admitHead, hw]
        refine (settle_next hd).trans ?_
        cases ht : s.link.transmitter with
        | none =>
          obtain ⟨h4, h5⟩ := h3 ht
          rw [if_pos rfl]
          have hne : (noticeClasses ns).isEmpty = false := by
            have hm : c.idx ∈ noticeClasses ns := by
              unfold noticeClasses
              rw [List.mem_filter]
              refine ⟨mem_allClasses _, ?_⟩
              have hmu : (s.notice c).muted = false := by
                cases hmm : (s.notice c).muted <;> simp_all
              rw [← hns]
              simp [hmu]
            cases hl : noticeClasses ns with
            | nil => rw [hl] at hm; cases hm
            | cons _ _ => rfl
          have hd2 : nextDue { s with notices := ns, noticeReport := .queued, queue := s.queue ++ [.notice] } =
              some { s with notices := ns, link := { s.link with transmitter := some (Report.notice.frame (noticePayload ns)) } } := by
            refine (nextDue_arbiter (s := { s with notices := ns, noticeReport := .queued, queue := s.queue ++ [.notice] })
              (fun _ => hw) h2).trans ?_
            simp [arbiter, ht, h4, h5, handReport, hne, ha]
          exact (settle_next hd2).trans (settle_of_atRest ⟨fun _ => hw, h2, fun e => by simp at e⟩)
        | some g =>
          rw [if_neg (by simp)]
          exact settle_of_atRest ⟨fun _ => hw, h2, fun e => by simp [ht] at e⟩
      · rw [if_pos hk, if_neg (by simp [ha])]
        have hask : askNotice { s with notices := ns } = { s with notices := ns } := by
          unfold askNotice
          rw [if_neg ha]
        rw [hask]
        exact settle_of_atRest (rest ns)
    · rw [if_neg hk, if_neg (fun e => hk (by simp only [he, Bool.true_and] at e; exact (Bool.and_eq_true_iff.1 e).1))]
      exact settle_of_atRest (rest ns)

/-! ### The end of a position's one step -/

theorem entry_closed (e : EntryUnit) :
    e.closeCollecting.wipeFinished = if e.state = .closed then e else e.close := by
  unfold EntryUnit.closeCollecting EntryUnit.wipeFinished
  cases h : e.state <;> simp [h, EntryUnit.close]

theorem atRest_stepFreed {s : State} (h : AtRest s) (p : Pos) (b : Bool) : AtRest (stepFreed p b s) := by
  obtain ⟨h1, h2, h3⟩ := h
  refine ⟨h1, fun q => ?_, h3⟩
  unfold stepFreed
  rw [State.pos_modPos]
  split
  · cases b <;> simp [startDue]
  · exact h2 q

theorem pos_stepFreed (p q : Pos) (b : Bool) (s : State) :
    (stepFreed p b s).pos q =
      if q = p then
        { s.pos p with
          chain := []
          chainState := if b then .halted else .idle
          pass := (s.pos p).pass.disarm
          entry := if (s.pos p).entry.state = .closed then (s.pos p).entry else (s.pos p).entry.close
          latchState := if (s.pos p).latchState = .waiting then .off else (s.pos p).latchState
          cardLeftTimer :=
            if (s.pos p).cardPresent then .running (s.settings.live.leftCard.toNat * 1000) else (s.pos p).cardLeftTimer }
      else s.pos q := by
  unfold stepFreed
  rw [State.pos_modPos]
  by_cases h : q = p
  · subst h; rw [if_pos rfl, if_pos rfl]; rfl
  · rw [if_neg h, if_neg h]; rfl

/-- The record of a position's one step is freed once it has ended. -/
theorem freeHead_completing {s : State} {p : Pos} {r : StepRecord} (hc : (s.pos p).chain = [r]) (o : StepOutcome)
    (d : OutcomeData) :
    freeHead p ((stopWork p s).setProgress p (.completing o d false)) =
      stepFreed p { r with progress := some (.completing o d false) : StepRecord }.halts s := by
  have h1 : (((stopWork p s).setProgress p (.completing o d false)).pos p).chain =
      [{ r with progress := some (.completing o d false) }] :=
    chain_setProgress _ (by rw [chain_stopWork, hc])
  unfold freeHead
  rw [h1]
  simp only
  generalize hb : ({ r with progress := some (.completing o d false) } : StepRecord).halts = b
  have hcs : freedChainState { r with progress := some (.completing o d false) } [] = if b then .halted else .idle := by
    unfold freedChainState; rw [hb]; simp
  rw [hcs, if_neg (by cases b <;> simp)]
  -- The state whose card-left timer may start, written as one write of the position.
  let base : State := { s with freeRecords := s.freeRecords + 1, latchWait := s.latchWait.filter (· ≠ p) }
  let g (v : Position) : Position :=
    { v with
      chain := []
      chainState := if b then .halted else .idle
      pass := v.pass.disarm
      entry := if v.entry.state = .closed then v.entry else v.entry.close
      latchState := if v.latchState = .waiting then .off else v.latchState }
  have hx : State.modPos
      { (stopWork p s).setProgress p (.completing o d false) with
        freeRecords := ((stopWork p s).setProgress p (.completing o d false)).freeRecords + 1 } p
      (fun v => { v with chain := [], chainState := if b then .halted else .idle, entry := v.entry.wipeFinished }) =
      base.modPos p g := by
    refine State.ext_pos (fun q => ?_) rfl
    by_cases e : q = p
    · subst e
      rw [State.pos_modPos_self, State.pos_modPos_self]
      show (fun v : Position => ({ v with chain := [], chainState := if b then .halted else .idle, entry := v.entry.wipeFinished } : Position))
        (((stopWork q s).setProgress q (.completing o d false)).pos q) = g (s.pos q)
      have hq : ({ s with latchWait := s.latchWait.filter (· ≠ q) } : State).pos q = s.pos q := rfl
      simp only [State.setProgress_eq, State.pos_modPos_self, stopWork, hq, g, ← entry_closed, Position.setProgress, hc]
    · rw [State.pos_modPos_ne _ e, State.pos_modPos_ne _ e]
      show ((stopWork p s).setProgress p _).pos q = s.pos q
      rw [State.setProgress_eq, State.pos_modPos_ne _ e, pos_stopWork_ne e]
  rw [hx]
  unfold startCardLeft stepFreed
  simp only [State.pos_modPos_self]
  have hi : (g (s.pos p)).inFlight = false := rfl
  have hp : base.pos p = s.pos p := rfl
  rw [hp, hi]
  cases hcp : (s.pos p).cardPresent with
  | true =>
    rw [if_pos (by rfl)]
    rw [State.modPos_modPos]
    refine State.ext_pos (fun q => ?_) rfl
    by_cases e : q = p
    · subst e
      rw [State.pos_modPos_self, State.pos_modPos_self]
      simp [g, hcp, base]
    · rw [State.pos_modPos_ne _ e, State.pos_modPos_ne _ e]
  | false =>
    rw [if_neg (by simp)]
    refine State.ext_pos (fun q => ?_) rfl
    by_cases e : q = p
    · subst e
      rw [State.pos_modPos_self, State.pos_modPos_self]
      simp [g, hcp, base]
    · rw [State.pos_modPos_ne _ e, State.pos_modPos_ne _ e]

theorem startCardLeft_withQueue (p : Pos) (q : List Report) (s : State) :
    startCardLeft p { s with queue := q } = { startCardLeft p s with queue := q } := by
  have hp : ({ s with queue := q } : State).pos p = s.pos p := rfl
  unfold startCardLeft
  rw [hp]
  simp only
  split <;> rfl

theorem freeHead_withQueue (p : Pos) (q : List Report) (s : State) :
    freeHead p { s with queue := q } = { freeHead p s with queue := q } := by
  have hp : ({ s with queue := q } : State).pos p = s.pos p := rfl
  unfold freeHead
  rw [hp]
  cases (s.pos p).chain with
  | nil => rfl
  | cons r rest =>
    simp only
    split
    · rfl
    · exact startCardLeft_withQueue p q (State.modPos { s with freeRecords := s.freeRecords + 1 } p fun v =>
        { v with chain := rest, chainState := freedChainState r rest, entry := v.entry.wipeFinished })

/-- The one step of a position ends with one report: the report is admitted, and the record freed. -/
theorem settle_endStep_queue {s : State} (hw : s.waitOrder = []) (hq : s.queue.length < Config.queueLimit) {p : Pos}
    (he : (s.pos p).waiting = []) {r : StepRecord} (hc : (s.pos p).chain = [r]) {o : StepOutcome} {d : OutcomeData}
    (hd : r.reportDue o = true) {rep : Report} (hr : completionReports p r o d = [rep]) (hf : rep.freesRecord = true) :
    settle (endStep p o d s) =
      settle { stepFreed p { r with progress := some (.completing o d false) : StepRecord }.halts s with
        queue := s.queue ++ [rep.filled (s.pos p).entry.closeCollecting] } := by
  have hx : endStep p o d s = offer p [rep] ((stopWork p s).setProgress p (.completing o d false)) := by
    unfold endStep
    rw [hc]
    simp only [hd, if_true, hr]
  have hw : ((stopWork p s).setProgress p (.completing o d false)).waitOrder = [] := hw
  have hp : ((stopWork p s).setProgress p (.completing o d false)).pos p =
      { s.pos p with
        pass := (s.pos p).pass.disarm
        entry := (s.pos p).entry.closeCollecting
        latchState := if (s.pos p).latchState = .waiting then .off else (s.pos p).latchState
        chain := [{ r with progress := some (.completing o d false) }] } := by
    by_cases hl : (s.pos p).latchState = .waiting <;> simp [stopWork, Position.setProgress, hc, hl]
  rw [hx, settle_offer hw hq (by rw [hp]; exact he)]
  simp only [hf, if_true]
  rw [freeHead_withQueue, freeHead_completing hc, hp]
  rfl

theorem filled_ne_notice {rep : Report} (hf : rep.freesRecord = true) (e : EntryUnit) : rep.filled e ≠ .notice := by
  cases rep with
  | stepDone p' tag kind o' dat b => cases b <;> simp [Report.filled]
  | notice => simp [Report.freesRecord] at hf
  | _ => simp [Report.filled]

/-- The same on a state at rest. -/
theorem settle_endStep {s : State} (h : AtRest s) (hq : s.queue.length < Config.queueLimit) {p : Pos}
    (he : (s.pos p).waiting = []) {r : StepRecord} (hc : (s.pos p).chain = [r]) {o : StepOutcome} {d : OutcomeData}
    (hd : r.reportDue o = true) {rep : Report} (hr : completionReports p r o d = [rep]) (hf : rep.freesRecord = true) :
    settle (endStep p o d s) =
      withReport (rep.filled (s.pos p).entry.closeCollecting)
        (stepFreed p { r with progress := some (.completing o d false) : StepRecord }.halts s) := by
  rw [settle_endStep_queue (h.1 hq) hq he hc hd hr hf]
  exact settle_queue (atRest_stepFreed h p _) hq (filled_ne_notice hf _)

/-- The one step of a position ends with no report due: its record is freed at once. -/
theorem settle_endStep_silent {s : State} (h : AtRest s) {p : Pos} {r : StepRecord} (hc : (s.pos p).chain = [r])
    {o : StepOutcome} {d : OutcomeData} (hd : r.reportDue o = false) :
    settle (endStep p o d s) = stepFreed p { r with progress := some (.completing o d false) : StepRecord }.halts s := by
  have hx : endStep p o d s = freeHead p ((stopWork p s).setProgress p (.completing o d false)) := by
    unfold endStep
    rw [hc]
    simp [hd]
  rw [hx, freeHead_completing hc]
  exact settle_of_atRest (atRest_stepFreed h p _)

/-- A raising writes the class records, and asks for a NOTICE report where one is asked for (R145, R146). -/
theorem raise_eq (c : NoticeClass) (p : Option Pos) (s : State) :
    raise c p s =
      if noticeAsked c p s then askNotice { s with notices := raisedNotices c p s }
      else { s with notices := raisedNotices c p s } := by
  unfold raise noticeAsked raisedNotices
  simp only
  by_cases he : (s.notice c).enabled = true
  · simp only [he, if_true, Bool.true_and]
    by_cases ha : s.noticeReport = .absent
    · rw [ha]; simp only [decide_true, Bool.and_true]
    · simp only [ha, decide_false, Bool.and_false, Bool.false_eq_true, if_false]
      split
      · unfold askNotice
        rw [if_neg ha]
      · rfl
  · simp [he]

/-! ### A reply and a report in one event -/

/-- A reply and a report that meet on a state at rest with room: the reply goes first (R167). -/
theorem settle_slot_queue {s : State} (h : AtRest s) (hq : s.queue.length < Config.queueLimit) (f : Frame) (r : Report) :
    settle { s with link := { s.link with slot := some f }, queue := s.queue ++ [r] } =
      { withReply f s with queue := s.queue ++ [r] } := by
  obtain ⟨h1, h2, h3⟩ := h
  have hw := h1 hq
  unfold withReply
  cases ht : s.link.transmitter with
  | none =>
    obtain ⟨h4, h5⟩ := h3 ht
    have hd : nextDue { s with link := { s.link with slot := some f }, queue := s.queue ++ [r] } =
        some { s with link := { s.link with slot := none, transmitter := some f }, queue := s.queue ++ [r] } :=
      (nextDue_arbiter (s := { s with link := { s.link with slot := some f }, queue := s.queue ++ [r] }) (fun _ => hw) h2).trans
        (by simp [arbiter, ht])
    refine (settle_next hd).trans
      ((settle_of_atRest
        (s := { s with link := { s.link with slot := none, transmitter := some f }, queue := s.queue ++ [r] })
        ⟨fun _ => hw, h2, fun e => by simp at e⟩).trans ?_)
    rw [if_pos rfl, ← h4]
  | some g =>
    rw [if_neg (by simp)]
    exact settle_of_atRest ⟨fun _ => hw, h2, fun e => by simp [ht] at e⟩

/-- A reply and a NOTICE report asked for in one event, on a state at rest with room that holds no NOTICE report. -/
theorem settle_slot_askNotice {s : State} (h : AtRest s) (hq : s.queue.length < Config.queueLimit)
    (ha : s.noticeReport = .absent) (f : Frame) :
    settle { askNotice s with link := { s.link with slot := some f } } =
      { withReply f s with queue := s.queue ++ [.notice], noticeReport := .queued } := by
  have hw := h.1 hq
  have hask : askNotice s = { s with noticeReport := .waiting, waitOrder := [.notices] } := by
    unfold askNotice
    simp [ha, hw, joinOrder]
  have hd : nextDue { askNotice s with link := { s.link with slot := some f } } =
      some { s with noticeReport := .queued, link := { s.link with slot := some f }, queue := s.queue ++ [.notice] } := by
    rw [hask]
    refine (nextDue_admit
      (s := { s with noticeReport := .waiting, waitOrder := [.notices], link := { s.link with slot := some f } })
      (by simp) hq).trans ?_
    simp [admitHead, hw]
  refine (settle_next hd).trans ?_
  refine (settle_slot_queue (s := { s with noticeReport := .queued }) (h.of_same rfl rfl rfl fun _ => rfl) hq f .notice).trans ?_
  unfold withReply
  split <;> rfl

/-- The one step of a position ends in the event of a request: the reply goes first. -/
theorem settle_slot_endStep {s : State} (hw : s.waitOrder = []) (hq : s.queue.length < Config.queueLimit) {p : Pos}
    (he : (s.pos p).waiting = []) {r : StepRecord} (hc : (s.pos p).chain = [r]) {o : StepOutcome} {d : OutcomeData}
    (hd : r.reportDue o = true) {rep : Report} (hr : completionReports p r o d = [rep]) (hf : rep.freesRecord = true)
    (f : Frame) (hfill : rep.filled (s.pos p).entry.closeCollecting = rep)
    (hrest : AtRest (stepFreed p { r with progress := some (.completing o d false) : StepRecord }.halts s)) :
    settle (endStep p o d { s with link := { s.link with slot := some f } }) =
      { withReply f (stepFreed p { r with progress := some (.completing o d false) : StepRecord }.halts s) with
        queue := s.queue ++ [rep] } := by
  have h := settle_endStep_queue (s := { s with link := { s.link with slot := some f } }) hw hq he hc hd hr hf
  refine h.trans ?_
  have hp : ({ s with link := { s.link with slot := some f } } : State).pos p = s.pos p := rfl
  rw [hp, hfill]
  exact settle_slot_queue hrest hq f rep

end Sys2Proof.Machine
end

