-- ==== Sys2Proof/Laws/Requests.lean ====
section
/-! SUPPORT. The way of a request row to its own rule: what exec does with it, the order of the checks of R160, and the two
outcomes on a free link. -/

namespace Sys2Proof.Machine

/-- A request row sends its frame. -/
theorem exec_request {c : Instr} {f : Frame} (h : c.requestFrame = some f) (s : State) :
    exec c s = .next (sendRequest f s) := by
  cases c <;> simp only [Instr.requestFrame, Option.some.injEq, reduceCtorEq] at h <;> subst h <;> rfl

theorem requestKind_code (k : RequestKind) : requestKind k.code = some k := by cases k <;> decide

theorem requestKind_unknown (k : Byte) : Sys2Proof.isRequestKind k = false → requestKind k = none := by revert k; decide

theorem replyKind_code (k : RequestKind) : replyKind k.code = k.code + 0x80 := by cases k <;> decide

theorem target_device (v : Variant) (k : RequestKind) (h : k ∉ [RequestKind.post, .cancel, .resume, .query]) :
    target v k.scope 0xFF = .device := by
  unfold target
  rw [if_neg (by decide), if_pos rfl]
  cases k <;> simp at h <;> rfl

theorem target_position (v : Variant) (k : RequestKind) {pos : Byte} (hp : pos.toNat < 8)
    (h : k ∈ [RequestKind.post, .cancel, .resume, .query, .set, .get, .counters]) :
    target v k.scope pos = .position (positionOf v pos) := by
  unfold target
  rw [if_pos hp]
  cases k <;> simp at h <;> rfl

/-- A request whose POS suits its scope, once the start is complete, comes to its own rule (R160). -/
theorem answer_ownRule (k : RequestKind) (pos tag : Byte) (pl : List Byte) {s : State}
    (h : s.link.startComplete = true ∨ k = .identify) (hb : target s.variant k.scope pos ≠ .bad) :
    answer (request k pos tag pl) s = ownRule k (target s.variant k.scope pos) pl s := by
  unfold answer request
  simp only [requestKind_code]
  rw [if_neg (by rcases h with h | h <;> simp [h])]

/-- A request of device scope on a ready link comes to its own rule. -/
theorem answer_device (k : RequestKind) (tag : Byte) (pl : List Byte) {s : State} (h : LinkReady s)
    (hk : k ∉ [RequestKind.post, .cancel, .resume, .query]) :
    answer (request k 0xFF tag pl) (counted s) = ownRule k .device pl (counted s) := by
  have ht := target_device (counted s).variant k hk
  rw [answer_ownRule _ _ _ _ (Or.inl (show (counted s).link.startComplete = true from h.started)) (by rw [ht]; simp), ht]

/-- A request at a position on a ready link comes to its own rule there. -/
theorem answer_position (k : RequestKind) {pos : Byte} (tag : Byte) (pl : List Byte) {s : State} (h : LinkReady s)
    (hp : pos.toNat < 8) (hk : k ∈ [RequestKind.post, .cancel, .resume, .query, .set, .get, .counters]) :
    answer (request k pos tag pl) (counted s) = ownRule k (.position (positionOf s.variant pos)) pl (counted s) := by
  have ht := target_position (counted s).variant k hp hk
  rw [answer_ownRule _ _ _ _ (Or.inl (show (counted s).link.startComplete = true from h.started)) (by rw [ht]; simp), ht]
  rfl

/-- A request that its rule refuses with nothing changed. -/
theorem sendRequest_refuse (k : RequestKind) (pos tag : Byte) (pl : List Byte) {s : State} (h : LinkFree s)
    (hl : pl.length ≤ Config.payloadLimit) {c : ResultCode} (hc : c ≠ .ok)
    (ha : answer (request k pos tag pl) (counted s) = refuse (counted s) c) :
    sendRequest (request k pos tag pl) s = withReply (refusalReply k pos tag c) (countedRefusal (counted s)) := by
  rw [sendRequest_refused h _ hl hc ha (counted_rest h.rest) rfl]
  simp only [request, replyKind_code, refusalReply]

/-- A request answered OK with its effect at rest. -/
theorem sendRequest_answer (k : RequestKind) (pos tag : Byte) (pl : List Byte) {s t : State} (h : LinkFree s)
    (hl : pl.length ≤ Config.payloadLimit) {fields : List Byte}
    (ha : answer (request k pos tag pl) (counted s) = { state := t, code := .ok, fields := fields }) (ht : AtRest t) :
    sendRequest (request k pos tag pl) s = withReply (okReply k pos tag fields) t := by
  rw [sendRequest_ok h _ hl ha ht]
  simp only [request, replyKind_code, okReply]

/-- A request answered OK whose effect may leave something due. -/
theorem sendRequest_settles (k : RequestKind) (pos tag : Byte) (pl : List Byte) {s t : State} (h : LinkFree s)
    (hl : pl.length ≤ Config.payloadLimit) {fields : List Byte}
    (ha : answer (request k pos tag pl) (counted s) = { state := t, code := .ok, fields := fields }) :
    sendRequest (request k pos tag pl) s =
      settle { t with link := { t.link with slot := some (okReply k pos tag fields) } } := by
  rw [sendRequest_free h _ hl]
  unfold takeFrame
  rw [ha]
  simp only [if_true, replyFrame, request, replyKind_code, okReply, ResultCode.code]

end Sys2Proof.Machine
end

