-- ==== Sys2Proof/Laws/Endings.lean ====
section
/-! SUPPORT. What settling makes of an event that does several things at one position: a notice and the end of a step, a
report and the end of a step, the start of a posted step; and the counters and latches below their limits. -/

namespace Sys2Proof.Machine

/-! ### A quiet position -/

theorem Quiet.order {p : Pos} {s : State} (h : Quiet p s) : s.waitOrder = [] := h.rest.1 h.room

/-- An event without effect leaves a state at rest as it is. -/
theorem Quiet.idle {p : Pos} {s : State} (h : Quiet p s) : settle s = s := settle_of_atRest h.rest

/-- A change of one position that starts nothing leaves the part at rest. -/
theorem atRest_modPos {s : State} (h : AtRest s) (p : Pos) (f : Position → Position) (hf : startDue (f (s.pos p)) = false) :
    AtRest (s.modPos p f) := by
  obtain ⟨h1, h2, h3⟩ := h
  refine ⟨h1, fun q => ?_, h3⟩
  rw [State.pos_modPos]
  split
  · rename_i e; rw [e] at *; exact hf
  · exact h2 q

/-- A change of one position that leaves its chain alone keeps it quiet. -/
theorem Quiet.modPos {p : Pos} {s : State} (h : Quiet p s) (f : Position → Position)
    (hf : (f (s.pos p)).chainState = (s.pos p).chainState ∧ (f (s.pos p)).chain = (s.pos p).chain ∧
      (f (s.pos p)).waiting = (s.pos p).waiting) : Quiet p (s.modPos p f) := by
  refine ⟨h.present, atRest_modPos h.rest p f ?_, h.room, ?_⟩
  · rw [← h.rest.2.1 p]
    simp only [startDue, Position.inFlight, Position.headProgress, hf.1, hf.2.1]
  · rw [State.pos_modPos_self, hf.2.2, h.noneWaiting]

/-! ### What exec does with an event at a position the part has -/

section events

variable {p : Pos} {s : State} (h : Quiet p s)
include h

theorem Quiet.readerCharacterByte (c : BitVec 5) : exec (.readerCharacterByte p c) s = .next (readerCharacter p c s) := if_pos h.present
theorem Quiet.readerEndByte : exec (.readerEndByte p) s = .next (settle (readerEnd p s)) := if_pos h.present
theorem Quiet.passGapTimeout : exec (.passGapTimeout p) s = .next (settle (passGap p s)) := if_pos h.present
theorem Quiet.waitCardTimeout : exec (.waitCardTimeout p) s = .next (settle (waitCardRunsOut p s)) := if_pos h.present
theorem Quiet.keyPress (code : Fin 24) : exec (.keyPress p code) s = .next (keyPressed p code s) := if_pos h.present
theorem Quiet.keyRelease (code : Fin 24) : exec (.keyRelease p code) s = .next (settle (keyReleased p code s)) := if_pos h.present
theorem Quiet.longPressTimeout : exec (.longPressTimeout p) s = .next (settle (longPressRunsOut p s)) := if_pos h.present
theorem Quiet.announce (d b e : Bool) : exec (.announce p ⟨d, b⟩ e) s = .next (settle (announced p d b e s)) := if_pos h.present
theorem Quiet.acknowledge : exec (.acknowledge p) s = .next (settle (acknowledged p s)) := if_pos h.present
theorem Quiet.acknowledgeTimeout : exec (.acknowledgeTimeout p) s = .next (settle (ackRunsOut p s)) := if_pos h.present
theorem Quiet.beepSent : exec (.beepSent p) s = .next (beepGoesOut p s) := if_pos h.present
theorem Quiet.firstKeyTimeout : exec (.firstKeyTimeout p) s = .next (settle (sessionTimer p EntryUnit.firstKey s)) := if_pos h.present
theorem Quiet.interKeyTimeout : exec (.interKeyTimeout p) s = .next (settle (sessionTimer p EntryUnit.interKey s)) := if_pos h.present
theorem Quiet.ceilingTimeout : exec (.ceilingTimeout p) s = .next (settle (sessionTimer p EntryUnit.ceiling s)) := if_pos h.present
theorem Quiet.removalTimeout : exec (.removalTimeout p) s = .next (settle (removalRunsOut p s)) := if_pos h.present
theorem Quiet.pauseTimerExpiry : exec (.pauseTimerExpiry p) s = .next (settle (pauseRunsOut p s)) := if_pos h.present
theorem Quiet.cardPresentRises : exec (.cardPresentRises p) s = .next (settle (cardRises p s)) := if_pos h.present
theorem Quiet.cardPresentFalls : exec (.cardPresentFalls p) s = .next (settle (cardFalls p s)) := if_pos h.present
theorem Quiet.cardLeftTimeout : exec (.cardLeftTimeout p) s = .next (settle (cardLeftRunsOut p s)) := if_pos h.present
theorem Quiet.portCurrentChange (k : PortKind) (mA : Nat) : exec (.portCurrentChange p k mA) s =
    .next (settle (currentChanges p k mA s)) := if_pos h.present
theorem Quiet.inrushAllowanceEnd (k : PortKind) : exec (.inrushAllowanceEnd p k) s = .next (settle (inrushEnds p k s)) := if_pos h.present
theorem Quiet.readinessTimeout (k : PortKind) : exec (.readinessTimeout p k) s = .next (settle (readinessRunsOut p k s)) := if_pos h.present
theorem Quiet.announceTimeout : exec (.announceTimeout p) s = .next (settle (announceRunsOut p s)) := if_pos h.present
theorem Quiet.overTimeTrip (k : PortKind) : exec (.overTimeTrip p k) s = .next (settle (overTrips p k s)) := if_pos h.present
theorem Quiet.underTimeExpiry (k : PortKind) : exec (.underTimeExpiry p k) s = .next (settle (underRunsOut p k s)) := if_pos h.present
theorem Quiet.returnTimeExpiry (k : PortKind) : exec (.returnTimeExpiry p k) s = .next (settle (returnRunsOut p k s)) := if_pos h.present
theorem Quiet.latchCeilingTimeout : exec (.latchCeilingTimeout p) s = .next (settle (ceilingRunsOut p s)) := if_pos h.present
theorem Quiet.reEnergizeTimeout : exec (.reEnergizeTimeout p) s = .next (settle (reEnergizeRunsOut p s)) := if_pos h.present

theorem Quiet.readerFaultByte {b : Byte} (hb : readerClass b = .faultByte) :
    exec (.readerFaultByte p b) s = .next (settle (readerFault p s)) := by
  refine (if_pos h.present).trans ?_
  rw [hb]

theorem Quiet.keypadLineError {b : Byte} (hb : keypadClass b = .other) :
    exec (.keypadLineError p b) s = .next (settle (lineError p s)) := by
  refine (if_pos h.present).trans ?_
  rw [hb]

end events

/-! ### Counters below the mark of R153 -/

theorem countUp_low {n : Nat} (h : n < 49151) : countUp n = n + 1 ∧ crossesHigh n = false := by
  have h1 : countUp n = n + 1 := by unfold countUp Config.counterMax; rw [if_pos (by omega)]
  refine ⟨h1, ?_⟩
  unfold crossesHigh Config.counterHighAt
  rw [h1]
  simp
  omega

/-- A per-position counter below 49151 counts one and raises nothing. -/
theorem countPos_low {s : State} {p : Pos} (c : PosCounter) (h : (s.pos p).counters[c.idx] < 49151) :
    countPos c p s =
      s.modPos p fun v => { v with counters := v.counters.set c.idx ((s.pos p).counters[c.idx] + 1) } := by
  unfold countPos
  simp only [(countUp_low h).1, (countUp_low h).2]
  rfl

/-! ### Latches -/

/-- With nobody waiting, a grant decision grants nothing. -/
theorem grantDecision_none {s : State} (h : s.latchWait = []) : grantDecision s = s := by
  unfold grantDecision
  rw [h]
  rfl

/-! ### Reports -/

theorem pos_offer_self (p : Pos) (rs : List Report) (s : State) :
    (offer p rs s).pos p = { s.pos p with waiting := (s.pos p).waiting ++ rs } := by
  have : (offer p rs s).pos p = (s.modPos p fun v => { v with waiting := v.waiting ++ rs }).pos p := rfl
  rw [this, State.pos_modPos_self]

/-- One report that frees nothing, offered on a quiet part. -/
theorem settle_report {p : Pos} {s : State} (h : Quiet p s) {r : Report} (hf : r.freesRecord = false) (hn : r ≠ .notice) :
    settle (offer p [r] s) = withReport r s := by
  have hr : r.filled (s.pos p).entry = r := by
    cases r with
    | stepDone => simp [Report.freesRecord] at hf
    | _ => rfl
  rw [settle_offer h.order h.room h.noneWaiting, hr]
  simp only [hf, Bool.false_eq_true, if_false]
  exact settle_queue h.rest h.room hn

/-- What a step's ending offers, where one report is due. -/
theorem endStep_offers {s : State} {p : Pos} {r : StepRecord} (hc : (s.pos p).chain = [r]) {o : StepOutcome}
    {d : OutcomeData} (hd : r.reportDue o = true) {rep : Report} (hr : completionReports p r o d = [rep]) :
    endStep p o d s = offer p [rep] ((stopWork p s).setProgress p (.completing o d false)) := by
  unfold endStep
  rw [hc]
  simp only [hd, if_true, hr]

theorem queue_withReport_slot (r : Report) (s : State) :
    (withReport r s).waitOrder = s.waitOrder ∧ (withReport r s).positions = s.positions := by
  unfold withReport
  split <;> exact ⟨rfl, rfl⟩

/-- A class raised, and then the one step of a position ended with a report, where the queue has room for both: the NOTICE
report goes before the step's. -/
theorem settle_raise_endStep {p : Pos} {s : State} (h : Quiet p s) (hq : s.queue.length < 31) (c : NoticeClass)
    (who : Option Pos) {r : StepRecord} (hc : (s.pos p).chain = [r]) {o : StepOutcome} {d : OutcomeData}
    (hd : r.reportDue o = true) {rep : Report} (hr : completionReports p r o d = [rep]) (hf : rep.freesRecord = true) :
    settle (endStep p o d (raise c who s)) =
      withReport (rep.filled (s.pos p).entry.closeCollecting)
        (stepFreed p { r with progress := some (.completing o d false) : StepRecord }.halts (withNotice c who s)) := by
  obtain ⟨h1, h2, h3⟩ := h.rest
  have hw := h.order
  by_cases ha : noticeAsked c who s = true
  case neg =>
    have e1 : raise c who s = { s with notices := raisedNotices c who s } := by rw [raise_eq, if_neg ha]
    have e2 : withNotice c who s = { s with notices := raisedNotices c who s } := by
      unfold withNotice; simp only [ha, Bool.false_eq_true, if_false]
    rw [e1, e2]
    exact settle_endStep (s := { s with notices := raisedNotices c who s }) ⟨h1, h2, h3⟩ h.room h.noneWaiting hc hd hr hf
  case pos =>
    generalize hns : raisedNotices c who s = ns
    have habs : s.noticeReport = .absent := by
      unfold noticeAsked at ha
      simp only [Bool.and_eq_true, decide_eq_true_eq] at ha
      exact ha.2
    have e1 : raise c who s = { s with notices := ns, noticeReport := .waiting, waitOrder := [.notices] } := by
      rw [raise_eq, if_pos ha, hns]
      unfold askNotice
      rw [if_pos habs]
      simp [hw, joinOrder]
    let Y : State := { s with notices := ns, noticeReport := .queued, queue := s.queue ++ [.notice] }
    have hroom : Y.queue.length < Config.queueLimit := by
      show (s.queue ++ [Report.notice]).length < 32
      simp; omega
    have hx : nextDue (endStep p o d (raise c who s)) = some (endStep p o d Y) := by
      have hc1 : ((raise c who s).pos p).chain = [r] := by rw [e1]; exact hc
      rw [endStep_offers hc1 hd hr, endStep_offers (s := Y) hc hd hr]
      have ho : (offer p [rep] ((stopWork p (raise c who s)).setProgress p (.completing o d false))).waitOrder =
          [.notices, .position p] := by
        rw [e1]; rfl
      have hqo : (offer p [rep] ((stopWork p (raise c who s)).setProgress p (.completing o d false))).queue = s.queue := by
        rw [e1]; rfl
      rw [nextDue_admit (by rw [ho]; simp) (by rw [hqo]; exact h.room)]
      unfold admitHead
      rw [ho]
      simp only
      congr 1
      rw [e1]
      refine State.ext_pos (fun q => rfl) ?_
      show _ = offer p [rep] ((stopWork p Y).setProgress p (.completing o d false))
      simp [offer, stopWork, Y, hw, joinOrder, State.setProgress]
    rw [settle_next hx, settle_endStep_queue (s := Y) hw hroom h.noneWaiting hc hd hr hf]
    have hns2 : withNotice c who s =
        if s.link.transmitter = none then
          { s with notices := ns, link := { s.link with transmitter := some (Report.notice.frame (noticePayload ns)) } }
        else { s with notices := ns, queue := s.queue ++ [.notice], noticeReport := .queued } := by
      unfold withNotice
      simp only [ha, if_true, hns]
    have hne := filled_ne_notice hf (s.pos p).entry.closeCollecting
    have hr2 : ∀ X : State, X.positions = s.positions → X.settings = s.settings →
        (∀ q, startDue ((stepFreed p { r with progress := some (.completing o d false) : StepRecord }.halts X).pos q) = false) := by
      intro X hX hS q
      rw [pos_stepFreed]
      split
      · cases { r with progress := some (.completing o d false) : StepRecord }.halts <;> simp [startDue]
      · have : X.pos q = s.pos q := by unfold State.pos; rw [hX]
        rw [this]; exact h2 q
    cases ht : s.link.transmitter with
    | some g =>
      rw [hns2, if_neg (by rw [ht]; simp)]
      have hz := settle_of_atRest (s := { stepFreed p { r with progress := some (.completing o d false) : StepRecord }.halts Y with
          queue := Y.queue ++ [rep.filled (s.pos p).entry.closeCollecting] })
        ⟨fun _ => hw, hr2 Y rfl rfl, fun e => by
          have : s.link.transmitter = none := e
          rw [ht] at this; cases this⟩
      refine hz.trans ?_
      unfold withReport
      rw [if_neg (by show ¬ s.link.transmitter = none; rw [ht]; simp)]
      rfl
    | none =>
      obtain ⟨h4, h5⟩ := h3 ht
      rw [hns2, if_pos ht]
      have hcls : (noticeClasses ns).isEmpty = false := by
        have hm : c.idx ∈ noticeClasses ns := by
          unfold noticeClasses
          rw [List.mem_filter]
          refine ⟨mem_allClasses _, ?_⟩
          unfold noticeAsked at ha
          simp only [Bool.and_eq_true, decide_eq_true_eq] at ha
          have hmu : (s.notice c).muted = false := by simpa using ha.1.2
          have hen : (s.notice c).enabled = true := ha.1.1.1
          rw [← hns]
          unfold raisedNotices
          rw [if_pos hen]
          simp [hmu]
        cases hl : noticeClasses ns with
        | nil => rw [hl] at hm; cases hm
        | cons _ _ => rfl
      have hd2 : nextDue { stepFreed p { r with progress := some (.completing o d false) : StepRecord }.halts Y with
          queue := Y.queue ++ [rep.filled (s.pos p).entry.closeCollecting] } =
          some { stepFreed p { r with progress := some (.completing o d false) : StepRecord }.halts s with
            notices := ns
            queue := [rep.filled (s.pos p).entry.closeCollecting]
            link := { s.link with transmitter := some (Report.notice.frame (noticePayload ns)) } } := by
        refine (nextDue_arbiter (s := { stepFreed p { r with progress := some (.completing o d false) : StepRecord }.halts Y with
          queue := Y.queue ++ [rep.filled (s.pos p).entry.closeCollecting] }) (fun _ => hw) (hr2 Y rfl rfl)).trans ?_
        have e2 : ({ stepFreed p { r with progress := some (.completing o d false) : StepRecord }.halts Y with
          queue := Y.queue ++ [rep.filled (s.pos p).entry.closeCollecting] } : State).link = s.link := rfl
        unfold arbiter
        rw [e2, ht, h4]
        simp only
        show (match s.queue ++ [Report.notice] ++ [_] with | [] => none | r :: q => some (handReport r q _)) = _
        rw [h5]
        simp only [List.nil_append, List.cons_append]
        unfold handReport
        rw [if_pos rfl]
        have e3 : ({ stepFreed p { r with progress := some (.completing o d false) : StepRecord }.halts Y with
          queue := Y.queue ++ [rep.filled (s.pos p).entry.closeCollecting] } : State).notices = ns := rfl
        rw [e3, hcls]
        simp only [Bool.false_eq_true, if_false]
        have e4 : s.noticeReport = (stepFreed p { r with progress := some (.completing o d false) : StepRecord }.halts s).noticeReport := rfl
        rw [← habs, e4]
        rfl
      refine (settle_next hd2).trans ?_
      have hz := settle_of_atRest (s := { stepFreed p { r with progress := some (.completing o d false) : StepRecord }.halts s with
            notices := ns
            queue := [rep.filled (s.pos p).entry.closeCollecting]
            link := { s.link with transmitter := some (Report.notice.frame (noticePayload ns)) } })
        ⟨fun _ => hw, hr2 s rfl rfl, fun e => by simp at e⟩
      refine hz.trans ?_
      unfold withReport
      rw [if_neg (by show ¬ (some (Report.notice.frame (noticePayload ns))) = none; simp)]
      show _ = _
      have : ([] : List Report) = s.queue := h5.symm
      simp only [stepFreed]
      refine State.ext_pos (fun q => rfl) ?_
      show _ = _
      simp [State.modPos, State.setPos, h5]

/-- A report and then the end of the position's one step, where the queue has room for both. -/
theorem settle_offer_endStep {p : Pos} {s : State} (h : Quiet p s) (hq : s.queue.length < 31) {first : Report}
    (hff : first.freesRecord = false) (hfn : first ≠ .notice) {r : StepRecord} (hc : (s.pos p).chain = [r])
    {o : StepOutcome} {d : OutcomeData} (hd : r.reportDue o = true) {rep : Report}
    (hr : completionReports p r o d = [rep]) (hf : rep.freesRecord = true) :
    settle (endStep p o d (offer p [first] s)) =
      withReport (rep.filled (s.pos p).entry.closeCollecting)
        (stepFreed p { r with progress := some (.completing o d false) : StepRecord }.halts (withReport first s)) := by
  obtain ⟨h1, h2, h3⟩ := h.rest
  have hw := h.order
  have hfill (e : EntryUnit) : first.filled e = first := by
    cases first with
    | stepDone => simp [Report.freesRecord] at hff
    | _ => rfl
  let Z : State := { s with queue := s.queue ++ [first] }
  have hroom : Z.queue.length < Config.queueLimit := by
    show (s.queue ++ [first]).length < 32
    simp; omega
  have hX : (offer p [first] s).pos p = { s.pos p with waiting := [first] } := by
    rw [pos_offer_self, h.noneWaiting]
    rfl
  have hx : nextDue (endStep p o d (offer p [first] s)) = some (endStep p o d Z) := by
    have hc1 : ((offer p [first] s).pos p).chain = [r] := by rw [hX]; exact hc
    rw [endStep_offers hc1 hd hr, endStep_offers (s := Z) hc hd hr]
    have ho : (offer p [rep] ((stopWork p (offer p [first] s)).setProgress p (.completing o d false))).waitOrder =
        [.position p] := by
      show joinOrder (joinOrder s.waitOrder (.position p)) (.position p) = _
      simp [hw, joinOrder]
    have hqo : (offer p [rep] ((stopWork p (offer p [first] s)).setProgress p (.completing o d false))).queue = s.queue := rfl
    have hpo : ((offer p [rep] ((stopWork p (offer p [first] s)).setProgress p (.completing o d false))).pos p).waiting =
        [first, rep] := by
      rw [pos_offer_self]
      simp only [State.pos_modPos_self, State.setProgress_eq, Position.waiting_setProgress]
      show ((stopWork p (offer p [first] s)).pos p).waiting ++ [rep] = _
      unfold stopWork
      simp only [State.pos_modPos_self]
      show ((offer p [first] s).pos p).waiting ++ [rep] = _
      rw [hX]
      rfl
    rw [nextDue_admit (by rw [ho]; simp) (by rw [hqo]; exact h.room)]
    unfold admitHead
    rw [ho]
    simp only
    unfold admitPosition
    rw [hpo]
    simp only [hff, hfill, Bool.false_eq_true, if_false, List.isEmpty_cons]
    congr 1
    refine State.ext_pos (fun q => ?_) ?_
    · by_cases e : q = p
      · subst e
        by_cases hl : (s.pos q).latchState = .waiting <;>
          simp [offer, stopWork, Z, h.noneWaiting, Position.setProgress, hc, hl]
      · simp [offer, stopWork, Z, e]
    · simp [offer, stopWork, Z, hw, joinOrder, State.setProgress]
  rw [settle_next hx, settle_endStep_queue (s := Z) hw hroom h.noneWaiting hc hd hr hf]
  rw [show Z.pos p = s.pos p from rfl]
  have hrest := atRest_stepFreed h.rest p { r with progress := some (.completing o d false) : StepRecord }.halts
  have hne := filled_ne_notice hf (s.pos p).entry.closeCollecting
  generalize rep.filled (s.pos p).entry.closeCollecting = rp at hne ⊢
  generalize { r with progress := some (.completing o d false) : StepRecord }.halts = b at hrest ⊢
  cases ht : s.link.transmitter with
  | some g =>
    have e1 : withReport first s = Z := by unfold withReport; rw [if_neg (by rw [ht]; simp)]
    rw [e1]
    have hz := settle_of_atRest (s := { stepFreed p b Z with queue := Z.queue ++ [rp] })
      ⟨fun _ => hw, hrest.2.1, fun e => by
        have : s.link.transmitter = none := e
        rw [ht] at this; cases this⟩
    refine hz.trans ?_
    unfold withReport
    rw [if_neg (by show ¬ s.link.transmitter = none; rw [ht]; simp)]
    rfl
  | none =>
    obtain ⟨h4, h5⟩ := h3 ht
    have e1 : withReport first s = { s with link := { s.link with transmitter := some (first.frame []) } } := by
      unfold withReport; rw [if_pos ht]
    rw [e1]
    have hd2 : nextDue { stepFreed p b Z with queue := Z.queue ++ [rp] } =
        some { stepFreed p b s with queue := [rp], link := { s.link with transmitter := some (first.frame []) } } := by
      refine (nextDue_arbiter (s := { stepFreed p b Z with queue := Z.queue ++ [rp] }) (fun _ => hw) hrest.2.1).trans ?_
      have e2 : ({ stepFreed p b Z with queue := Z.queue ++ [rp] } : State).link = s.link := rfl
      unfold arbiter
      rw [e2, ht, h4]
      simp only
      show (match s.queue ++ [first] ++ [rp] with | [] => none | r :: q => some (handReport r q _)) = _
      rw [h5]
      simp only [List.nil_append, List.cons_append]
      unfold handReport
      rw [if_neg hfn]
      rfl
    refine (settle_next hd2).trans ?_
    have hz := settle_of_atRest (s := { stepFreed p b s with
        queue := [rp], link := { s.link with transmitter := some (first.frame []) } })
      ⟨fun _ => hw, hrest.2.1, fun e => by simp at e⟩
    refine hz.trans ?_
    unfold withReport
    rw [if_neg (by show ¬ (some (first.frame [])) = none; simp)]
    simp only [stepFreed]
    refine State.ext_pos (fun q => rfl) ?_
    simp [State.modPos, State.setPos, h5]

end Sys2Proof.Machine
end

