-- ==== Sys2Proof/Laws/Frames.lean ====
section
/-! SUPPORT. Frames received, bytes of a reply, and the load of the store. -/

namespace Sys2Proof.Machine

/-- A link event with no frame to take. -/
theorem serve_none {s t : State} (h1 : takeable s = none) (ht : settle s = t) (h2 : takeable t = none) : serve s = t := by
  have hd : takeDue s = s := by unfold takeDue; rw [h1]
  unfold serve
  rw [hd]
  cases hb : s.link.buffer.length with
  | zero => simp only [serveFor, hb, ht]
  | succ n => simp only [hb, serveFor, ht]; rw [h2]

/-- No frame may be taken. -/
theorem takeable_none {s : State} (h : s.link.slot ≠ none ∨ s.link.restarting = true ∨ s.link.buffer = []) : takeable s
    = none := by
  unfold takeable
  rcases h with h | h | h
  · cases hs : s.link.slot with
    | none => exact absurd hs h
    | some g => rfl
  · rw [h]; simp
  · rw [h]; split <;> rfl

/-- A notice leaves the reply slot and the receive buffer alone. -/
theorem withNotice_link (c p) (s : State) : (withNotice c p s).link.slot = s.link.slot ∧ (withNotice c p
    s).link.restarting = s.link.restarting ∧ (withNotice c p s).link.buffer = s.link.buffer := by
  unfold withNotice
  dsimp only
  split
  · split <;> exact ⟨rfl, rfl, rfl⟩
  · exact ⟨rfl, rfl, rfl⟩

/-- A device counter below 49151 counts one and raises nothing. -/
theorem countDev {s : State} (c : DeviceCounter) (h : s.deviceCounters[c.idx] < 49151) : countDevice c s =
    { s with deviceCounters := s.deviceCounters.set c.idx (s.deviceCounters[c.idx] + 1) } := by
  unfold countDevice
  simp only [(countUp_low h).1, (countUp_low h).2]
  rfl

/-- A frame joins a receive buffer with room. -/
theorem accept_room {s : State} (f : Frame) (h : s.link.buffer.length < 4) : acceptFrame f s = countDevice .framesOk
    { s with link := { s.link with buffer := s.link.buffer ++ [f] } } := if_pos h

/-- A lost frame, on a part that takes no frame after it. -/
theorem frameLost_serve {s : State} (h : AtRest s) (hq : s.queue.length < 32) (hc : s.deviceCounters[1] < 49151) (hs :
    s.link.slot ≠ none ∨ s.link.restarting = true ∨ s.link.buffer = []) : serve (frameLost
    { s with link := s.link.hunt }) = withNotice .linkError none
      { s with
        link := { s.link with rx := .hunting, partialFrame := [], gapTimer := .stopped }
        deviceCounters := s.deviceCounters.set 1 (s.deviceCounters[1] + 1) } := by
  unfold frameLost
  rw [countDev .framesDiscarded (by exact hc)]
  let X : State := { s with
        link := { s.link with rx := .hunting, partialFrame := [], gapTimer := .stopped }
        deviceCounters := s.deviceCounters.set 1 (s.deviceCounters[1] + 1) }
  have hX : AtRest X := ⟨h.1, h.2.1, h.2.2⟩
  have hl := withNotice_link .linkError none X
  refine serve_none (s := raise .linkError none X) (takeable_none ?_) (settle_raise hX hq _ _) (takeable_none ?_)
  · have : (raise .linkError none X).link = X.link := link_of_within (within_raise (P := fun _ => True) _ _ _)
    rw [this]; exact hs
  · rw [hl.1, hl.2.1, hl.2.2]; exact hs

/-- No RESTART reply is being sent. -/
theorem notReply {s : State} (h : s.link.slot = none → s.link.restarting = false) : restartReplyOut s = false := by
  unfold restartReplyOut
  cases hs : s.link.slot with
  | none => rw [h hs]; rfl
  | some g => simp

/-- A started part is at rest. -/
theorem started_rest (items g) (s : State) : AtRest (startedWith items g s) := by
  refine ⟨fun _ => rfl, fun p => ?_, fun _ => ⟨rfl, rfl⟩⟩
  have : (startedWith items g s).pos p = { items := items, cardLine := (s.pos p).cardLine } := by
    unfold State.pos startedWith; simp
  rw [this]; rfl

/-- The load of a store whose check is good (R187). -/
theorem load_good {s : State} {g : Settings} (hg : g.store.checkGood = true) : loadSettings
    { resetBlocks s with settings := g } = startedWith (loadPosItems g.store.posItems) { g with
    storeLocked := g.store.lockFlag, writeEnable := false, unlocked := false, lastWrite := .nothing, loadPending := false,
    loadGood := true, live := loadDeviceItems g.store.deviceItems, passcode := g.store.passcode } s := by
  unfold loadSettings
  simp only [hg, if_true]
  unfold setPosItems resetBlocks startedWith
  simp [startedPosition, startedNotices, startedScreening, Config.poolSize]

/-- The load of a store whose check is not good (R187). -/
theorem load_bad {s : State} {g : Settings} (hg : g.store.checkGood = false) : loadSettings
    { resetBlocks s with settings := g } = raise .storeFault none (startedWith factoryPosItems { g with
    storeLocked := g.store.lockFlag, writeEnable := false, unlocked := false, lastWrite := .nothing, loadPending := false,
    loadGood := false, live := factoryDeviceItems, passcode := factoryPasscode } s) := by
  unfold loadSettings
  simp only [hg]
  unfold setPosItems resetBlocks startedWith
  simp [startedPosition, startedNotices, startedScreening, Config.poolSize]

/-- When read protection refuses (R177). -/
theorem readProtected_iff (g : Settings) (n : Nat) : readProtected g n = true ↔ g.live.readProtect = 1 ∧
    g.live.boundary.toNat ≤ n ∧ g.unlocked = false := by
  simp [readProtected, protectedNow]

/-- Eight digits are a passcode (R179). -/
theorem passcode_digits (d : Vector Byte 8) (h : ∀ b ∈ d.toList, 0x30 ≤ b.toNat ∧ b.toNat ≤ 0x39) : passcodeOf d.toList
    = some d := by
  obtain ⟨⟨l⟩, hl⟩ := d
  simp at hl
  match l, hl with
  | [a, b, c, e, f, g, i, j], _ =>
    unfold passcodeOf
    simp only [Vector.toList]
    rw [if_pos]
    rw [List.all_eq_true]
    intro x hx
    have := h x hx
    simp [isDigitByte]; exact this

/-- A refusal whose own effect leaves the part at rest. -/
theorem refusedWith (k : RequestKind) (pos tag : Byte) (pl : List Byte) {s t : State} (h : LinkFree s)
    (hl : pl.length ≤ Config.payloadLimit) {c : ResultCode} (hc : c ≠ .ok)
    (ha : answer (request k pos tag pl) (counted s) = refuse t c) (ht : AtRest t) (hd : t.deviceCounters = (counted
        s).deviceCounters) :
    sendRequest (request k pos tag pl) s = withReply (refusalReply k pos tag c) (countedRefusal t) := by
  rw [sendRequest_refused h _ hl hc ha ht hd]
  simp only [request, replyKind_code, refusalReply]

/-- A bit of a mark set. -/
theorem testBit_markBits (l : List Bool) (i : Nat) : (markBits l).testBit i = l.getD i false := by
  induction l generalizing i with
  | nil => simp [markBits]
  | cons b bs ih =>
    unfold markBits
    cases i with
    | zero => cases b <;> simp [Nat.testBit_zero] 
    | succ i =>
      rw [Nat.testBit_succ]
      have : ((if b then 1 else 0) + 2 * markBits bs) / 2 = markBits bs := by split <;> omega
      rw [this, ih]; simp

/-- A bit of a class set. -/
theorem classSet_bit (ns : Vector ClassRecord 15) (f : ClassRecord → Bool) (i : Nat) : (classSet ns f).getLsbD i = if h
    : i < 15 then f ns[i] else false := by
  unfold classSet wordOfNat
  simp only [BitVec.getLsbD_ofNat, testBit_markBits]
  by_cases h : i < 15
  · rw [dif_pos h]
    have : i < 16 := by omega
    simp only [this, decide_true, Bool.true_and]
    have hk : ∀ i : Fin 15, (allClasses.map fun i => f ns[i]).getD i.val false = f ns[i.val] := by
      intro i
      have : allClasses[i.val]? = some i := by revert i; decide
      simp [List.getD, List.getElem?_map, this]
    exact hk ⟨i, h⟩
  · rw [dif_neg h]
    have : (allClasses.map fun i => f ns[i]).getD i false = false :=
      List.getD_eq_default _ _ (by simp [allClasses]; omega)
    rw [this, Bool.and_false]

/-- A class set meets a named set. -/
theorem classSet_and_ne (ns : Vector ClassRecord 15) (un : Word) (f : ClassRecord → Bool) : classSet ns f &&& un ≠ 0 ↔ ∃
    i : Fin 15, un.getLsbD i.val = true ∧ f ns[i] = true := by
  constructor
  · intro h
    by_contra hc
    apply h
    apply BitVec.eq_of_getLsbD_eq
    intro i hi
    rw [BitVec.getLsbD_and, classSet_bit]
    simp only [BitVec.ofNat_eq_ofNat, BitVec.getLsbD_zero]
    split
    · rename_i h15
      by_contra hn
      simp at hn
      exact hc ⟨⟨i, h15⟩, hn.2, hn.1⟩
    · rfl
  · rintro ⟨i, h1, h2⟩ e
    have : (classSet ns f &&& un).getLsbD i.val = false := by rw [e]; simp
    rw [BitVec.getLsbD_and, classSet_bit, dif_pos i.isLt, h1] at this
    simp at this
    rw [show ns[i] = ns[i.val] from rfl, this] at h2
    cases h2

/-- The classes that cannot be disabled (R150). -/
theorem neverDisabled_iff (d : Word) : d &&& neverDisabled ≠ 0 ↔ (d.getLsbD 1 = true ∨ d.getLsbD 4 = true ∨ d.getLsbD 13
    = true ∨ d.getLsbD 14 = true) := by
  have hb : ∀ i, neverDisabled.getLsbD i = decide (i = 1 ∨ i = 4 ∨ i = 13 ∨ i = 14) := by
    intro i
    by_cases h : i < 16
    · have : ∀ i : Fin 16, neverDisabled.getLsbD i.val = decide (i.val = 1 ∨ i.val = 4 ∨ i.val = 13 ∨ i.val = 14) := by
          decide
      exact this ⟨i, h⟩
    · rw [BitVec.getLsbD_of_ge _ _ (by omega)]; symm; simp; omega
  constructor
  · intro h
    by_contra hc
    apply h
    apply BitVec.eq_of_getLsbD_eq
    intro i hi
    rw [BitVec.getLsbD_and, hb]
    simp only [BitVec.ofNat_eq_ofNat, BitVec.getLsbD_zero]
    by_cases e : i = 1 ∨ i = 4 ∨ i = 13 ∨ i = 14
    · rcases e with e | e | e | e <;> subst e <;> simp_all
    · simp [e]
  · intro h e
    have hz : ∀ i, (d &&& neverDisabled).getLsbD i = false := by rw [e]; simp
    rcases h with h | h | h | h
    · have := hz 1; rw [BitVec.getLsbD_and, hb, h] at this; simp at this
    · have := hz 4; rw [BitVec.getLsbD_and, hb, h] at this; simp at this
    · have := hz 13; rw [BitVec.getLsbD_and, hb, h] at this; simp at this
    · have := hz 14; rw [BitVec.getLsbD_and, hb, h] at this; simp at this

/-- The segments of a SCREEN LOAD payload. -/
theorem segs_of (sent : List (Byte × Byte)) : segmentsOf (sent.flatMap fun g => [g.1, g.2]) = sent.map fun g =>
    { skip := g.1.toNat, take := g.2.toNat } := by
  induction sent with
  | nil => rfl
  | cons g gs ih => simp [List.flatMap_cons, segmentsOf]; exact ih

/-- The length of a SCREEN LOAD payload. -/
theorem len_of (sent : List (Byte × Byte)) : (sent.flatMap fun g => [g.1, g.2]).length = 2 * sent.length := by
  induction sent with
  | nil => rfl
  | cons g gs ih => simp [List.flatMap_cons]; omega

end Sys2Proof.Machine
end

