-- ==== Sys2Proof/Laws/Steps.lean ====
section
/-! SUPPORT. The head step of a position: what its work, its ending and its start come to, and the start of one posted
step. -/

namespace Sys2Proof.Machine

/-- The work of a head step that is ACTIVE. -/
theorem work_of {v : Position} {r : StepRecord} {w : Work} (hc : v.chain = [r]) (hp : r.progress = some (.active w)) :
    v.work = some w := by
  unfold Position.work Position.headProgress; rw [hc]; simp only [hp]

/-- No step in flight, no work. -/
theorem work_none {v : Position} (h : v.inFlight = false) : v.work = none := by
  unfold Position.inFlight at h
  unfold Position.work
  cases hp : v.headProgress with
  | none => rfl
  | some g => rw [hp] at h; cases h

/-- A step ended by a cause of its own halts the chain where it is stop-on-failure (R20). -/
theorem halts_eq (r : StepRecord) (o : StepOutcome) (d : OutcomeData) (ho : o ≠ .done ∧ o ≠ .aborted ∧ o ≠ .portFault ∧
    o ≠ .deviceAbsent) : ({ r with progress := some (.completing o d false) : StepRecord }).halts = r.stopOnFailure := by
  unfold StepRecord.halts
  cases o <;> simp at ho <;> cases r.stopOnFailure <;> rfl

/-- A step that ended DONE does not halt the chain (R20). -/
theorem halts_done (r : StepRecord) (d : OutcomeData) :
    ({ r with progress := some (.completing .done d false) : StepRecord }).halts = false := by
  unfold StepRecord.halts
  cases r.stopOnFailure <;> rfl

/-- A failure is always reported (R19). -/
theorem due_fail (r : StepRecord) {o : StepOutcome} (ho : o ≠ .done) : r.reportDue o = true := by
  unfold StepRecord.reportDue StepOutcome.isFailure
  simp [ho]

/-- No step in flight, no port needed. -/
theorem needs_none {v : Position} (h : v.inFlight = false) (k : PortKind) : v.needsPort k = false := by
  unfold Position.needsPort
  unfold Position.inFlight Position.headProgress at h
  cases hc : v.chain with
  | nil => rfl
  | cons r rest =>
    rw [hc] at h
    simp only at h ⊢
    cases hp : r.progress with
    | none => simp
    | some g => rw [hp] at h; cases h

/-- No step in flight, none waits for a port. -/
theorem waits_none {v : Position} (h : v.inFlight = false) (k : PortKind) : v.waitsFor k = false := by
  unfold Position.waitsFor
  unfold Position.inFlight Position.headProgress at h
  cases hc : v.chain with
  | nil => rfl
  | cons r rest =>
    rw [hc] at h
    simp only at h ⊢
    cases hp : r.progress with
    | none => simp
    | some g => rw [hp] at h; cases h

/-- A raising and a change of a position do not touch each other. -/
theorem raise_modPos (c : NoticeClass) (w : Option Pos) (p : Pos) (f : Position → Position) (s : State) : (raise c w
    s).modPos p f = raise c w (s.modPos p f) := by
  rw [raise_eq, raise_eq]
  have : noticeAsked c w (s.modPos p f) = noticeAsked c w s := rfl
  rw [this]
  split
  · unfold askNotice
    have : (s.modPos p f).noticeReport = s.noticeReport := rfl
    simp only
    rw [this]
    split <;> rfl
  · rfl

/-- One key reported on a quiet part. -/
theorem keyReport_settle {p : Pos} {s : State} (h : Quiet p s) (x : Symbol) (b : Bool) : settle (keyReport p x b s) =
    withReport (.key p x b) s := by
  unfold keyReport
  have : (s.pos p).keyCount = 0 := by unfold Position.keyCount; rw [h.noneWaiting]; rfl
  rw [this, if_pos (by decide)]
  exact settle_report h rfl (by simp)

/-- A card-present change with no report of the position waiting (R141). -/
theorem presence_none {s : State} {p : Pos} (hw : (s.pos p).waiting = []) (b : Bool) : presenceChange p b s = if (s.pos
    p).items.presence = 1 then offer p [.presence p b 1] s else s := by
  unfold presenceChange
  simp only
  rw [hw, if_neg (by simp)]

/-- The one position whose head step is due to start. -/
theorem firstStart_only {s : State} {p : Pos} (h : startDue (s.pos p) = true) (ho : ∀ q, q ≠ p → startDue (s.pos q) =
    false) : firstStart s = some p := by
  unfold firstStart
  cases hf : allPos.find? fun p => startDue (s.pos p) with
  | none =>
    rw [List.find?_eq_none] at hf
    exact absurd h (hf p (mem_allPos p))
  | some q =>
    have := List.find?_some hf
    by_cases e : q = p
    · rw [e]
    · simp [ho q e] at this

/-- With nobody waiting for admission, a start is due next. -/
theorem nextDue_start {s : State} {p : Pos} (hw : s.queue.length < Config.queueLimit → s.waitOrder = []) (h : startDue
    (s.pos p) = true) (ho : ∀ q, q ≠ p → startDue (s.pos q) = false) : nextDue s = some (startHead p s) := by
  unfold nextDue
  rw [if_neg (by tauto), firstStart_only h ho]

/-- The start of a step that needs a port, by the state of the port (R9). -/
theorem startHead_port {s : State} {p : Pos} {r : StepRecord} {rest : List StepRecord} {k : PortKind} (hc : (s.pos
    p).chain = r :: rest) (hk : r.params.kind.port = some k) :
    startHead p s =
      (let s1 := s.modPos p fun v => startAttempts s.settings.live r.params { v with cardLeftTimer := .stopped }
       match ((s.pos p).port k).state with
       | .ready => activate p s1
       | .starting => s1.setProgress p .waitingPort
       | st => endStep p (portOutcome st) .nothing s1) := by
  unfold startHead
  rw [hc]
  simp only [hk]
  have : ((s.modPos p fun v => startAttempts s.settings.live r.params { v with cardLeftTimer := .stopped }).port p k) =
      (s.pos p).port k := by
    rw [State.port_eq, State.pos_modPos_self]
    cases k <;> (unfold startAttempts; split <;> rfl)
  rewrite [this]
  cases ((s.pos p).port k).state <;> rfl

/-- A POST payload of one record (R7, R171). -/
theorem one_record (kind flags tag len : Byte) (ps : List Byte) (x : StepParams × Bool) (hl : ps.length = len.toNat)
    (h17 : len.toNat ≤ 17) (hf : flags.toNat ≤ 3) (hp : stepParams kind ps = some x) :
  postRecords (kind :: flags :: tag :: len :: ps) = some
      [({ params := x.1, tag := tag, notify := flags.getLsbD 0, stopOnFailure := flags.getLsbD 1 }, x.2)] := by
  unfold postRecords
  simp only [List.length_cons]
  unfold stepRecords
  rw [if_neg (by simp; omega)]
  rw [← hl, List.take_length, List.drop_length, hp]
  have : stepRecords (ps.length + 1 + 1 + 1) [] = some [] := by simp [stepRecords]
  simp only [this]

/-- A POST of one record to an empty IDLE chain: the reply is placed, and the step starts. -/
theorem post_one {s : State} {pos tag : Byte} {payload : List Byte} {r : StepRecord} {b : Bool} (h : LinkReady s) (hp :
    pos.toNat < 8)
   (hpl : payload.length ≤ 61) (hr : postRecords payload = some [(r, b)]) (he : EmptyIdle (positionOf s.variant pos) s)
       (hpr : r.progress = none) :
   sendRequest (request .post pos tag payload) s =
     settle (startHead (positionOf s.variant pos)
         { (State.modPos { counted s with freeRecords := s.freeRecords - 1 } (positionOf s.variant pos) fun v =>
             { v with chain := [r], chainState := .running }) with
           link := { s.link with slot := some (postReply pos tag s b) } }) := by
  obtain ⟨he1, he2, he3⟩ := he
  generalize hpp : positionOf s.variant pos = p at *
  have ha := answer_position .post tag payload h hp (by decide)
  rw [hpp] at ha
  change answer _ _ = handlePost p payload (counted s) at ha
  have hx : handlePost p payload (counted s) =
      { state := State.modPos { counted s with freeRecords := s.freeRecords - 1 } p fun v =>
          { v with chain := [r], chainState := .running },
        code := .ok,
        fields := ([1, 1, byteOf (s.freeRecords - 1)] ++ wordBytes (if b then 1 else 0)) } := by
    unfold handlePost
    rw [hr]
    have hc : ((counted s).pos p).chain = [] := he2
    have hf : (counted s).freeRecords = s.freeRecords := rfl
    simp only [hc, hf, List.length_nil, List.length_singleton, Config.chainLimit]
    rw [if_neg (by simp; omega)]
    have happ : appendRecords p [r] (counted s) = State.modPos { counted s with freeRecords := s.freeRecords - 1 } p fun
        v => { v with chain := [r], chainState := .running } := by
      unfold appendRecords
      refine State.ext_pos (fun q => ?_) rfl
      simp only [State.pos_modPos]
      split
      · rename_i e; subst e
        simp [counted, he1, he2]
      · rfl
    simp only [List.map_cons, List.map_nil, happ]
    cases b <;> rfl
  rw [hx] at ha
  rw [sendRequest_settles .post _ _ _ h.toLinkFree hpl ha]
  refine settle_next ?_
  refine nextDue_start h.rest.1 ?_ (fun q hq => ?_)
  · show startDue ((State.modPos { counted s with freeRecords := s.freeRecords - 1 } p fun v =>
        { v with chain := [r], chainState := .running }).pos p) = true
    rw [State.pos_modPos_self]
    simp [startDue, Position.inFlight, Position.headProgress, hpr]
  · show startDue ((State.modPos { counted s with freeRecords := s.freeRecords - 1 } p fun v =>
        { v with chain := [r], chainState := .running }).pos q) = false
    rw [State.pos_modPos_ne _ hq]
    exact h.rest.2.1 q

/-- A posted and started record leaves the part at rest. -/
theorem rest_posted {s : State} (h : AtRest s) (p : Pos) (r : StepRecord) (hr : r.progress ≠ none) : AtRest (posted p r
    s) := by
  obtain ⟨h1, h2, h3⟩ := h
  refine ⟨h1, fun q => ?_, h3⟩
  unfold posted
  rw [State.pos_modPos]
  split
  · cases hg : r.progress with
    | none => exact absurd hg hr
    | some g => simp [startDue, Position.inFlight, Position.headProgress, hg]
  · exact h2 q

/-- A list of records that have not started. -/
theorem countP_none (l : List StepRecord) (h : ∀ x ∈ l, x.progress = none) : l.countP (fun r => !r.started) = l.length ∧
    l.filter StepRecord.started = [] := by
  constructor
  · rw [List.countP_eq_length]; intro a ha; simp [StepRecord.started, h a ha]
  · rw [List.filter_eq_nil_iff]; intro a ha; simp [StepRecord.started, h a ha]

/-- What the dropping of the records not started leaves (R22). -/
theorem drop_eq {s : State} {p : Pos} {n : Nat} {F : List StepRecord} {cs : ChainState} (hn : (s.pos p).chain.countP
    (fun r => !r.started) = n) (hF : (s.pos p).chain.filter StepRecord.started = F) (hcs : (if (s.pos p).chainState =
    .halted then .idle else (s.pos p).chainState) = cs) :
    dropUnstarted p (counted s) = (State.modPos { counted s with freeRecords := s.freeRecords + n } p fun v =>
        { v with chain := F, chainState := cs }) := by
  have hcp : (counted s).pos p = s.pos p := rfl
  unfold dropUnstarted
  simp only [hcp]
  rw [hn]
  refine State.ext_pos (fun q => ?_) rfl
  by_cases e : q = p
  · subst e
    rw [State.pos_modPos_self, State.pos_modPos_self]
    show ({ (s.pos q) with
        chain := (s.pos q).chain.filter StepRecord.started,
        chainState := if (s.pos q).chainState = .halted then .idle else (s.pos q).chainState } : Position) =
      { (s.pos q) with chain := F, chainState := cs }
    rw [hF, hcs]
  · rw [State.pos_modPos_ne _ e, State.pos_modPos_ne _ e]; rfl

/-- The end of a step and a reply in the slot do not touch each other. -/
theorem endStep_slot {X : State} {p : Pos} {r : StepRecord} {o d} (hc : (X.pos p).chain = [r]) (hd : r.reportDue o =
    true) (f : Frame) : endStep p o d { X with link := { X.link with slot := some f } } =
    { endStep p o d X with link := { (endStep p o d X).link with slot := some f } } := by
  have : ({ X with link := { X.link with slot := some f } } : State).pos p = X.pos p := rfl
  unfold endStep
  rw [this, hc]
  simp only
  rw [hd]
  rfl

/-- The position of a posted record. -/
theorem pos_posted_self (p : Pos) (r : StepRecord) (s : State) :
    (posted p r s).pos p = { s.pos p with chain := [r], chainState := .running, cardLeftTimer := .stopped } := by
  simp [posted, counted]

/-- No other position changes by it. -/
theorem pos_posted_ne {p q : Pos} (e : q ≠ p) (r : StepRecord) (s : State) : (posted p r s).pos q = s.pos q := by
  simp [posted, counted, e]

/-- The POST of one record that needs a READY port: its work begins on the posted record. -/
theorem post_ready {s : State} {pos tag : Byte} {payload : List Byte} {r : StepRecord} {b : Bool} (h : LinkReady s)
    (hp : pos.toNat < 8) (hpl : payload.length ≤ 61) (hr : postRecords payload = some [(r, b)])
    (he : EmptyIdle (positionOf s.variant pos) s) (hpr : r.progress = none) {k : PortKind} (hk : r.params.kind.port = some k)
    (hw : r.params.kind ≠ .waitCard) (hst : ((s.pos (positionOf s.variant pos)).port k).state = .ready) :
    sendRequest (request .post pos tag payload) s =
      settle (activate (positionOf s.variant pos)
        { posted (positionOf s.variant pos) r s with
          link := { s.link with slot := some (postReply pos tag s b) } }) := by
  rw [post_one h hp hpl hr he hpr]
  generalize positionOf s.variant pos = p at *
  generalize hX : (State.modPos { counted s with freeRecords := s.freeRecords - 1 } p fun v =>
    { v with chain := [r], chainState := .running }) = X
  have hXp : X.pos p = { s.pos p with chain := [r], chainState := .running } := by rw [← hX]; simp [counted]
  have hXq (q : Pos) (e : q ≠ p) : X.pos q = s.pos q := by rw [← hX, State.pos_modPos_ne _ e]; rfl
  have hL (q : Pos) : ({ X with link := { s.link with slot := some (postReply pos tag s b) } } : State).pos q = X.pos q := rfl
  refine congrArg settle ?_
  rw [startHead_port (r := r) (rest := []) (k := k) (by rw [hL, hXp]) hk, hL, hXp]
  have hport : ((({ s.pos p with chain := [r], chainState := .running } : Position)).port k).state = .ready := by
    rw [← hst]; cases k <;> rfl
  have hsa (live : DeviceItems) (v : Position) : startAttempts live r.params v = v := by
    unfold startAttempts
    cases hps : r.params <;> simp [hps, StepParams.kind] at hw ⊢
  simp only [hport, hsa]
  refine congrArg (activate p) (State.ext_pos (fun q => ?_) (by rw [← hX]; rfl))
  show _ = (posted p r s).pos q
  by_cases e : q = p
  · subst e
    rw [State.pos_modPos_self, pos_posted_self, hL, hXp]
  · rw [State.pos_modPos_ne _ e, pos_posted_ne e, hL, hXq q e]

/-- The posted record goes on in its life. -/
theorem posted_setProgress (p : Pos) (r : StepRecord) (s : State) (g : Progress) (L : Link) :
    ({ posted p r s with link := L } : State).setProgress p g = { posted p { r with progress := some g } s with link := L } := by
  refine State.ext_pos (fun q => ?_) rfl
  rw [State.setProgress_eq, State.pos_modPos]
  show _ = (posted p { r with progress := some g } s).pos q
  by_cases e : q = p
  · subst e
    rw [if_pos rfl, pos_posted_self]
    show ((posted q r s).pos q).setProgress g = _
    rw [pos_posted_self]; rfl
  · rw [if_neg e, pos_posted_ne e]
    exact pos_posted_ne e r s

end Sys2Proof.Machine
end

