-- ==== Sys2Proof/Laws/Reports.lean ====
section
/-! SUPPORT. Events that make several reports, and steps that end with records behind them: what the admissions, the start of
the record behind and the arbiter come to. -/

namespace Sys2Proof.Machine

/-! ### Reports admitted one after another -/

@[simp] theorem withReports_nil (s : State) : withReports [] s = s := rfl

@[simp] theorem withReports_cons (r : Report) (rs : List Report) (s : State) :
    withReports (r :: rs) s = withReports rs (withReport r s) := rfl

/-- On a busy transmitter the reports stand at the end of the queue. -/
theorem withReports_busy (rs : List Report) : ∀ {s : State}, s.link.transmitter ≠ none →
    withReports rs s = { s with queue := s.queue ++ rs } := by
  induction rs with
  | nil => intro s _; simp
  | cons r rs ih =>
    intro s h
    have e : withReport r s = { s with queue := s.queue ++ [r] } := by unfold withReport; rw [if_neg h]
    rw [withReports_cons, e, ih (s := { s with queue := s.queue ++ [r] }) h]
    simp

/-- A queue of reports behind a part at rest: the first goes to a free transmitter. -/
theorem settle_queues {X : State} (h : AtRest X) (hw : X.waitOrder = []) {rs : List Report} (hn : ∀ r ∈ rs, r ≠ .notice) :
    settle { X with queue := X.queue ++ rs } = withReports rs X := by
  obtain ⟨h1, h2, h3⟩ := h
  cases ht : X.link.transmitter with
  | some g =>
    rw [withReports_busy rs (by rw [ht]; simp)]
    exact settle_of_atRest ⟨fun _ => hw, h2, fun e => by
      have : X.link.transmitter = none := e
      rw [ht] at this; cases this⟩
  | none =>
    obtain ⟨h4, h5⟩ := h3 ht
    cases rs with
    | nil =>
      have e : ({ X with queue := X.queue ++ [] } : State) = X := by simp
      rw [e]
      exact settle_of_atRest ⟨h1, h2, h3⟩
    | cons r rs =>
      have e1 : withReport r X = { X with link := { X.link with transmitter := some (r.frame []) } } := by
        unfold withReport; rw [if_pos ht]
      rw [withReports_cons, e1, withReports_busy rs (by simp)]
      have hd : nextDue { X with queue := X.queue ++ r :: rs } =
          some { X with queue := rs, link := { X.link with transmitter := some (r.frame []) } } := by
        refine (nextDue_arbiter (s := { X with queue := X.queue ++ r :: rs }) (fun _ => hw) h2).trans ?_
        unfold arbiter
        rw [show ({ X with queue := X.queue ++ r :: rs } : State).link = X.link from rfl, ht, h4]
        simp only [h5, List.nil_append]
        unfold handReport
        rw [if_neg (hn r (by simp))]
      refine (settle_next hd).trans ?_
      refine (settle_of_atRest (s := { X with queue := rs, link := { X.link with transmitter := some (r.frame []) } })
        ⟨fun _ => hw, h2, fun e => by simp at e⟩).trans ?_
      simp [h5]

/-- A class raised whose NOTICE report stands in the queue before other reports: what `withNotice` and then the reports give.
-/
theorem settle_notice_queues {X : State} (h : AtRest X) (hw : X.waitOrder = []) (c : NoticeClass) (who : Option Pos)
    (ha : noticeAsked c who X = true) (rs : List Report) :
    settle { X with notices := raisedNotices c who X, noticeReport := .queued, queue := X.queue ++ .notice :: rs } =
      withReports rs (withNotice c who X) := by
  obtain ⟨h1, h2, h3⟩ := h
  generalize hns : raisedNotices c who X = ns
  have habs : X.noticeReport = .absent := by
    unfold noticeAsked at ha
    simp only [Bool.and_eq_true, decide_eq_true_eq] at ha
    exact ha.2
  have e2 : withNotice c who X =
      if X.link.transmitter = none then
        { X with notices := ns, link := { X.link with transmitter := some (Report.notice.frame (noticePayload ns)) } }
      else { X with notices := ns, queue := X.queue ++ [.notice], noticeReport := .queued } := by
    unfold withNotice
    simp only [ha, if_true, hns]
  cases ht : X.link.transmitter with
  | some g =>
    rw [e2, if_neg (by rw [ht]; simp), withReports_busy rs (by show X.link.transmitter ≠ none; rw [ht]; simp)]
    refine (settle_of_atRest
      (s := { X with notices := ns, noticeReport := .queued, queue := X.queue ++ .notice :: rs })
      ⟨fun _ => hw, h2, fun e => by
        have : X.link.transmitter = none := e
        rw [ht] at this; cases this⟩).trans ?_
    simp
  | none =>
    obtain ⟨h4, h5⟩ := h3 ht
    rw [e2, if_pos ht, withReports_busy rs (by simp)]
    have hcls : (noticeClasses ns).isEmpty = false := by
      have hm : c.idx ∈ noticeClasses ns := by
        unfold noticeClasses
        rw [List.mem_filter]
        refine ⟨mem_allClasses _, ?_⟩
        unfold noticeAsked at ha
        simp only [Bool.and_eq_true, decide_eq_true_eq] at ha
        have hmu : (X.notice c).muted = false := by simpa using ha.1.2
        have hen : (X.notice c).enabled = true := ha.1.1.1
        rw [← hns]
        unfold raisedNotices
        rw [if_pos hen]
        simp [hmu]
      cases hl : noticeClasses ns with
      | nil => rw [hl] at hm; cases hm
      | cons _ _ => rfl
    have hd : nextDue { X with notices := ns, noticeReport := .queued, queue := X.queue ++ .notice :: rs } =
        some { X with
          notices := ns
          queue := rs
          link := { X.link with transmitter := some (Report.notice.frame (noticePayload ns)) } } := by
      refine (nextDue_arbiter
        (s := { X with notices := ns, noticeReport := .queued, queue := X.queue ++ .notice :: rs }) (fun _ => hw) h2).trans ?_
      unfold arbiter
      rw [show ({ X with notices := ns, noticeReport := .queued, queue := X.queue ++ .notice :: rs } : State).link = X.link
        from rfl, ht, h4]
      simp only [h5, List.nil_append]
      unfold handReport
      rw [if_pos rfl]
      simp only [hcls, Bool.false_eq_true, if_false, ← habs]
    refine (settle_next hd).trans ?_
    refine (settle_of_atRest
      (s := { X with
        notices := ns, queue := rs
        link := { X.link with transmitter := some (Report.notice.frame (noticePayload ns)) } })
      ⟨fun _ => hw, h2, fun e => by simp at e⟩).trans ?_
    simp [h5]

/-! ### The reports of one position admitted -/

/-- The reports of one position, of which at most the last frees the head record, are admitted where the queue has room. -/
theorem settle_offered {p : Pos} (rs : List Report) :
    ∀ {s : State} {r : Report} {rest : List Report}, s.waitOrder = [.position p] → (s.pos p).waiting = r :: rest →
      r :: rest = rs → s.queue.length + rs.length ≤ Config.queueLimit →
      (∀ x ∈ rs.dropLast, x.freesRecord = false) → (∀ x ∈ rs.getLast?, x.freesRecord = true) →
      settle s =
        settle (freeHead p (State.modPos
          { s with waitOrder := [], queue := s.queue ++ rs.map (Report.filled (s.pos p).entry) } p
          fun v => { v with waiting := [] })) := by
  induction rs with
  | nil => intro s r rest _ _ h; cases h
  | cons a rs ih =>
    intro s r rest hw hp he hl hd hlast
    obtain ⟨rfl, rfl⟩ : r = a ∧ rest = rs := by simpa using he
    simp only [List.length_cons] at hl
    have hroom : s.queue.length < Config.queueLimit := by omega
    cases rest with
    | nil =>
      have hf : r.freesRecord = true := hlast r (by simp)
      refine settle_next ?_
      rw [nextDue_admit (by rw [hw]; simp) hroom]
      unfold admitHead
      rw [hw]
      simp only
      unfold admitPosition
      rw [hp]
      simp [hf]
    | cons b more =>
      have hf : r.freesRecord = false := hd r (by simp)
      let t : State := State.modPos { s with queue := s.queue ++ [r.filled (s.pos p).entry] } p fun v =>
        { v with waiting := b :: more }
      have hx : nextDue s = some t := by
        rw [nextDue_admit (by rw [hw]; simp) hroom]
        unfold admitHead
        rw [hw]
        simp only
        unfold admitPosition
        rw [hp]
        simp only [hf, Bool.false_eq_true, if_false, List.isEmpty_cons]
        congr 1
        refine State.ext_pos (fun q => rfl) ?_
        simp [t, hw, State.modPos, State.setPos]
      have ht : (t.pos p).waiting = b :: more := by simp [t]
      have hte : (t.pos p).entry = (s.pos p).entry := by
        simp only [t, State.pos_modPos_self]; rfl
      rw [settle_next hx, ih (s := t) hw ht rfl (by
          show (s.queue ++ [_]).length + _ ≤ _
          simp at hl ⊢; omega) (fun x hx => hd x (by simp at hx ⊢; exact .inr hx)) (fun x hx => hlast x (by simpa using hx)), hte]
      congr 2
      refine State.ext_pos (fun q => ?_) ?_
      · by_cases e : q = p
        · subst e; simp [t]
        · simp [t, e]
      · simp [t, State.modPos, State.setPos]

/-! ### A head freed with records behind it -/

/-- A head freed with records behind it, before the next of them starts. -/
def freedBefore (p : Pos) (b : Bool) (rest : List StepRecord) (s : State) : State :=
  (stepFreed p b s).modPos p fun v =>
    if rest = [] then v
    else if b then { v with chain := rest }
    else { v with chain := rest, chainState := .running, cardLeftTimer := (s.pos p).cardLeftTimer }

/-- The start of the card-left timer as one write of the position (R26). -/
theorem startCardLeft_eq (p : Pos) (s : State) :
    startCardLeft p s = s.modPos p fun v =>
      if v.cardPresent && !v.inFlight then
        { v with cardLeftTimer := .running (s.settings.live.leftCard.toNat * 1000) }
      else v := by
  unfold startCardLeft
  simp only
  split
  · rename_i h
    refine State.ext_pos (fun q => ?_) rfl
    by_cases e : q = p
    · subst e; simp only [State.pos_modPos_self, h, if_true]
    · simp only [State.pos_modPos_ne _ e]
  · rename_i h
    exact (State.modPos_id _ _ _ (by rw [if_neg h])).symm

theorem freeHead_before {s : State} {p : Pos} {r : StepRecord} {rest : List StepRecord} (hc : (s.pos p).chain = r :: rest)
    (hn : ∀ n ∈ rest.head?, n.progress = none) (o : StepOutcome) (d : OutcomeData) :
    freeHead p ((stopWork p s).setProgress p (.completing o d false)) =
      freedBefore p { r with progress := some (.completing o d false) : StepRecord }.halts rest s := by
  have h1 : (((stopWork p s).setProgress p (.completing o d false)).pos p).chain =
      { r with progress := some (.completing o d false) } :: rest :=
    chain_setProgress _ (by rw [chain_stopWork, hc])
  have hpos : ((stopWork p s).setProgress p (.completing o d false)).pos p =
      { s.pos p with
        pass := (s.pos p).pass.disarm
        entry := (s.pos p).entry.closeCollecting
        latchState := if (s.pos p).latchState = .waiting then .off else (s.pos p).latchState
        chain := { r with progress := some (.completing o d false) } :: rest } := by
    by_cases hl : (s.pos p).latchState = .waiting <;> simp [stopWork, Position.setProgress, hc, hl]
  have hne (q : Pos) (e : q ≠ p) : ((stopWork p s).setProgress p (.completing o d false)).pos q = s.pos q := by
    rw [State.setProgress_eq, State.pos_modPos_ne _ e, pos_stopWork_ne e]
  have hoth : ∃ P, (stopWork p s).setProgress p (.completing o d false) =
      { s with latchWait := s.latchWait.filter (· ≠ p), positions := P } := ⟨_, rfl⟩
  unfold freeHead
  rw [h1]
  simp only
  generalize hb : ({ r with progress := some (.completing o d false) } : StepRecord).halts = b
  have hcs : freedChainState { r with progress := some (.completing o d false) } rest =
      if b then .halted else if rest = [] then .idle else .running := by
    unfold freedChainState; rw [hb]
    cases b <;> cases rest <;> simp
  rw [hcs]
  generalize (stopWork p s).setProgress p (.completing o d false) = W at hpos hne hoth ⊢
  obtain ⟨P, hW⟩ := hoth
  have hz (n : Nat) (q : Pos) : ({ W with freeRecords := n } : State).pos q = W.pos q := rfl
  have hset : W.settings = s.settings := by rw [hW]
  unfold freedBefore
  rw [startCardLeft_eq]
  refine State.ext_pos (fun q => ?_) ?_
  · by_cases e : q = p
    · subst e
      rw [State.pos_modPos_self, pos_stepFreed, if_pos rfl]
      cases b <;> cases rest <;> cases hcp : (s.pos q).cardPresent <;>
        simp_all [entry_closed, Position.inFlight, Position.headProgress]
    · rw [State.pos_modPos_ne _ e, pos_stepFreed, if_neg e]
      cases b <;> cases rest <;> simp [e, hne q e, hz]
  · rw [hW]
    cases b <;> cases rest <;> rfl

/-- The head freed and the next record, a PAUSE, due to start: it starts. -/
theorem settle_freedBefore {s : State} (h : ∀ q, startDue (s.pos q) = false) (hw : s.waitOrder = []) {p : Pos} {b : Bool} {rest : List StepRecord}
    (hn : ∀ n ∈ rest.head?, n.progress = none) (hp : b = true ∨ PauseNext rest) (rs : List Report) :
    settle { freedBefore p b rest s with queue := s.queue ++ rs } =
      settle { stepFreedTo p b rest s with queue := s.queue ++ rs } := by
  have hsame : (b = true ∨ rest = []) → freedBefore p b rest s = stepFreedTo p b rest s := by
    rintro (rfl | rfl) <;> rfl
  by_cases hb : b = true ∨ rest = []
  · rw [hsame hb]
  · obtain ⟨hb, hr⟩ := not_or.mp hb
    have hb : b = false := by simpa using hb
    subst hb
    obtain ⟨n, more, rfl⟩ : ∃ n more, rest = n :: more := by
      cases rest with
      | nil => exact absurd rfl hr
      | cons n more => exact ⟨n, more, rfl⟩
    obtain ⟨hnp, d, hd⟩ : n.progress = none ∧ ∃ d, n.params = .pause d := by
      rcases hp with hp | hp
      · cases hp
      · exact hp n rfl
    let X : State := { freedBefore p false (n :: more) s with queue := s.queue ++ rs }
    have hX : X.pos p = { (stepFreed p false s).pos p with
        chain := n :: more, chainState := .running, cardLeftTimer := (s.pos p).cardLeftTimer } := by
      show (freedBefore p false (n :: more) s).pos p = _
      unfold freedBefore
      rw [State.pos_modPos_self]
      rfl
    have hXne (q : Pos) (e : q ≠ p) : X.pos q = s.pos q := by
      show (freedBefore p false (n :: more) s).pos q = _
      unfold freedBefore
      rw [State.pos_modPos_ne _ e, pos_stepFreed, if_neg e]
    have hdue : nextDue X = some (startHead p X) := by
      refine nextDue_start (fun _ => hw) ?_ (fun q e => ?_)
      · rw [hX]
        simp [startDue, Position.inFlight, Position.headProgress, hnp]
      · rw [hXne q e]
        exact h q
    have hs : startHead p X = { stepFreedTo p false (n :: more) s with queue := s.queue ++ rs } := by
      unfold startHead
      rw [hX]
      simp only [hd, StepParams.kind, StepKind.port, startAttempts]
      unfold activate
      simp only [State.pos_modPos_self, hX, hd]
      refine State.ext_pos (fun q => ?_) rfl
      show _ = (stepFreedTo p false (n :: more) s).pos q
      unfold stepFreedTo
      by_cases e : q = p
      · subst e
        simp [hX, Position.setProgress, pauseStarted, hd]
      · rw [State.setProgress_eq, State.pos_modPos_ne _ e, State.pos_modPos_ne _ e, State.pos_modPos_ne _ e, hXne q e,
          pos_stepFreed, if_neg e]
    rw [← hs]
    exact settle_next hdue

theorem atRest_stepFreedTo {s : State} (h : AtRest s) (p : Pos) {b : Bool} {rest : List StepRecord}
    (hp : b = true ∨ PauseNext rest) : AtRest (stepFreedTo p b rest s) := by
  obtain ⟨h1, h2, h3⟩ := atRest_stepFreed h p b
  refine ⟨h1, fun q => ?_, h3⟩
  unfold stepFreedTo
  rw [State.pos_modPos]
  split
  · rename_i e
    subst e
    have hq := h2 q
    cases b with
    | true => split <;> simp_all [startDue, pos_stepFreed]
    | false =>
      split
      · exact hq
      · rcases hp with hp | hp
        · cases hp
        · cases rest with
          | nil => contradiction
          | cons n more =>
            obtain ⟨hn, d, hd⟩ := hp n rfl
            simp [startDue, pauseStarted, hd, Position.inFlight, Position.headProgress]
  · exact h2 q

/-- The head step of a position ends, with completion reports of which the last frees its record: the reports are in the
queue, the record is freed, and a PAUSE behind it has started, unless the chain halts. -/
theorem settle_endStep_queued {s : State} (hs : ∀ q, startDue (s.pos q) = false) (hw : s.waitOrder = []) {p : Pos}
    (he : (s.pos p).waiting = []) {r : StepRecord}
    {rest : List StepRecord} (hc : (s.pos p).chain = r :: rest) {o : StepOutcome} {d : OutcomeData}
    (hd : r.reportDue o = true) {reps : List Report} (hr : completionReports p r o d = reps)
    (hl : s.queue.length + reps.length ≤ Config.queueLimit) (hne : reps ≠ [])
    (h1 : ∀ x ∈ reps.dropLast, x.freesRecord = false) (h2 : ∀ x ∈ reps.getLast?, x.freesRecord = true)
    (hn : ∀ n ∈ rest.head?, n.progress = none)
    (hp : { r with progress := some (.completing o d false) : StepRecord }.halts = true ∨ PauseNext rest) :
    settle (endStep p o d s) =
      settle
        { stepFreedTo p { r with progress := some (.completing o d false) : StepRecord }.halts rest s with
          queue := s.queue ++ reps.map (Report.filled (s.pos p).entry.closeCollecting) } := by
  obtain ⟨a, more, hcons⟩ : ∃ a more, reps = a :: more := by
    cases reps with
    | nil => exact absurd rfl hne
    | cons a more => exact ⟨a, more, rfl⟩
  have hx : endStep p o d s = offer p reps ((stopWork p s).setProgress p (.completing o d false)) := by
    unfold endStep
    rw [hc]
    simp only [hd, if_true, hr]
  generalize hW : (stopWork p s).setProgress p (.completing o d false) = W at hx
  have hWp : W.pos p = { s.pos p with
      pass := (s.pos p).pass.disarm
      entry := (s.pos p).entry.closeCollecting
      latchState := if (s.pos p).latchState = .waiting then .off else (s.pos p).latchState
      chain := { r with progress := some (.completing o d false) } :: rest } := by
    rw [← hW]
    by_cases hl : (s.pos p).latchState = .waiting <;> simp [stopWork, Position.setProgress, hc, hl]
  have hWq : W.queue = s.queue := by rw [← hW]; rfl
  have hWw : W.waitOrder = [] := by rw [← hW]; exact hw
  have hoff : (offer p reps W).pos p = { W.pos p with waiting := reps } := by
    rw [pos_offer_self, hWp]; simp [he]
  rw [hx, settle_offered (p := p) reps (s := offer p reps W) (r := a) (rest := more)
    (by show joinOrder W.waitOrder (.position p) = _; rw [hWw]; rfl) (by rw [hoff, hcons]) hcons.symm
    (by show W.queue.length + _ ≤ _; rw [hWq]; exact hl) h1 h2]
  have hent : ((offer p reps W).pos p).entry = (s.pos p).entry.closeCollecting := by rw [hoff, hWp]
  rw [hent]
  have hY : (State.modPos { offer p reps W with
        waitOrder := [], queue := (offer p reps W).queue ++ reps.map (Report.filled (s.pos p).entry.closeCollecting) } p
        fun v => { v with waiting := [] }) =
      { W with queue := s.queue ++ reps.map (Report.filled (s.pos p).entry.closeCollecting) } := by
    refine State.ext_pos (fun q => ?_) ?_
    · by_cases e : q = p
      · subst e
        rw [State.pos_modPos_self]
        show ({ (offer q reps W).pos q with waiting := [] } : Position) = W.pos q
        rw [hoff, hWp]
        simp [he]
      · rw [State.pos_modPos_ne _ e]
        show (offer p reps W).pos q = W.pos q
        simp [offer, e]
    · show ({ W with waitOrder := [], queue := _, positions := W.positions } : State) = _
      rw [← hWw]
      show ({ W with queue := W.queue ++ _ } : State) = _
      rw [hWq]
  rw [hY, freeHead_withQueue, ← hW, freeHead_before hc hn o d]
  exact settle_freedBefore hs hw hn hp _

/-- A filled report is a NOTICE report where it was one. -/
theorem filled_notice {x : Report} (h : x ≠ .notice) (e : EntryUnit) : x.filled e ≠ .notice := by
  cases x with
  | stepDone a b c d e f => cases f <;> simp [Report.filled]
  | notice => exact absurd rfl h
  | _ => simp [Report.filled]

/-- On a part at rest with room for the reports, these are sent or stand at the end of the queue. -/
theorem settle_endStep_to {s : State} (h : AtRest s) {p : Pos} (he : (s.pos p).waiting = []) {r : StepRecord}
    {rest : List StepRecord} (hc : (s.pos p).chain = r :: rest) {o : StepOutcome} {d : OutcomeData}
    (hd : r.reportDue o = true) {reps : List Report} (hr : completionReports p r o d = reps)
    (hl : s.queue.length + reps.length ≤ Config.queueLimit) (hne : reps ≠ [])
    (h1 : ∀ x ∈ reps.dropLast, x.freesRecord = false) (h2 : ∀ x ∈ reps.getLast?, x.freesRecord = true)
    (hn : ∀ n ∈ rest.head?, n.progress = none)
    (hp : { r with progress := some (.completing o d false) : StepRecord }.halts = true ∨ PauseNext rest)
    (hrn : ∀ x ∈ reps, x ≠ .notice) :
    settle (endStep p o d s) =
      withReports (reps.map (Report.filled (s.pos p).entry.closeCollecting))
        (stepFreedTo p { r with progress := some (.completing o d false) : StepRecord }.halts rest s) := by
  have hlen : 0 < reps.length := List.length_pos_iff.mpr hne
  have hw : s.waitOrder = [] := h.1 (by omega)
  rw [settle_endStep_queued h.2.1 hw he hc hd hr hl hne h1 h2 hn hp]
  refine settle_queues (atRest_stepFreedTo h p hp) hw ?_
  intro x hx
  obtain ⟨y, hy, rfl⟩ := List.mem_map.mp hx
  exact filled_notice (hrn y hy) _

/-- A raising and the freeing of a head do not depend on each other. -/
theorem withNotice_stepFreedTo (c : NoticeClass) (who : Option Pos) (p : Pos) (b : Bool) (rest : List StepRecord) (s : State) :
    withNotice c who (stepFreedTo p b rest s) = stepFreedTo p b rest (withNotice c who s) := by
  have ha : noticeAsked c who (stepFreedTo p b rest s) = noticeAsked c who s := rfl
  have hn : raisedNotices c who (stepFreedTo p b rest s) = raisedNotices c who s := rfl
  unfold withNotice
  simp only [ha, hn]
  have ht : (stepFreedTo p b rest s).link = s.link := rfl
  rw [ht]
  split
  · split <;> rfl
  · rfl

/-- A class is raised and then the head step of a position ends: the NOTICE report comes before the reports of the step. -/
theorem settle_raise_endStep_to {s : State} (h : AtRest s) {p : Pos} (he : (s.pos p).waiting = []) (c : NoticeClass)
    (who : Option Pos) {r : StepRecord} {rest : List StepRecord} (hc : (s.pos p).chain = r :: rest) {o : StepOutcome}
    {d : OutcomeData} (hd : r.reportDue o = true) {reps : List Report} (hr : completionReports p r o d = reps)
    (hl : s.queue.length + reps.length < Config.queueLimit) (hne : reps ≠ [])
    (h1 : ∀ x ∈ reps.dropLast, x.freesRecord = false) (h2 : ∀ x ∈ reps.getLast?, x.freesRecord = true)
    (hn : ∀ n ∈ rest.head?, n.progress = none)
    (hp : { r with progress := some (.completing o d false) : StepRecord }.halts = true ∨ PauseNext rest)
    (hrn : ∀ x ∈ reps, x ≠ .notice) :
    settle (endStep p o d (raise c who s)) =
      withReports (reps.map (Report.filled (s.pos p).entry.closeCollecting))
        (stepFreedTo p { r with progress := some (.completing o d false) : StepRecord }.halts rest (withNotice c who s)) := by
  have hw : s.waitOrder = [] := h.1 (by omega)
  cases ha : noticeAsked c who s with
  | false =>
    have e1 : raise c who s = { s with notices := raisedNotices c who s } := by rw [raise_eq, if_neg (by simp [ha])]
    have e2 : withNotice c who s = { s with notices := raisedNotices c who s } := by
      unfold withNotice; simp only [ha, Bool.false_eq_true, if_false]
    rw [e1, e2]
    exact settle_endStep_to (s := { s with notices := raisedNotices c who s }) ⟨h.1, h.2.1, h.2.2⟩ he hc hd hr (by
      show s.queue.length + _ ≤ _; omega) hne h1 h2 hn hp hrn
  | true =>
    generalize hns : raisedNotices c who s = ns
    have habs : s.noticeReport = .absent := by
      unfold noticeAsked at ha
      simp only [Bool.and_eq_true, decide_eq_true_eq] at ha
      exact ha.2
    have e1 : raise c who s = { s with notices := ns, noticeReport := .waiting, waitOrder := [.notices] } := by
      rw [raise_eq, if_pos ha, hns]
      unfold askNotice
      rw [if_pos habs]
      simp [hw, joinOrder]
    let Y : State := { s with notices := ns, noticeReport := .queued, queue := s.queue ++ [.notice] }
    have hx : nextDue (endStep p o d (raise c who s)) = some (endStep p o d Y) := by
      have hof (X : State) (hX : (X.pos p).chain = r :: rest) :
          endStep p o d X = offer p reps ((stopWork p X).setProgress p (.completing o d false)) := by
        unfold endStep; rw [hX]; simp only [hd, if_true, hr]
      rw [hof _ (by rw [e1]; exact hc), hof Y hc, e1]
      rw [nextDue_admit (by
          show joinOrder [Producer.notices] (.position p) ≠ []
          simp [joinOrder]) (by
          show s.queue.length < _
          omega)]
      rw [show (offer p reps
          ((stopWork p { s with notices := ns, noticeReport := .waiting, waitOrder := [.notices] }).setProgress p
            (.completing o d false))) =
          { offer p reps ((stopWork p Y).setProgress p (.completing o d false)) with
            noticeReport := .waiting, queue := s.queue, waitOrder := [.notices, .position p] } from rfl]
      unfold admitHead
      simp only
      congr 1
      refine State.ext_pos (fun q => rfl) ?_
      show _ = _
      simp [offer, stopWork, Y, hw, joinOrder, State.setProgress]
    have hcount : Y.queue.length + reps.length ≤ Config.queueLimit := by
      show (s.queue ++ [Report.notice]).length + _ ≤ _
      simp; omega
    rw [settle_next hx, settle_endStep_queued (s := Y) h.2.1 hw he hc hd hr hcount hne h1 h2 hn hp]
    rw [show Y.pos p = s.pos p from rfl, ← withNotice_stepFreedTo]
    generalize hb : { r with progress := some (.completing o d false) : StepRecord }.halts = b at hp ⊢
    have key := settle_notice_queues (X := stepFreedTo p b rest s) (atRest_stepFreedTo h p hp) hw c who ha
      (reps.map (Report.filled (s.pos p).entry.closeCollecting))
    rw [← key]
    refine congrArg settle ?_
    refine State.ext_pos (fun q => rfl) ?_
    show _ = _
    rw [show raisedNotices c who (stepFreedTo p b rest s) = ns from hns]
    simp [Y, stepFreedTo, stepFreed, State.modPos, State.setPos]

/-- `settle_endStep_to` for a step that makes one report. -/
theorem settle_endStep_to_one {s : State} (h : AtRest s) (hq : s.queue.length < Config.queueLimit) {p : Pos}
    (he : (s.pos p).waiting = []) {r : StepRecord} {rest : List StepRecord} (hc : (s.pos p).chain = r :: rest)
    {o : StepOutcome} {d : OutcomeData} (hd : r.reportDue o = true) {rep : Report} (hr : completionReports p r o d = [rep])
    (hf : rep.freesRecord = true) (hn : ∀ n ∈ rest.head?, n.progress = none)
    (hp : { r with progress := some (.completing o d false) : StepRecord }.halts = true ∨ PauseNext rest) :
    settle (endStep p o d s) =
      withReport (rep.filled (s.pos p).entry.closeCollecting)
        (stepFreedTo p { r with progress := some (.completing o d false) : StepRecord }.halts rest s) := by
  rw [settle_endStep_to h he hc hd hr (by simpa using hq) (by simp) (by simp) (by simpa using hf) hn hp
    (by rintro x hx rfl; simp at hx; subst hx; cases hf)]
  rfl

/-- A step ends with no report due and with records behind it: its record is freed at once. -/
theorem settle_endStep_silent_to {s : State} (h : AtRest s) (hw : s.waitOrder = []) {p : Pos} {r : StepRecord}
    {rest : List StepRecord} (hc : (s.pos p).chain = r :: rest) {o : StepOutcome} {d : OutcomeData}
    (hd : r.reportDue o = false) (hn : ∀ n ∈ rest.head?, n.progress = none)
    (hp : { r with progress := some (.completing o d false) : StepRecord }.halts = true ∨ PauseNext rest) :
    settle (endStep p o d s) =
      stepFreedTo p { r with progress := some (.completing o d false) : StepRecord }.halts rest s := by
  have hx : endStep p o d s = freeHead p ((stopWork p s).setProgress p (.completing o d false)) := by
    unfold endStep
    rw [hc]
    simp [hd]
  rw [hx, freeHead_before hc hn o d]
  have e (X : State) (hX : X.queue = s.queue) : ({ X with queue := s.queue ++ [] } : State) = X := by
    rw [List.append_nil, ← hX]
  have := settle_freedBefore (p := p) (b := { r with progress := some (.completing o d false) : StepRecord }.halts) h.2.1 hw hn hp []
  refine (congrArg settle (e (freedBefore p _ rest s) rfl)).symm.trans (this.trans ?_)
  exact (congrArg settle (e (stepFreedTo p _ rest s) rfl)).trans (settle_of_atRest (atRest_stepFreedTo h p hp))

/-- With no records behind, the freeing leaves an empty chain. -/
theorem stepFreedTo_nil (p : Pos) (b : Bool) (s : State) : stepFreedTo p b [] s = stepFreed p b s :=
  State.modPos_id _ _ _ rfl

/-- A raising does not read or write the positions and the lists of the latch supervisor. -/
theorem raise_with (c : NoticeClass) (who : Option Pos) (s : State) (P) (L E : List Pos) :
    raise c who { s with positions := P, latchWait := L, energized := E } =
      { raise c who s with positions := P, latchWait := L, energized := E } := by
  unfold raise askNotice
  simp only
  have : ({ s with positions := P, latchWait := L, energized := E } : State).notice c = s.notice c := rfl
  rw [this]
  split
  · split
    · split <;> rfl
    · rfl
  · rfl

theorem withNotice_with (c : NoticeClass) (who : Option Pos) (s : State) (P) (L E : List Pos) :
    withNotice c who { s with positions := P, latchWait := L, energized := E } =
      { withNotice c who s with positions := P, latchWait := L, energized := E } := by
  unfold withNotice
  have ha : noticeAsked c who { s with positions := P, latchWait := L, energized := E } = noticeAsked c who s := rfl
  have hb : raisedNotices c who { s with positions := P, latchWait := L, energized := E } = raisedNotices c who s := rfl
  simp only [ha, hb]
  split
  · split <;> rfl
  · rfl

theorem pos_withNotice (c who) (s : State) (q : Pos) : (withNotice c who s).pos q = s.pos q := by
  unfold withNotice
  simp only
  split
  · split <;> rfl
  · rfl

theorem settings_withNotice (c who) (s : State) : (withNotice c who s).settings = s.settings ∧
    (withNotice c who s).latchWait = s.latchWait ∧ (withNotice c who s).energized = s.energized := by
  unfold withNotice
  simp only
  split
  · split <;> exact ⟨rfl, rfl, rfl⟩
  · exact ⟨rfl, rfl, rfl⟩

/-- The segments of a text that a WAIT CARD ends with (R19). -/
theorem completionReports_card (p : Pos) (r : StepRecord) (a t : Nat) (hps : r.params = .waitCard a t) (o : StepOutcome)
    (ho : o = .done ∨ o = .screened) (d : CardData) :
   completionReports p r o (.card d) = 
    (let text := d.text
     let last (n : Nat) (part : List Byte) : Report :=
        .cardSegment p n part (some { tag := r.tag, outcome := o, data := d, total := text.length })
     if text.length ≤ 48 then [last 1 text]
          else if text.length ≤ 96 then [.cardSegment p 1 (text.take 48) none, last 2 (text.drop 48)]
          else [.cardSegment p 1 (text.take 48) none, .cardSegment p 2 ((text.drop 48).take 48) none, last 3 (text.drop 96)]) := by
  unfold completionReports
  rw [hps]
  simp only [OutcomeData.cardData]
  have : reportedText o d = d.text := by unfold reportedText; rw [if_pos (by simpa using ho)]
  rw [this]
  by_cases h1 : d.text.length ≤ 48
  · rw [if_pos h1]; simp [cutText, h1, numberSegments]
  · rw [if_neg h1]
    by_cases h2 : d.text.length ≤ 96
    · have h3 : d.text.length ≤ 48 + 48 := h2
      rw [if_pos h2]; simp [cutText, h1, h3, numberSegments]
    · have h3 : ¬ d.text.length ≤ 48 + 48 := h2
      rw [if_neg h2]; simp [cutText, h1, h3, numberSegments]

/-- A step ends while a reply is placed (log 15). -/
theorem settle_slot_ended {s : State} (h : AtRest s) (hq : s.queue.length < Config.queueLimit) {p : Pos}
    (he : (s.pos p).waiting = []) {r : StepRecord} (hc : (s.pos p).chain = [r]) {o : StepOutcome} {d : OutcomeData}
    {rep : Report} (hr : completionReports p r o d = [rep]) (hf : rep.freesRecord = true) (hfill : ∀ e, rep.filled e = rep)
    (f : Frame) :
    settle (endStep p o d { s with link := { s.link with slot := some f } }) =
      endedWithReply f p { r with progress := some (.completing o d false) : StepRecord }.halts
        (if r.reportDue o then some rep else none) s := by
  cases hd : r.reportDue o with
  | true => exact settle_slot_endStep (h.1 hq) hq he hc hd hr hf f (hfill _) (atRest_stepFreed h p _)
  | false =>
    have hx (t : State) (ht : (t.pos p).chain = [r]) :
        endStep p o d t = freeHead p ((stopWork p t).setProgress p (.completing o d false)) := by
      unfold endStep
      rw [ht]
      simp [hd]
    have hs : endStep p o d { s with link := { s.link with slot := some f } } =
        { endStep p o d s with link := { (endStep p o d s).link with slot := some f } } := by
      have h1 := hx { s with link := { s.link with slot := some f } } hc
      rw [h1, freeHead_before (s := { s with link := { s.link with slot := some f } }) hc (by simp), hx s hc,
        freeHead_before hc (by simp)]
      rfl
    rw [hs, hx s hc, freeHead_before hc (by simp)]
    have hb : freedBefore p { r with progress := some (.completing o d false) : StepRecord }.halts [] s =
        stepFreed p { r with progress := some (.completing o d false) : StepRecord }.halts s := by
      unfold freedBefore
      exact State.modPos_id _ _ _ (by simp)
    rw [hb]
    refine (settle_slot (atRest_stepFreed h p _) f).trans ?_
    unfold endedWithReply
    simp only [Bool.false_eq_true, if_false, Option.toList, List.append_nil]
    unfold withReply
    split <;> rfl

end Sys2Proof.Machine
end

