-- ==== Sys2Proof/Laws/Grants.lean ====
section
/-! SUPPORT. Grant decisions: which request is granted, and what the end of the granted step comes to. -/

namespace Sys2Proof.Machine

theorem grantLoop_idle (n : Nat) {s : State}
    (h : s.settings.live.latchBudget.toNat ≤ s.energized.length ∨ ∀ x ∈ s.latchWait, eligible s x = false) :
    grantLoop n s = s := by
  cases n with
  | zero => rfl
  | succ n =>
    unfold grantLoop
    split
    · rename_i hr
      have hf : s.latchWait.find? (eligible s) = none := by
        rw [List.find?_eq_none]
        intro x hx
        rcases h with h | h
        · omega
        · simp [h x hx]
      rw [hf]
    · rfl

/-- With the budget full, or nobody eligible, a grant decision grants nothing (R126). -/
theorem grantDecision_idle {s : State}
    (h : s.settings.live.latchBudget.toNat ≤ s.energized.length ∨ ∀ x ∈ s.latchWait, eligible s x = false) :
    grantDecision s = s := grantLoop_idle _ h

theorem freeHead_lists (p : Pos) (s : State) :
    (freeHead p s).latchWait = s.latchWait ∧ (freeHead p s).energized = s.energized ∧
      (freeHead p s).settings = s.settings := by
  unfold freeHead
  split
  · exact ⟨rfl, rfl, rfl⟩
  · simp only
    split
    · exact ⟨rfl, rfl, rfl⟩
    · unfold startCardLeft
      simp only
      split <;> exact ⟨rfl, rfl, rfl⟩

/-- What the end of a step leaves of the latch supervisor's lists. -/
theorem endStep_lists (p : Pos) (o : StepOutcome) (d : OutcomeData) (s : State) :
    (∀ x ∈ (endStep p o d s).latchWait, x ∈ s.latchWait) ∧ (endStep p o d s).energized = s.energized ∧
      (endStep p o d s).settings = s.settings := by
  unfold endStep
  split
  · exact ⟨fun _ h => h, rfl, rfl⟩
  · simp only
    split
    · exact ⟨fun x h => List.mem_of_mem_filter (p := fun q => decide (q ≠ p)) h, rfl, rfl⟩
    · rw [(freeHead_lists _ _).1, (freeHead_lists _ _).2.1, (freeHead_lists _ _).2.2]
      exact ⟨fun x h => List.mem_of_mem_filter (p := fun q => decide (q ≠ p)) h, rfl, rfl⟩

theorem grant_lists (q : Pos) (s : State) :
    (∀ x ∈ (grant q s).latchWait, x ∈ s.latchWait ∧ x ≠ q) ∧ (grant q s).energized = s.energized ++ [q] ∧
      (grant q s).settings = s.settings := by
  unfold grant endGranted
  simp only
  have hm : ∀ x ∈ s.latchWait.filter (· ≠ q), x ∈ s.latchWait ∧ x ≠ q := by
    intro x hx
    simpa using hx
  split
  · have h := endStep_lists q .done .nothing
      (State.modPos { s with latchWait := s.latchWait.filter (· ≠ q), energized := s.energized ++ [q] } q fun v =>
        { v with latchState := .energized, ceilingTimer := .running (s.settings.live.latchCeiling.toNat * 1000) })
    exact ⟨fun x hx => hm x (h.1 x hx), h.2.1, h.2.2⟩
  · rename_i i text flags _
    have h := endStep_lists q .screened (.card { text := text, flags := flags, entryId := some i, hold := .held })
      (State.modPos { s with latchWait := s.latchWait.filter (· ≠ q), energized := s.energized ++ [q] } q fun v =>
        { v with latchState := .energized, ceilingTimer := .running (s.settings.live.latchCeiling.toNat * 1000) })
    exact ⟨fun x hx => hm x (h.1 x hx), h.2.1, h.2.2⟩
  · exact ⟨hm, rfl, rfl⟩

/-- The oldest eligible request is granted; the decision ends there where the budget is then full, or nobody else is
eligible (R126). -/
theorem grantDecision_one {s : State} {q : Pos} {before after : List Pos} (hw : s.latchWait = before ++ q :: after)
    (hb : ∀ x ∈ before, eligible s x = false) (hq : eligible s q = true)
    (hr : s.energized.length < s.settings.live.latchBudget.toNat)
    (hs : s.energized.length + 1 = s.settings.live.latchBudget.toNat ∨ ∀ x ∈ after, x ≠ q → eligible s x = false) :
    grantDecision s = grant q s := by
  unfold grantDecision
  obtain ⟨n, hn⟩ : ∃ n, s.latchWait.length = n + 1 := ⟨before.length + after.length, by rw [hw]; simp; omega⟩
  rw [hn]
  unfold grantLoop
  rw [if_pos hr]
  have hf : s.latchWait.find? (eligible s) = some q := by
    rw [hw, List.find?_append, List.find?_eq_none.mpr (fun x hx => by simp [hb x hx])]
    simp [hq]
  rw [hf]
  simp only
  obtain ⟨h1, h2, h3⟩ := grant_lists q s
  refine grantLoop_idle n ?_
  rw [h2, h3]
  rcases hs with hs | hs
  · exact .inl (by simp; omega)
  · refine .inr fun x hx => ?_
    obtain ⟨hx1, hx2⟩ := h1 x hx
    have : eligible (grant q s) x = eligible s x := by
      unfold eligible
      rw [pos_grant_ne hx2]
    rw [this]
    rw [hw] at hx1
    rcases List.mem_append.mp hx1 with h | h
    · exact hb x h
    · rcases List.mem_cons.mp h with h | h
      · exact absurd h hx2
      · exact hs x h hx2

theorem eligible_of {s : State} {q : Pos} (h1 : (s.pos q).reader.state = .ready) (h2 : (s.pos q).cardPresent = true)
    (h3 : (s.pos q).reEnergizeTimer = .stopped) : eligible s q = true := by
  unfold eligible
  simp [h1, h2, h3, Timer.isRunning]

theorem not_eligible_of {s : State} {x : Pos} (h : PassedOver x s) : eligible s x = false := by
  unfold eligible
  rcases h with h | h | h <;> simp [h]

/-- The latch given to a position whose request has left the list. -/
def grantedTo (q : Pos) (s : State) : State := { latchOn q s with latchWait := s.latchWait.filter (· ≠ q) }

theorem pos_grantedTo_self (q : Pos) (s : State) : (grantedTo q s).pos q =
    { s.pos q with latchState := .energized, ceilingTimer := .running (s.settings.live.latchCeiling.toNat * 1000) } := by
  show (latchOn q s).pos q = _
  unfold latchOn
  rw [State.pos_modPos_self]
  rfl

theorem pos_grantedTo_ne {q x : Pos} (h : x ≠ q) (s : State) : (grantedTo q s).pos x = s.pos x := by
  show (latchOn q s).pos x = _
  unfold latchOn
  rw [State.pos_modPos_ne _ h]
  rfl

theorem grant_eq (q : Pos) (s : State) : grant q s = endGranted q (grantedTo q s) := rfl

theorem atRest_grantedTo {s : State} (h : AtRest s) (q : Pos) : AtRest (grantedTo q s) := by
  obtain ⟨h1, h2, h3⟩ := h
  refine ⟨h1, fun x => ?_, h3⟩
  by_cases e : x = q
  · subst e; rw [pos_grantedTo_self]; exact h2 x
  · rw [pos_grantedTo_ne e]; exact h2 x

/-- The freeing withdraws the request, so it is one whether it has left before or not. -/
theorem stepFreed_grantedTo (q : Pos) (b : Bool) (s : State) : stepFreed q b (grantedTo q s) = stepFreed q b (latchOn q s) := by
  have h : (grantedTo q s).latchWait.filter (· ≠ q) = (latchOn q s).latchWait.filter (· ≠ q) := by
    show (s.latchWait.filter (· ≠ q)).filter (· ≠ q) = s.latchWait.filter (· ≠ q)
    rw [List.filter_filter]; simp
  refine State.ext_pos (fun x => rfl) ?_
  unfold stepFreed
  simp only [h]
  rfl

/-- What the granted step of a waiter is. -/
theorem OldestWaiter.ends {q : Pos} {r : StepRecord} {rep : Report} {b : Bool} {s : State} (h : OldestWaiter q r rep b s) :
    ∃ o d, (∀ t : State, (t.pos q).chain = [r] → endGranted q t = endStep q o d t) ∧ r.reportDue o = true ∧
      completionReports q r o d = [rep] ∧ rep.freesRecord = true ∧ (∀ e, rep.filled e = rep) ∧
      { r with progress := some (.completing o d false) : StepRecord }.halts = b := by
  rcases h.step with ⟨h1, h2, h3, rfl, rfl⟩ | ⟨a, t, i, text, flags, h1, h2, h3, rfl, rfl⟩
  · refine ⟨.done, .nothing, fun t ht => ?_, by simp [StepRecord.reportDue, h3], ?_, rfl, fun _ => rfl, halts_done _ _⟩
    · unfold endGranted; rw [work_of ht h2]
    · unfold completionReports; rw [h1]; rfl
  · refine ⟨.screened, .card { text := text, flags := flags, entryId := some i, hold := .held }, fun t ht => ?_,
      due_fail r (by decide), ?_, rfl, fun _ => rfl, halts_eq _ _ _ (by decide)⟩
    · unfold endGranted; rw [work_of ht h2]
    · unfold completionReports
      rw [h1]
      simp only [OutcomeData.cardData, reportedText]
      rw [if_pos (by decide)]
      unfold cutText
      rw [if_pos h3]
      rfl

theorem OldestWaiter.decision {q : Pos} {r : StepRecord} {rep : Report} {b : Bool} {s : State} (h : OldestWaiter q r rep b s)
    (hr : s.energized.length < s.settings.live.latchBudget.toNat)
    (hs : s.energized.length + 1 = s.settings.live.latchBudget.toNat ∨ ∀ x ∈ s.latchWait, x ≠ q → PassedOver x s) :
    grantDecision s = endGranted q (grantedTo q s) := by
  obtain ⟨before, after, h1, h2⟩ := h.oldest
  rw [← grant_eq]
  refine grantDecision_one h1 (fun x hx => not_eligible_of (h2 x hx)) (eligible_of h.ready h.card h.interval) hr ?_
  exact hs.imp id fun k x hx hn => not_eligible_of (k x (by rw [h1]; simp [hx]) hn)

/-- A grant decision that gives the latch to one waiter. -/
theorem settle_grant {q : Pos} {r : StepRecord} {rep : Report} {b : Bool} {s : State} (hrest : AtRest s)
    (hroom : s.queue.length < Config.queueLimit) (h : OldestWaiter q r rep b s)
    (hr : s.energized.length < s.settings.live.latchBudget.toNat)
    (hs : s.energized.length + 1 = s.settings.live.latchBudget.toNat ∨ ∀ x ∈ s.latchWait, x ≠ q → PassedOver x s) :
    settle (grantDecision s) = withReport rep (stepFreed q b (latchOn q s)) := by
  obtain ⟨o, d, h1, h2, h3, h4, h5, h6⟩ := h.ends
  have hg := pos_grantedTo_self q s
  rw [h.decision hr hs, h1 _ (by rw [hg]; exact h.chain)]
  rw [settle_endStep (atRest_grantedTo hrest q) hroom (by rw [hg]; exact h.noneWaiting) (by rw [hg]; exact h.chain) h2 h3 h4,
    h5, h6, stepFreed_grantedTo]

/-! ### A notice before the grant -/

theorem OldestWaiter.congr {q : Pos} {r : StepRecord} {rep : Report} {b : Bool} {s t : State} (h : OldestWaiter q r rep b s)
    (hp : ∀ x, t.pos x = s.pos x) (hl : t.latchWait = s.latchWait) : OldestWaiter q r rep b t := by
  obtain ⟨⟨x, y, h1, h2⟩, h3, h4, h5, h6, h7, h8, h9⟩ := h
  refine ⟨⟨x, y, hl.trans h1, fun z hz => ?_⟩, ?_, ?_, ?_, ?_, ?_, ?_, h9⟩
  · unfold PassedOver
    rw [hp]
    exact h2 z hz
  all_goals rw [hp]; assumption

/-- A raising and the giving of the latch do not depend on each other. -/
theorem grantedTo_raise (c : NoticeClass) (who : Option Pos) (q : Pos) (s : State) :
    grantedTo q (raise c who s) = raise c who (grantedTo q s) := by
  have h := raise_with c who s (grantedTo q s).positions (grantedTo q s).latchWait (grantedTo q s).energized
  rw [show ({ s with
    positions := (grantedTo q s).positions
    latchWait := (grantedTo q s).latchWait
    energized := (grantedTo q s).energized } : State) = grantedTo q s from rfl] at h
  rw [h]
  refine State.ext_pos (fun x => ?_) ?_
  · show _ = (grantedTo q s).pos x
    by_cases e : x = q
    · subst e; rw [pos_grantedTo_self, pos_grantedTo_self, pos_raise, settings_raise]
    · rw [pos_grantedTo_ne e, pos_grantedTo_ne e, pos_raise]
  · have h1 : (grantedTo q (raise c who s)).latchWait = (grantedTo q s).latchWait := by
      show (raise c who s).latchWait.filter _ = _
      rw [latchWait_raise]; rfl
    have h2 : (grantedTo q (raise c who s)).energized = (grantedTo q s).energized := by
      show (raise c who s).energized ++ _ = _
      rw [energized_raise]; rfl
    rw [← h1, ← h2]
    rfl

theorem stepFreed_withNotice (c : NoticeClass) (who : Option Pos) (p : Pos) (b : Bool) (s : State) :
    stepFreed p b (withNotice c who s) = withNotice c who (stepFreed p b s) := by
  rw [← stepFreedTo_nil, ← stepFreedTo_nil, withNotice_stepFreedTo]

theorem latchOn_withNotice (c : NoticeClass) (who : Option Pos) (q : Pos) (s : State) :
    latchOn q (withNotice c who s) = withNotice c who (latchOn q s) := by
  have ha : noticeAsked c who (latchOn q s) = noticeAsked c who s := rfl
  have hn : raisedNotices c who (latchOn q s) = raisedNotices c who s := rfl
  have hl : (latchOn q s).link = s.link := rfl
  unfold withNotice
  simp only [ha, hn, hl]
  split
  · split <;> rfl
  · rfl

/-- A class is raised, and then a grant decision gives the latch to one waiter: the NOTICE report comes first. -/
theorem settle_raise_grant {q : Pos} {r : StepRecord} {rep : Report} {b : Bool} {s : State} (hrest : AtRest s)
    (hroom : s.queue.length < 31) (c : NoticeClass) (who : Option Pos) (h : OldestWaiter q r rep b s)
    (hr : s.energized.length < s.settings.live.latchBudget.toNat)
    (hs : s.energized.length + 1 = s.settings.live.latchBudget.toNat ∨ ∀ x ∈ s.latchWait, x ≠ q → PassedOver x s) :
    settle (grantDecision (raise c who s)) = withReport rep (stepFreed q b (latchOn q (withNotice c who s))) := by
  obtain ⟨o, d, h1, h2, h3, h4, h5, h6⟩ := h.ends
  have hk := h.congr (t := raise c who s) (fun x => pos_raise _ _ _ x) (latchWait_raise _ _ _)
  have hg := pos_grantedTo_self q s
  rw [hk.decision (by rw [energized_raise, settings_raise]; exact hr) (by
    rw [energized_raise, settings_raise, latchWait_raise]
    refine hs.imp id fun k x hx hn => ?_
    unfold PassedOver
    rw [pos_raise]
    exact k x hx hn), grantedTo_raise, h1 _ (by rw [pos_raise, hg]; exact h.chain)]
  have hne : ∀ x ∈ [rep], x ≠ Report.notice := by
    rintro x hx rfl
    simp at hx
    subst hx
    cases h4
  rw [settle_raise_endStep_to (atRest_grantedTo hrest q) (by rw [hg]; exact h.noneWaiting) c who (rest := [])
    (by rw [hg]; exact h.chain) h2 h3 (by show s.queue.length + 1 < 32; omega) (by simp) (by simp) (by simpa using h4) (by simp)
    (.inr (by intro n hn; simp at hn)) hne, stepFreedTo_nil, h6, stepFreed_withNotice, stepFreed_grantedTo,
    ← stepFreed_withNotice, ← latchOn_withNotice]
  simp [h5]

end Sys2Proof.Machine
end

