-- ==== Sys2Proof/Laws/Ports.lean ====
section
/-! SUPPORT. One port of a position replaced, a port that becomes READY, a port that is lost, and the power-up list of a
POWER request. -/

namespace Sys2Proof.Machine

/-- One port of a position replaced. -/
def setP (s : State) (p : Pos) (k : PortKind) (w : PortRecord) : State := s.modPos p fun v => v.setPort k w

/-- A change of a port is its replacement. -/
theorem modPort_set {s : State} {p : Pos} {k : PortKind} (f) : s.modPort p k f = setP s p k (f ((s.pos p).port k)) := by
  unfold State.modPort setP
  refine State.ext_pos (fun q => ?_) rfl
  by_cases e : q = p
  · subst e; simp
  · simp [e]

/-- The later replacement stands. -/
theorem set_set {s : State} {p : Pos} {k : PortKind} (a b) : setP (setP s p k a) p k b = setP s p k b := by
  unfold setP
  rw [State.modPos_modPos]
  refine State.ext_pos (fun q => ?_) rfl
  by_cases e : q = p
  · subst e; rw [State.pos_modPos_self, State.pos_modPos_self]; cases k <;> rfl
  · rw [State.pos_modPos_ne _ e, State.pos_modPos_ne _ e]

/-- A port read back. -/
theorem port_set {s : State} {p : Pos} {k : PortKind} (a) : ((setP s p k a).pos p).port k = a := by
  unfold setP; rw [State.pos_modPos_self]; cases k <;> rfl

/-- A replaced port keeps a quiet part quiet. -/
theorem set_quiet {s : State} {p : Pos} (h : Quiet p s) (k a) : Quiet p (setP s p k a) := by
  refine h.modPos _ ?_
  cases k <;> exact ⟨rfl, rfl, rfl⟩

/-- The position after a port is replaced. -/
theorem set_pos {s : State} {p : Pos} (k a) : (setP s p k a).pos p = (s.pos p).setPort k a := State.pos_modPos_self _ _ _

/-- A port becomes READY with no step in flight and the card line low. -/
theorem portReady_set {s : State} {p : Pos} {k : PortKind} (hi : (s.pos p).inFlight = false) (hl : (s.pos p).cardLine =
    false) : portReady p k s = setP s p k (PortRecord.watchUnder (lowerLimit k)
    { (s.pos p).port k with state := .ready, readiness := none, returnChecks := none, underTime := .stopped }) := by
  unfold portReady
  simp only
  rw [modPort_set]
  have hp := set_pos (s := s) (p := p) k (PortRecord.watchUnder (lowerLimit k)
      { (s.pos p).port k with state := .ready, readiness := none, returnChecks := none, underTime := .stopped })
  generalize setP s p k (PortRecord.watchUnder (lowerLimit k)
      { (s.pos p).port k with state := .ready, readiness := none, returnChecks := none, underTime := .stopped }) = X at hp
  have hcl : (X.pos p).cardLine = false := by rw [hp, Position.cardLine_setPort]; exact hl
  have hif : (X.pos p).inFlight = false := by
    rw [hp]
    unfold Position.inFlight Position.headProgress; rw [Position.chain_setPort]; exact hi
  have ht : (if k = .reader then takeCardLine p X else X) = X := by
    unfold takeCardLine; rw [hcl]; simp
  rw [ht, waits_none hif]
  rfl

/-- The inrush allowance is over. -/
theorem inrush_false {r : PortRecord} {c a : Bool} (h : r.readiness = some
    { inrush := false, currentSeen := c, announceSeen := a }) : r.inInrush = false := by
  unfold PortRecord.inInrush; rw [h]

/-- A reader port is lost with no step in flight and no latch to release. -/
theorem lost_reader {s : State} {p : Pos} (hi : (s.pos p).inFlight = false) (st : PortState) (he : st = .absent ∨ (s.pos
    p).latchState ≠ .energized) : portLost p .reader st s = readerLost p s := by
  unfold portLost
  simp only
  have h1 : ((readerLost p s).pos p).needsPort .reader = false := by
    apply needs_none
    unfold readerLost; rw [State.pos_modPos_self]; exact hi
  rw [h1]
  simp only [Bool.false_eq_true, if_false]
  split
  · unfold deEnergize
    rw [if_neg]
    rcases he with e | e
    · rename_i hx; rw [e] at hx; simp at hx
    · unfold readerLost; rw [State.pos_modPos_self]; exact e
  · rfl

/-- A keypad port is lost with no step in flight. -/
theorem lost_keypad {s : State} {p : Pos} (hi : (s.pos p).inFlight = false) (st : PortState) : portLost p .keypad st s =
    keypadLost p s := by
  unfold portLost
  simp only
  have h1 : ((keypadLost p s).pos p).needsPort .keypad = false := by
    apply needs_none
    unfold keypadLost; rw [State.modKey_eq, State.pos_modPos_self]; exact hi
  rw [h1]
  simp

/-- POWER on takes the port (R112). -/
def takenByOn (s : State) (i : PortId) : Bool := (s.port i.pos i.kind).state = .off || (s.port i.pos i.kind).state =
    .fault

/-- What a port becomes when the listed ports are switched to STARTING. -/
def portAfterOn (s : State) (L : List PortId) (p : Pos) (k : PortKind) : PortRecord :=
      if { pos := p, kind := k } ∈ L ∧ takenByOn s { pos := p, kind := k } then { state := .starting } else s.port p k

/-- POWER on at one port. -/
theorem powerOnPort_eq (s : State) (i : PortId) : powerOnPort s i = if takenByOn s i then
    { s.modPort i.pos i.kind (PortRecord.switchOff .starting) with powerList := s.powerList ++ [i] } else s := by
  unfold powerOnPort takenByOn
  cases (s.port i.pos i.kind).state <;> simp

/-- A port read after a change of a port. -/
theorem port_modPort (s : State) (p q : Pos) (k l : PortKind) (f) : (s.modPort p k f).port q l = if q = p ∧ l = k then f
    (s.port p k) else s.port q l := by
  unfold State.modPort
  rw [State.port_eq, State.pos_modPos]
  by_cases e : q = p
  · subst e
    cases k <;> cases l <;> simp [Position.setPort, Position.port, State.port_eq]
  · simp [e, State.port_eq]

/-- POWER on over a list of ports. -/
theorem powerOn_foldl (L : List PortId) : ∀ (s : State), L.Nodup → 
   (∀ p, (L.foldl powerOnPort s).pos p =
       { s.pos p with reader := portAfterOn s L p .reader, keypad := portAfterOn s L p .keypad }) ∧
   L.foldl powerOnPort s =
       { s with positions := (L.foldl powerOnPort s).positions, powerList := s.powerList ++ L.filter (takenByOn s) } := by
  induction L with
  | nil => intro s _; refine ⟨fun p => ?_, by simp⟩; simp [portAfterOn, State.port_eq]; rfl
  | cons i L ih =>
    intro s hn
    rw [List.nodup_cons] at hn
    obtain ⟨hi, hn⟩ := hn
    obtain ⟨h1, h2⟩ := ih (powerOnPort s i) hn
    have hport : ∀ q l, ({ pos := q, kind := l } : PortId) ≠ i → (powerOnPort s i).port q l = s.port q l := by
      intro q l hne
      rw [powerOnPort_eq]
      split
      · show (s.modPort i.pos i.kind _).port q l = _
        rw [port_modPort, if_neg]
        rintro ⟨rfl, rfl⟩; exact hne rfl
      · rfl
    have hst : ∀ j, j ≠ i → takenByOn (powerOnPort s i) j = takenByOn s j := by
      intro j hj; unfold takenByOn; rw [hport j.pos j.kind hj]
    have hb : ∀ q l, portAfterOn (powerOnPort s i) L q l = portAfterOn s (i :: L) q l := by
      intro q l
      unfold portAfterOn
      by_cases e : ({ pos := q, kind := l } : PortId) = i
      · rw [if_neg (by rw [e]; simp [hi])]
        simp only [e, List.mem_cons, true_or, true_and]
        rw [powerOnPort_eq]
        subst e
        split
        · show (s.modPort q l _).port q l = _
          rw [port_modPort]; simp [PortRecord.switchOff]
        · rfl
      · rw [hst _ e, hport q l e]
        simp [e]
    refine ⟨fun p => ?_, ?_⟩
    · rw [List.foldl_cons, h1, hb, hb]
      have hp : ∃ a b, (powerOnPort s i).pos p = { s.pos p with reader := a, keypad := b } := by
        rw [powerOnPort_eq]
        split
        · show ∃ a b, (s.modPort i.pos i.kind _).pos p = _
          unfold State.modPort
          rw [State.pos_modPos]
          split
          · rename_i e; rw [e]
            cases i.kind
            · exact ⟨_, (s.pos i.pos).keypad, rfl⟩
            · exact ⟨(s.pos i.pos).reader, _, rfl⟩
          · exact ⟨_, _, rfl⟩
        · exact ⟨_, _, rfl⟩
      obtain ⟨a, b, hab⟩ := hp
      rw [hab]
    · rw [List.foldl_cons]
      refine h2.trans ?_
      have hpl : (powerOnPort s i).powerList ++ L.filter (takenByOn (powerOnPort s i)) = s.powerList ++ (i :: L).filter
          (takenByOn s) := by
        have : L.filter (takenByOn (powerOnPort s i)) = L.filter (takenByOn s) := by
          apply List.filter_congr
          intro j hj
          exact hst j (fun e => hi (e ▸ hj))
        rw [this, powerOnPort_eq, List.filter_cons]
        split <;> simp
      have e2 : ∀ ps,
          { powerOnPort s i with
            positions := ps, powerList := (powerOnPort s i).powerList ++ L.filter (takenByOn (powerOnPort s i)) } =
          { s with positions := ps, powerList := s.powerList ++ (i :: L).filter (takenByOn s) } := by
        intro ps; rw [hpl, powerOnPort_eq]; split <;> rfl
      exact e2 _

/-- No port is named twice by a POWER request. -/
theorem nodup_ports (v : Variant) (m : Byte) (kind : Byte) (ks) (h : powerKinds kind = some ks) : (powerPorts v m
    ks).Nodup := by
  unfold powerPorts
  have hks : ks.Nodup := by
    unfold powerKinds at h
    split at h
    · cases h; decide
    · split at h
      · cases h; decide
      · split at h
        · cases h; decide
        · cases h
  have ha : (allPos.filter (setNames v m)).Nodup := List.Nodup.filter _ (by decide)
  refine List.nodup_flatMap.2 ⟨fun p _ => ?_, ?_⟩
  · refine List.Nodup.map (fun a b e => ?_) hks
    simpa using e
  · refine List.Pairwise.imp ?_ ha
    intro a b hab
    simp only [Function.onFun]
    intro x hx hy
    simp at hx hy
    obtain ⟨_, _, rfl⟩ := hx
    obtain ⟨_, _, e⟩ := hy
    simp at e
    exact hab e.1.symm

end Sys2Proof.Machine
end

