-- ==== Sys2Proof/Laws/Losses.lean ====
section
/-! SUPPORT. A port that leaves the ports a step may need: the step ends with the port outcome, and a reader that is switched off
releases its latch. -/

namespace Sys2Proof.Machine

/-- The line's units give up their state (R120). -/
def lostUnit (p : Pos) (k : PortKind) (s : State) : State :=
  match k with
  | .reader => readerLost p s
  | .keypad => keypadLost p s

/-- The latch of a position whose reader is switched off is released (R132). -/
def released (p : Pos) (k : PortKind) (st : PortState) (s : State) : State :=
  if k = .reader ∧ st ≠ .absent ∧ (s.pos p).latchState = .energized then latchOff p s else s

theorem chain_lostUnit (p : Pos) (k : PortKind) (s : State) :
    ((lostUnit p k s).pos p).chain = (s.pos p).chain ∧ ((lostUnit p k s).pos p).latchState = (s.pos p).latchState ∧
      ((lostUnit p k s).pos p).waiting = (s.pos p).waiting ∧ (lostUnit p k s).latchWait = s.latchWait := by
  cases k
  · unfold lostUnit readerLost; simp only [State.pos_modPos_self]; exact ⟨trivial, trivial, trivial, rfl⟩
  · unfold lostUnit keypadLost; simp only [State.modKey_eq, State.pos_modPos_self]; exact ⟨trivial, trivial, trivial, rfl⟩

theorem pos_latchOff_self (p : Pos) (s : State) : (latchOff p s).pos p = { s.pos p with
    latchState := .off, ceilingTimer := .stopped, reEnergizeTimer := .running s.settings.live.reEnergize.toNat } := by
  unfold latchOff
  rw [State.pos_modPos_self]
  rfl

theorem pos_latchOff_ne {p q : Pos} (h : q ≠ p) (s : State) : (latchOff p s).pos q = s.pos q := by
  unfold latchOff
  rw [State.pos_modPos_ne _ h]
  rfl

theorem driveOff_eq (p : Pos) (s : State) : driveOff p s = latchOff p s := rfl

/-- A latch goes off and a step of the position ends: neither depends on the other. -/
theorem latchOff_endStep {p : Pos} {s : State} {r : StepRecord} {rest : List StepRecord} {o : StepOutcome} {d : OutcomeData}
    (hc : (s.pos p).chain = r :: rest) (hd : r.reportDue o = true) (hl : (s.pos p).latchState = .energized) :
    latchOff p (endStep p o d s) = endStep p o d (latchOff p s) := by
  have hof (X : State) (hX : (X.pos p).chain = r :: rest) :
      endStep p o d X = offer p (completionReports p r o d) ((stopWork p X).setProgress p (.completing o d false)) := by
    unfold endStep; rw [hX]; simp only [hd, if_true]
  rw [hof s hc, hof (latchOff p s) (by rw [pos_latchOff_self]; exact hc)]
  refine State.ext_pos (fun q => ?_) rfl
  by_cases e : q = p
  · subst e
    rw [pos_latchOff_self, pos_offer_self, pos_offer_self]
    have hlo := pos_latchOff_self q s
    generalize latchOff q s = t at hlo
    have hs : (offer q (completionReports q r o d) ((stopWork q s).setProgress q (.completing o d false))).settings =
        s.settings := rfl
    rw [hs]
    simp [stopWork, Position.setProgress, hc, hl, hlo]
  · rw [pos_latchOff_ne e, pos_offer_ne e, pos_offer_ne e, State.setProgress_eq, State.setProgress_eq,
      State.pos_modPos_ne _ e, State.pos_modPos_ne _ e, pos_stopWork_ne e, pos_stopWork_ne e, pos_latchOff_ne e]

theorem latchState_endStep {p : Pos} {s : State} {r : StepRecord} {rest : List StepRecord} {o : StepOutcome}
    {d : OutcomeData} (hc : (s.pos p).chain = r :: rest) (hd : r.reportDue o = true) :
    ((endStep p o d s).pos p).latchState = if (s.pos p).latchState = .waiting then .off else (s.pos p).latchState := by
  unfold endStep
  rw [hc]
  simp only [hd, if_true]
  rw [pos_offer_self]
  simp only [stopWork, State.setProgress_eq, State.pos_modPos_self, Position.latchState_setProgress]
  rfl

/-- What a port loss does at its position (R120), where the release of its latch is granted to nobody. -/
theorem portLost_eq {p : Pos} {k : PortKind} {st : PortState} {s : State} (hst : st ≠ .ready)
    (hw : k = .reader → st ≠ .absent → (s.pos p).latchState = .energized → s.latchWait = [])
    (hn : (s.pos p).needsPort k = true → ∃ r rest, (s.pos p).chain = r :: rest) :
    portLost p k st s =
      if (s.pos p).needsPort k then endStep p (portOutcome st) .nothing (released p k st (lostUnit p k s))
      else released p k st (lostUnit p k s) := by
  obtain ⟨h1, h2, h3, h4⟩ := chain_lostUnit p k s
  have hne : ((lostUnit p k s).pos p).needsPort k = (s.pos p).needsPort k := by unfold Position.needsPort; rw [h1]
  have hx : portLost p k st s =
      (let t := if (s.pos p).needsPort k then endStep p (portOutcome st) .nothing (lostUnit p k s) else lostUnit p k s
       if k = .reader && st != .absent then deEnergize p t else t) := by
    unfold portLost
    rw [← hne]
    rfl
  rw [hx]
  simp only
  have hfail : portOutcome st ≠ .done := by cases st <;> simp [portOutcome]
  by_cases hk : k = .reader ∧ st ≠ .absent
  · rw [if_pos (by simp [hk.1, hk.2])]
    by_cases hl : (s.pos p).latchState = .energized
    · have hrel : released p k st (lostUnit p k s) = latchOff p (lostUnit p k s) := by
        unfold released; rw [if_pos ⟨hk.1, hk.2, by rw [h2]; exact hl⟩]
      rw [hrel]
      by_cases hb : (s.pos p).needsPort k = true
      · rw [if_pos hb, if_pos hb]
        obtain ⟨r, rest, hc⟩ := hn hb
        rw [← latchOff_endStep (h1.trans hc) (due_fail r hfail) (h2.trans hl)]
        unfold deEnergize
        rw [if_pos (by rw [latchState_endStep (h1.trans hc) (due_fail r hfail), h2, hl]; rfl), driveOff_eq]
        refine grantDecision_none ?_
        have := (endStep_lists p (portOutcome st) .nothing (lostUnit p k s)).1
        rw [h4, hw hk.1 hk.2 hl] at this
        exact List.eq_nil_iff_forall_not_mem.mpr fun x hx => by simpa using this x hx
      · rw [if_neg hb, if_neg hb]
        unfold deEnergize
        rw [if_pos (h2.trans hl), driveOff_eq]
        exact grantDecision_none (h4.trans (hw hk.1 hk.2 hl))
    · have hrel : released p k st (lostUnit p k s) = lostUnit p k s := by
        unfold released; rw [if_neg (by rintro ⟨_, _, e⟩; rw [h2] at e; exact hl e)]
      rw [hrel]
      by_cases hb : (s.pos p).needsPort k = true
      · rw [if_pos hb]
        obtain ⟨r, rest, hc⟩ := hn hb
        unfold deEnergize
        rw [if_neg]
        rw [latchState_endStep (h1.trans hc) (due_fail r hfail), h2]
        split
        · simp
        · exact hl
      · rw [if_neg hb]
        unfold deEnergize
        rw [if_neg (by rw [h2]; exact hl)]
  · rw [if_neg (by simpa using hk)]
    have hrel : released p k st (lostUnit p k s) = lostUnit p k s := by
      unfold released; rw [if_neg (by rintro ⟨a, b, _⟩; exact hk ⟨a, b⟩)]
    rw [hrel]

/-- A port loss after a raising. -/
theorem portLost_raise {p : Pos} {k : PortKind} {st : PortState} {s : State} (c : NoticeClass) (who : Option Pos)
    (hst : st ≠ .ready) (hw : k = .reader → st ≠ .absent → (s.pos p).latchState = .energized → s.latchWait = [])
    (hn : (s.pos p).needsPort k = true → ∃ r rest, (s.pos p).chain = r :: rest) :
    portLost p k st (raise c who s) =
      if (s.pos p).needsPort k then endStep p (portOutcome st) .nothing (raise c who (released p k st (lostUnit p k s)))
      else raise c who (released p k st (lostUnit p k s)) := by
  have hp := pos_raise c who s p
  rw [portLost_eq hst (by rw [hp, latchWait_raise]; exact hw) (by rw [hp]; exact hn), hp]
  have h1 : lostUnit p k (raise c who s) = raise c who (lostUnit p k s) := by
    cases k
    · unfold lostUnit readerLost; exact raise_modPos _ _ _ _ _
    · unfold lostUnit keypadLost; simp only [State.modKey_eq]; exact raise_modPos _ _ _ _ _
  have h2 (t : State) : released p k st (raise c who t) = raise c who (released p k st t) := by
    unfold released
    rw [pos_raise]
    split
    · have h := raise_with c who t (latchOff p t).positions t.latchWait (latchOff p t).energized
      rw [show ({ t with
        positions := (latchOff p t).positions
        latchWait := t.latchWait
        energized := (latchOff p t).energized } : State) = latchOff p t from rfl] at h
      rw [h]
      refine State.ext_pos (fun x => ?_) ?_
      · show _ = (latchOff p t).pos x
        by_cases e : x = p
        · subst e; rw [pos_latchOff_self, pos_latchOff_self, pos_raise, settings_raise]
        · rw [pos_latchOff_ne e, pos_latchOff_ne e, pos_raise]
      · have h4 : (latchOff p (raise c who t)).energized = (latchOff p t).energized := by
          show (raise c who t).energized.filter _ = _
          rw [energized_raise]; rfl
        have h5 : (latchOff p (raise c who t)).latchWait = t.latchWait := latchWait_raise _ _ _
        rw [← h4, ← h5]
        rfl
    · rfl
  rw [h1, h2]

/-- The report of a step that a port loss ends. -/
theorem completionReports_failure (p : Pos) (r : StepRecord) {o : StepOutcome} (ho : o ≠ .done) :
    completionReports p r o .nothing = [failureReport p r o] := by
  unfold completionReports failureReport
  cases r.params with
  | waitCard a t => simp [OutcomeData.cardData, reportedText, cutText, numberSegments]
  | showText a t => simp [ho, StepParams.kind]
  | _ => rfl

theorem failureReport_frees (p : Pos) (r : StepRecord) (o : StepOutcome) : (failureReport p r o).freesRecord = true ∧
    ∀ e, (failureReport p r o).filled e = failureReport p r o := by
  unfold failureReport
  cases r.params <;> exact ⟨rfl, fun _ => rfl⟩

end Sys2Proof.Machine
end

