-- ==== Sys2Proof/Tests/Slice0.lean ====
section
/-! SUPPORT. Small tests: what the checks on a command refuse, one command at a time with the values of the spec's worked
examples, and a state that meets the hypotheses of each statement of Certificates. -/

namespace Sys2Proof.Tests

open Sys2Proof.Machine

/-! ### The checks on a command -/

theorem test_wf_accepts_longest_payload : Instr.wf .cx8 (.post 0 0 (List.replicate 61 0)) = true := by decide
theorem test_wf_refuses_longer_payload : Instr.wf .cx8 (.post 0 0 (List.replicate 62 0)) = false := by decide
theorem test_wf_refuses_known_kind : Instr.wf .cx8 (.unknownKind 0x17 0 0 []) = false := by decide
theorem test_wf_refuses_unknown_kind_too_long : Instr.wf .cx8 (.unknownKind 0x18 0 0 (List.replicate 62 0)) = false := by decide
theorem test_wf_refuses_absent_position : Instr.wf .cx4 (.readerEndByte 4) = false := by decide
theorem test_wf_refuses_character_as_fault : Instr.wf .cx8 (.readerFaultByte 0 0x1F) = false := by decide
theorem test_wf_refuses_end_as_fault : Instr.wf .cx8 (.readerFaultByte 0 0x40) = false := by decide
theorem test_wf_refuses_press_as_line_error : Instr.wf .cx8 (.keypadLineError 0 0x17) = false := by decide
theorem test_wf_refuses_acknowledge_as_line_error : Instr.wf .cx8 (.keypadLineError 0 0x70) = false := by decide

/-! ### The table gives no bits -/

theorem test_no_word_spells_a_command : decodeTableWord 8 0x02 = none := by decide
theorem test_word_puts_nothing_in_front : (State.reset.withFetchWord 8 0x02).pending = [] := by decide

/-! ### States for the tests -/

/-- What a command leaves, or the state before it where it does not complete. -/
def out (c : Instr) (s : State) : State :=
  match exec c s with
  | .next t => t
  | _ => s

/-- KIND and payload of the frame being sent. -/
def sent (s : State) : Option (Byte × List Byte) := s.link.transmitter.map fun f => (f.kind, f.payload)

/-- The part after reset with its start complete. -/
def up : State := { State.reset with link := { startComplete := true } }

/-- `up` with position 0 changed. -/
def at0 (f : Position → Position) : State := up.modPos 0 f

/-- `up` with supervisor access. -/
def unlockedUp : State := { up with settings := { up.settings with unlocked := true } }

/-- `unlockedUp` with one screening entry, id 3, over the account of the card of section 2.6. -/
def tableUp (a : ScreenAction) : State :=
  { unlockedUp with
    screening := up.screening.set 3 (some { action := a, segments := [{ skip := 0, take := 12 }], digest := 28725 }) }

/-- A READY port that draws 20 mA, and a STARTING one past its inrush allowance. -/
def readyPort : PortRecord := { state := .ready, switchedOn := true, current := 20 }
def startingPort : PortRecord :=
  { state := .starting
    switchedOn := true
    readiness := some { inrush := false, currentSeen := false, announceSeen := false }
    current := 20 }

/-- Position 0 with one step ACTIVE, tag 9, with notify and without stop-on-failure. -/
def stepping (ps : StepParams) (w : Work) : State :=
  at0 fun v =>
    { v with
      chainState := .running
      chain := [{ params := ps, tag := 9, notify := true, stopOnFailure := false, progress := some (.active w) }] }

/-- The parameters of an AMOUNT entry of 1 to 7 digits with 2 decimals, as in section 5.7. -/
def amountEntry : CollectParams :=
  { mode := .amount, maxLen := 7, minLen := 1, decimals := 2, clearLimit := 3, firstKey := 20, interKey := 10, ceiling := 120 }

/-- Position 0 with a session collecting, its three timers running. -/
def entering (buffer : List (Fin 10)) : State :=
  (stepping (.collect amountEntry) .session).modPos 0 fun v =>
    { v with
      keypad := readyPort
      entry :=
        { state := .collecting, mode := .amount, maxLen := 7, minLen := 1, decimals := 2, clearLimit := 3, clearCount := 0,
          firstKey := .running 20000, interKey := .running 10000, ceiling := .running 120000, buffer := buffer } }

/-- The 26 character bytes of the card of section 2.6. -/
def goodCard : List (BitVec 5) :=
  [0x0B, 0x07, 0x13, 0x19, 0x02, 0x10, 0x04, 0x15, 0x16, 0x01, 0x08, 0x13, 0x04, 0x0D, 0x02, 0x07, 0x10, 0x19, 0x01, 0x10,
    0x01, 0x10, 0x10, 0x15, 0x1F, 0x16]

/-- Section 7.8 with a budget of 1: position 1's latch is on, and position 4 waits for it, its re-energize timer running out
in `test_re_energize_end_with_full_budget` only. -/
def latchContest : State :=
  let s := { up with
    energized := [1], latchWait := [4]
    settings := { up.settings with live := { up.settings.live with latchBudget := 1 } } }
  let s := s.modPos 1 fun v => { v with latchState := .energized, ceilingTimer := .running 5000 }
  s.modPos 4 fun v =>
    { v with
      reader := readyPort
      cardPresent := true
      latchState := .waiting
      chainState := .running
      chain := [{ params := .holdCard, tag := 9, notify := true, stopOnFailure := false, progress := some (.active .latch) }] }

/-! ### One command at a time -/

theorem test_identify_before_start :
    (out (.identify 0xFF 9 []) State.reset).link.transmitter.map (fun f => (f.kind, f.pos, f.tag, f.payload.take 3)) =
      some (0x81, 0xFF, 9, [0, 8, 8]) := by decide

theorem test_query_busy_before_start :
    sent (out (.query 0 9 []) State.reset) = some (0x85, [8]) := by decide

theorem test_query_empty_chain :
    sent (out (.query 0 9 []) up) = some (0x85, [0, 0, 0, 0, 0, 0xFF, 0, 0, 0, 0, 0, 48]) := by decide

/-- R161: position bytes 4 to 7 of the CX4 reach positions 0 to 3, and the reply gives POS as received. -/
theorem test_cx4_high_position_answers :
    (out (.query 5 9 []) { State.resetOf .cx4 with link := { startComplete := true } }).link.transmitter.map Frame.pos =
      some 5 := by decide

theorem test_unknown_kind : sent (out (.unknownKind 0x42 0 0 []) up) = some (0xFF, [1, 0x42]) := by decide

/-- Section 1.13: NOROOM carries 0 appended, the chain length and the free count. -/
theorem test_post_does_not_fit :
    sent (out (.post 6 1 [3, 0, 1, 0, 3, 0, 2, 0]) { up with freeRecords := 1 }) = some (0x82, [4, 0, 0, 1, 0, 0]) := by
  decide

theorem test_post_pause_runs :
    ((out (.post 6 1 [6, 0, 1, 2, 100, 0]) up).pos 6).headProgress = some (.active (.pause (.running 1000))) := by decide

theorem test_cancel_pause_aborts :
    sent (out (.cancel 6 1 []) (out .transmitDone (out (.post 6 1 [6, 0, 1, 2, 100, 0]) up))) = some (0x83, [0, 0, 1]) := by
  decide

theorem test_resume_of_idle_chain_refused : sent (out (.resume 0 1 []) up) = some (0x84, [5]) := by decide

/-- Section 6.8: the power-up list of a request for every port begins K0 R0 K1. -/
theorem test_power_on_order :
    (out (.powerOn 0xFF 1 0xFF 2) up).powerList.take 3 =
      [{ pos := 0, kind := .keypad }, { pos := 0, kind := .reader }, { pos := 1, kind := .keypad }] := by decide

theorem test_power_off_stops_port :
    ((out (.powerOff 0xFF 1 1 0) (at0 fun v => { v with reader := readyPort })).pos 0).reader.state = .off := by decide

/-- Section 10.7: SET of item 7 to 18 with item 8 at 16 applies 16, clamped. -/
theorem test_set_interlocks :
    sent (out (.set 0xFF 1 [7, 0, 18, 0])
      { up with settings := { up.settings with
          unlocked := true, live := { up.settings.live with accountMax := 16 } } }) = some (0x87, [0, 7, 0, 16, 0, 1]) := by decide

/-- Section 10.7: item 8 is protected by the factory boundary while the supervisor is LOCKED. -/
theorem test_set_denied : sent (out (.set 0xFF 1 [8, 0, 16, 0]) up) = some (0x87, [6]) := by decide

theorem test_get_factory_value : sent (out (.get 0xFF 1 [8, 0]) up) = some (0x88, [0, 8, 0, 19, 0]) := by decide

/-- Section 8.6: a clear gives the pending flag and position set to the history. -/
theorem test_notice_clear :
    let r := (out (.noticeClear 0xFF 1 [4, 0])
      { up with notices := up.notices.set 2 { pending := true, positions := 0x48 } }).notices[2]
    (r.pending, r.historyPending, r.historyPositions) = (false, true, 0x48) := by decide

/-- R150: PORT_FAULT, class 1, is never disabled. -/
theorem test_notice_control_refused :
    sent (out (.noticeControl 0xFF 1 [0, 0, 2, 0, 0, 0, 0, 0]) up) = some (0x8B, [3]) := by decide

/-- R148: every class is enabled and unmuted after a start. -/
theorem test_notice_read :
    (sent (out (.noticeRead 0xFF 1 []) up)).map (fun x => x.2.take 7) = some [0, 0xFF, 0x7F, 0, 0, 0, 0] := by decide

/-- Section 8.8: a clearing read returns the count and leaves 0. -/
theorem test_counters_read_and_clear :
    let t := out (.counters 1 1 [1]) (up.modPos 1 fun v => { v with counters := v.counters.set 1 49153 })
    (sent t, (t.pos 1).counters[1]) =
      (some (0x8C, [0, 0, 0, 1, 0xC0, 0, 0, 0, 0, 0, 0, 0, 0, 0, 0, 0, 0]), 0) := by decide

/-- Section 3.7: entry 3 is loaded with the digest of section 3.4, 28725. -/
theorem test_screen_load :
    sent (out (.screenLoad 0xFF 1 [3, 0, 1, 0x35, 0x70, 0, 12]) unlockedUp) = some (0x8D, [0, 0, 1, 0, 12, 0, 1]) := by decide

theorem test_screen_drop :
    sent (out (.screenDrop 0xFF 1 [8, 0]) (tableUp .report)) = some (0x8E, [0, 8, 0, 0]) := by decide

theorem test_screen_list :
    sent (out (.screenList 0xFF 1 [0]) (tableUp .hold)) =
      some (0x8F, [0, 1, 1, 0xFF, 3, 1, 1, 0x35, 0x70, 0, 12]) := by decide

/-- Section 10.7: the factory passcode is eight digits 0. -/
theorem test_unlock_opens : (out (.unlock 0xFF 1 (List.replicate 8 0x30)) up).settings.unlocked = true := by decide

/-- Section 10.7: the third wrong passcode sets lockout. -/
theorem test_unlock_third_failure_locks_out :
    let t := out (.unlock 0xFF 1 (List.replicate 8 0x31)) { up with settings := { up.settings with failedCount := 2 } }
    (t.settings.failedCount, t.settings.lockout) = (3, true) := by decide

theorem test_lock_closes : (out (.lock 0xFF 1 []) unlockedUp).settings.unlocked = false := by decide

theorem test_store_enable_denied_while_locked : sent (out (.storeEnable 0xFF 1 []) up) = some (0x92, [6]) := by decide

/-- Section 10.7: a taken STORE WRITE clears the latch and the store is BUSY. -/
theorem test_store_write_begins :
    let t := out (.storeWrite 0xFF 1 [5, 0, 2, 0]) (out .transmitDone (out (.storeEnable 0xFF 1 []) unlockedUp))
    (t.settings.writeEnable, t.settings.job, t.settings.store.checkGood) = (false, some (.item 5 0 2), false) := by decide

theorem test_store_read_factory_value : sent (out (.storeRead 0xFF 1 [7, 0]) up) = some (0x94, [0, 7, 0, 12, 0]) := by decide

theorem test_store_lock_needs_latch : sent (out (.storeLock 0xFF 1 []) unlockedUp) = some (0x95, [6]) := by decide

theorem test_store_status : sent (out (.storeStatus 0xFF 1 []) up) = some (0x96, [0, 0, 0, 0, 0, 0, 0, 0, 0, 0]) := by decide

theorem test_store_write_end_raises_done :
    ((out (.storeWriteEnd true) { up with settings := { up.settings with job := some .lockFlag } }).notices[12]).pending =
      true := by decide

theorem test_restart_stops_taking : (out (.restart 0xFF 1 []) up).link.restarting = true := by decide

theorem test_warm_start_waits_for_reply : out .warmStart up = up := by decide

/-- R187: after a start only IDENTIFY is answered until START_COMPLETE. -/
theorem test_cold_start_not_complete : (out .coldStart up).link.startComplete = false := by decide

theorem test_start_complete_is_raised : ((out .startComplete State.reset).notices[0]).pending = true := by decide

/-- R157: a LEN byte of 2 abandons the frame, which counts in frames_discarded. -/
theorem test_receive_byte_bad_len :
    (out (.receiveByte 2) (out (.receiveByte 0xA5) up)).deviceCounters[1] = 1 := by decide

theorem test_frame_gap_abandons :
    (out .frameGapTimeout (out (.receiveByte 0xA5) up)).link.rx = .hunting := by decide

/-- Section 9.6: the waiting reply goes before the reports. -/
theorem test_transmit_done_sends_reply_first :
    (out .transmitDone
      { up with
        queue := [.key 7 (.digit 1) false]
        link := { up.link with
          transmitter := some { kind := 0x41, pos := 0, tag := 0, payload := [] }
          slot := some { kind := 0x85, pos := 0, tag := 1, payload := [0] } } }).link.transmitter.map Frame.kind =
      some 0x85 := by decide

/-- Section 2.6: the first byte of the good pass starts a pass. -/
theorem test_character_starts_pass :
    ((out (.readerCharacterByte 0 0x0B) (at0 fun v => { v with reader := readyPort })).pos 0).pass.state = .receiving := by
  decide

/-- Section 2.6: the good pass checks good, with 23 characters of text. -/
theorem test_check_good_pass :
    checkPass { factoryDeviceItems with checkDigit := 1 } goodCard false =
      { failure := none, overlong := false, parityErrors := 0,
        text := [0x37, 0x33, 0x39, 0x32, 0x30, 0x34, 0x35, 0x36, 0x31, 0x38, 0x33, 0x34, 0x3D, 0x32, 0x37, 0x30, 0x39, 0x31,
          0x30, 0x31, 0x30, 0x30, 0x35] } := by decide

/-- Section 2.6: the first 5 of the account without its parity bit. -/
theorem test_check_lost_parity :
    let r := checkPass factoryDeviceItems (goodCard.set 7 0x05) false
    (r.failure, r.parityErrors) = (some .parity, 1) := by decide

/-- Section 2.6: the 9 and the 2 of the account exchanged. -/
theorem test_check_exchanged_digits :
    (checkPass { factoryDeviceItems with checkDigit := 1 } ((goodCard.set 3 0x02).set 4 0x19) false).failure =
      some .checkDigit := by decide

/-- Section 3.4: the digest of 7392042709 is 44. -/
theorem test_digest : digestOf [0x37, 0x33, 0x39, 0x32, 0x30, 0x34, 0x32, 0x37, 0x30, 0x39] = 44 := by decide

/-- R36: an unarmed pass is unsolicited. -/
theorem test_end_byte_unsolicited :
    (out (.readerEndByte 0) (at0 fun v => { v with reader := readyPort })).deviceCounters[3] = 1 := by decide

theorem test_fault_byte_discards :
    ((out (.readerFaultByte 0 0x80) (at0 fun v => { v with reader := readyPort })).pos 0).pass.state = .discarding := by decide

theorem test_pass_gap_ends_discard :
    ((out (.passGapTimeout 0) (at0 fun v =>
      { v with pass := { state := .discarding, gapTimer := .running 50 } })).pos 0).pass.state = .idle := by decide

/-- Section 4.9: code 7 of layout A is '7' and has no held symbol. -/
theorem test_key_press_decides :
    sent (out (.keyPress 0 7) (at0 fun v => { v with keypad := readyPort, items := { v.items with idleKeys := 1 } })) =
      some (0x42, [7, 0]) := by decide

/-- Section 4.9: code 13 held past its threshold is CANCEL, with the held flag. -/
theorem test_long_press_decides_held :
    sent (out (.longPressTimeout 0) (out (.keyPress 0 13)
      (at0 fun v => { v with keypad := readyPort, items := { v.items with idleKeys := 1 } }))) = some (0x42, [15, 1]) := by
  decide

theorem test_key_release_decides_press :
    sent (out (.keyRelease 0 13) (out (.keyPress 0 13)
      (at0 fun v => { v with keypad := readyPort, items := { v.items with idleKeys := 1 } }))) = some (0x42, [13, 0]) := by
  decide

theorem test_announce_copies_flags :
    ((out (.announce 0 ⟨true, false⟩ false) (at0 fun v => { v with keypad := readyPort })).pos 0).key.display = true := by decide

/-- R121, row 4: an announce that came before the keypad was ABSENT does not count for its return; a later one does. -/
theorem test_early_announce_does_not_count (early : Bool) :
    ((out (.announce 0 ⟨true, false⟩ early) (at0 fun v =>
      { v with keypad := { readyPort with state := .absent, returnChecks := some { standing := .reached, announceSeen := false } } })).pos
        0).keypad.state = if early then .absent else .ready := by
  revert early
  decide

/-- Section 4.9: an acknowledge sends the pending content. -/
theorem test_acknowledge_sends_pending :
    ((out (.acknowledge 0) (at0 fun v => { v with
      keypad := readyPort
      key := { outstanding := some [0x31], pendingContent := some [0x32], ackTimer := .running 200 } })).pos 0).key.outstanding =
      some [0x32] := by decide

theorem test_acknowledge_timeout_raises :
    ((out (.acknowledgeTimeout 0) (at0 fun v => { v with
      key := { outstanding := some [0x31], ackTimer := .running 200 } })).notices[8]).pending = true := by decide

theorem test_keypad_line_error_counts :
    ((out (.keypadLineError 0 0x18) (at0 fun v => { v with keypad := readyPort })).pos 0).counters[7] = 1 := by decide

theorem test_beep_sent_empties :
    ((out (.beepSent 0) (at0 fun v => { v with key := { waitingBeep := some .error } })).pos 0).key.waitingBeep = none := by
  decide

/-- Section 5.5: 2 decimals and the buffer 5 give 0.05 at the right edge. -/
theorem test_amount_echo :
    echoText { mode := .amount, decimals := 2, buffer := [5] } =
      some (List.replicate 12 0x20 ++ [0x30, 0x2E, 0x30, 0x35]) := by decide

theorem test_first_key_timeout_ends_entry :
    ((out (.firstKeyTimeout 0) (entering [])).pos 0).counters[4] = 1 := by decide

theorem test_inter_key_timeout_wipes :
    ((out (.interKeyTimeout 0) (entering [1, 2])).pos 0).entry.buffer = [] := by decide

theorem test_ceiling_timeout_reports :
    sent (out (.ceilingTimeout 0) (entering [1, 2])) = some (0x40, [9, 5, 2, 0]) := by decide

theorem test_wait_card_timeout_reports :
    sent (out (.waitCardTimeout 0) (stepping (.waitCard 3 60) (.card (.running 60000)))) =
      some (0x41, [0x81, 9, 2, 0, 0, 0, 0xFF, 0, 0, 0, 0]) := by decide

theorem test_removal_timeout_reports :
    sent (out (.removalTimeout 0) (stepping (.releaseCard true 30) (.removal (.running 30000)))) =
      some (0x40, [9, 4, 2, 0]) := by decide

theorem test_pause_expiry_reports :
    sent (out (.pauseTimerExpiry 0) (stepping (.pause 100) (.pause (.running 1000)))) = some (0x40, [9, 6, 0, 0]) := by decide

theorem test_card_rise_reports :
    sent (out (.cardPresentRises 0) (at0 fun v => { v with reader := readyPort, items := { v.items with presence := 1 } })) =
      some (0x43, [1, 1]) := by decide

theorem test_card_fall_ends_release :
    ((out (.cardPresentFalls 0) ((stepping (.releaseCard true 30) (.removal (.running 30000))).modPos 0 fun v =>
      { v with reader := readyPort, cardPresent := true, cardLine := true })).pos 0).chain = [] := by decide

theorem test_card_left_raised :
    ((out (.cardLeftTimeout 0) (at0 fun v => { v with cardLeftTimer := .running 1 })).notices[5]).positions = 1 := by decide

/-- Section 6.8: the second switch-on comes 20 ms after the first, and not before. -/
theorem test_switch_on_waits_for_stagger :
    (out (.portSwitchOn 1019) { up with lastSwitchOn := some 1000, powerList := [{ pos := 0, kind := .reader }] }).powerList =
      [{ pos := 0, kind := .reader }] := by decide

theorem test_switch_on_after_stagger :
    (out (.portSwitchOn 1020) { up with lastSwitchOn := some 1000, powerList := [{ pos := 0, kind := .reader }] }).powerList =
      [] := by decide

/-- Section 6.8: a rise to 330 mA over an upper limit of 300 starts the over-time. -/
theorem test_current_rise_starts_over_time :
    ((out (.portCurrentChange 0 .reader 330) (at0 fun v => { v with
      reader := readyPort, items := { v.items with readerUpper := 300 } })).pos 0).reader.overTime = .running 10 := by decide

theorem test_inrush_end_readies_reader :
    ((out (.inrushAllowanceEnd 0 .reader) (at0 fun v => { v with
      reader := { startingPort with readiness := some { inrush := true, currentSeen := false, announceSeen := false } } })).pos
        0).reader.state = .ready := by decide

theorem test_readiness_timeout_makes_absent :
    ((out (.readinessTimeout 0 .keypad) (at0 fun v => { v with keypad := { startingPort with current := 0 } })).pos
      0).keypad.state = .absent := by decide

theorem test_announce_timeout_makes_absent :
    ((out (.announceTimeout 0) (at0 fun v => { v with
      keypad := { startingPort with readiness := some { inrush := false, currentSeen := true, announceSeen := false } } })).pos
        0).keypad.state = .absent := by decide

theorem test_over_time_trips :
    ((out (.overTimeTrip 0 .reader) (at0 fun v => { v with reader := { readyPort with overTime := .running 10 } })).pos
      0).reader.state = .fault := by decide

theorem test_under_time_makes_absent :
    ((out (.underTimeExpiry 0 .keypad) (at0 fun v => { v with
      keypad := { readyPort with underTime := .running 500, current := 0 } })).pos 0).keypad.state = .absent := by decide

/-- Section 6.8: a keypad that announced is READY when its current has stood 500 ms. -/
theorem test_return_time_readies :
    ((out (.returnTimeExpiry 0 .keypad) (at0 fun v => { v with
      keypad := { readyPort with state := .absent, returnChecks := some { standing := .counting, announceSeen := true } } })).pos
        0).keypad.state = .ready := by decide

/-- Section 7.8: the end of a ceiling grants the oldest eligible request. -/
theorem test_ceiling_end_grants :
    (out (.latchCeilingTimeout 1) latchContest).energized = [4] := by decide

/-- Section 7.8: the end of a re-energize timer grants nothing while the budget is full. -/
theorem test_re_energize_end_with_full_budget :
    (out (.reEnergizeTimeout 4) latchContest).latchWait = [4] := by decide

/-! ### States that meet the hypotheses of the statements -/

theorem atRest_up : AtRest up := ⟨fun _ => rfl, by decide, fun _ => ⟨rfl, rfl⟩⟩

theorem free_up : LinkFree up := ⟨atRest_up, rfl, rfl, rfl, rfl, rfl, rfl, by decide, by decide⟩

theorem ready_up : LinkReady up := { free_up with started := rfl }

theorem free_reset : LinkFree State.reset :=
  ⟨⟨fun _ => rfl, by decide, fun _ => ⟨rfl, rfl⟩⟩, rfl, rfl, rfl, rfl, rfl, rfl, by decide, by decide⟩

/-- Other settings, latch sets or pool count leave the link ready. -/
theorem ready_settings (g : Settings) : LinkReady { up with settings := g } := { ready_up with rest := atRest_up }

theorem ready_at0 (f : Position → Position) (h : startDue (f (up.pos 0)) = false) : LinkReady (at0 f) :=
  { ready_up with rest := atRest_modPos atRest_up 0 f h }

theorem quiet_at0 (f : Position → Position) (h : startDue (f (up.pos 0)) = false) (hw : (f (up.pos 0)).waiting = []) :
    Quiet 0 (at0 f) :=
  ⟨(by decide : (0 : Nat) < 8), atRest_modPos atRest_up 0 f h, (by decide : (0 : Nat) < 32), by rw [at0, State.pos_modPos_self, hw]⟩

theorem quiet_up : Quiet 0 up := ⟨by decide, atRest_up, by decide, rfl⟩

/-- A frame that is being sent. -/
def someFrame : Frame := { kind := 0x43, pos := 0, tag := 0, payload := [] }

/-- `up` with the link given, and the frame counters below their mark. -/
def linked (f : Link → Link) : State := { up with link := f up.link }

/-- The RESTART reply is being sent. -/
def restarting : State := linked fun l => { l with transmitter := some someFrame, restarting := true }

theorem quiet_stepping (ps : StepParams) (w : Work) : Quiet 0 (stepping ps w) :=
  quiet_at0 (fun v =>
    { v with
      chainState := .running
      chain := [{ params := ps, tag := 9, notify := true, stopOnFailure := false, progress := some (.active w) }] })
    (by simp [startDue, Position.inFlight, Position.headProgress]) rfl

/-- A READY reader with a card in it. -/
def carded : State := at0 fun v => { v with reader := readyPort, cardPresent := true, cardLine := true }

theorem quiet_carded : Quiet 0 carded := quiet_at0 _ (by decide) rfl

/-- Position 0 waits for the latch, a READY reader with a card in it, behind position 5, whose reader is OFF. -/
def latchAsked (ps : StepParams) (w : Work) : State :=
  let s := (stepping ps w).modPos 0 fun v =>
    { v with reader := readyPort, cardPresent := true, cardLine := true, latchState := .waiting }
  { s with latchWait := [5, 0], settings := { s.settings with unlocked := true } }

theorem quiet_asked (ps : StepParams) (w : Work) : Quiet 0 (latchAsked ps w) :=
  let h := (quiet_stepping ps w).modPos
    (fun v => { v with reader := readyPort, cardPresent := true, cardLine := true, latchState := .waiting }) ⟨rfl, rfl, rfl⟩
  ⟨h.present, ⟨h.rest.1, h.rest.2.1, h.rest.2.2⟩, h.room, h.noneWaiting⟩

/-- The record of `stepping`. -/
def heldRecord (ps : StepParams) (w : Work) : StepRecord :=
  { params := ps, tag := 9, notify := true, stopOnFailure := false, progress := some (.active w) }

/-- The work of a WAIT CARD that waits for the latch after a match of entry 3, and the report of its grant or withdrawal. -/
def screenWork : Work := .screenHold 3 [0x31] 0
def screenSegment (h : HoldFlag) : Report :=
  .cardSegment 0 1 [0x31]
    (some { tag := 9, outcome := .screened, data := { text := [0x31], flags := 0, entryId := some 3, hold := h }, total := 1 })

theorem passed_five (ps : StepParams) (w : Work) : PassedOver 5 (latchAsked ps w) :=
  Or.inl (show PortState.off ≠ .ready by decide)

theorem asked_others (ps : StepParams) (w : Work) : ∀ x ∈ (latchAsked ps w).latchWait, x ≠ 0 → PassedOver x (latchAsked ps w) := by
  intro x hx h0
  rcases List.mem_cons.mp hx with rfl | hx
  · exact passed_five ps w
  · exact absurd (List.mem_singleton.mp hx) h0

theorem oldest_hold :
    OldestWaiter 0 (heldRecord .holdCard .latch) (.stepDone 0 9 .holdCard .done [] false) false (latchAsked .holdCard .latch) :=
  ⟨⟨[5], [], rfl, fun _ h => List.mem_singleton.mp h ▸ passed_five _ _⟩, rfl, rfl, rfl, rfl, rfl, rfl,
    Or.inl ⟨rfl, rfl, rfl, rfl, rfl⟩⟩

theorem oldest_screened :
    OldestWaiter 0 (heldRecord (.waitCard 3 60) screenWork) (screenSegment .held) false (latchAsked (.waitCard 3 60) screenWork) :=
  ⟨⟨[5], [], rfl, fun _ h => List.mem_singleton.mp h ▸ passed_five _ _⟩, rfl, rfl, rfl, rfl, rfl, rfl,
    Or.inr ⟨3, 60, 3, [0x31], 0, rfl, rfl, by decide, rfl, rfl⟩⟩

theorem witness_StepRunsFrontCommand :
    ({ up with pending := [.transmitDone, .coldStart] } : State).pending = .transmitDone :: [.coldStart] ∧ up.pending = [] :=
  ⟨rfl, rfl⟩

/-- The last position a CX4 has, and the first it has not. -/
theorem witness_CommandsCompleteOrFault :
    (∀ p, (Instr.readerEndByte 3).line = some p → p.val < (State.resetOf .cx4).variant.positions) ∧
    (Instr.readerEndByte 4).line = some 4 ∧ (State.resetOf .cx4).variant.positions ≤ (4 : Pos).val := by decide

theorem witness_RequestIsItsBytes :
    (Instr.post 0 0 (List.replicate 61 0)).requestFrame = some (request .post 0 0 (List.replicate 61 0)) ∧
    (request .post 0 0 (List.replicate 61 0)).payload.length ≤ 61 ∧ up.link.rx = .hunting := by decide

theorem witness_UntakenRequestsAnswered :
    LinkFree up ∧ isRequestKind 0x18 = false ∧ isRequestKind 0 = false ∧ LinkFree State.reset ∧
    State.reset.link.startComplete = false ∧
    (Instr.query 0 0 []).requestFrame = some (request .query 0 0 []) ∧ RequestKind.query ≠ .identify :=
  ⟨free_up, by decide, by decide, free_reset, rfl, rfl, by decide⟩

/-- POS at the edges of what suits, and payloads of the wrong form. -/
theorem witness_BadPosAndPayloadRefused :
    LinkReady up ∧ LinkReady unlockedUp ∧
    (8 ≤ (8 : Byte).toNat ∧ (8 : Byte) ≠ 0xFF) ∧ (8 ≤ (0xFE : Byte).toNat ∧ (0xFE : Byte) ≠ 0xFF) ∧
    RequestKind.post ∈ [RequestKind.post, .cancel, .resume, .query] ∧
    ((7 : Byte).toNat < 8 ∧ RequestKind.lock ∉ [RequestKind.post, .cancel, .resume, .query, .set, .get, .counters]) ∧
    ([0] : List Byte) ≠ [] ∧ RequestKind.cancel ∈ [RequestKind.cancel, .resume, .query] ∧
    RequestKind.lock ∈ [RequestKind.identify, .noticeRead, .lock, .storeEnable, .storeStatus, .restart] ∧
    (List.replicate 7 (0 : Byte)).length ≠ 8 ∧
    (∃ b ∈ List.replicate 8 (0x3A : Byte), b.toNat < 0x30 ∨ 0x39 < b.toNat) ∧ 2 < (3 : Byte).toNat ∧
    unlockedUp.settings.unlocked = true ∧ 15 < (16 : Byte).toNat ∧ up.settings.unlocked = false ∧
    ([0, 0, 0] : List Byte).length ≠ 4 ∧
    19 < (20 : Byte).toNat ∧ 47 < (48 : Byte).toNat ∧ ((9 : Byte).toNat ≤ 19 ∧ (9 : Byte).toNat ∉ [0, 1, 2, 10, 11]) ∧
    (16 ≤ (18 : Byte).toNat ∧ (18 : Byte).toNat ≤ 18) :=
  ⟨ready_up, ready_settings _, by decide⟩

theorem witness_StateIsRead : LinkFree State.reset ∧ LinkReady up ∧ (List.replicate 61 (0 : Byte)).length ≤ 61 :=
  ⟨free_reset, ready_up, by decide⟩

/-- The last key map entry, the last item, and a position item at the last position. -/
theorem witness_GetReadsItem :
    LinkReady up ∧ indexOk (15 : Byte).toNat (47 : Byte).toNat = true ∧ indexOk (18 : Byte).toNat (0 : Byte).toNat = true ∧
    (18 : Byte).toNat ≤ 18 ∧ (18 : Byte).toNat ∉ [0, 1, 2, 10, 11] ∧
    ((11 : Byte).toNat ∈ [0, 1, 2, 10, 11] ∧ (7 : Byte).toNat < 8 ∧ indexOk (11 : Byte).toNat (0 : Byte).toNat = true) :=
  ⟨ready_up, by decide⟩

/-- The link is ready and the payload empty: all that STORE READ, COUNTERS, NOTICE CLEAR, SCREEN DROP, SCREEN LIST and LOCK
ask. -/
theorem witness_StoreReadReadsItem : LinkReady up ∧ ([] : List Byte).length ≤ 61 := ⟨ready_up, by decide⟩
theorem witness_CountersReadAndCleared : LinkReady up ∧ ([1] : List Byte).length ≤ 61 := ⟨ready_up, by decide⟩
theorem witness_NoticeClearMovesToHistory : LinkReady up ∧ ([4, 0] : List Byte).length ≤ 61 := ⟨ready_up, by decide⟩
theorem witness_ScreenDropEmptiesPlaces : LinkReady (tableUp .hold) ∧ ([8, 0] : List Byte).length ≤ 61 :=
  ⟨{ ready_up with rest := atRest_up }, by decide⟩
theorem witness_ScreenListGivesEntries : LinkReady (tableUp .hold) ∧ ([15] : List Byte).length ≤ 61 :=
  ⟨{ ready_up with rest := atRest_up }, by decide⟩
theorem witness_LockClosesAccess : LinkReady unlockedUp ∧ ([] : List Byte).length ≤ 61 := ⟨ready_settings _, by decide⟩

theorem witness_SetPositionItem :
    LinkReady up ∧ (7 : Byte).toNat < 8 ∧ (0 : Byte).toNat ∈ [0, 1, 2, 10, 11] ∧ (11 : Byte).toNat ∈ [0, 1, 2, 10, 11] :=
  ⟨ready_up, by decide⟩

/-- Items 3 and 15, the last key, a budget of 1 with a latch energized, and requests of both kinds with room for the latch. -/
theorem witness_SetDeviceItem :
    LinkReady up ∧ (3 : Byte).toNat ∈ [3, 4, 5, 6, 7, 8, 9, 12, 13, 14, 15] ∧
    (15 : Byte).toNat ∈ [3, 4, 5, 6, 7, 8, 9, 12, 13, 14, 15] ∧ (47 : Byte).toNat ≤ 47 ∧ (12 : Byte).toNat = 12 ∧
    (clampItem 12 (wordOf 1 0)).toNat ≤ latchContest.energized.length ∧ (∀ ps w, LinkReady (latchAsked ps w)) ∧
    (∀ ps w, (latchAsked ps w).settings.unlocked = true ∧ (latchAsked ps w).queue.length < 32 ∧
      (latchAsked ps w).energized.length + 1 = (clampItem 12 (wordOf 1 0)).toNat) :=
  ⟨ready_up, by decide, by decide, by decide, by decide, by decide,
    fun ps w => { ready_up with rest := (quiet_asked ps w).rest },
    fun _ _ => ⟨rfl, show 0 < 32 by decide, show 0 + 1 = (clampItem 12 (wordOf 1 0)).toNat by decide⟩⟩

theorem witness_NoticeControlChangesClasses : LinkReady up ∧ up.queue.length < 32 := ⟨ready_up, by decide⟩

theorem witness_ScreenLoadPutsEntry :
    LinkReady unlockedUp ∧ (1 : Byte).toNat ≤ 1 ∧ 1 ≤ ([(0, 12)] : List (Byte × Byte)).length ∧
    (List.replicate 4 ((106, 19) : Byte × Byte)).length ≤ 4 := ⟨ready_settings _, by decide⟩

theorem witness_UnlockComparesPasscode :
    LinkReady up ∧ up.queue.length < 32 ∧
    ∀ b ∈ (#v[0x30, 0x39, 0x30, 0x39, 0x30, 0x39, 0x30, 0x39] : Vector Byte 8).toList, 0x30 ≤ b.toNat ∧ b.toNat ≤ 0x39 :=
  ⟨ready_up, by decide, by decide⟩

theorem witness_StoreEnableSetsLatch : LinkReady unlockedUp := ready_settings _

theorem witness_StoreWriteBeginsItem : LinkReady unlockedUp ∧ (18 : Byte).toNat ≠ 19 ∧ (20 : Byte).toNat ≠ 19 :=
  ⟨ready_settings _, by decide⟩

theorem witness_PasscodeAndLockBegin :
    LinkReady { unlockedUp with settings := { unlockedUp.settings with writeEnable := true } } ∧
    (∀ b ∈ (#v[0x30, 0x39, 0x30, 0x39, 0x30, 0x39, 0x30, 0x39] : Vector Byte 8).toList, 0x30 ≤ b.toNat ∧ b.toNat ≤ 0x39) ∧
    (∀ index value, ([19, 1] : List Byte) = 19 :: index :: value →
      index ≠ 0 ∨ value.length ≠ 8 ∨ ∃ b ∈ value, b.toNat < 0x30 ∨ 0x39 < b.toNat) ∧
    ([19, 1] : List Byte).head? = some 19 ∧ (([20] : List Byte).head? ≠ some 19 ∧ ([20] : List Byte).length ≠ 4) := by
  refine ⟨ready_settings _, by decide, fun i v h => ?_, by decide⟩
  simp only [List.cons.injEq, true_and] at h
  exact Or.inl (by rw [← h.1]; decide)

/-- A restart under way with a reply that waits behind one that is being sent. -/
theorem witness_RestartAnswersFirst :
    let s := linked fun l => { l with restarting := true, transmitter := some someFrame, slot := some someFrame }
    LinkReady up ∧ AtRest s ∧ s.link.restarting = true ∧ s.link.rx = .hunting ∧ s.link.buffer.length < 4 ∧
    s.deviceCounters[0] < 49151 ∧ (Instr.cancel 0 0 []).requestFrame = some (request .cancel 0 0 []) :=
  ⟨ready_up, ⟨by decide, by decide, by decide⟩, rfl, rfl, by decide, by decide, rfl⟩

/-- Parameters at their limits; a payload of two records; and each reason to refuse one. -/
theorem witness_StepRecordsParsed :
    (3 : Byte).toNat ≤ 3 ∧ (List.replicate 16 (0x7E : Byte)).length ≤ 16 ∧
    (∀ c ∈ List.replicate 16 (0x7E : Byte), 0x20 ≤ c.toNat ∧ c.toNat ≤ 0x7E) ∧ (1 : Byte).toNat ≤ 1 ∧ (2 : Byte).toNat ≤ 2 ∧
    (postRecords [3, 0, 1, 0]).map List.length = some 1 ∧ ([6, 0, 2, 2, 1, 0] : List Byte) ≠ [] ∧
    (postRecords ([3, 0, 1, 0] ++ [6, 0, 2, 2, 1, 0])).map List.length = some 2 ∧
    ([6, 0, 2] : List Byte).length < 4 ∧ 17 < (18 : Byte).toNat ∧ ([1] : List Byte).length < (2 : Byte).toNat ∧
    3 < (4 : Byte).toNat ∧ 6 < (7 : Byte).toNat ∧ (∃ c ∈ ([0, 0x7F] : List Byte).tail, c.toNat < 0x20 ∨ 0x7E < c.toNat) ∧
    1 < (([2, 5, 0] : List Byte).headD 0).toNat ∧ 2 < (([3] : List Byte).headD 0).toNat := by
  decide

/-- A HALTED chain, a RUNNING one, and an IDLE one whose pool is too small. -/
theorem witness_PostAppendsOrRefuses :
    LinkReady (at0 fun v => { v with chainState := .halted }) ∧ ((at0 fun v => { v with chainState := .halted }).pos 0).chainState = .halted ∧
    LinkReady (stepping (.pause 1) (.pause (.running 10))) ∧
    ((stepping (.pause 1) (.pause (.running 10))).pos 0).chainState = .running ∧
    ((stepping (.pause 1) (.pause (.running 10))).pos 0).chain ≠ [] ∧
    LinkReady { up with freeRecords := 1 } ∧ postRecords [3, 0, 1, 0, 3, 0, 2, 0] ≠ none ∧
    (∀ rs, postRecords [3, 0, 1, 0, 3, 0, 2, 0] = some rs → 1 < rs.length) ∧ positionOf up.variant 0 = 0 := by
  refine ⟨ready_at0 _ (by decide), by decide, ready_at0 _ (by decide), by decide, by decide,
    { ready_up with rest := atRest_up }, by decide, fun rs h => ?_, by decide⟩
  have e : (postRecords [3, 0, 1, 0, 3, 0, 2, 0]).map List.length = some 2 := by decide
  rw [h] at e
  exact lt_of_lt_of_eq (by decide) (Option.some.inj e).symm

theorem witness_PostStartsPause :
    LinkReady up ∧ (7 : Byte).toNat < 8 ∧ (3 : Byte).toNat ≤ 3 ∧ EmptyIdle 7 up ∧ positionOf up.variant 7 = 7 :=
  ⟨ready_up, by decide, by decide, ⟨rfl, rfl, by decide⟩, by decide⟩

theorem witness_PostStartsWaitCard :
    (∀ st : PortState, EmptyIdle 0 (at0 fun v => { v with reader := { readyPort with state := st } }) ∧
      ((at0 fun v => { v with reader := { readyPort with state := st } }).pos 0).reader.state = st ∧
      ((at0 fun v => { v with reader := { readyPort with state := st } }).pos 0).waiting = []) ∧
    (∀ st : PortState, LinkReady (at0 fun v => { v with reader := { readyPort with state := st } })) ∧ up.queue.length < 32 := by
  refine ⟨fun st => ⟨⟨rfl, rfl, (by decide : 1 ≤ 48)⟩, rfl, rfl⟩, fun st => ready_at0 _ (by cases st <;> decide), by decide⟩

/-- A READY keypad, without a display and with one whose line is free or has a write outstanding. -/
theorem witness_PostOpensSession :
    (∀ k : KeyUnit, let s := at0 fun v => { v with keypad := readyPort, key := k }
      LinkReady s ∧ EmptyIdle 0 s ∧ (s.pos 0).keypad.state = .ready ∧ (s.pos 0).key = k ∧ (s.pos 0).waiting = [] ∧
        s.queue.length < 32) ∧
    modeOf 0 = some .openKeys ∧ modeOf 1 = some .amount ∧ modeOf 2 = some .concealed ∧
    beepOf 0 = some none ∧ beepOf 3 = some (some .error) ∧ ({ display := true } : KeyUnit).outstanding = none ∧
    ({ display := true, outstanding := some [0x31] } : KeyUnit).outstanding ≠ none ∧ ({} : KeyUnit).display = false :=
  ⟨fun k => ⟨ready_at0 _ rfl, ⟨rfl, rfl, (by decide : 1 ≤ 48)⟩, rfl, rfl, rfl, (by decide : 0 < 32)⟩, by decide⟩

/-- With the budget free and with none; the re-energize interval over and running; the latch energized; and no card. -/
theorem witness_PostHoldCardAsksLatch :
    (∀ card latch timer, let s := at0 fun v =>
        { v with reader := readyPort, cardPresent := card, latchState := latch, reEnergizeTimer := timer }
      LinkReady s ∧ EmptyIdle 0 s ∧ (s.pos 0).waiting = [] ∧ (s.pos 0).reader.state = .ready ∧ (s.pos 0).cardPresent = card ∧
        (s.pos 0).latchState = latch ∧ (s.pos 0).reEnergizeTimer = timer ∧ s.latchWait = [] ∧ s.queue.length < 32 ∧
        s.energized.length < s.settings.live.latchBudget.toNat) ∧
    Timer.stopped.isRunning = false ∧ (Timer.running 1).isRunning = true ∧ (1 : Byte).toNat ≤ 1 :=
  ⟨fun _ _ _ => ⟨ready_at0 _ rfl, ⟨rfl, rfl, (by decide : 1 ≤ 48)⟩, rfl, rfl, rfl, rfl, rfl, rfl, (by decide : 0 < 32),
      show 0 < up.settings.live.latchBudget.toNat by decide⟩,
    by decide⟩

/-- A HALTED chain with a record, a step in COMPLETING, and a step in WAITING_PORT or ACTIVE, a WAIT CARD among them. -/
theorem witness_CancelDropsChain :
    let fresh : StepRecord := { params := .pause 1, tag := 0, notify := true, stopOnFailure := false, progress := none }
    let ending : Progress := .completing .done .nothing false
    LinkReady (at0 fun v => { v with chainState := .halted, chain := [fresh] }) ∧ fresh.progress = none ∧
    LinkReady (at0 fun v => { v with chainState := .running, chain := [{ fresh with progress := some ending }, fresh] }) ∧
    LinkReady (at0 fun v => { v with chainState := .running, chain := [{ fresh with progress := some .waitingPort }, fresh] }) ∧
    ∀ ps w, LinkReady (stepping ps w) ∧ ((stepping ps w).pos 0).chain = heldRecord ps w :: [] ∧
      ((stepping ps w).pos 0).waiting = [] ∧ ((stepping ps w).pos 0).chainState = .running ∧ (stepping ps w).queue.length < 32 :=
  ⟨ready_at0 _ (by decide), rfl, ready_at0 _ (by decide), ready_at0 _ (by decide),
    fun ps w => ⟨{ ready_up with rest := (quiet_stepping ps w).rest }, rfl, rfl, rfl, (by decide : 0 < 32)⟩⟩

theorem witness_ResumeLeavesHalt :
    let fresh : StepRecord := { params := .pause 1, tag := 0, notify := true, stopOnFailure := false, progress := none }
    LinkReady up ∧ (up.pos 0).chainState ≠ .halted ∧ LinkReady (at0 fun v => { v with chainState := .halted }) ∧
    ((at0 fun v => { v with chainState := .halted }).pos 0).chain = [] ∧
    LinkReady (at0 fun v => { v with chainState := .halted, chain := [fresh] }) :=
  ⟨ready_up, by decide, ready_at0 _ (by decide), rfl, ready_at0 _ (by decide)⟩

theorem witness_PowerOnStartsPorts :
    LinkReady up ∧ powerKinds 0 = some [.reader] ∧ powerKinds 1 = some [.keypad] ∧ powerKinds 2 = some [.keypad, .reader] :=
  ⟨ready_up, by decide⟩

/-- A READY port and an OFF one of a position without a step; a step that needs its port; and an energized latch. -/
theorem witness_PowerOffStopsPort :
    let held : State := carded.modPos 0 fun v => { v with latchState := .energized }
    LinkReady carded ∧ powerKinds 0 = some [.reader] ∧ powerKinds 1 = some [.keypad] ∧
    allPos.filter (setNames carded.variant 1) = [0] ∧ allPos.filter (setNames .cx4 0x80) = [3] ∧
    (carded.pos 0).needsPort .reader = false ∧ (carded.pos 0).needsPort .keypad = false ∧
    (carded.port 0 .reader).state = .ready ∧ (carded.port 0 .keypad).state = .off ∧
    LinkReady held ∧ (held.pos 0).latchState = .energized ∧ held.latchWait = [] ∧
    (∀ ps w, LinkReady (latchAsked ps w) ∧ ((latchAsked ps w).pos 0).chain = [heldRecord ps w] ∧
      ((latchAsked ps w).pos 0).waiting = [] ∧ (latchAsked ps w).queue.length < 32) ∧
    ((latchAsked .holdCard .latch).pos 0).needsPort .reader = true :=
  ⟨{ ready_up with rest := quiet_carded.rest }, by decide, by decide, by decide, by decide, by decide, by decide, by decide,
    by decide, { ready_up with rest := (quiet_carded.modPos (fun v => { v with latchState := .energized }) ⟨rfl, rfl, rfl⟩).rest },
    rfl, rfl, fun ps w => ⟨{ ready_up with rest := (quiet_asked ps w).rest }, rfl, rfl, (by decide : 0 < 32)⟩, by decide⟩

/-- Every state of the receiver, and frames_ok at 0, one below its mark, and at its most. -/
theorem witness_ReceiveByteBuildsFrame :
    let full (n : Nat) : State :=
      { linked fun l =>
          { l with rx := .body, partialFrame := [3, 2, 0, 1], transmitter := some someFrame, slot := some someFrame,
                   buffer := [someFrame, someFrame, someFrame] } with
        deviceCounters := up.deviceCounters.set 0 n }
    up.link.rx = .hunting ∧ (linked fun l => { l with rx := .length }).link.rx = .length ∧
    (3 ≤ (3 : Byte).toNat ∧ (64 : Byte).toNat ≤ 64) ∧
    (linked fun l => { l with rx := .body, partialFrame := [3, 2, 0] }).link.partialFrame = 3 :: [2, 0] ∧
    ([2, 0] : List Byte).length < (3 : Byte).toNat ∧
    (3 : Byte).toNat = ([] : List Byte).length + 3 ∧ sum8 (3 :: 2 :: 0 :: 1 :: [] ++ [0xFA]) = 0 ∧
    (∀ n, AtRest (full n) ∧ (full n).link.rx = .body ∧ (full n).link.partialFrame = 3 :: 2 :: 0 :: 1 :: [] ∧
      (full n).link.slot ≠ none ∧ (full n).link.buffer.length < 4 ∧ (full n).queue.length < 32) ∧
    (full 0).deviceCounters[0] = 0 ∧ (full 49151).deviceCounters[0] = 49151 ∧ (full 65535).deviceCounters[0] = 65535 :=
  ⟨rfl, rfl, by decide, rfl, by decide, rfl, by decide,
    fun _ => ⟨⟨fun _ => rfl, show ∀ p, startDue (up.pos p) = false by decide, fun h => nomatch h⟩, rfl, rfl,
      nofun, show 3 < 4 by decide, show 0 < 32 by decide⟩,
    by decide, by decide, by decide⟩

/-- Each of the four ways to lose a frame; a sum that is not 0 and a full buffer. -/
theorem witness_LostFrameCounts :
    let len := linked fun l => { l with rx := .length, gapTimer := .running 20 }
    let full := linked fun l =>
      { l with rx := .body, partialFrame := [3, 2, 0, 1], transmitter := some someFrame, slot := some someFrame,
               buffer := [someFrame, someFrame, someFrame, someFrame] }
    AtRest up ∧ up.queue.length < 32 ∧ up.deviceCounters[1] < 49151 ∧ up.link.buffer = [] ∧ up.link.rx = .hunting ∧
    AtRest len ∧ len.link.rx = .length ∧ (2 : Byte).toNat < 3 ∧ 64 < (65 : Byte).toNat ∧ len.link.gapTimer.isRunning = true ∧
    AtRest full ∧ full.link.slot ≠ none ∧ full.link.partialFrame = 3 :: [2, 0, 1] ∧
    ([2, 0, 1] : List Byte).length = (3 : Byte).toNat ∧ sum8 (3 :: [2, 0, 1] ++ [0]) ≠ 0 ∧ full.link.buffer.length = 4 :=
  ⟨atRest_up, by decide, by decide, rfl, rfl, ⟨by decide, by decide, by decide⟩, rfl, by decide, by decide, rfl,
    ⟨by decide, by decide, by decide⟩, by decide, rfl, by decide, by decide, rfl⟩

/-- A reply waits; nothing waits; a KEY report waits; a NOTICE report waits, with a class to place and with none. -/
theorem witness_TransmitDoneHandsNext :
    let sending := linked fun l => { l with transmitter := some someFrame }
    AtRest (linked fun l => { l with transmitter := some someFrame, slot := some someFrame }) ∧ AtRest sending ∧
    sending.link.buffer = [] ∧ sending.waitOrder = [] ∧ sending.link.slot = none ∧ sending.link.restarting = false ∧
    sending.queue = [] ∧ AtRest { sending with queue := [.key 0 (.digit 1) false] } ∧ Report.key 0 (.digit 1) false ≠ .notice ∧
    AtRest { sending with queue := [.notice], notices := up.notices.set 14 { pending := true } } ∧
    (∃ i : Fin 15, (up.notices.set 14 { pending := true })[i].pending = true ∧
      (up.notices.set 14 { pending := true })[i].muted = false) ∧
    AtRest { sending with queue := [.notice], notices := up.notices.set 14 { pending := true, muted := true } } ∧
    (∀ i : Fin 15, (up.notices.set 14 { pending := true, muted := true })[i].pending = true →
      (up.notices.set 14 { pending := true, muted := true })[i].muted = true) :=
  ⟨⟨by decide, by decide, by decide⟩, ⟨by decide, by decide, by decide⟩, rfl, rfl, rfl, rfl, rfl,
    ⟨by decide, by decide, by decide⟩, by decide, ⟨by decide, by decide, by decide⟩, ⟨14, by decide⟩,
    ⟨by decide, by decide, by decide⟩, by decide⟩

/-- A frame of an unknown kind waits behind the reply; a KEY report waits behind a full queue. -/
theorem witness_TransmitDoneHandsNext_waiting :
    let taking := linked fun l => { l with transmitter := some someFrame, slot := some someFrame,
                                           buffer := [{ kind := 0x42, pos := 0, tag := 7, payload := [] }] }
    let full := State.modPos
      { linked fun l => { l with transmitter := some someFrame } with
        queue := List.replicate 32 (.presence 1 true 1), waitOrder := [.position 0] } 0
      fun v => { v with waiting := [.key 0 (.digit 1) false] }
    AtRest taking ∧ taking.link.restarting = false ∧ taking.waitOrder = [] ∧ isRequestKind 0x42 = false ∧
    taking.deviceCounters[2] < 49151 ∧ AtRest full ∧ full.link.slot = none ∧ full.link.restarting = false ∧
    full.link.buffer = [] ∧ full.queue = .presence 1 true 1 :: List.replicate 31 (.presence 1 true 1) ∧
    full.queue.length = 32 ∧ full.waitOrder = [.position 0] ∧ (full.pos 0).waiting = [.key 0 (.digit 1) false] :=
  ⟨⟨by decide, by decide, by decide⟩, rfl, rfl, by decide, by decide, ⟨by decide, by decide, by decide⟩, rfl, rfl, rfl, rfl, rfl,
    rfl, rfl⟩

/-- A good check and a failed one, each with and without a lockout. -/
theorem witness_StartLoadsStore :
    (∀ l c, let s : State :=
        { restarting with settings := { up.settings with lockout := l, store := { up.settings.store with checkGood := c } } }
      s.settings.job = none ∧ s.link.restarting = true ∧ s.link.slot = none ∧ s.link.transmitter ≠ none ∧
        s.settings.lockout = l ∧ s.settings.store.checkGood = c) ∧
    AtRest up ∧ up.link.restarting = false :=
  ⟨fun _ _ => ⟨rfl, rfl, rfl, nofun, rfl, rfl⟩, atRest_up, rfl⟩

theorem witness_StartMeetsStoreWrite :
    let busy := { restarting with settings := { up.settings with job := some (.item 5 0 2) } }
    busy.settings.job = some (.item 5 0 2) ∧ busy.link.restarting = true ∧ busy.link.slot = none ∧ busy.link.transmitter ≠ none :=
  ⟨rfl, rfl, rfl, by decide⟩

theorem witness_StartCompletes :
    AtRest State.reset ∧ State.reset.queue.length < 32 ∧ State.reset.link.startComplete = false ∧
    State.reset.settings.loadPending = false ∧ AtRest up ∧ up.link.startComplete = true :=
  ⟨free_reset.rest, by decide, rfl, rfl, atRest_up, rfl⟩

/-- A write of an item, of the passcode, and of the lock flag. -/
theorem witness_StoreWriteEnds :
    ∀ j ∈ [StoreJob.item 15 47 0, .passcode (Vector.replicate 8 0x39), .lockFlag],
      AtRest { up with settings := { up.settings with job := some j } } ∧ up.queue.length < 32 ∧ up.settings.loadPending = false :=
  fun _ _ => ⟨atRest_up, by decide, rfl⟩

/-- A pass unit at a READY reader, without a step. -/
def passing (u : PassUnit) : State := at0 fun v => { v with reader := readyPort, pass := u }

theorem quiet_passing (u : PassUnit) : Quiet 0 (passing u) :=
  quiet_at0 (fun v => { v with reader := readyPort, pass := u }) rfl rfl

/-- Every assembly state, with the pass buffer one short of full, and full. -/
theorem witness_UnarmedReaderAssembles :
    Quiet 0 up ∧ readerClass 0x20 = .faultByte ∧ (up.pos 0).reader.state ≠ .ready ∧ (up.pos 0).pass.gapTimer = .stopped ∧
    (∀ u : PassUnit, Quiet 0 (passing u) ∧ ((passing u).pos 0).reader.state = .ready ∧ ((passing u).pos 0).pass = u) ∧
    (List.replicate 109 (0x13 : BitVec 5)).length < 110 ∧ 110 ≤ (List.replicate 110 (0x13 : BitVec 5)).length ∧
    ({ state := .discarding, gapTimer := .running 50 } : PassUnit).gapTimer.isRunning = true ∧
    up.deviceCounters[3] < 49151 :=
  ⟨quiet_up, by decide, by decide, rfl, fun u => ⟨quiet_passing u, rfl, rfl⟩, by decide, by decide, rfl, by decide⟩

/-- A WAIT CARD with its reader armed and a pass of the characters given assembled. -/
def reading (buffer : List (BitVec 5)) : State :=
  at0 fun v =>
    { v with
      chainState := .running
      chain := [{ params := .waitCard 3 60, tag := 9, notify := true, stopOnFailure := true,
                  progress := some (.active (.card (.running 60000))) }]
      reader := readyPort
      pass := { state := .receiving, buffer := buffer, gapTimer := .running 50, armed := true } }

theorem quiet_reading (buffer : List (BitVec 5)) : Quiet 0 (reading buffer) :=
  quiet_at0
    (fun v =>
      { v with
        chainState := .running
        chain := [{ params := .waitCard 3 60, tag := 9, notify := true, stopOnFailure := true,
                    progress := some (.active (.card (.running 60000))) }]
        reader := readyPort
        pass := { state := .receiving, buffer := buffer, gapTimer := .running 50, armed := true } })
    rfl rfl

/-- The card of section 2.6 with a parity bit lost, below the limit of 3 attempts and at it. -/
theorem witness_FailedAttemptCounts :
    let s := reading (goodCard.set 7 0x05)
    Quiet 0 s ∧ readerClass 0x80 = .faultByte ∧ (s.pos 0).reader.state = .ready ∧ (s.pos 0).pass.armed = true ∧
    (s.pos 0).pass.state = .receiving ∧ (s.pos 0).counters[1] < 49151 ∧
    (checkPass s.settings.live (s.pos 0).pass.buffer (s.pos 0).pass.overlong).failure ≠ none ∧
    (s.pos 0).pass.gapTimer.isRunning = true ∧ (s.pos 0).attemptCount + 1 < (s.pos 0).attemptLimit ∧
    ∃ r, (s.pos 0).chain = [r] ∧ r.params = .waitCard 3 60 ∧ r.progress = some (.active (.card (.running 60000))) :=
  ⟨quiet_reading _, by decide, rfl, rfl, rfl, by decide, by decide, rfl, by decide, ⟨_, rfl, rfl, rfl⟩⟩

/-- A pass of a 19 digit account, an expiry of January and `n` more characters 0; its check character makes the sum 0. -/
def longPass (n : Nat) : List (BitVec 5) :=
  let body : List (BitVec 5) :=
    List.replicate 19 0x10 ++ [0x0D, 0x02, 0x07, 0x10, 0x01, 0x01, 0x10, 0x01] ++ List.replicate n 0x10
  let record : List (BitVec 5) := 0x0B :: body ++ [0x1F]
  let sum := record.foldl (fun (x : BitVec 4) (c : BitVec 5) => x ^^^ c.setWidth 4) 0
  let odd := (List.range 4).countP (fun i => sum.getLsbD i) % 2 = 1
  record ++ [(if odd then 0 else 0x10) + sum.setWidth 5]

/-- The card of section 2.6 on an empty table and on an entry that matches it with each action; texts of two and of three
segments; and a card at a match, with the budget free and the re-energize interval over and running. -/
theorem witness_GoodPassEndsWaitCard :
    let s := reading goodCard
    let checked := checkPass s.settings.live (s.pos 0).pass.buffer (s.pos 0).pass.overlong
    let long (n : Nat) : List (BitVec 5) := longPass n
    Quiet 0 s ∧ s.queue.length + 3 < 32 ∧ (s.pos 0).counters[0] < 49151 ∧ (s.pos 0).counters[2] < 49151 ∧
    checked.failure = none ∧ checked.text.length ≤ 48 ∧ screen s.screening checked.text = none ∧
    screen (tableUp .report).screening checked.text = some (3, .report) ∧
    screen (tableUp .hold).screening checked.text = some (3, .hold) ∧ (s.pos 0).latchState ≠ .energized ∧
    (s.pos 0).cardPresent = false ∧
    (checkPass factoryDeviceItems (long 22) false).text.length = 49 ∧
    (checkPass factoryDeviceItems (long 80) false).text.length = 107 ∧
    (let t : State := s.modPos 0 fun v => { v with cardPresent := true, cardLine := true }
     Quiet 0 t ∧ (t.pos 0).cardPresent = true ∧ (t.pos 0).reEnergizeTimer = .stopped ∧ t.latchWait = [] ∧
      t.energized.length < t.settings.live.latchBudget.toNat) ∧
    Quiet 0 (s.modPos 0 fun v => { v with cardPresent := true, reEnergizeTimer := .running 1 }) :=
  ⟨quiet_reading _, by decide, by decide, by decide, by decide, by decide, by decide, by decide, by decide, by decide, rfl,
    by decide +kernel, by decide +kernel,
    ⟨(quiet_reading _).modPos (fun v => { v with cardPresent := true, cardLine := true }) ⟨rfl, rfl, rfl⟩, rfl, rfl, rfl, by decide⟩,
    (quiet_reading _).modPos (fun v => { v with cardPresent := true, reEnergizeTimer := .running 1 }) ⟨rfl, rfl, rfl⟩⟩

theorem quiet_entering (buffer : List (Fin 10)) : Quiet 0 (entering buffer) := (quiet_stepping _ _).modPos _ ⟨rfl, rfl, rfl⟩

/-- `stepping` with the records given behind its step. -/
def followed (ps : StepParams) (w : Work) (stop : Bool) (rest : List StepRecord) : State :=
  at0 fun v =>
    { v with chainState := .running, chain := { heldRecord ps w with stopOnFailure := stop } :: rest }

theorem quiet_followed (ps : StepParams) (w : Work) (stop : Bool) (rest : List StepRecord) : Quiet 0 (followed ps w stop rest) :=
  quiet_at0 (fun v => { v with chainState := .running, chain := { heldRecord ps w with stopOnFailure := stop } :: rest })
    (by simp [startDue, Position.inFlight, Position.headProgress, heldRecord]) rfl

/-- One step of each kind alone, before a PAUSE, and before a HOLD CARD with a halt; a session with its timers running; no step. -/
theorem witness_TimersEndSteps :
    (let s := entering [1]
     Quiet 0 s ∧ (s.pos 0).entry.state = .collecting ∧ (s.pos 0).counters[4] < 49151 ∧
      (s.pos 0).entry.firstKey.isRunning = true ∧ (s.pos 0).entry.interKey.isRunning = true ∧
      (s.pos 0).entry.ceiling.isRunning = true) ∧
    Quiet 0 up ∧ (up.pos 0).inFlight = false ∧ (up.pos 0).entry.firstKey = .stopped ∧
    (up.pos 0).entry.interKey = .stopped ∧ (up.pos 0).entry.ceiling = .stopped :=
  ⟨⟨quiet_entering _, rfl, by decide, rfl, rfl, rfl⟩, quiet_up, rfl, rfl, rfl, rfl⟩

theorem witness_TimersEndSteps_chain :
    (∀ ps w stop rest, Quiet 0 (followed ps w stop rest) ∧
      ((followed ps w stop rest).pos 0).chain = { heldRecord ps w with stopOnFailure := stop } :: rest) ∧
    PauseNext [] ∧ PauseNext [{ heldRecord (.pause 5) .latch with progress := none }] ∧
    ∀ n ∈ [{ heldRecord .holdCard .latch with progress := none }].head?, n.progress = none := by
  refine ⟨fun _ _ _ _ => ⟨quiet_followed _ _ _ _, rfl⟩, by simp [PauseNext], fun n h => ?_, fun n h => ?_⟩
  · obtain rfl := Option.some.inj h
    exact ⟨rfl, 5, rfl⟩
  · obtain rfl := Option.some.inj h
    rfl

/-- A READY keypad without a session. -/
def typing (k : KeyUnit) : State := at0 fun v => { v with keypad := readyPort, key := k }

theorem quiet_typing (k : KeyUnit) : Quiet 0 (typing k) :=
  quiet_at0 (fun v => { v with keypad := readyPort, key := k }) rfl rfl

/-- Code 23 of layout A is nothing, code 7 has no held symbol, code 13 has one; each with and without an undecided press. -/
theorem witness_KeysBecomeSymbols :
    let held : KeyUnit := { undecided := some { code := 13, press := .clear, held := .cancel }, longPress := .running 1500 }
    Quiet 0 (typing {}) ∧ ((typing {}).pos 0).keypad.state = .ready ∧ ((typing {}).pos 0).collecting = none ∧
    symbolOf (loByte (pressEntry (typing {}) 0 23)) = .nothing ∧ symbolOf (loByte (pressEntry (typing {}) 0 7)) ≠ .nothing ∧
    symbolOf (hiByte (pressEntry (typing {}) 0 7)) = .nothing ∧ symbolOf (loByte (pressEntry (typing {}) 0 13)) ≠ .nothing ∧
    symbolOf (hiByte (pressEntry (typing {}) 0 13)) ≠ .nothing ∧ ({} : KeyUnit).undecided = none ∧
    ({} : KeyUnit).longPress = .stopped ∧ Quiet 0 (typing held) ∧ held.longPress.isRunning = true :=
  ⟨quiet_typing _, rfl, by decide, by decide, by decide, by decide, by decide, by decide, rfl, rfl, quiet_typing _, rfl⟩

/-- A full report queue, and the reports given waiting at position 0. -/
def queueFull (f : Position → Position) (waiting : List Report) : State :=
  let s := at0 fun v => { f v with waiting := waiting }
  { s with
    queue := List.replicate 32 (.presence 1 true 1)
    waitOrder := if waiting = [] then [] else [.position 0]
    link := { s.link with transmitter := some someFrame } }

theorem atRest_full (f : Position → Position) (h : startDue (f (up.pos 0)) = false) (w : List Report) : AtRest (queueFull f w) :=
  ⟨fun hq => absurd hq (show ¬(List.replicate 32 (Report.presence 1 true 1)).length < 32 by decide),
    (atRest_modPos atRest_up 0 (fun v => { f v with waiting := w }) h).2.1, nofun⟩

/-- Code 7 at a full queue, with 7 and with 8 KEY reports waiting. -/
theorem witness_KeysBecomeSymbols_full :
    ∀ n ∈ [7, 8],
      let s : State := queueFull (fun v => { v with keypad := readyPort, items := { v.items with idleKeys := 1 } })
        (List.replicate n (.key 0 (.digit 1) false))
      AtRest s ∧ s.queue.length = 32 ∧ (s.pos 0).keypad.state = .ready ∧ (s.pos 0).collecting = none ∧
      (s.pos 0).items.idleKeys = 1 ∧ (s.pos 0).key.undecided = none ∧ symbolOf (loByte (pressEntry s 0 7)) ≠ .nothing ∧
      symbolOf (hiByte (pressEntry s 0 7)) = .nothing ∧ (s.pos 0).counters[5] < 49151 ∧
      ((s.pos 0).waiting.countP fun x => match x with
        | .key _ _ _ => true
        | _ => false) = n := by
  intro n hn
  refine ⟨atRest_full _ rfl _, ?_⟩
  revert n
  decide +kernel

/-- `entering` with code 0 of layout A standing for the symbol byte given, without a held symbol. -/
def mapped (x : Byte) (buffer : List (Fin 10)) : State :=
  { entering buffer with settings := { up.settings with live := up.settings.live.write 15 0 (keyEntry x 0xFF) } }

theorem pos_settings (s : State) (g : Settings) (p : Pos) : ({ s with settings := g } : State).pos p = s.pos p := rfl

theorem quiet_settings {p : Pos} {s : State} (h : Quiet p s) (g : Settings) : Quiet p { s with settings := g } :=
  ⟨h.present, ⟨h.rest.1, h.rest.2.1, h.rest.2.2⟩, h.room, h.noneWaiting⟩

/-- A session collecting with two digits and with none, and a key for each of the 20 symbols. -/
theorem witness_SessionTakesKeys :
    (∀ x b, Quiet 0 (mapped x b) ∧ (mapped x b).pos 0 = (entering b).pos 0) ∧
    (let s := entering [1, 2]
     (s.pos 0).keypad.state = .ready ∧ (s.pos 0).entry.state = .collecting ∧ (s.pos 0).entry.mode ≠ .openKeys ∧
      (s.pos 0).key.undecided = none ∧ (s.pos 0).counters[3] < 49151 ∧
      (s.pos 0).entry.minLen ≤ (s.pos 0).entry.buffer.length ∧
      ∃ r, (s.pos 0).chain = [r] ∧ r.params = .collect amountEntry ∧ r.progress = some (.active .session)) ∧
    ((entering []).pos 0).entry.buffer.length < ((entering []).pos 0).entry.minLen ∧
    (∀ x : Fin 20, symbolOf (loByte (pressEntry (mapped (byteOf x.val) []) 0 0)) = symbolTable.getD x.val .nothing ∧
      symbolOf (hiByte (pressEntry (mapped (byteOf x.val) []) 0 0)) = .nothing) ∧
    (∀ x ∈ [Symbol.digit 0, .digit 9, .doubleZero, .back, .clear, .dot, .enter, .cancel], x ∈ symbolTable) :=
  ⟨fun x b => ⟨quiet_settings (quiet_entering b) _, pos_settings _ _ 0⟩, ⟨rfl, rfl, by decide, rfl, by decide, by decide, ⟨_, rfl, rfl, rfl⟩⟩, by decide, by decide +kernel,
    by decide⟩

/-- A session with the digits given in the mode given, code 0 of layout A standing for the symbol byte given. -/
def inMode (m : EntryMode) (x : Byte) (buffer : List (Fin 10)) : State :=
  { (stepping (.collect { amountEntry with mode := m }) .session).modPos 0 fun v =>
      { v with keypad := readyPort, entry := { ((entering buffer).pos 0).entry with mode := m } } with
    settings := { up.settings with live := up.settings.live.write 15 0 (keyEntry x 0xFF) } }

/-- An OPEN session takes a digit, ENTER and CANCEL; a CONCEALED one a CLEAR over two digits, its clear limit 3. -/
theorem witness_SessionTakesKeys_modes :
    (∀ m x b, Quiet 0 (inMode m x b) ∧ ((inMode m x b).pos 0).keypad.state = .ready ∧
      ((inMode m x b).pos 0).entry.state = .collecting ∧ ((inMode m x b).pos 0).key.undecided = none ∧
      ((inMode m x b).pos 0).counters[3] = 0 ∧
      ∃ r, ((inMode m x b).pos 0).chain = [r] ∧ r.params = .collect { amountEntry with mode := m } ∧
        r.progress = some (.active .session) ∧ r.notify = true) ∧
    (∀ x ∈ [Symbol.digit 5, .enter, .cancel, .clear], ∃ k : Fin 20, let b := byteOf k.val
      symbolOf (loByte (pressEntry (inMode .openKeys b []) 0 0)) = x ∧
        symbolOf (loByte (pressEntry (inMode .concealed b [1, 2]) 0 0)) = x ∧
        symbolOf (hiByte (pressEntry (inMode .openKeys b []) 0 0)) = .nothing ∧
        symbolOf (hiByte (pressEntry (inMode .concealed b [1, 2]) 0 0)) = .nothing) ∧
    (∀ b, ((inMode .openKeys b []).pos 0).entry.mode = .openKeys ∧ ((inMode .openKeys b []).pos 0).entry.buffer = [] ∧
      (inMode .openKeys b []).queue.length < 31) ∧
    (∀ b, let e := ((inMode .concealed b [1, 2]).pos 0).entry
      e.mode = .concealed ∧ e.buffer ≠ [] ∧ e.state = .collecting ∧ e.clearLimit = 3) :=
  ⟨fun m x b => ⟨quiet_settings ((quiet_stepping _ _).modPos _ ⟨rfl, rfl, rfl⟩) _, rfl, rfl, rfl, rfl, _, rfl, rfl, rfl, rfl⟩,
    by decide +kernel, fun b => ⟨rfl, rfl, show 0 < 31 by decide⟩, fun b => ⟨rfl, show ([1, 2] : List (Fin 10)) ≠ [] by decide, rfl, rfl⟩⟩

/-- A SHOW that waits on its write. -/
def showing (k : KeyUnit) : State :=
  (stepping (.showText none []) (.display true)).modPos 0 fun v => { v with keypad := readyPort, key := k }

theorem quiet_showing (k : KeyUnit) : Quiet 0 (showing k) := (quiet_stepping _ _).modPos _ ⟨rfl, rfl, rfl⟩

/-- A write with and without a SHOW that waits on it; line_errors at 0, one below its mark, and at its most. -/
theorem witness_KeypadAnswers :
    let written : KeyUnit := { outstanding := some [0x31], ackTimer := .running 200 }
    Quiet 0 (typing written) ∧ up.queue.length < 31 ∧ ((typing written).pos 0).inFlight = false ∧
    ((typing written).pos 0).keypad.state = .ready ∧ written.outstanding ≠ none ∧ written.ackTimer.isRunning = true ∧
    ({} : KeyUnit).outstanding = none ∧ ({} : KeyUnit).ackTimer = .stopped ∧ Quiet 0 (showing written) ∧
    (∃ r, ((showing written).pos 0).chain = [r] ∧ r.params = .showText none [] ∧ r.progress = some (.active (.display true))) ∧
    keypadClass 0x18 = .other ∧ Quiet 0 up ∧ (up.pos 0).keypad.state = .off ∧
    ∀ n ∈ [0, 49151, 65535], let s := (typing {}).modPos 0 fun v => { v with counters := v.counters.set 7 n }
      Quiet 0 s ∧ (s.pos 0).counters[7] = n :=
  ⟨quiet_typing _, by decide, by decide, rfl, by decide, rfl, rfl, rfl, quiet_showing _, ⟨_, rfl, rfl, rfl⟩, by decide,
    quiet_up, rfl, fun n hn => ⟨(quiet_typing _).modPos (fun v => { v with counters := v.counters.set 7 n }) ⟨rfl, rfl, rfl⟩, by
      revert n; decide⟩⟩

/-- The stagger of 20 ms not over, just over, and no switch-on before. -/
theorem witness_SwitchOnTakesHead :
    let s := { up with lastSwitchOn := some 1000, powerList := [{ pos := 0, kind := .reader }] }
    up.powerList = [] ∧ up.lastSwitchOn = none ∧ s.powerList = { pos := 0, kind := .reader } :: [] ∧
    s.lastSwitchOn = some 1000 ∧ 1019 < 1000 + s.settings.live.stagger.toNat ∧ 1000 ≤ 1019 ∧
    1000 + s.settings.live.stagger.toNat ≤ 1020 := by decide

/-- Ports of `up` given at position 0. -/
def ported (r k : PortRecord) : State := at0 fun v => { v with reader := r, keypad := k }

theorem quiet_ported (r k : PortRecord) : Quiet 0 (ported r k) :=
  quiet_at0 (fun v => { v with reader := r, keypad := k }) rfl rfl

/-- Every standing of the readiness checks, with a current at the lower and at the upper limit, the card line low and high. -/
theorem witness_StartingPortBecomesReady :
    (∀ r k, Quiet 0 (ported r k) ∧ ((ported r k).pos 0).inFlight = false ∧ ((ported r k).pos 0).cardLine = false ∧
      ((ported r k).pos 0).reader = r ∧ ((ported r k).pos 0).keypad = k) ∧
    (∀ r k, let s := (ported r k).modPos 0 fun v => { v with cardLine := true }
      Quiet 0 s ∧ (s.pos 0).inFlight = false ∧ (s.pos 0).cardLine = true ∧ (s.pos 0).reader = r) ∧
    15 ≤ (up.pos 0).items.readerUpper.toNat ∧ 300 ≤ (up.pos 0).items.readerUpper.toNat ∧
    8 ≤ (up.pos 0).items.keypadUpper.toNat ∧ 150 ≤ (up.pos 0).items.keypadUpper.toNat :=
  ⟨fun _ _ => ⟨quiet_ported _ _, rfl, rfl, rfl, rfl⟩,
    fun _ _ => ⟨(quiet_ported _ _).modPos (fun v => { v with cardLine := true }) ⟨rfl, rfl, rfl⟩, rfl, rfl, rfl⟩, by decide⟩

/-- `ported` with a step that waits for its port. -/
def awaiting (ps : StepParams) (r k : PortRecord) : State :=
  at0 fun v =>
    { v with
      chainState := .running, chain := [{ heldRecord ps .latch with progress := some .waitingPort }], reader := r, keypad := k }

/-- A WAIT CARD and a SHOW in WAITING_PORT, the display's line free. -/
theorem witness_StartingPortBecomesReady_step :
    (∀ ps r k, let s := awaiting ps r k
      Quiet 0 s ∧ (s.pos 0).cardLine = false ∧ (s.pos 0).key.outstanding = none ∧ s.queue.length < 31 ∧
      s.port 0 .reader = r ∧ s.port 0 .keypad = k ∧
      ∃ x, (s.pos 0).chain = [x] ∧ x.progress = some .waitingPort ∧ x.params = ps) ∧
    (StepParams.waitCard 3 60).kind.port = some .reader ∧ (StepParams.showText none []).kind.port = some .keypad :=
  ⟨fun ps r k => ⟨quiet_at0 (fun v =>
      { v with
        chainState := .running, chain := [{ heldRecord ps .latch with progress := some .waitingPort }], reader := r, keypad := k })
      (by simp [startDue, Position.inFlight, Position.headProgress]) rfl, rfl, rfl, show 0 < 31 by decide, rfl, rfl,
      _, rfl, rfl, rfl⟩, rfl, rfl⟩

/-- A port over its limit, under it, ABSENT with its current back, READY, and OFF. -/
theorem witness_PortIsSupervised :
    (∀ r k, Quiet 0 (ported r k) ∧ ((ported r k).pos 0).inFlight = false ∧ ((ported r k).pos 0).cardLine = false ∧
      ((ported r k).pos 0).needsPort .reader = false ∧ ((ported r k).pos 0).needsPort .keypad = false ∧
      ((ported r k).pos 0).latchState ≠ .energized ∧ (ported r k).port 0 .reader = r ∧ (ported r k).port 0 .keypad = k) ∧
    { readyPort with overTime := .running 10 }.overTime.isRunning = true ∧ readyPort.overTime = .stopped ∧
    (let r := { readyPort with underTime := .running 500, current := 14 }
     r.state = .ready ∧ r.underTime.isRunning = true ∧ r.current < 15) ∧
    readyPort.underTime = .stopped ∧
    (let r := { readyPort with state := .absent, returnChecks := some { standing := .reached, announceSeen := false }, current := 15 }
     r.state = .absent ∧ r.returnChecks = some { standing := .reached, announceSeen := false } ∧ 15 ≤ r.current) ∧
    readyPort.returnChecks = none ∧ readyPort.state = .ready ∧ readyPort.switchedOn = true ∧ readyPort.readiness = none ∧
    ({} : PortRecord).switchedOn = false :=
  ⟨fun _ _ => ⟨quiet_ported _ _, rfl, rfl, rfl, rfl, (by decide : LatchState.off ≠ .energized), rfl, rfl⟩, by decide⟩

/-- A step that needs its port, and an energized latch, at a reader whose over-time runs. -/
theorem witness_PortIsSupervised_step :
    (∀ f : PortRecord → PortRecord,
      let s : State := (stepping .holdCard .latch).modPos 0 fun v => { v with reader := f readyPort, latchState := .energized }
      Quiet 0 s ∧ s.port 0 .reader = f readyPort ∧ (s.pos 0).latchState = .energized ∧ s.latchWait = [] ∧ s.queue.length < 31 ∧
        (s.pos 0).chain = [heldRecord .holdCard .latch]) ∧
    ((stepping .holdCard .latch).pos 0).needsPort .reader = true ∧
    ((stepping (.collect amountEntry) .session).pos 0).needsPort .keypad = true :=
  ⟨fun f => ⟨(quiet_stepping _ _).modPos (fun v => { v with reader := f readyPort, latchState := .energized }) ⟨rfl, rfl, rfl⟩, rfl,
    rfl, rfl, show 0 < 31 by decide, rfl⟩, by decide, by decide⟩

/-- A READY reader with and without a card, a RELEASE CARD, a HOLD CARD and a WAIT CARD that wait, an OFF reader, and the card-left
timer. -/
theorem witness_CardLineFollowed :
    Quiet 0 (passing {}) ∧ up.queue.length < 31 ∧ ((passing {}).pos 0).reader.state = .ready ∧
    ((passing {}).pos 0).cardPresent = false ∧ Quiet 0 carded ∧ (carded.pos 0).reader.state = .ready ∧
    (carded.pos 0).cardPresent = true ∧ (carded.pos 0).inFlight = false ∧
    (∀ ps w, Quiet 0 (latchAsked ps w) ∧ ((latchAsked ps w).pos 0).reader.state = .ready ∧
      ((latchAsked ps w).pos 0).cardPresent = true ∧ ((latchAsked ps w).pos 0).chain = [heldRecord ps w]) ∧
    (∃ i text flags, screenWork = .screenHold i text flags ∧ text.length ≤ 48) ∧
    Quiet 0 up ∧ (up.pos 0).reader.state ≠ .ready ∧ (up.pos 0).cardLeftTimer = .stopped ∧
    Quiet 0 (at0 fun v => { v with cardLeftTimer := .running 1 }) :=
  ⟨quiet_passing _, by decide, rfl, rfl, quiet_carded, rfl, rfl, rfl, fun _ _ => ⟨quiet_asked _ _, rfl, rfl, rfl⟩,
    ⟨_, _, _, rfl, by decide⟩, quiet_up, by decide, rfl, quiet_at0 _ (by decide) rfl⟩

/-- A full queue, with no PRESENCE report waiting and with one that has counted 255 changes behind a KEY report. -/
theorem witness_CardLineFollowed_full :
    (∀ b w, let s := queueFull (fun v => { v with reader := readyPort, cardPresent := !b }) w
      AtRest s ∧ s.queue.length = 32 ∧ (s.pos 0).reader.state = .ready ∧ (s.pos 0).work = none ∧ (s.pos 0).cardPresent = !b ∧
        (s.pos 0).waiting = w) ∧
    (∀ x ∈ ([.key 0 (.digit 1) false] : List Report), ¬∃ q c n, x = .presence q c n) ∧ min 255 (255 + 1) = 255 := by
  refine ⟨fun b w => ⟨atRest_full _ rfl w, rfl, rfl, rfl, rfl, rfl⟩, ?_, rfl⟩
  simp

theorem oldest_of_others {q : Pos} {r : StepRecord} {rep : Report} {b : Bool} {s t : State} (h : OldestWaiter q r rep b s)
    (hw : t.latchWait = s.latchWait) (hp : ∀ x ∈ s.latchWait, t.pos x = s.pos x) : OldestWaiter q r rep b t := by
  obtain ⟨a, c, e, ho⟩ := h.oldest
  have hq : t.pos q = s.pos q := hp q (by rw [e]; simp)
  refine ⟨⟨a, c, by rw [hw, e], fun x hx => ?_⟩, ?_, ?_, ?_, ?_, ?_, ?_, h.step⟩
  · have := ho x hx
    unfold PassedOver at *
    rwa [hp x (by rw [e]; simp [hx])]
  all_goals rw [hq]
  exacts [h.ready, h.card, h.interval, h.state, h.chain, h.noneWaiting]

/-- `latchAsked` with both timers of position 1 running. -/
def latchTimed (ps : StepParams) (w : Work) : State :=
  (latchAsked ps w).modPos 1 fun v => { v with ceilingTimer := .running 1, reEnergizeTimer := .running 1 }

theorem quiet_timed (ps : StepParams) (w : Work) : Quiet 1 (latchTimed ps w) :=
  ⟨show (1 : Nat) < 8 by decide, atRest_modPos (quiet_asked ps w).rest 1 _ rfl, show (0 : Nat) < 32 by decide, rfl⟩

/-- A ceiling and a re-energize timer of position 1 with nobody waiting, with a full budget, and with two requests, the older passed
over and the other a HOLD CARD or a WAIT CARD after a match. -/
theorem witness_LatchTimersRunOut :
    Quiet 1 latchContest ∧ (latchContest.pos 1).ceilingTimer.isRunning = true ∧ (latchContest.pos 1).counters[6] < 49151 ∧
    Quiet 0 up ∧ up.latchWait = [] ∧ (up.pos 0).ceilingTimer = .stopped ∧ (up.pos 0).reEnergizeTimer = .stopped ∧
    (∀ ps w, let s := latchTimed ps w
      Quiet 1 s ∧ (s.pos 1).ceilingTimer.isRunning = true ∧ (s.pos 1).reEnergizeTimer.isRunning = true ∧
        (s.pos 1).counters[6] < 49151 ∧ s.queue.length < 31 ∧ s.energized.length < s.settings.live.latchBudget.toNat ∧
        ∀ x ∈ s.latchWait, x ≠ 0 → PassedOver x s) ∧
    ∀ ps w r rep b, OldestWaiter 0 r rep b (latchAsked ps w) →
      OldestWaiter 0 r rep b
        ((latchOff 1 (latchTimed ps w)).modPos 1 fun v => { v with counters := v.counters.set 6 (v.counters[6] + 1) }) ∧
      OldestWaiter 0 r rep b ((latchTimed ps w).modPos 1 fun v => { v with reEnergizeTimer := .stopped }) := by
  refine ⟨⟨by decide, ⟨by decide, by decide, by decide⟩, by decide, rfl⟩, by decide, by decide, quiet_up, rfl, rfl, rfl,
    fun ps w => ⟨quiet_timed ps w, rfl, rfl, show 0 < 49151 by decide, show 0 < 31 by decide,
      show 0 < up.settings.live.latchBudget.toNat by decide, fun x hx h0 => ?_⟩, fun ps w r rep b h => ⟨?_, ?_⟩⟩
  · rcases List.mem_cons.mp hx with rfl | hx
    · exact passed_five ps w
    · exact absurd (List.mem_singleton.mp hx) h0
  all_goals
    refine oldest_of_others h rfl fun x hx => ?_
    rcases List.mem_cons.mp hx with rfl | hx
    · rfl
    · rw [List.mem_singleton.mp hx]
      rfl

/-- The card of section 2.6: whole, with a parity bit lost, and without its start, its end and its separator. -/
theorem witness_PassChecksSum :
    let ones (c : BitVec 5) : Nat := (List.range 5).countP fun i => c.getLsbD i
    let bad (l : List (BitVec 5)) : Nat := (l.filter fun c => ones c % 2 = 0).length
    let account : List (BitVec 4) := [7, 3, 9, 2, 0, 4, 5, 6, 1, 8, 3, 4]
    let tail : List (BitVec 4) := [2, 7, 0, 9, 1, 0, 1, 0, 0, 5]
    let body := account ++ 13 :: tail
    bad goodCard = 0 ∧ 0 < bad (goodCard.set 7 0x05) ∧ goodCard.map (fun c => c.setWidth 4) = 11 :: body ++ 15 :: 6 :: [] ∧
    15 ∉ body ∧ 13 ∉ account ∧ (11 :: body ++ [15]).foldl (· ^^^ ·) (0 : BitVec 4) = 6 ∧
    bad goodCard.tail = 0 ∧ (goodCard.tail.map fun c => (c.setWidth 4 : BitVec 4)).head? ≠ some 11 ∧
    bad goodCard.dropLast = 0 ∧ (15 : BitVec 4) ∉ (body ++ [15]).dropLast ∧
    (13 : BitVec 4) ∉ ([] : List (BitVec 4)) ∧ bad [0x0B, 0x1F, 0x04] = 0 ∧ ((11 : BitVec 4) ^^^ 15) = 4 := by decide

/-- Characters at the edges, and the entry of section 3.7 that matches the card's text with no other entry before it. -/
theorem witness_DigestSums :
    (∀ c ∈ ([0x30, 0x3F] : List Byte), 0x30 ≤ c.toNat ∧ c.toNat ≤ 0x3F) ∧
    ∃ e sel, (tableUp .hold).screening[(3 : Fin 16)] = some e ∧ e.action = .hold ∧
      selectChars e.segments (checkPass factoryDeviceItems goodCard false).text = some sel ∧ digestOf sel = e.digest :=
  ⟨by decide, { action := .hold, segments := [{ skip := 0, take := 12 }], digest := 28725 },
    [0x37, 0x33, 0x39, 0x32, 0x30, 0x34, 0x35, 0x36, 0x31, 0x38, 0x33, 0x34], by decide, rfl, by decide, by decide⟩

/-- The longest buffer with the most decimals, in each mode; and a whole and a fraction of an amount. -/
theorem witness_EchoShapes :
    let digits : List (Fin 10) := [1, 2, 3, 4, 5, 6, 7, 8, 9, 0, 1, 2]
    digits.length ≤ 12 ∧ (3 : Nat) ≤ 3 ∧ 0 < (3 : Nat) ∧
    ([0x30, 0x30, 0x30] : List Byte) ++ [0x35] = List.replicate (3 + 1 - 1) 0x30 ++ [byteOf (0x30 + 5)] := by decide

theorem witness_AtRestKept : AtRest up ∧ step up = .next up := ⟨atRest_up, rfl⟩

theorem witness_PoolKeptByEveryStep : PoolKept State.reset ∧ step State.reset = .next State.reset := by
  refine ⟨?_, rfl⟩
  unfold PoolKept
  decide

/-- With a latch energized and one waiting. -/
theorem witness_LatchesAgreeAfterEveryStep : LatchesAgree latchContest ∧ step latchContest = .next latchContest := by
  refine ⟨?_, rfl⟩
  unfold LatchesAgree
  decide

theorem witness_LimitsKeptByEveryStep :
    QueuesBounded up ∧ CountersBounded up ∧ EntryWiped up ∧ SettingsSound up ∧ step up = .next up := by
  refine ⟨?_, ?_, ?_, ?_, rfl⟩
  · unfold QueuesBounded; decide
  · unfold CountersBounded; decide
  · unfold EntryWiped; decide
  · unfold SettingsSound; decide

theorem witness_LineEventStaysAtItsPosition :
    (Instr.passGapTimeout 7).line = some 7 ∧ AtRest up ∧ (∀ q ∈ up.latchWait, q = 7) ∧ exec (.passGapTimeout 7) up = .next up := by
  refine ⟨rfl, atRest_up, by decide, ?_⟩
  have h : Quiet 7 up := ⟨by decide, atRest_up, by decide, rfl⟩
  exact h.passGapTimeout.trans (congrArg Host.Outcome.next (settle_of_atRest atRest_up))

end Sys2Proof.Tests
end

section
/-! SUPPORT and PROOF for O53. The checks of a completed pass (section 2.4): what each stage answers, then the statement
about the five stages. -/

namespace Sys2Proof.Machine

/-! ### Stage 1 -/

theorem parityError_iff_even_ones : ∀ c : BitVec 5,
    parityError c = decide (((List.range 5).countP fun i => c.getLsbD i) % 2 = 0) := by
  decide

theorem parityErrors_eq_length_filter (buf : List (BitVec 5)) :
    parityErrors buf = (buf.filter fun c => ((List.range 5).countP fun i => c.getLsbD i) % 2 = 0).length := by
  rw [parityErrors, funext parityError_iff_even_ones, List.countP_eq_length_filter]

/-! ### Stages 2 and 3: the record and its check character -/

/-- The characters before the first `a`. -/
theorem takeWhile_ne_append_cons {a : BitVec 4} {l : List (BitVec 4)} (h : a ∉ l) (r : List (BitVec 4)) :
    (l ++ a :: r).takeWhile (· ≠ a) = l := by
  rw [List.takeWhile_append_of_pos fun x hx => decide_eq_true (ne_of_mem_of_not_mem hx h)]
  simp

/-- What stands from the first `a` on. -/
theorem dropWhile_ne_append_cons {a : BitVec 4} {l : List (BitVec 4)} (h : a ∉ l) (r : List (BitVec 4)) :
    (l ++ a :: r).dropWhile (· ≠ a) = a :: r := by
  rw [List.dropWhile_append_of_pos fun x hx => decide_eq_true (ne_of_mem_of_not_mem hx h)]
  simp

theorem findRecord_eq_noStart {vals : List (BitVec 4)} (h : vals.head? ≠ some 11) : findRecord vals = .error .noStart := by
  cases vals with
  | nil => rfl
  | cons first rest => exact if_pos fun hfirst => h (congrArg some hfirst)

/-- An end mark that stands last has no check character behind it. -/
theorem findRecord_eq_noEnd {rest : List (BitVec 4)} (h : 15 ∉ rest.dropLast) :
    findRecord (11 :: rest) = .error .noEnd := by
  obtain rfl | ⟨front, last, rfl⟩ := rest.eq_nil_or_concat
  · rfl
  · rw [List.concat_eq_append, List.dropLast_concat] at h
    have hcut : (front.concat last).dropWhile (· ≠ 15) = [last].dropWhile (· ≠ 15) := by
      rw [List.concat_eq_append, List.dropWhile_append_of_pos fun x hx => decide_eq_true (ne_of_mem_of_not_mem hx h)]
    simp only [findRecord, hcut, ne_eq, not_true, if_false, List.dropWhile_cons, List.dropWhile_nil]
    split_ifs <;> rfl

theorem findRecord_eq_ok {body : List (BitVec 4)} (h : 15 ∉ body) (check : BitVec 4) (more : List (BitVec 4)) :
    findRecord (11 :: body ++ 15 :: check :: more) = .ok (body, check) := by
  simp only [findRecord, List.cons_append, takeWhile_ne_append_cons h, dropWhile_ne_append_cons h]
  rfl

theorem findRecord_error_flag {vals : List (BitVec 4)} {f : CheckFlag} (h : findRecord vals = .error f) :
    f = .noStart ∨ f = .noEnd := by
  unfold findRecord at h
  split at h
  next => exact .inl (Except.error.inj h).symm
  next =>
    split at h
    · exact .inl (Except.error.inj h).symm
    · split at h
      · cases h
      · exact .inr (Except.error.inj h).symm

/-- The order of an exclusive-or does not matter: the marks may be taken first, as the model does. -/
theorem recordXor_eq_foldl (body : List (BitVec 4)) :
    recordXor body = (11 :: body ++ [15]).foldl (· ^^^ ·) (0 : BitVec 4) := by
  rw [List.foldl_append]
  change recordXor body = body.foldl (· ^^^ ·) (0 ^^^ 11) ^^^ 15
  calc recordXor body = body.foldr (· ^^^ ·) (15 ^^^ 11) := rfl
    _ = 15 ^^^ body.foldl (· ^^^ ·) 11 := by
      rw [← List.foldl_eq_foldr, List.foldl_assoc]
    _ = body.foldl (· ^^^ ·) (0 ^^^ 11) ^^^ 15 := BitVec.xor_comm ..

/-! ### Stage 4: the fields of the body -/

theorem all_isDigit_iff (l : List (BitVec 4)) : l.all isDigit = true ↔ ¬ ∃ v ∈ l, 9 < v.toNat := by
  simp [isDigit]

theorem monthOk_iff (tens units : BitVec 4) :
    monthOk tens units = true ↔ ¬ (10 * tens.toNat + units.toNat < 1 ∨ 12 < 10 * tens.toNat + units.toNat) := by
  simp only [monthOk, Bool.and_eq_true, decide_eq_true_eq]
  omega

/-- In a body, which holds no end mark, only the start mark is not allowed. -/
theorem all_isDiscretionary_iff {l : List (BitVec 4)} (h : 15 ∉ l) : l.all isDiscretionary = true ↔ 11 ∉ l := by
  simp only [List.all_eq_true, isDiscretionary, Bool.and_eq_true, decide_eq_true_eq]
  grind

theorem checkAccount_eq_noSep (lo hi : Nat) {body : List (BitVec 4)} (h : 13 ∉ body) :
    checkAccount lo hi body = some .noSep := if_pos h

theorem checkAccount_eq (lo hi : Nat) {account : List (BitVec 4)} (h : 13 ∉ account) (tail : List (BitVec 4)) :
    checkAccount lo hi (account ++ 13 :: tail) =
      if account.length < lo ∨ hi < account.length then some .acctLen
      else if ∃ v ∈ account, 9 < v.toNat then some .field
      else none := by
  have hsep : ¬ 13 ∉ account ++ 13 :: tail := by simp
  simp only [checkAccount, if_neg hsep, takeWhile_ne_append_cons h, all_isDigit_iff, Bool.or_eq_true, decide_eq_true_eq,
    ite_not]

theorem checkTail_eq {tail : List (BitVec 4)} (h : 15 ∉ tail) :
    checkTail tail =
      if tail.length < 7 then some .short
      else if (∃ v ∈ tail.take 7, 9 < v.toNat) ∨ 10 * (tail.getD 2 0).toNat + (tail.getD 3 0).toNat < 1 ∨
        12 < 10 * (tail.getD 2 0).toNat + (tail.getD 3 0).toNat ∨ 11 ∈ tail.drop 7 then some .field
      else none := by
  have hrest : (tail.drop 7).all isDiscretionary = true ↔ 11 ∉ tail.drop 7 :=
    all_isDiscretionary_iff fun hmem => h (List.mem_of_mem_drop hmem)
  have hdigits := all_isDigit_iff (tail.take 7)
  have hmonth := monthOk_iff (tail.getD 2 0) (tail.getD 3 0)
  simp only [checkTail, Bool.not_eq_true', ← Bool.not_eq_true, hdigits, hmonth, hrest, not_not, ite_not, ite_or]

theorem checkAccount_flag {lo hi : Nat} {body : List (BitVec 4)} {f : CheckFlag} (h : checkAccount lo hi body = some f) :
    f = .noSep ∨ f = .acctLen ∨ f = .field := by
  simp only [checkAccount] at h
  split_ifs at h <;> simp_all

theorem checkTail_flag {tail : List (BitVec 4)} {f : CheckFlag} (h : checkTail tail = some f) : f = .short ∨ f = .field := by
  unfold checkTail at h
  split_ifs at h <;> simp_all

/-! ### Stage 5: the check digit of the account -/

/-- What a digit adds to the sum of stage 5 from the place `i` to the left of the rightmost one (R44). -/
def digitWeight (i d : Nat) : Nat := if i % 2 = 0 then d else doubled d

/-- Two digits further left the weights are the same again, so the sum goes on two digits at a time. -/
theorem luhnSum_eq_sum_weights (ds : List Nat) :
    luhnSum ds = ((List.range ds.length).map fun i => digitWeight i (ds.getD i 0)).sum := by
  induction ds using luhnSum.induct with
  | case1 => rfl
  | case2 d => simp [luhnSum, digitWeight]
  | case3 d e rest ih =>
    simp [luhnSum, ih, List.range_succ_eq_map, Function.comp_def, digitWeight, Nat.add_assoc]

theorem luhnSum_account (account : List (BitVec 4)) :
    luhnSum (account.map (·.toNat)).reverse =
      ((List.range account.length).map fun i => digitWeight i (account.reverse.getD i 0).toNat).sum := by
  rw [luhnSum_eq_sum_weights, ← List.map_reverse]
  have hdigit (i : Nat) : (account.reverse.map (·.toNat)).getD i 0 = (account.reverse.getD i 0).toNat :=
    List.getD_map (l := account.reverse) (0 : BitVec 4) BitVec.toNat
  simp only [List.length_map, List.length_reverse, hdigit]

/-! ### Stages 4 and 5 together -/

/-- The first failure of stages 4 and 5 on a body (R42 to R44). -/
def bodyFailure (items : DeviceItems) (body : List (BitVec 4)) : Option CheckFlag :=
  (checkAccount items.accountMin.toNat items.accountMax.toNat body).or <|
    (checkTail ((body.dropWhile (· ≠ 13)).drop 1)).or <|
      if items.checkDigit = 1 ∧ luhnSum ((body.takeWhile (· ≠ 13)).map (·.toNat)).reverse % 10 ≠ 0 then some .checkDigit
      else none

theorem bodyFailure_eq_noSep (items : DeviceItems) {body : List (BitVec 4)} (h : 13 ∉ body) :
    bodyFailure items body = some .noSep := by
  rw [bodyFailure, checkAccount_eq_noSep _ _ h, Option.some_or]

theorem bodyFailure_flag {items : DeviceItems} {body : List (BitVec 4)} {f : CheckFlag} (h : bodyFailure items body = some f) :
    f ≠ .parity ∧ f ≠ .lrc := by
  simp only [bodyFailure, Option.or_eq_some_iff] at h
  obtain haccount | ⟨_, htail | ⟨_, hdigit⟩⟩ := h
  · obtain rfl | rfl | rfl := checkAccount_flag haccount <;> simp
  · obtain rfl | rfl := checkTail_flag htail <;> simp
  · split_ifs at hdigit
    cases hdigit
    simp

/-- Stages 4 and 5 on a body cut at its first separator. -/
theorem bodyFailure_eq (items : DeviceItems) {account tail : List (BitVec 4)} (haccount : 13 ∉ account)
    (htail : 15 ∉ tail) :
    bodyFailure items (account ++ 13 :: tail) =
      if account.length < items.accountMin.toNat ∨ items.accountMax.toNat < account.length then some .acctLen
      else if ∃ v ∈ account, 9 < v.toNat then some .field
      else if tail.length < 7 then some .short
      else if (∃ v ∈ tail.take 7, 9 < v.toNat) ∨ 10 * (tail.getD 2 0).toNat + (tail.getD 3 0).toNat < 1 ∨
        12 < 10 * (tail.getD 2 0).toNat + (tail.getD 3 0).toNat ∨ 11 ∈ tail.drop 7 then some .field
      else if items.checkDigit = 1 ∧
        ((List.range account.length).map fun i => digitWeight i (account.reverse.getD i 0).toNat).sum % 10 ≠ 0 then
          some .checkDigit
      else none := by
  rw [bodyFailure, checkAccount_eq _ _ haccount, takeWhile_ne_append_cons haccount, dropWhile_ne_append_cons haccount,
    List.drop_one, List.tail_cons, checkTail_eq htail, luhnSum_account]
  split_ifs <;> rfl

/-! ### The stages in their order -/

theorem checkRecord_of_error {items : DeviceItems} {vals : List (BitVec 4)} {f : CheckFlag} (h : findRecord vals = .error f) :
    checkRecord items vals = .error f := by
  rw [checkRecord, h]

theorem checkRecord_of_record {items : DeviceItems} {vals body : List (BitVec 4)} {check : BitVec 4}
    (h : findRecord vals = .ok (body, check)) :
    checkRecord items vals =
      if recordXor body ≠ check then .error .lrc
      else (bodyFailure items body).elim (.ok body) .error := by
  by_cases hxor : recordXor body = check
  · rw [checkRecord, h, if_neg (not_not.mpr hxor)]
    simp only [hxor, ne_eq, not_true, if_false]
    cases haccount : checkAccount items.accountMin.toNat items.accountMax.toNat body with
    | some f => rw [bodyFailure, haccount]; rfl
    | none =>
      cases htail : checkTail ((body.dropWhile (· ≠ 13)).drop 1) with
      | some f => rw [bodyFailure, haccount, htail]; rfl
      | none =>
        rw [bodyFailure, haccount, htail]
        simp only [checkDigitOk, Option.none_or, Bool.and_eq_true, decide_eq_true_eq, Bool.not_eq_true',
          beq_eq_false_iff_ne]
        split_ifs <;> rfl
  · simp only [checkRecord, h, if_pos hxor]

/-- The flag of PARITY is stage 1's alone. -/
theorem checkRecord_ne_parity (items : DeviceItems) (vals : List (BitVec 4)) : checkRecord items vals ≠ .error .parity := by
  intro h
  cases hrecord : findRecord vals with
  | error f =>
    rw [checkRecord_of_error hrecord] at h
    obtain rfl | rfl := findRecord_error_flag hrecord <;> cases h
  | ok found =>
    rw [checkRecord_of_record hrecord] at h
    split_ifs at h
    · cases h
    · cases hbody : bodyFailure items found.1 with
      | none => simp [hbody] at h
      | some f => exact (bodyFailure_flag hbody).1 (by simpa [hbody] using h)

theorem checkPass_of_parity (items : DeviceItems) {buf : List (BitVec 5)} (h : parityErrors buf ≠ 0) (overlong : Bool) :
    checkPass items buf overlong = ⟨some .parity, overlong, parityErrors buf, []⟩ := if_pos h

theorem checkPass_of_error {items : DeviceItems} {buf : List (BitVec 5)} {f : CheckFlag} (hparity : parityErrors buf = 0)
    (h : checkRecord items (buf.map dataValue) = .error f) (overlong : Bool) :
    checkPass items buf overlong = ⟨some f, overlong, 0, []⟩ := by
  simp [checkPass, hparity, h]

theorem checkPass_of_ok {items : DeviceItems} {buf : List (BitVec 5)} {body : List (BitVec 4)} (hparity : parityErrors buf = 0)
    (h : checkRecord items (buf.map dataValue) = .ok body) (overlong : Bool) :
    checkPass items buf overlong = ⟨none, overlong, 0, body.map textChar⟩ := by
  simp [checkPass, hparity, h]

/-- The three forms of a check result: a parity failure, a failure of a later stage, a good pass. -/
theorem checkPass_cases (items : DeviceItems) (buf : List (BitVec 5)) (overlong : Bool) :
    (parityErrors buf ≠ 0 ∧ checkPass items buf overlong = ⟨some .parity, overlong, parityErrors buf, []⟩) ∨
    (parityErrors buf = 0 ∧ ∃ f, f ≠ .parity ∧ checkPass items buf overlong = ⟨some f, overlong, 0, []⟩) ∨
    (parityErrors buf = 0 ∧ ∃ text, checkPass items buf overlong = ⟨none, overlong, 0, text⟩) := by
  by_cases hparity : parityErrors buf = 0
  · cases h : checkRecord items (buf.map dataValue) with
    | error f =>
      refine .inr (.inl ⟨hparity, f, ?_, checkPass_of_error hparity h overlong⟩)
      rintro rfl
      exact checkRecord_ne_parity _ _ h
    | ok body => exact .inr (.inr ⟨hparity, _, checkPass_of_ok hparity h overlong⟩)
  · exact .inl ⟨hparity, checkPass_of_parity items hparity overlong⟩

theorem checkPass_failure_of_findRecord_error (items : DeviceItems) {buf : List (BitVec 5)} {f : CheckFlag}
    (hparity : parityErrors buf = 0) (h : findRecord (buf.map dataValue) = .error f) (overlong : Bool) :
    (checkPass items buf overlong).failure = some f := by
  rw [checkPass_of_error hparity (checkRecord_of_error h)]

/-- A pass with a record fails at stage 3 or as its body does; without a failure its text is the body's. -/
theorem checkPass_of_record (items : DeviceItems) {buf : List (BitVec 5)} {body : List (BitVec 4)} {check : BitVec 4}
    (hparity : parityErrors buf = 0) (h : findRecord (buf.map dataValue) = .ok (body, check)) (overlong : Bool) :
    (checkPass items buf overlong).failure = (if recordXor body ≠ check then some .lrc else bodyFailure items body) ∧
    ((checkPass items buf overlong).failure = none → (checkPass items buf overlong).text = body.map textChar) := by
  have hrecord := checkRecord_of_record (items := items) h
  by_cases hxor : recordXor body = check
  · rw [if_neg (not_not.mpr hxor)] at hrecord ⊢
    cases hbody : bodyFailure items body with
    | some f =>
      rw [checkPass_of_error hparity (hrecord.trans (by rw [hbody]; rfl))]
      exact ⟨rfl, nofun⟩
    | none =>
      rw [checkPass_of_ok hparity (hrecord.trans (by rw [hbody]; rfl))]
      exact ⟨rfl, fun _ => rfl⟩
  · rw [if_pos hxor] at hrecord ⊢
    rw [checkPass_of_error hparity hrecord]
    exact ⟨rfl, nofun⟩

/-- Settles O53: the three forms of a result give the clauses about every pass, the place of the marks those about stages 2
and 3, and the body cut at its first separator the last one. -/
theorem passChecksSum : Obligations.PassChecksSum := by
  intro g buffer overlong r ones bad values
  have hbad : parityErrors buffer = bad := parityErrors_eq_length_filter buffer
  have hforms := checkPass_cases g buffer overlong
  rw [hbad] at hforms
  refine ⟨?_, ?_, ?_, ?_, ?_, ?_, ?_⟩
  · obtain ⟨_, hr⟩ | ⟨_, f, _, hr⟩ | ⟨_, text, hr⟩ := hforms <;> exact congrArg CheckResult.overlong hr
  · obtain ⟨_, hr⟩ | ⟨_, f, _, hr⟩ | ⟨_, text, hr⟩ := hforms <;> simp [r, hr]
  · intro hpos
    obtain ⟨_, hr⟩ | ⟨hzero, _⟩ | ⟨hzero, _⟩ := hforms
    · exact ⟨congrArg CheckResult.failure hr, congrArg CheckResult.parityErrors hr⟩
    · omega
    · omega
  · intro hzero
    obtain ⟨hne, _⟩ | ⟨_, f, hf, hr⟩ | ⟨_, text, hr⟩ := hforms
    · exact absurd hzero hne
    · simp [r, hr, hf]
    · simp [r, hr]
  · intro hzero hhead
    exact checkPass_failure_of_findRecord_error g (hbad.trans hzero) (findRecord_eq_noStart hhead) overlong
  · intro rest hzero hvalues hend
    exact checkPass_failure_of_findRecord_error g (hbad.trans hzero)
      ((congrArg findRecord hvalues).trans (findRecord_eq_noEnd hend)) overlong
  · intro body check more hzero hvalues hend total
    have htotal : recordXor body = total := recordXor_eq_foldl body
    obtain ⟨hfailure, htext⟩ := checkPass_of_record g (hbad.trans hzero)
      ((congrArg findRecord hvalues).trans (findRecord_eq_ok hend check more)) overlong
    rw [htotal] at hfailure
    have hbody (hsum : total = check) : r.failure = bodyFailure g body := by
      rw [hfailure, if_neg (not_not.mpr hsum)]
    refine ⟨⟨fun hlrc hsum => ?_, fun hsum => hfailure.trans (if_pos hsum)⟩, ?_, htext, ?_⟩
    · exact (bodyFailure_flag ((hbody hsum).symm.trans hlrc)).2 rfl
    · intro hsum hsep
      exact (hbody hsum).trans (bodyFailure_eq_noSep g hsep)
    · intro account tail hsum hcut haccount month digit weight sum
      have htail : 15 ∉ tail := fun hmem =>
        hend (hcut ▸ List.mem_append_right _ (List.mem_cons_of_mem _ hmem))
      rw [hbody hsum, hcut]
      exact bodyFailure_eq g haccount htail

end Sys2Proof.Machine
end

section
/-! SUPPORT and PROOF for O16 and O17. A request of device scope on a ready link, and the requests to the screening table
that name places (R56, R57). -/

namespace Sys2Proof.Machine

/-! ### A request of device scope -/

theorem target_device_of_ne_FF (v : Variant) {pos : Byte} (h : pos ≠ 0xFF) : target v .device pos = .bad := by
  unfold target
  rw [if_pos rfl, if_neg h, ite_self]

section deviceScope

variable {s : State} {k : RequestKind} {tag : Byte} {payload : List Byte}

/-- Any POS byte but FF is refused before the request's own rule (R160, R161). -/
theorem sendRequest_device_badPos (hready : LinkReady s) (hlen : payload.length ≤ 61) (hk : k.scope = .device) {pos : Byte}
    (hpos : pos ≠ 0xFF) :
    sendRequest (request k pos tag payload) s = withReply (refusalReply k pos tag .badPos) (countedRefusal (counted s)) := by
  refine sendRequest_refuse k pos tag payload hready.toLinkFree hlen (by decide) ?_
  have hstarted : (counted s).link.startComplete = true := hready.started
  simp [answer, request, requestKind_code, hstarted, hk, target_device_of_ne_FF _ hpos]

theorem answer_device_FF (hready : LinkReady s) (hk : k.scope = .device) :
    answer (request k 0xFF tag payload) (counted s) = ownRule k .device payload (counted s) :=
  answer_device k tag payload hready (by revert hk; cases k <;> decide)

theorem sendRequest_device_refused (hready : LinkReady s) (hlen : payload.length ≤ 61) (hk : k.scope = .device)
    {c : ResultCode} (hc : c ≠ .ok) (hrule : ownRule k .device payload (counted s) = refuse (counted s) c) :
    sendRequest (request k 0xFF tag payload) s = withReply (refusalReply k 0xFF tag c) (countedRefusal (counted s)) :=
  sendRequest_refuse k 0xFF tag payload hready.toLinkFree hlen hc ((answer_device_FF hready hk).trans hrule)

theorem sendRequest_device_answered (hready : LinkReady s) (hlen : payload.length ≤ 61) (hk : k.scope = .device)
    {t : State} {fields : List Byte} (hrest : AtRest t)
    (hrule : ownRule k .device payload (counted s) = { state := t, code := .ok, fields := fields }) :
    sendRequest (request k 0xFF tag payload) s = withReply (okReply k 0xFF tag fields) t :=
  sendRequest_answer k 0xFF tag payload hready.toLinkFree hlen ((answer_device_FF hready hk).trans hrule) hrest

end deviceScope

/-! ### SCREEN DROP (R56) -/

theorem handleScreenDrop_locked (payload : List Byte) {s : State} (h : s.settings.unlocked = false) :
    handleScreenDrop payload s = refuse s .denied := by
  simp [handleScreenDrop, h]

theorem handleScreenDrop_badArg {payload : List Byte} {s : State} (h : s.settings.unlocked = true)
    (hform : ∀ lo hi, payload ≠ [lo, hi]) : handleScreenDrop payload s = refuse s .badArg := by
  unfold handleScreenDrop
  rw [h]
  match payload with
  | [] | [_] | _ :: _ :: _ :: _ => rfl
  | [lo, hi] => exact absurd rfl (hform lo hi)

/-- The table with the places of an id set emptied. -/
def droppedTable (w : Word) (table : Vector (Option ScreenEntry) 16) : Vector (Option ScreenEntry) 16 :=
  Vector.ofFn fun i => if w.getLsbD i.val then none else table[i]

/-- The ids of an id set whose places hold an entry. -/
def droppedIds (w : Word) (table : Vector (Option ScreenEntry) 16) : Word :=
  wordOfNat (markBits (allIds.map fun i => w.getLsbD i.val && table[i].isSome))

theorem handleScreenDrop_ids (lo hi : Byte) {s : State} (h : s.settings.unlocked = true) :
    handleScreenDrop [lo, hi] s =
      { state := { s with screening := droppedTable (wordOf lo hi) s.screening }, code := .ok,
        fields := wordBytes (droppedIds (wordOf lo hi) s.screening) ++
          [byteOf (entryCount (droppedTable (wordOf lo hi) s.screening))] } := by
  unfold handleScreenDrop
  rw [h]
  rfl

/-- Settles O16: the refusals in their order, then the places emptied. -/
theorem screenDropEmptiesPlaces : Obligations.ScreenDropEmptiesPlaces := by
  intro s pos tag payload hready hlen refused
  rw [exec_request (f := request .screenDrop pos tag payload) rfl]
  congr 1
  split_ifs with hpos hlocked
  · exact sendRequest_device_badPos hready hlen rfl hpos
  · obtain rfl := not_not.mp hpos
    exact sendRequest_device_refused hready hlen rfl (by decide) (handleScreenDrop_locked payload hlocked)
  · obtain rfl := not_not.mp hpos
    have hunlocked : s.settings.unlocked = true := by simpa using hlocked
    split
    next lo hi =>
      exact sendRequest_device_answered hready hlen rfl
        ((counted_rest hready.rest).of_same rfl rfl rfl fun _ => rfl) (handleScreenDrop_ids lo hi hunlocked)
    next hform => exact sendRequest_device_refused hready hlen rfl (by decide) (handleScreenDrop_badArg hunlocked hform)

/-! ### SCREEN LIST (R57) -/

theorem handleScreenList_badArg {payload : List Byte} (s : State) (hform : ∀ start, payload ≠ [start]) :
    handleScreenList payload s = refuse s .badArg := by
  match payload with
  | [] | _ :: _ :: _ => rfl
  | [start] => exact absurd rfl (hform start)

theorem handleScreenList_past {start : Byte} (s : State) (h : 15 < start.toNat) :
    handleScreenList [start] s = refuse s .badArg := if_pos h

theorem handleScreenList_start {start : Byte} (s : State) (h : ¬15 < start.toNat) :
    handleScreenList [start] s = { state := s, code := .ok, fields := screenListFields s.screening start.toNat } := if_neg h

/-- The next id as the reply gives it: the first of the ids left over, or FF. -/
def nextIdByte : List (Fin 16) → Byte
  | [] => 0xFF
  | i :: _ => byteOf i.val

/-- What the reply gives of a place: nothing of an empty one, else id, action, number of segments, digest and segments
(R172). -/
def placeBytes (i : Fin 16) : Option ScreenEntry → List Byte
  | none => []
  | some e =>
    [byteOf i.val, if e.action = .report then 0 else 1, byteOf e.segments.length] ++ wordBytes e.digest ++
      e.segments.flatMap fun g => [byteOf g.skip, byteOf g.take]

theorem entryBytes_eq_placeBytes (i : Fin 16) (e : ScreenEntry) : entryBytes i e = placeBytes i (some e) := by
  have hcode : e.action.code = if e.action = .report then 0 else 1 := by cases e.action <;> rfl
  rw [entryBytes, hcode, segmentBytes, placeBytes]

/-- The ids from a start id on whose places hold an entry, in ascending order. -/
def idsFrom (table : Vector (Option ScreenEntry) 16) (start : Nat) : List (Fin 16) :=
  allIds.filter fun i => start ≤ i.val && table[i].isSome

theorem screenListFields_eq (table : Vector (Option ScreenEntry) 16) (start : Nat) :
    screenListFields table start =
      [byteOf (entryCount table), byteOf ((idsFrom table start).take 4).length, nextIdByte ((idsFrom table start).drop 4)] ++
        ((idsFrom table start).take 4).flatMap fun i => placeBytes i table[i] := by
  refine congrArg₂ (· ++ ·) (congrArg (fun next => [_, _, next]) ?_) (congrArg (List.flatMap · _) (funext fun i => ?_))
  · rw [← idsFrom]
    cases (idsFrom table start).drop 4 <;> rfl
  · cases table[i] with
    | none => rfl
    | some e => exact entryBytes_eq_placeBytes i e

/-- Settles O17: the refusals in their order, then the fields of the reply one by one. -/
theorem screenListGivesEntries : Obligations.ScreenListGivesEntries := by
  intro s pos tag payload hready hlen refused
  rw [exec_request (f := request .screenList pos tag payload) rfl]
  congr 1
  split_ifs with hpos
  · exact sendRequest_device_badPos hready hlen rfl hpos
  obtain rfl := not_not.mp hpos
  split
  next start =>
    split_ifs with hpast
    · exact sendRequest_device_refused hready hlen rfl (by decide) (handleScreenList_past _ hpast)
    · refine (sendRequest_device_answered (k := .screenList) hready hlen rfl (counted_rest hready.rest)
        (handleScreenList_start (counted s) hpast)).trans ?_
      rw [screenListFields_eq]
      rfl
  next hform => exact sendRequest_device_refused hready hlen rfl (by decide) (handleScreenList_badArg _ hform)

end Sys2Proof.Machine
end

section
/-! SUPPORT and PROOF for O54. The screening of a text (R58 to R60): the two sums of a digest, the characters an entry
selects, and the lowest match. -/

namespace Sys2Proof.Machine

/-! ### The digest (R59) -/

/-- The sum A of a digest after the first `n` values. -/
def digestA (vs : List Nat) (n : Nat) : Nat := (1 + (vs.take n).sum) % 251

/-- The sum B of a digest: the A behind each value, added up. -/
def digestB (vs : List Nat) : Nat := ((List.range vs.length).map fun k => digestA vs (k + 1)).sum % 251

theorem digestA_append (vs more : List Nat) {n : Nat} (h : n ≤ vs.length) : digestA (vs ++ more) n = digestA vs n := by
  rw [digestA, List.take_append_of_le_length h, digestA]

theorem digestA_concat (vs : List Nat) (v : Nat) : digestA (vs ++ [v]) (vs.length + 1) = (digestA vs vs.length + v) % 251 := by
  rw [digestA, List.take_of_length_le (by simp), List.sum_append, digestA, List.take_length]
  simp [Nat.add_assoc]

theorem digestB_concat (vs : List Nat) (v : Nat) :
    digestB (vs ++ [v]) = (digestB vs + digestA (vs ++ [v]) (vs.length + 1)) % 251 := by
  have hearlier : ((List.range vs.length).map fun k => digestA (vs ++ [v]) (k + 1)) =
      (List.range vs.length).map fun k => digestA vs (k + 1) :=
    List.map_congr_left fun k hk => digestA_append vs [v] (List.mem_range.mp hk)
  rw [digestB, List.length_append, List.length_singleton, List.range_succ, List.map_append, List.sum_append, hearlier, digestB]
  simp

/-- The two sums taken value by value. -/
theorem foldl_digestStep (vs : List Nat) : vs.foldl digestStep (1, 0) = (digestA vs vs.length, digestB vs) := by
  induction vs using List.reverseRecOn with
  | nil => rfl
  | append_singleton vs v ih =>
    rw [List.foldl_append, ih, List.length_append, List.length_singleton, digestB_concat, digestA_concat]
    rfl

theorem digestOf_toNat (sel : List Byte) :
    (digestOf sel).toNat = digestB (sel.map charValue) * 256 + digestA (sel.map charValue) sel.length := by
  have ha : digestA (sel.map charValue) sel.length < 251 := Nat.mod_lt _ (by decide)
  have hb : digestB (sel.map charValue) < 251 := Nat.mod_lt _ (by decide)
  rw [digestOf, foldl_digestStep, List.length_map, wordOfNat, BitVec.toNat_ofNat]
  exact Nat.mod_eq_of_lt (by dsimp only; omega)

/-! ### The selection (R58) -/

/-- Where the segment number `k` begins: behind the skips and takes before it. -/
def cursorAt (segments : List ScreenSegment) (k : Nat) : Nat := ((segments.take k).map fun g => g.skip + g.take).sum

/-- The characters of every segment, one segment after the other. -/
def segmentChars (segments : List ScreenSegment) (text : List Byte) : List Byte :=
  segments.zipIdx.flatMap fun x => (text.drop (cursorAt segments x.2 + x.1.skip)).take x.1.take

theorem cursorAt_cons_succ (g : ScreenSegment) (gs : List ScreenSegment) (k : Nat) :
    cursorAt (g :: gs) (k + 1) = g.skip + g.take + cursorAt gs k := rfl

/-- Behind its first segment an entry goes on with the text behind it. -/
theorem segmentChars_cons (g : ScreenSegment) (gs : List ScreenSegment) (text : List Byte) :
    segmentChars (g :: gs) text =
      (text.drop g.skip).take g.take ++ segmentChars gs (text.drop (g.skip + g.take)) := by
  have hfirst : cursorAt (g :: gs) 0 = 0 := rfl
  rw [segmentChars, List.zipIdx_cons', List.flatMap_cons, List.flatMap_map, hfirst, Nat.zero_add, segmentChars]
  simp only [cursorAt_cons_succ, List.drop_drop, Nat.add_assoc, Prod.map_fst, Prod.map_snd, id_eq]

theorem selectChars_eq (segments : List ScreenSegment) (text : List Byte) :
    selectChars segments text =
      if text.length < cursorAt segments segments.length then none else some (segmentChars segments text) := by
  induction segments generalizing text with
  | nil => rfl
  | cons g gs ih =>
    rw [selectChars, ih, List.length_drop, List.length_cons, cursorAt_cons_succ, segmentChars_cons]
    by_cases hshort : text.length < g.skip + g.take
    · rw [if_pos hshort, if_pos (by omega)]
    · rw [if_neg hshort]
      by_cases hrest : text.length - (g.skip + g.take) < cursorAt gs gs.length
      · rw [if_pos hrest, if_pos (by omega), Option.map_none]
      · rw [if_neg hrest, if_neg (by omega), Option.map_some]

/-! ### The lowest match (R60) -/

/-- The place `i` holds an entry with action `a` that matches the text. -/
def ScreenHit (table : Vector (Option ScreenEntry) 16) (text : List Byte) (i : Fin 16) (a : ScreenAction) : Prop :=
  ∃ e sel, table[i] = some e ∧ e.action = a ∧ selectChars e.segments text = some sel ∧ digestOf sel = e.digest

theorem ScreenEntry.isMatch_iff (e : ScreenEntry) (text : List Byte) :
    e.isMatch text = true ↔ ∃ sel, selectChars e.segments text = some sel ∧ digestOf sel = e.digest := by
  unfold ScreenEntry.isMatch
  cases selectChars e.segments text <;> simp

theorem screenHit_iff (table : Vector (Option ScreenEntry) 16) (text : List Byte) (i : Fin 16) (a : ScreenAction) :
    ScreenHit table text i a ↔ placeMatches table text i = true ∧ table[i].map ScreenEntry.action = some a := by
  unfold ScreenHit placeMatches
  cases table[i] with
  | none => simp
  | some e => simp [ScreenEntry.isMatch_iff, and_comm]

theorem placeMatches_iff (table : Vector (Option ScreenEntry) 16) (text : List Byte) (i : Fin 16) :
    placeMatches table text i = true ↔ ∃ a, ScreenHit table text i a := by
  simp only [screenHit_iff, exists_and_left, iff_self_and]
  intro hmatch
  unfold placeMatches at hmatch
  cases hentry : table[i] with
  | none => simp [hentry] at hmatch
  | some e => exact ⟨e.action, rfl⟩

/-- The ids stand in ascending order, so the first that is found is the lowest. -/
theorem find?_allIds_eq_some_iff (p : Fin 16 → Bool) (i : Fin 16) :
    allIds.find? p = some i ↔ p i = true ∧ ∀ j, j < i → p j = false := by
  have hids : allIds = List.finRange 16 := by decide
  rw [hids, List.find?_eq_some_iff_getElem]
  refine and_congr_right fun _ => ⟨?_, fun hbefore => ?_⟩
  · rintro ⟨n, hn, rfl, hbefore⟩ j hj
    rw [List.getElem_finRange, Fin.lt_def] at hj
    simpa using hbefore j.val hj
  · refine ⟨i.val, by simp, by simp, fun j hj => ?_⟩
    simpa using hbefore ⟨j, hj.trans i.isLt⟩ hj

theorem find?_allIds_eq_none_iff (p : Fin 16 → Bool) : allIds.find? p = none ↔ ∀ i, p i = false := by
  have hids : ∀ i, i ∈ allIds := by decide
  simp [List.find?_eq_none, hids]

theorem screen_of_find?_eq_none {table : Vector (Option ScreenEntry) 16} {text : List Byte}
    (h : allIds.find? (placeMatches table text) = none) : screen table text = none := by
  rw [screen, h]

theorem screen_of_find?_eq_some {table : Vector (Option ScreenEntry) 16} {text : List Byte} {i : Fin 16}
    (h : allIds.find? (placeMatches table text) = some i) :
    ∃ a, ScreenHit table text i a ∧ screen table text = some (i, a) := by
  obtain ⟨a, hhit⟩ := (placeMatches_iff table text i).mp ((find?_allIds_eq_some_iff _ i).mp h).1
  obtain ⟨e, -, hentry, haction, -⟩ := id hhit
  refine ⟨a, hhit, ?_⟩
  rw [screen, h]
  simp only [hentry, Option.map_some, haction]

theorem ScreenHit.action_unique {table : Vector (Option ScreenEntry) 16} {text : List Byte} {i : Fin 16} {a b : ScreenAction}
    (ha : ScreenHit table text i a) (hb : ScreenHit table text i b) : a = b :=
  Option.some.inj (((screenHit_iff table text i a).mp ha).2.symm.trans ((screenHit_iff table text i b).mp hb).2)

theorem placeMatches_eq_false_iff (table : Vector (Option ScreenEntry) 16) (text : List Byte) (i : Fin 16) :
    placeMatches table text i = false ↔ ∀ a, ¬ScreenHit table text i a := by
  rw [← Bool.not_eq_true, placeMatches_iff, not_exists]

theorem screen_eq_none_iff (table : Vector (Option ScreenEntry) 16) (text : List Byte) :
    screen table text = none ↔ ∀ i a, ¬ScreenHit table text i a := by
  simp only [← placeMatches_eq_false_iff]
  rw [← find?_allIds_eq_none_iff]
  cases hfind : allIds.find? (placeMatches table text) with
  | none => simp [screen_of_find?_eq_none hfind]
  | some i =>
    obtain ⟨a, -, hscreen⟩ := screen_of_find?_eq_some hfind
    simp [hscreen]

theorem screen_eq_some_iff (table : Vector (Option ScreenEntry) 16) (text : List Byte) (i : Fin 16) (a : ScreenAction) :
    screen table text = some (i, a) ↔ ScreenHit table text i a ∧ ∀ j, j < i → ∀ b, ¬ScreenHit table text j b := by
  simp only [← placeMatches_eq_false_iff]
  constructor
  · intro hscreen
    cases hfind : allIds.find? (placeMatches table text) with
    | none => simp [screen_of_find?_eq_none hfind] at hscreen
    | some k =>
      obtain ⟨b, hhit, hfound⟩ := screen_of_find?_eq_some hfind
      obtain ⟨rfl, rfl⟩ : k = i ∧ b = a := by simpa [hfound] using hscreen
      exact ⟨hhit, ((find?_allIds_eq_some_iff _ k).mp hfind).2⟩
  · rintro ⟨hhit, hlowest⟩
    have hmatch := (placeMatches_iff table text i).mpr ⟨a, hhit⟩
    obtain ⟨b, hother, hfound⟩ := screen_of_find?_eq_some ((find?_allIds_eq_some_iff _ i).mpr ⟨hmatch, hlowest⟩)
    rw [hfound, hother.action_unique hhit]

/-- Settles O54: the digest is its two sums, the selection goes on behind each segment, and the ids are searched from the
lowest. -/
theorem digestSums : Obligations.DigestSums := by
  refine ⟨?_, selectChars_eq, fun table text => ⟨screen_eq_none_iff table text, screen_eq_some_iff table text⟩⟩
  intro sel _ values a b
  have hlength : values.length = sel.length := List.length_map _
  have hb : digestB values = b := by rw [digestB, hlength]; rfl
  have ha : a sel.length < 251 := Nat.mod_lt _ (by decide)
  have hb' : b < 251 := Nat.mod_lt _ (by decide)
  have hdigest : (digestOf sel).toNat = b * 256 + a sel.length := by rw [← hb]; exact digestOf_toNat sel
  refine ⟨hdigest, ?_, ?_⟩
  · rw [hiByte, BitVec.toNat_setWidth, BitVec.toNat_ushiftRight, hdigest, Nat.shiftRight_eq_div_pow]
    omega
  · rw [loByte, BitVec.toNat_setWidth, hdigest]
    omega

end Sys2Proof.Machine
end

section
/-! SUPPORT and PROOF for O10. A request whose POS byte does not suit its scope, and COUNTERS (R154), which reaches a position
or the device. -/

namespace Sys2Proof.Machine

/-! ### What the POS byte of a request of either scope names (R161) -/

theorem target_either_eq_bad_iff (v : Variant) (pos : Byte) :
    target v .either pos = .bad ↔ 8 ≤ pos.toNat ∧ pos ≠ 0xFF := by
  by_cases hpos : pos.toNat < 8
  · simp [target, hpos]
  · simp [target, hpos, Nat.le_of_not_lt hpos]

theorem target_either_of_ne_FF (v : Variant) {pos : Byte} (hsuits : ¬(8 ≤ pos.toNat ∧ pos ≠ 0xFF)) (hFF : pos ≠ 0xFF) :
    target v .either pos = .position (positionOf v pos) :=
  if_pos (Nat.lt_of_not_le fun h => hsuits ⟨h, hFF⟩)

/-- A POS byte that does not suit the scope is refused before the request's own rule (R160). -/
theorem sendRequest_badPos_of_target {s : State} {k : RequestKind} {pos tag : Byte} {payload : List Byte}
    (hready : LinkReady s) (hlen : payload.length ≤ 61) (htarget : target s.variant k.scope pos = .bad) :
    sendRequest (request k pos tag payload) s = withReply (refusalReply k pos tag .badPos) (countedRefusal (counted s)) := by
  refine sendRequest_refuse k pos tag payload hready.toLinkFree hlen (by decide) ?_
  have hstarted : (counted s).link.startComplete = true := hready.started
  have htarget' : target (counted s).variant k.scope pos = .bad := htarget
  simp [answer, request, requestKind_code, hstarted, htarget']

/-! ### The handler of COUNTERS (R154) -/

theorem handleCounters_form {payload : List Byte} (t : Target) (s : State) (hform : ∀ flag, payload ≠ [flag]) :
    handleCounters t payload s = refuse s .badArg := by
  match payload with
  | [] | _ :: _ :: _ => rfl
  | [flag] => exact absurd rfl (hform flag)

theorem handleCounters_above {flag : Byte} (t : Target) (s : State) (h : 1 < flag.toNat) :
    handleCounters t [flag] s = refuse s .badArg := by
  have hzero : flag ≠ 0 := by rintro rfl; exact absurd h (by decide)
  have hone : flag ≠ 1 := by rintro rfl; exact absurd h (by decide)
  rw [handleCounters, if_neg hzero, if_neg hone]

theorem handleCounters_flag {flag : Byte} (t : Target) (s : State) (h : ¬1 < flag.toNat) :
    handleCounters t [flag] s =
      { state := if flag = 1 then clearCounters t s else s, code := .ok, fields := counterFields (readCounters t s) } := by
  have hflag : flag = 0 ∨ flag = 1 := by bv_omega
  obtain rfl | rfl := hflag <;> rfl

theorem atRest_clearCounters (t : Target) {s : State} (h : AtRest s) : AtRest (clearCounters t s) := by
  cases t with
  | position p => exact atRest_modPos h p _ (h.2.1 p)
  | device | bad => exact h.of_same rfl rfl rfl fun _ => rfl

/-! ### COUNTERS on a ready link -/

section counters

variable {s : State} {pos tag : Byte} {payload : List Byte}

theorem answer_counters (hready : LinkReady s) (hsuits : ¬(8 ≤ pos.toNat ∧ pos ≠ 0xFF)) :
    answer (request .counters pos tag payload) (counted s) =
      handleCounters (target s.variant .either pos) payload (counted s) :=
  answer_ownRule .counters pos tag payload (.inl hready.started) fun h => hsuits ((target_either_eq_bad_iff _ pos).mp h)

theorem sendRequest_counters_refused (hready : LinkReady s) (hlen : payload.length ≤ 61)
    (hsuits : ¬(8 ≤ pos.toNat ∧ pos ≠ 0xFF))
    (hrule : ∀ t, handleCounters t payload (counted s) = refuse (counted s) .badArg) :
    sendRequest (request .counters pos tag payload) s =
      withReply (refusalReply .counters pos tag .badArg) (countedRefusal (counted s)) :=
  sendRequest_refuse .counters pos tag payload hready.toLinkFree hlen (by decide)
    ((answer_counters hready hsuits).trans (hrule _))

/-- The values in the reply are those before the clearing, and count the frame of the request itself. -/
theorem sendRequest_counters_flag {flag : Byte} (hready : LinkReady s) (hsuits : ¬(8 ≤ pos.toNat ∧ pos ≠ 0xFF))
    (hflag : ¬1 < flag.toNat) :
    sendRequest (request .counters pos tag [flag]) s =
      withReply
        (okReply .counters pos tag (counterFields (readCounters (target s.variant .either pos) (counted s))))
        (if flag = 1 then clearCounters (target s.variant .either pos) (counted s) else counted s) := by
  have hrest : AtRest (counted s) := counted_rest hready.rest
  refine sendRequest_answer .counters pos tag [flag] hready.toLinkFree (show 1 ≤ 61 by decide)
    ((answer_counters hready hsuits).trans (handleCounters_flag _ _ hflag)) ?_
  split_ifs
  · exact atRest_clearCounters _ hrest
  · exact hrest

end counters

/-- Settles O10: the refusals in their order, then the counters of what the POS byte names. -/
theorem countersReadAndCleared : Obligations.CountersReadAndCleared := by
  intro s pos tag payload hready hlen p refused
  rw [exec_request (f := request .counters pos tag payload) rfl]
  congr 1
  by_cases hpos : 8 ≤ pos.toNat ∧ pos ≠ 0xFF
  · rw [if_pos hpos]
    exact sendRequest_badPos_of_target hready hlen ((target_either_eq_bad_iff _ pos).mpr hpos)
  rw [if_neg hpos]
  split
  next flag =>
    by_cases hflag : 1 < flag.toNat
    · rw [if_pos hflag]
      exact sendRequest_counters_refused hready hlen hpos fun t => handleCounters_above t _ hflag
    rw [if_neg hflag]
    refine (sendRequest_counters_flag hready hpos hflag).trans ?_
    by_cases hFF : pos = 0xFF
    · rw [if_pos hFF, hFF]
      rfl
    · rw [if_neg hFF, target_either_of_ne_FF _ hpos hFF]
      rfl
  next hform => exact sendRequest_counters_refused hready hlen hpos fun t => handleCounters_form t _ hform

end Sys2Proof.Machine
end

section
/-! SUPPORT and PROOF for O13. NOTICE CLEAR (R149). -/

namespace Sys2Proof.Machine

theorem handleNoticeClear_form {payload : List Byte} (s : State) (hform : ∀ lo hi, payload ≠ [lo, hi]) :
    handleNoticeClear payload s = refuse s .badArg := by
  match payload with
  | [] | [_] | _ :: _ :: _ :: _ => rfl
  | [lo, hi] => exact absurd rfl (hform lo hi)

theorem handleNoticeClear_class15 {lo hi : Byte} (s : State) (h : (wordOf lo hi).getLsbD 15 = true) :
    handleNoticeClear [lo, hi] s = refuse s .badArg := if_pos h

/-- The records after the clearing of the classes of a set. -/
def clearedClasses (w : Word) (ns : Vector ClassRecord 15) : Vector ClassRecord 15 :=
  mapClasses (fun i r => if w.getLsbD i.val then r.cleared else r) ns

theorem handleNoticeClear_classes {lo hi : Byte} (s : State) (h : ¬(wordOf lo hi).getLsbD 15 = true) :
    handleNoticeClear [lo, hi] s =
      { state := { s with notices := clearedClasses (wordOf lo hi) s.notices }, code := .ok,
        fields := wordBytes (classSet s.notices ClassRecord.pending &&& wordOf lo hi) } := if_neg h

/-- Settles O13: the refusals in their order, then the records of the named classes. -/
theorem noticeClearMovesToHistory : Obligations.NoticeClearMovesToHistory := by
  intro s pos tag payload hready hlen refused
  rw [exec_request (f := request .noticeClear pos tag payload) rfl]
  congr 1
  split_ifs with hpos
  · exact sendRequest_device_badPos hready hlen rfl hpos
  obtain rfl := not_not.mp hpos
  split
  next lo hi =>
    dsimp only
    by_cases hclass : (wordOf lo hi).getLsbD 15 = true
    · rw [if_pos hclass]
      exact sendRequest_device_refused hready hlen rfl (by decide) (handleNoticeClear_class15 _ hclass)
    · rw [if_neg hclass]
      exact sendRequest_device_answered hready hlen rfl
        ((counted_rest hready.rest).of_same rfl rfl rfl fun _ => rfl) (handleNoticeClear_classes _ hclass)
  next hform => exact sendRequest_device_refused hready hlen rfl (by decide) (handleNoticeClear_form _ hform)

end Sys2Proof.Machine
end

section
/-! SUPPORT and PROOF for O9 and O19. STORE READ (R185) and LOCK (R180): what the handler of each answers, check by check,
then the statement about the frame. -/

namespace Sys2Proof.Machine

/-! ### LOCK (R180) -/

theorem handleLock_badArg {payload : List Byte} (s : State) (h : payload ≠ []) :
    handleLock payload s = refuse s .badArg := if_pos h

theorem handleLock_empty (s : State) :
    handleLock [] s =
      { state := { s with settings := { s.settings with unlocked := false, writeEnable := false } }, code := .ok } := rfl

/-- Settles O19: the refusals in their order, then the two flags, whatever they were. -/
theorem lockClosesAccess : Obligations.LockClosesAccess := by
  intro s pos tag payload hready hlen
  rw [exec_request (f := request .lock pos tag payload) rfl]
  split_ifs with hpos hpayload
  · exact congrArg _ (sendRequest_device_badPos hready hlen rfl hpos)
  · obtain rfl := not_not.mp hpos
    exact congrArg _ (sendRequest_device_refused hready hlen rfl (by decide) (handleLock_badArg _ hpayload))
  · obtain rfl := not_not.mp hpos
    obtain rfl := not_not.mp hpayload
    exact congrArg _ (sendRequest_device_answered hready hlen rfl
      ((counted_rest hready.rest).of_same rfl rfl rfl fun _ => rfl) (handleLock_empty _))

/-! ### STORE READ (R185) -/

/-- An index that an item does not have: items other than 15 have the index 0 only. -/
theorem indexOk_eq_false_iff (item index : Byte) :
    indexOk item.toNat index.toNat = false ↔ if item = 15 then 47 < index.toNat else index ≠ 0 := by
  have hitem : item.toNat = 15 ↔ item = 15 := BitVec.toNat_inj (y := 15)
  have hindex : index.toNat = 0 ↔ index = 0 := BitVec.toNat_inj (y := 0)
  by_cases h : item = 15 <;> simp [indexOk, hitem, hindex, h]

theorem handleStoreRead_form {payload : List Byte} (s : State) (hform : ∀ item index, payload ≠ [item, index]) :
    handleStoreRead payload s = refuse s .badArg := by
  match payload with
  | [] | [_] | _ :: _ :: _ :: _ => rfl
  | [item, index] => exact absurd rfl (hform item index)

section storeRead

variable {item index : Byte}

theorem handleStoreRead_badArg (s : State) (h : 18 < item.toNat ∨ if item = 15 then 47 < index.toNat else index ≠ 0) :
    handleStoreRead [item, index] s = refuse s .badArg := by
  rw [← indexOk_eq_false_iff] at h
  exact if_pos (by simpa using h)

/-- An item of the store and an index it has leave only the refusals for the state of the part. -/
theorem handleStoreRead_item (s : State) (h : ¬(18 < item.toNat ∨ if item = 15 then 47 < index.toNat else index ≠ 0)) :
    handleStoreRead [item, index] s =
      if s.settings.job.isSome then refuse s .busy
      else if readProtected s.settings item.toNat then refuse s .denied
      else { state := s, code := .ok, fields := [item, index] ++ wordBytes (s.settings.store.read item.toNat index.toNat) } := by
  rw [← indexOk_eq_false_iff] at h
  exact if_neg (by simpa using h)

end storeRead

/-- Settles O9: the refusals in their order, then the stored value. -/
theorem storeReadReadsItem : Obligations.StoreReadReadsItem := by
  intro s pos tag payload hready hlen refused
  rw [exec_request (f := request .storeRead pos tag payload) rfl]
  congr 1
  by_cases hpos : pos ≠ 0xFF
  · rw [if_pos hpos]
    exact sendRequest_device_badPos hready hlen rfl hpos
  rw [if_neg hpos]
  obtain rfl := not_not.mp hpos
  split
  next item index =>
    by_cases hitem : 18 < item.toNat ∨ if item = 15 then 47 < index.toNat else index ≠ 0
    · rw [if_pos hitem]
      exact sendRequest_device_refused hready hlen rfl (by decide) (handleStoreRead_badArg _ hitem)
    rw [if_neg hitem]
    have hrule := handleStoreRead_item (counted s) hitem
    simp only [readProtected_iff] at hrule
    split_ifs with hbusy hprotected
    · exact sendRequest_device_refused hready hlen rfl (by decide) (hrule.trans (if_pos hbusy))
    · exact sendRequest_device_refused hready hlen rfl (by decide)
        (hrule.trans ((if_neg hbusy).trans (if_pos hprotected)))
    · exact sendRequest_device_answered hready hlen rfl (counted_rest hready.rest)
        (hrule.trans ((if_neg hbusy).trans (if_neg hprotected)))
  next hform => exact sendRequest_device_refused hready hlen rfl (by decide) (handleStoreRead_form _ hform)

end Sys2Proof.Machine
end

section
/-! SUPPORT for O2, O57, O58 and O59. The writes a command is made of, each with what it must respect so that the limits of
Safety.lean are kept, and every command as a run of such writes. -/

namespace Sys2Proof.Machine

/-! ### The writes -/

/-- A closed or OPEN session holds no digit (R87, R104). -/
def EntryUnit.Wiped (e : EntryUnit) : Prop := (e.state = .closed ∨ e.mode = .openKeys) → e.buffer = []

/-- No counter of a list of counters exceeds 65535 (R152). -/
def CountsBounded {n : Nat} (cs : Vector Nat n) : Prop := ∀ i : Fin n, cs[i] ≤ 65535

/-- The settings keep the write-enable latch and the account limits sound (R174, R176). -/
def Settings.Sound (g : Settings) : Prop :=
  (g.writeEnable = true → g.unlocked = true) ∧ g.live.accountMin.toNat ≤ g.live.accountMax.toNat

/-- A write of a position that keeps the length of its chain and its latch, the bound of its counters and the wiping of its
session. -/
structure Position.KeepsLimits (v w : Position) : Prop where
  chain : w.chain.length = v.chain.length
  latch : w.latchState = v.latchState
  ceiling : w.ceilingTimer = v.ceilingTimer
  counters : CountsBounded v.counters → CountsBounded w.counters
  entry : v.entry.Wiped → w.entry.Wiped

/-- One write of a command; whether the power-up list is free to change is the first argument. -/
inductive Move (free : Bool) : State → State → Prop where
  /-- Fields that no limit speaks of. -/
  | other (s : State) (wo : List Producer) (nr : NoticeReport) (ns : Vector ClassRecord 15)
      (sc : Vector (Option ScreenEntry) 16) (fc : Nat) :
      Move free s { s with waitOrder := wo, noticeReport := nr, notices := ns, screening := sc, freeCount := fc }
  | power (s : State) (pl : List PortId) (ls : Option Nat) (h : free = true) :
      Move free s { s with powerList := pl, lastSwitchOn := ls }
  | positions (s : State) (ps : Vector Position 8) (h : ∀ p : Pos, (s.pos p).KeepsLimits ps[(p : Nat)]) :
      Move free s { s with positions := ps }
  | queue (s : State) (q : List Report) (h : s.queue.length ≤ 32 → q.length ≤ 32) : Move free s { s with queue := q }
  | link (s : State) (l : Link) (h : s.link.buffer.length ≤ 4 → l.buffer.length ≤ 4) : Move free s { s with link := l }
  | deviceCounters (s : State) (c : Vector Nat 4) (h : CountsBounded s.deviceCounters → CountsBounded c) :
      Move free s { s with deviceCounters := c }
  | settings (s : State) (g : Settings) (h : s.settings.Sound → g.Sound) : Move free s { s with settings := g }
  /-- Records go from the pool to a chain or back (R1). -/
  | pool (s : State) (p : Pos) (n : Nat) (c : List StepRecord)
      (hsum : n + c.length = s.freeRecords + (s.pos p).chain.length)
      (hlen : (s.pos p).chain.length ≤ 12 → c.length ≤ 12) :
      Move free s (State.modPos { s with freeRecords := n } p fun v => { v with chain := c })
  /-- A position asks for the latch (R124). -/
  | askLatch (s : State) (p : Pos) (h : (s.pos p).latchState ≠ .energized) :
      Move free s (State.modPos { s with latchWait := s.latchWait ++ [p] } p fun v => { v with latchState := .waiting })
  /-- The request of a position, if any, is withdrawn (R129). -/
  | withdrawLatch (s : State) (p : Pos) :
      Move free s (State.modPos { s with latchWait := s.latchWait.filter (· ≠ p) } p fun v =>
        { v with latchState := if v.latchState = .waiting then .off else v.latchState })
  /-- A request is granted (R126). -/
  | grantLatch (s : State) (p : Pos) (t : Timer) (h : p ∈ s.latchWait) :
      Move free s (State.modPos { s with latchWait := s.latchWait.filter (· ≠ p), energized := s.energized ++ [p] } p fun v =>
        { v with latchState := .energized, ceilingTimer := t })
  /-- A latch that is energized, or whose ceiling runs, is driven off (R130 to R133). -/
  | latchOff (s : State) (p : Pos) (t : Timer)
      (h : (s.pos p).latchState = .energized ∨ (s.pos p).ceilingTimer.isRunning = true) :
      Move free s (State.modPos { s with energized := s.energized.filter (· ≠ p) } p fun v =>
        { v with latchState := .off, ceilingTimer := .stopped, reEnergizeTimer := t })
  /-- Every block takes its start values (R27). -/
  | start (s : State) (h : free = true) : Move free s (resetBlocks s)

/-- A run of writes. -/
abbrev Moves (free : Bool) : State → State → Prop := Relation.ReflTransGen (Move free)

variable {free : Bool}

theorem Moves.trans {s t u : State} (h : Moves free s t) (k : Moves free t u) : Moves free s u := Relation.ReflTransGen.trans h k

theorem Moves.of_move {s t : State} (h : Move free s t) : Moves free s t := .single h

/-- What every write keeps, a run of writes keeps. -/
theorem Moves.keeps {I : State → Prop} (hI : ∀ s t, Move free s t → I s → I t) {s t : State}
    (h : Moves free s t) (hs : I s) : I t := by
  induction h with
  | refl => exact hs
  | tail _ hmove ih => exact hI _ _ hmove ih

/-! ### Writes of one position -/

theorem Position.KeepsLimits.refl (v : Position) : v.KeepsLimits v := ⟨rfl, rfl, rfl, id, id⟩

theorem keepsLimits_setProgress (v : Position) (g : Progress) : v.KeepsLimits (v.setProgress g) :=
  ⟨by simp, by simp, by simp, by simp, by simp⟩

theorem keepsLimits_setPort (v : Position) (k : PortKind) (r : PortRecord) : v.KeepsLimits (v.setPort k r) :=
  ⟨by simp, by simp, by simp, by simp, by simp⟩

theorem moves_modPos {s : State} {p : Pos} {f : Position → Position} (h : (s.pos p).KeepsLimits (f (s.pos p))) :
    Moves free s (s.modPos p f) := by
  refine .of_move (.positions s (s.modPos p f).positions fun q => ?_)
  have hq : (s.modPos p f).positions[(q : Nat)] = if q = p then f (s.pos q) else s.pos q := State.pos_modPos s p q f
  rw [hq]
  split
  next e => exact e ▸ h
  next => exact .refl _

/-- A write that leaves the chain, latch, counters and session of its position alone. -/
theorem moves_plain {s : State} {p : Pos} {f : Position → Position} (hchain : (f (s.pos p)).chain = (s.pos p).chain)
    (hlatch : (f (s.pos p)).latchState = (s.pos p).latchState) (hceil : (f (s.pos p)).ceilingTimer = (s.pos p).ceilingTimer)
    (hcounters : (f (s.pos p)).counters = (s.pos p).counters) (hentry : (f (s.pos p)).entry = (s.pos p).entry) :
    Moves free s (s.modPos p f) :=
  moves_modPos ⟨congrArg _ hchain, hlatch, hceil, by rw [hcounters]; exact id, by rw [hentry]; exact id⟩

theorem moves_setProgress (s : State) (p : Pos) (g : Progress) : Moves free s (s.setProgress p g) :=
  moves_modPos (keepsLimits_setProgress _ g)

theorem moves_modPort (s : State) (p : Pos) (k : PortKind) (f : PortRecord → PortRecord) : Moves free s (s.modPort p k f) :=
  moves_modPos (keepsLimits_setPort _ k _)

theorem moves_modKey (s : State) (p : Pos) (f : KeyUnit → KeyUnit) : Moves free s (s.modKey p f) :=
  moves_plain rfl rfl rfl rfl rfl

theorem moves_modPass (s : State) (p : Pos) (f : PassUnit → PassUnit) : Moves free s (s.modPass p f) :=
  moves_plain rfl rfl rfl rfl rfl

theorem moves_modEntry {s : State} {p : Pos} {f : EntryUnit → EntryUnit} (h : (s.pos p).entry.Wiped → (f (s.pos p).entry).Wiped) :
    Moves free s (s.modEntry p f) :=
  moves_modPos ⟨rfl, rfl, rfl, id, h⟩

theorem moves_powerList (s : State) (pl : List PortId) : Moves true s { s with powerList := pl } :=
  .of_move (.power s pl s.lastSwitchOn rfl)

theorem moves_waitOrder (s : State) (wo : List Producer) : Moves free s { s with waitOrder := wo } :=
  .of_move (.other s wo s.noticeReport s.notices s.screening s.freeCount)

theorem moves_notices (s : State) (ns : Vector ClassRecord 15) : Moves free s { s with notices := ns } :=
  .of_move (.other s s.waitOrder s.noticeReport ns s.screening s.freeCount)

theorem moves_screening (s : State) (sc : Vector (Option ScreenEntry) 16) : Moves free s { s with screening := sc } :=
  .of_move (.other s s.waitOrder s.noticeReport s.notices sc s.freeCount)

/-! ### Reports, notices, counters -/

theorem moves_offer (p : Pos) (rs : List Report) (s : State) : Moves free s (offer p rs s) :=
  (moves_plain rfl rfl rfl rfl rfl).trans (moves_waitOrder _ _)

theorem moves_askNotice (s : State) : Moves free s (askNotice s) := by
  unfold askNotice
  split
  · exact .of_move (.other s _ .waiting s.notices s.screening s.freeCount)
  · exact .refl

theorem moves_raise (c : NoticeClass) (p : Option Pos) (s : State) : Moves free s (raise c p s) := by
  rw [raise_eq]
  split
  · exact (moves_notices s _).trans (moves_askNotice _)
  · exact moves_notices s _

theorem countsBounded_countUp {n : Nat} {cs : Vector Nat n} (i : Fin n) (h : CountsBounded cs) :
    CountsBounded (cs.set i (countUp cs[i])) := by
  intro j
  have hj : (cs.set i (countUp cs[i]))[j] = if (i : Nat) = j then countUp cs[i] else cs[j] := by
    simp [Fin.getElem_fin, Vector.getElem_set]
  rw [hj]
  split
  · have hi := h i
    unfold countUp Config.counterMax
    split <;> omega
  · exact h j

theorem countsBounded_posZero : CountsBounded #v[0, 0, 0, 0, 0, 0, 0, 0] := by unfold CountsBounded; decide

theorem countsBounded_deviceZero : CountsBounded #v[0, 0, 0, 0] := by unfold CountsBounded; decide

theorem moves_countPos (c : PosCounter) (p : Pos) (s : State) : Moves free s (countPos c p s) := by
  have hcount : Moves free s (s.modPos p fun v => { v with counters := v.counters.set c.idx (countUp v.counters[c.idx]) }) :=
    moves_modPos ⟨rfl, rfl, rfl, countsBounded_countUp c.idx, id⟩
  have heq : (s.modPos p fun v => { v with counters := v.counters.set c.idx (countUp (s.pos p).counters[c.idx]) }) =
      s.modPos p fun v => { v with counters := v.counters.set c.idx (countUp v.counters[c.idx]) } := rfl
  unfold countPos
  simp only
  split
  · exact (heq ▸ hcount).trans (moves_raise _ _ _)
  · exact heq ▸ hcount

theorem moves_countDevice (c : DeviceCounter) (s : State) : Moves free s (countDevice c s) := by
  have hcount : Moves free s { s with deviceCounters := s.deviceCounters.set c.idx (countUp s.deviceCounters[c.idx]) } :=
    .of_move (.deviceCounters s _ (countsBounded_countUp c.idx))
  unfold countDevice
  simp only
  split
  · exact hcount.trans (moves_raise _ _ _)
  · exact hcount

theorem moves_presenceChange (p : Pos) (present : Bool) (s : State) : Moves free s (presenceChange p present s) := by
  unfold presenceChange
  simp only
  split
  · exact moves_plain rfl rfl rfl rfl rfl
  · split
    · exact moves_offer _ _ _
    · exact .refl

/-! ### Display and beeps -/

theorem moves_handContent (p : Pos) (text : List Byte) (s : State) : Moves free s (handContent p text s) := by
  refine moves_modPos ?_
  split
  · exact ⟨rfl, rfl, rfl, id, id⟩
  · exact .refl _

theorem moves_askBeep (p : Pos) (b : Beep) (s : State) : Moves free s (askBeep p b s) := by
  refine moves_modPos ?_
  split
  · exact ⟨rfl, rfl, rfl, id, id⟩
  · exact .refl _

theorem moves_handEcho (p : Pos) (s : State) : Moves free s (handEcho p s) := by
  unfold handEcho
  split
  · exact .refl
  · exact moves_handContent _ _ _

/-! ### Ending a step -/

theorem wiped_close (e : EntryUnit) : e.close.Wiped := fun _ => rfl

theorem wiped_closeCollecting {e : EntryUnit} (h : e.Wiped) : e.closeCollecting.Wiped := by
  unfold EntryUnit.closeCollecting
  split
  · exact wiped_close e
  · exact h

theorem wiped_wipeFinished {e : EntryUnit} (h : e.Wiped) : e.wipeFinished.Wiped := by
  unfold EntryUnit.wipeFinished
  split
  · exact wiped_close e
  · exact h

theorem moves_startCardLeft (p : Pos) (s : State) : Moves free s (startCardLeft p s) := by
  unfold startCardLeft
  simp only
  split
  · exact moves_plain rfl rfl rfl rfl rfl
  · exact .refl

theorem moves_stopWork (p : Pos) (s : State) : Moves free s (stopWork p s) := by
  have hunits := moves_modPos (free := free) (p := p)
    (s := State.modPos { s with latchWait := s.latchWait.filter (· ≠ p) } p fun v =>
      { v with latchState := if v.latchState = .waiting then .off else v.latchState })
    (f := fun v => { v with pass := v.pass.disarm, entry := v.entry.closeCollecting })
    ⟨rfl, rfl, rfl, id, wiped_closeCollecting⟩
  rw [State.modPos_modPos] at hunits
  exact (Moves.of_move (.withdrawLatch s p)).trans hunits

/-- The head record of a position goes back to the pool (R19). -/
theorem moves_freeHead (p : Pos) (s : State) : Moves free s (freeHead p s) := by
  unfold freeHead
  split
  · exact .refl
  next r rest hc =>
    have hpool : Moves free s (State.modPos { s with freeRecords := s.freeRecords + 1 } p fun v => { v with chain := rest }) :=
      .of_move (.pool s p _ rest (by rw [hc, List.length_cons]; omega) (by rw [hc, List.length_cons]; omega))
    have hunits := moves_modPos (free := free) (p := p)
      (s := State.modPos { s with freeRecords := s.freeRecords + 1 } p fun v => { v with chain := rest })
      (f := fun v => { v with chainState := freedChainState r rest, entry := v.entry.wipeFinished })
      ⟨rfl, rfl, rfl, id, wiped_wipeFinished⟩
    rw [State.modPos_modPos] at hunits
    simp only
    split
    · exact hpool.trans hunits
    · exact (hpool.trans hunits).trans (moves_startCardLeft _ _)

theorem moves_endStep (p : Pos) (o : StepOutcome) (d : OutcomeData) (s : State) : Moves free s (endStep p o d s) := by
  unfold endStep
  split
  · exact .refl
  · have hstop := (moves_stopWork (free := free) p s).trans (moves_setProgress _ p (.completing o d false))
    simp only
    split
    · exact hstop.trans (moves_offer _ _ _)
    · exact hstop.trans (moves_freeHead _ _)

/-! ### Latches -/

theorem moves_endGranted (p : Pos) (s : State) : Moves free s (endGranted p s) := by
  unfold endGranted
  split
  · exact moves_endStep _ _ _ _
  · exact moves_endStep _ _ _ _
  · exact .refl

theorem moves_grant {p : Pos} {s : State} (h : p ∈ s.latchWait) : Moves free s (grant p s) :=
  (Moves.of_move (.grantLatch s p _ h)).trans (moves_endGranted _ _)

theorem moves_grantLoop (n : Nat) (s : State) : Moves free s (grantLoop n s) := by
  induction n generalizing s with
  | zero => exact .refl
  | succ n ih =>
    unfold grantLoop
    split
    · split
      next p hp => exact (moves_grant (List.mem_of_find?_eq_some hp)).trans (ih _)
      next => exact .refl
    · exact .refl

theorem moves_grantDecision (s : State) : Moves free s (grantDecision s) := moves_grantLoop _ s

theorem moves_deEnergize (p : Pos) (s : State) : Moves free s (deEnergize p s) := by
  unfold deEnergize
  split
  next h => exact (Moves.of_move (.latchOff s p _ (.inl h))).trans (moves_grantDecision _)
  next => exact .refl

theorem moves_requestLatch {p : Pos} (w : Work) {s : State} (h : (s.pos p).latchState ≠ .energized) :
    Moves free s (requestLatch p w s) :=
  ((Moves.of_move (.askLatch s p h)).trans (moves_setProgress _ _ _)).trans (moves_grantDecision _)

theorem moves_ceilingRunsOut (p : Pos) (s : State) : Moves free s (ceilingRunsOut p s) := by
  unfold ceilingRunsOut
  split
  next h =>
    exact (((Moves.of_move (.latchOff s p _ (.inr h))).trans (moves_raise _ _ _)).trans (moves_countPos _ _ _)).trans
      (moves_grantDecision _)
  next => exact .refl

theorem moves_reEnergizeRunsOut (p : Pos) (s : State) : Moves free s (reEnergizeRunsOut p s) := by
  unfold reEnergizeRunsOut
  split
  · exact (moves_plain rfl rfl rfl rfl rfl).trans (moves_grantDecision _)
  · exact .refl

/-! ### Starts of steps -/

theorem moves_activateShow (p : Pos) (beep : Option Beep) (text : List Byte) (s : State) :
    Moves free s (activateShow p beep text s) := by
  have hbeep (t : State) : Moves free t (askShowBeep p beep t) := by
    cases beep with
    | none => exact .refl
    | some b => exact moves_askBeep _ _ _
  unfold activateShow
  simp only
  split
  · exact ((moves_handContent _ _ s).trans (moves_setProgress _ _ _)).trans (hbeep _)
  · exact ((moves_setProgress _ _ _).trans (hbeep _)).trans (moves_endStep _ _ _ _)

theorem moves_activateHoldCard (p : Pos) (s : State) : Moves free s (activateHoldCard p s) := by
  unfold activateHoldCard
  simp only
  split
  · exact moves_endStep _ _ _ _
  next hlatch =>
    split
    · exact moves_endStep _ _ _ _
    · exact moves_requestLatch _ hlatch

theorem moves_activateReleaseCard (p : Pos) (waitRemoval : Bool) (timeout : Nat) (s : State) :
    Moves free s (activateReleaseCard p waitRemoval timeout s) := by
  have hrelease (w : Work) : Moves free s (deEnergize p (s.setProgress p (.active w))) :=
    (moves_setProgress _ _ _).trans (moves_deEnergize _ _)
  unfold activateReleaseCard
  simp only
  split
  · exact hrelease _
  · exact (hrelease _).trans (moves_endStep _ _ _ _)

theorem moves_activateCollect (p : Pos) (c : CollectParams) (s : State) : Moves free s (activateCollect p c s) :=
  ((moves_setProgress _ _ _).trans (moves_modPos ⟨rfl, rfl, rfl, id, fun _ _ => rfl⟩)).trans (moves_handEcho _ _)

theorem moves_activate (p : Pos) (s : State) : Moves free s (activate p s) := by
  unfold activate
  split
  · exact .refl
  · split
    · exact moves_activateShow _ _ _ _
    · exact (moves_plain rfl rfl rfl rfl rfl).trans (moves_setProgress _ _ _)
    · exact moves_activateHoldCard _ _
    · exact moves_activateReleaseCard _ _ _ _
    · exact moves_activateCollect _ _ _
    · exact moves_setProgress _ _ _

theorem keepsLimits_startAttempts (live : DeviceItems) (ps : StepParams) (v : Position) :
    v.KeepsLimits (startAttempts live ps { v with cardLeftTimer := .stopped }) := by
  unfold startAttempts
  split <;> exact ⟨rfl, rfl, rfl, id, id⟩

theorem moves_startHead (p : Pos) (s : State) : Moves free s (startHead p s) := by
  unfold startHead
  split
  · exact .refl
  · have hattempts (ps : StepParams) :
        Moves free s (s.modPos p fun v => startAttempts s.settings.live ps { v with cardLeftTimer := .stopped }) :=
      moves_modPos (keepsLimits_startAttempts s.settings.live ps (s.pos p))
    simp only
    split
    · exact (hattempts _).trans (moves_activate _ _)
    · split
      · exact (hattempts _).trans (moves_activate _ _)
      · exact (hattempts _).trans (moves_setProgress _ _ _)
      · exact (hattempts _).trans (moves_endStep _ _ _ _)

end Sys2Proof.Machine
end

section
/-! SUPPORT for O2, O57, O58 and O59. The events of the lines and of the timers as runs of writes. -/

namespace Sys2Proof.Machine

variable {free : Bool}

/-! ### The reader line -/

theorem moves_attemptFailed (p : Pos) (flags : Word) (parity : Nat) (s : State) : Moves free s (attemptFailed p flags parity s) := by
  have hcount : Moves free s ((countPos .passesFailed p s).modPos p fun v => { v with attemptCount := v.attemptCount + 1 }) :=
    (moves_countPos _ _ _).trans (moves_plain rfl rfl rfl rfl rfl)
  unfold attemptFailed
  simp only
  split
  · exact hcount.trans (moves_askBeep _ _ _)
  · exact hcount.trans (moves_endStep _ _ _ _)

theorem moves_holdMatch (p : Pos) (i : Fin 16) (text : List Byte) (flags : Word) (s : State) :
    Moves free s (holdMatch p i text flags s) := by
  unfold holdMatch
  simp only
  split
  · exact (moves_modPass _ _ _).trans (moves_endStep _ _ _ _)
  next hlatch =>
    split
    · exact (moves_modPass _ _ _).trans (moves_endStep _ _ _ _)
    · exact (moves_modPass _ _ _).trans (moves_requestLatch _ hlatch)

theorem moves_goodPass (p : Pos) (text : List Byte) (flags : Word) (s : State) : Moves free s (goodPass p text flags s) := by
  unfold goodPass
  simp only
  split
  · exact (moves_countPos _ _ _).trans (moves_endStep _ _ _ _)
  · have hmatch := ((moves_countPos (free := free) .passesOk p s).trans (moves_countPos .screenMatches p _)).trans
      (moves_raise .screenMatch (some p) _)
    split
    · exact hmatch.trans (moves_endStep _ _ _ _)
    · exact hmatch.trans (moves_holdMatch _ _ _ _ _)

theorem moves_passCompletes (p : Pos) (s : State) : Moves free s (passCompletes p s) := by
  unfold passCompletes
  simp only
  split
  · split
    · exact (moves_modPass _ _ _).trans (moves_goodPass _ _ _ _)
    · exact (moves_modPass _ _ _).trans (moves_attemptFailed _ _ _ _)
  · exact ((moves_modPass _ _ _).trans (moves_countDevice _ _)).trans (moves_raise _ _ _)

theorem moves_passBreaks (p : Pos) (u : PassUnit) (s : State) : Moves free s (passBreaks p u s) := by
  unfold passBreaks
  split
  · exact moves_attemptFailed _ _ _ _
  · exact .refl

theorem moves_readerCharacter (p : Pos) (c : BitVec 5) (s : State) : Moves free s (readerCharacter p c s) := by
  unfold readerCharacter
  split
  · exact moves_modPass _ _ _
  · exact .refl

theorem moves_readerEnd (p : Pos) (s : State) : Moves free s (readerEnd p s) := by
  unfold readerEnd
  split
  · split
    · exact moves_modPass _ _ _
    · exact moves_passCompletes _ _
  · exact .refl

theorem moves_readerFault (p : Pos) (s : State) : Moves free s (readerFault p s) := by
  unfold readerFault
  split
  · simp only
    split
    · exact moves_modPass _ _ _
    · exact (moves_modPass _ _ _).trans (moves_passBreaks _ _ _)
  · exact .refl

theorem moves_passGap (p : Pos) (s : State) : Moves free s (passGap p s) := by
  unfold passGap
  simp only
  split
  · split
    · exact (moves_modPass _ _ _).trans (moves_passBreaks _ _ _)
    · exact moves_modPass _ _ _
  · exact .refl

theorem moves_waitCardRunsOut (p : Pos) (s : State) : Moves free s (waitCardRunsOut p s) := by
  unfold waitCardRunsOut
  split
  · split
    · exact moves_endStep _ _ _ _
    · exact .refl
  · exact .refl

/-! ### Entry sessions -/

theorem wiped_finish {e : EntryUnit} (h : e.Wiped) : e.finish.Wiped := by
  intro hclosed
  by_cases hopen : e.mode = .openKeys
  · exact h (.inr hopen)
  · simp [EntryUnit.finish, EntryUnit.stopTimers, hopen] at hclosed

theorem moves_keyReport (p : Pos) (sym : Symbol) (held : Bool) (s : State) : Moves free s (keyReport p sym held s) := by
  unfold keyReport
  split
  · exact moves_offer _ _ _
  · exact ((moves_countPos _ _ _).trans (moves_raise _ _ _)).trans (moves_askBeep _ _ _)

theorem moves_sessionDone (p : Pos) (s : State) : Moves free s (sessionDone p s) :=
  ((moves_modEntry wiped_finish).trans (moves_countPos _ _ _)).trans (moves_endStep _ _ _ _)

theorem moves_sessionFails (p : Pos) (o : StepOutcome) (s : State) : Moves free s (sessionFails p o s) :=
  (moves_modEntry fun _ => wiped_close _).trans (moves_endStep _ _ _ _)

theorem moves_sessionTimesOut (p : Pos) (s : State) : Moves free s (sessionTimesOut p s) :=
  ((moves_modEntry fun _ => wiped_close _).trans (moves_countPos _ _ _)).trans (moves_endStep _ _ _ _)

/-- The session of a position takes digits: it is not closed and not OPEN. -/
def TakesDigits (p : Pos) (s : State) : Prop := (s.pos p).entry.state ≠ .closed ∧ (s.pos p).entry.mode ≠ .openKeys

theorem moves_editBuffer {p : Pos} {b : List (Fin 10)} {s : State} (h : b = [] ∨ TakesDigits p s) :
    Moves free s (editBuffer p b s) := by
  refine (moves_modEntry fun _ hclosed => ?_).trans (moves_handEcho _ _)
  rcases h with hempty | ⟨hstate, hmode⟩
  · exact hempty
  · exact absurd hclosed (not_or.mpr ⟨hstate, hmode⟩)

theorem moves_takeOpen (p : Pos) (sym : Symbol) (held : Bool) (s : State) : Moves free s (takeOpen p sym held s) := by
  unfold takeOpen
  simp only
  split
  · exact (moves_keyReport _ _ _ _).trans (moves_sessionDone _ _)
  · exact (moves_keyReport _ _ _ _).trans (moves_sessionFails _ _ _)
  · exact moves_keyReport _ _ _ _

/-- A session ends DONE at its least length, and asks for a beep below it (R96). -/
theorem moves_enter (p : Pos) (s : State) :
    Moves free s (if (s.pos p).entry.minLen ≤ (s.pos p).entry.buffer.length then sessionDone p s else askBeep p .error s) := by
  split
  · exact moves_sessionDone _ _
  · exact moves_askBeep _ _ _

theorem moves_takeAmount {p : Pos} (sym : Symbol) {s : State} (h : TakesDigits p s) : Moves free s (takeAmount p sym s) := by
  cases sym with
  | digit d =>
    unfold takeAmount
    dsimp only
    split_ifs
    · exact .refl
    · exact moves_editBuffer (.inr h)
    · exact moves_askBeep _ _ _
  | doubleZero =>
    unfold takeAmount
    dsimp only
    split_ifs
    · exact .refl
    · exact moves_editBuffer (.inr h)
    · exact moves_askBeep _ _ _
  | back =>
    unfold takeAmount
    dsimp only
    split_ifs
    · exact moves_askBeep _ _ _
    · exact moves_editBuffer (.inr h)
  | clear =>
    unfold takeAmount
    dsimp only
    split_ifs
    · exact .refl
    · exact moves_editBuffer (.inl rfl)
  | enter => exact moves_enter p s
  | cancel => exact moves_sessionFails _ _ _
  | dot | f1 | f2 | f3 | f4 | nothing => exact moves_askBeep _ _ _

theorem moves_clearConcealed (p : Pos) (s : State) : Moves free s (clearConcealed p s) := by
  have hclear : Moves free s (editBuffer p [] (s.modEntry p EntryUnit.countClear)) :=
    (moves_modEntry fun hw => hw).trans (moves_editBuffer (.inl rfl))
  unfold clearConcealed
  simp only
  split
  · exact hclear.trans (moves_sessionFails _ _ _)
  · exact hclear

theorem moves_takeConcealed {p : Pos} (sym : Symbol) {s : State} (h : TakesDigits p s) :
    Moves free s (takeConcealed p sym s) := by
  cases sym with
  | digit d =>
    unfold takeConcealed
    dsimp only
    split_ifs
    · exact moves_editBuffer (.inr h)
    · exact moves_askBeep _ _ _
  | back =>
    unfold takeConcealed
    dsimp only
    split_ifs
    · exact moves_askBeep _ _ _
    · exact moves_editBuffer (.inr h)
  | clear =>
    unfold takeConcealed
    dsimp only
    split_ifs
    · exact .refl
    · exact moves_clearConcealed _ _
  | enter => exact moves_enter p s
  | cancel => exact moves_sessionFails _ _ _
  | doubleZero | dot | f1 | f2 | f3 | f4 | nothing => exact moves_askBeep _ _ _

theorem moves_takeSymbol {p : Pos} (c : CollectParams) (sym : Symbol) (held : Bool) {s : State}
    (h : (s.pos p).entry.state = .collecting) : Moves free s (takeSymbol p c sym held s) := by
  have htimers : Moves free s
      (s.modEntry p fun e => { e with firstKey := .stopped, interKey := .running (c.interKey * 1000) }) :=
    moves_modEntry fun hw => hw
  unfold takeSymbol
  simp only
  split
  · exact htimers.trans (moves_takeOpen _ _ _ _)
  next hmode => exact htimers.trans (moves_takeAmount _ ⟨by simp [h], by rw [hmode]; decide⟩)
  next hmode => exact htimers.trans (moves_takeConcealed _ ⟨by simp [h], by rw [hmode]; decide⟩)

/-- A COLLECT takes keys only while its session is collecting. -/
theorem collecting_state {v : Position} {c : CollectParams} (h : v.collecting = some c) : v.entry.state = .collecting := by
  unfold Position.collecting at h
  split at h
  · split at h
    · assumption
    · cases h
  · cases h

theorem moves_routeSymbol (p : Pos) (sym : Symbol) (held : Bool) (s : State) : Moves free s (routeSymbol p sym held s) := by
  unfold routeSymbol
  split
  next c hc => exact moves_takeSymbol c sym held (collecting_state hc)
  next =>
    split
    · exact moves_keyReport _ _ _ _
    · exact .refl

theorem moves_keyReleased (p : Pos) (code : Fin 24) (s : State) : Moves free s (keyReleased p code s) := by
  unfold keyReleased
  split
  · split
    · split
      · exact (moves_modKey _ _ _).trans (moves_routeSymbol _ _ _ _)
      · exact .refl
    · exact .refl
  · exact .refl

theorem moves_longPressRunsOut (p : Pos) (s : State) : Moves free s (longPressRunsOut p s) := by
  unfold longPressRunsOut
  split
  · split
    · exact (moves_modKey _ _ _).trans (moves_routeSymbol _ _ _ _)
    · exact moves_modKey _ _ _
  · exact .refl

/-! ### The keypad line -/

theorem keepsLimits_showSent (v : Position) : v.KeepsLimits v.showSent := by
  unfold Position.showSent
  split
  · exact keepsLimits_setProgress _ _
  · exact .refl _

theorem moves_sendPending (p : Pos) (s : State) : Moves free s (sendPending p s) := by
  unfold sendPending
  split
  · exact .refl
  · refine moves_modPos ?_
    have h := keepsLimits_showSent
      { s.pos p with key := sendWrite ‹_› { (s.pos p).key with pendingContent := none } }
    exact ⟨h.chain, h.latch, h.ceiling, h.counters, h.entry⟩

theorem moves_writeOver (p : Pos) (o : StepOutcome) (s : State) : Moves free s (writeOver p o s) := by
  unfold writeOver
  simp only
  split
  · exact ((moves_modKey _ _ _).trans (moves_endStep _ _ _ _)).trans (moves_sendPending _ _)
  · exact (moves_modKey _ _ _).trans (moves_sendPending _ _)

theorem moves_acknowledged (p : Pos) (s : State) : Moves free s (acknowledged p s) := by
  unfold acknowledged
  split
  · exact moves_writeOver _ _ _
  · exact .refl

theorem moves_ackRunsOut (p : Pos) (s : State) : Moves free s (ackRunsOut p s) := by
  unfold ackRunsOut
  split
  · exact (moves_raise _ _ _).trans (moves_writeOver _ _ _)
  · exact .refl

theorem moves_beepGoesOut (p : Pos) (s : State) : Moves free s (beepGoesOut p s) := by
  unfold beepGoesOut
  split
  · exact .refl
  · exact moves_modKey _ _ _

theorem moves_lineError (p : Pos) (s : State) : Moves free s (lineError p s) := by
  unfold lineError
  split
  · exact .refl
  · exact .refl
  · exact moves_countPos _ _ _

theorem moves_sessionTimer (p : Pos) (t : EntryUnit → Timer) (s : State) : Moves free s (sessionTimer p t s) := by
  unfold sessionTimer
  simp only
  split
  · exact moves_sessionTimesOut _ _
  · exact .refl

/-! ### Ports -/

theorem moves_takeCardLine (p : Pos) (s : State) : Moves free s (takeCardLine p s) := by
  unfold takeCardLine
  split
  · exact ((moves_plain rfl rfl rfl rfl rfl).trans (moves_presenceChange _ _ _)).trans (moves_startCardLeft _ _)
  · exact .refl

theorem moves_portReady (p : Pos) (k : PortKind) (s : State) : Moves free s (portReady p k s) := by
  have hline (t : State) : Moves free t (if k = .reader then takeCardLine p t else t) := by
    split
    · exact moves_takeCardLine _ _
    · exact .refl
  have hstep (t : State) : Moves free t (if (t.pos p).waitsFor k then activate p t else t) := by
    split
    · exact moves_activate _ _
    · exact .refl
  exact ((moves_modPort _ _ _ _).trans (hline _)).trans (hstep _)

theorem moves_portLost (p : Pos) (k : PortKind) (st : PortState) (s : State) : Moves free s (portLost p k st s) := by
  have hstep (t : State) : Moves free t (if (t.pos p).needsPort k then endStep p (portOutcome st) .nothing t else t) := by
    split
    · exact moves_endStep _ _ _ _
    · exact .refl
  have hlatch (t : State) : Moves free t (if k = .reader && st != .absent then deEnergize p t else t) := by
    split
    · exact moves_deEnergize _ _
    · exact .refl
  have hreader : Moves free s (readerLost p s) := moves_plain rfl rfl rfl rfl rfl
  have hkeypad : Moves free s (keypadLost p s) := moves_modKey _ _ _
  cases k
  · exact (hreader.trans (hstep _)).trans (hlatch _)
  · exact (hkeypad.trans (hstep _)).trans (hlatch _)

theorem moves_becomeAbsent (p : Pos) (k : PortKind) (s : State) : Moves free s (becomeAbsent p k s) :=
  ((moves_modPort _ _ _ _).trans (moves_raise _ _ _)).trans (moves_portLost _ _ _ _)

theorem moves_deviceReturns (p : Pos) (k : PortKind) (s : State) : Moves free s (deviceReturns p k s) :=
  (moves_raise _ _ _).trans (moves_portReady _ _ _)

theorem moves_seeCurrent (p : Pos) (k : PortKind) (s : State) : Moves free s (seeCurrent p k s) := by
  unfold seeCurrent
  simp only
  split
  · split
    · cases k with
      | reader => exact moves_portReady _ _ _
      | keypad =>
        dsimp only
        split
        · exact (moves_modPort _ _ _ _).trans (moves_portReady _ _ _)
        · exact moves_modPort _ _ _ _
    · exact .refl
  · exact .refl

theorem moves_currentChanges (p : Pos) (k : PortKind) (mA : Nat) (s : State) : Moves free s (currentChanges p k mA s) := by
  unfold currentChanges
  split
  · have hcurrent : Moves free s _ :=
      moves_modPort s p k fun r => PortRecord.watchOver ((s.pos p).upperLimit k) { r with current := mA }
    simp only
    split
    · exact hcurrent.trans (moves_seeCurrent _ _ _)
    · exact hcurrent.trans (moves_modPort _ _ _ _)
    · exact hcurrent.trans (moves_modPort _ _ _ _)
    · exact hcurrent
  · exact .refl

theorem moves_inrushEnds (p : Pos) (k : PortKind) (s : State) : Moves free s (inrushEnds p k s) := by
  unfold inrushEnds
  simp only
  split
  · split
    · exact (moves_modPort _ _ _ _).trans (moves_seeCurrent _ _ _)
    · exact .refl
  · exact .refl

theorem moves_readinessRunsOut (p : Pos) (k : PortKind) (s : State) : Moves free s (readinessRunsOut p k s) := by
  unfold readinessRunsOut
  simp only
  split
  · split
    · exact moves_becomeAbsent _ _ _
    · exact .refl
  · exact .refl

theorem moves_announceRunsOut (p : Pos) (s : State) : Moves free s (announceRunsOut p s) := by
  unfold announceRunsOut
  simp only
  split
  · split
    · exact moves_becomeAbsent _ _ _
    · exact .refl
  · exact .refl

theorem moves_overTrips (p : Pos) (k : PortKind) (s : State) : Moves free s (overTrips p k s) := by
  unfold overTrips
  split
  · exact ((moves_modPort _ _ _ _).trans (moves_raise _ _ _)).trans (moves_portLost _ _ _ _)
  · exact .refl

theorem moves_underRunsOut (p : Pos) (k : PortKind) (s : State) : Moves free s (underRunsOut p k s) := by
  unfold underRunsOut
  split
  · exact moves_becomeAbsent _ _ _
  · exact .refl

theorem moves_returnRunsOut (p : Pos) (k : PortKind) (s : State) : Moves free s (returnRunsOut p k s) := by
  unfold returnRunsOut
  simp only
  split
  · split
    · split
      · exact moves_deviceReturns _ _ _
      · exact moves_modPort _ _ _ _
    · exact .refl
  · exact .refl

theorem moves_announceTold (p : Pos) (early : Bool) (s : State) : Moves free s (announceTold p early s) := by
  unfold announceTold
  simp only
  split
  · split
    · split
      · exact (moves_modPort _ _ _ _).trans (moves_portReady _ _ _)
      · exact moves_modPort _ _ _ _
    · exact .refl
  · split
    · split
      · exact .refl
      · split
        · exact (moves_modPort _ _ _ _).trans (moves_deviceReturns _ _ _)
        · exact moves_modPort _ _ _ _
    · exact .refl
  · exact .refl

theorem moves_announced (p : Pos) (display beeper early : Bool) (s : State) :
    Moves free s (announced p display beeper early s) := by
  unfold announced
  split
  · exact .refl
  · exact .refl
  · exact (moves_modKey _ _ _).trans (moves_announceTold _ _ _)

theorem moves_powerOnPort (s : State) (i : PortId) : Moves true s (powerOnPort s i) := by
  rw [powerOnPort_eq]
  split
  · exact (moves_modPort _ _ _ _).trans (moves_powerList _ _)
  · exact .refl

theorem moves_powerOffPort (s : State) (i : PortId) : Moves true s (powerOffPort s i) := by
  unfold powerOffPort
  split
  · exact .refl
  · exact ((moves_powerList _ _).trans (moves_modPort _ _ _ _)).trans (moves_portLost _ _ _ _)

theorem moves_switchOnHead (now : Nat) (s : State) : Moves true s (switchOnHead now s) := by
  unfold switchOnHead
  split
  · exact .refl
  next i rest _ =>
    split
    · exact (Moves.of_move (.power s rest (some now) rfl)).trans
        (moves_modPort _ _ _ _)
    · exact .refl

/-! ### The card-present line and the step timers -/

theorem moves_cardRises (p : Pos) (s : State) : Moves free s (cardRises p s) := by
  have hline : Moves free s (s.modPos p fun v => { v with cardLine := true }) := moves_plain rfl rfl rfl rfl rfl
  unfold cardRises
  simp only
  split
  · exact hline.trans (moves_takeCardLine _ _)
  · exact hline

theorem moves_cardFallEnds (p : Pos) (s : State) : Moves free s (cardFallEnds p s) := by
  unfold cardFallEnds
  split
  · exact moves_endStep _ _ _ _
  · exact moves_endStep _ _ _ _
  · exact moves_endStep _ _ _ _
  · exact .refl

theorem moves_cardFalls (p : Pos) (s : State) : Moves free s (cardFalls p s) := by
  have hline : Moves free s (s.modPos p fun v => { v with cardLine := false }) := moves_plain rfl rfl rfl rfl rfl
  unfold cardFalls
  simp only
  split
  · exact ((hline.trans (moves_plain rfl rfl rfl rfl rfl)).trans (moves_presenceChange _ _ _)).trans (moves_cardFallEnds _ _)
  · exact hline

theorem moves_cardLeftRunsOut (p : Pos) (s : State) : Moves free s (cardLeftRunsOut p s) := by
  have htimer : Moves free s (s.modPos p fun v => { v with cardLeftTimer := .stopped, cardLeftRaised := true }) :=
    moves_plain rfl rfl rfl rfl rfl
  unfold cardLeftRunsOut
  simp only
  split
  · split
    · exact htimer
    · exact htimer.trans (moves_raise _ _ _)
  · exact .refl

theorem moves_removalRunsOut (p : Pos) (s : State) : Moves free s (removalRunsOut p s) := by
  unfold removalRunsOut
  split
  · split
    · exact moves_endStep _ _ _ _
    · exact .refl
  · exact .refl

theorem moves_pauseRunsOut (p : Pos) (s : State) : Moves free s (pauseRunsOut p s) := by
  unfold pauseRunsOut
  split
  · split
    · exact moves_endStep _ _ _ _
    · exact .refl
  · exact .refl

end Sys2Proof.Machine
end

section
/-! SUPPORT for O2, O57, O58 and O59. What becomes due, the starts, the requests and the link as runs of writes; and the
effect of every command as one function. -/

namespace Sys2Proof.Machine

variable {free : Bool}

/-! ### What becomes due -/

theorem moves_queue {s : State} {q : List Report} (h : s.queue.length ≤ 32 → q.length ≤ 32) : Moves free s { s with queue := q } :=
  .of_move (.queue s q h)

theorem moves_link {s : State} {l : Link} (h : s.link.buffer.length ≤ 4 → l.buffer.length ≤ 4) : Moves free s { s with link := l } :=
  .of_move (.link s l h)

theorem moves_admitPosition {p : Pos} (order : List Producer) {s : State} (hroom : s.queue.length < Config.queueLimit) :
    Moves free s (admitPosition p order s) := by
  have hroom' : s.queue.length < 32 := hroom
  unfold admitPosition
  split
  · exact moves_waitOrder _ _
  next r more _ =>
    have hqueue : Moves free s { s with queue := s.queue ++ [r.filled (s.pos p).entry] } :=
      moves_queue (by simp only [List.length_append, List.length_singleton]; omega)
    have hwaiting := (hqueue.trans (moves_waitOrder _ (if more.isEmpty then order else .position p :: order))).trans
      (moves_plain (p := p) (f := fun v => { v with waiting := more }) rfl rfl rfl rfl rfl)
    simp only
    split
    · exact hwaiting.trans (moves_freeHead _ _)
    · exact hwaiting

theorem moves_admitHead {s : State} (hroom : s.queue.length < Config.queueLimit) : Moves free s (admitHead s) := by
  have hroom' : s.queue.length < 32 := hroom
  unfold admitHead
  split
  · exact .refl
  next order _ =>
    exact (Moves.of_move (.other s order .queued s.notices s.screening s.freeCount)).trans
      (moves_queue (by simp only [List.length_append, List.length_singleton]; omega))
  · exact moves_admitPosition _ hroom

theorem moves_handReport {r : Report} {q : List Report} {s : State} (hq : s.queue = r :: q) : Moves free s (handReport r q s) := by
  have hqueue : Moves free s { s with queue := q } := moves_queue (by rw [hq, List.length_cons]; omega)
  unfold handReport
  split
  · have hnotice := hqueue.trans
      (Moves.of_move (.other _ s.waitOrder .absent s.notices s.screening s.freeCount))
    simp only
    split
    · exact hnotice
    · exact hnotice.trans (moves_link id)
  · exact hqueue.trans (moves_link id)

theorem moves_arbiter {s t : State} (h : arbiter s = some t) : Moves free s t := by
  unfold arbiter at h
  split at h
  · cases h
  · split at h
    · cases h
      exact moves_link id
    · split at h
      · cases h
      next hq =>
        cases h
        exact moves_handReport hq

theorem moves_nextDue {s t : State} (h : nextDue s = some t) : Moves free s t := by
  unfold nextDue at h
  split at h
  next hadmit =>
    cases h
    exact moves_admitHead hadmit.2
  next =>
    split at h
    · cases h
      exact moves_startHead _ _
    · exact moves_arbiter h

theorem moves_settle (s : State) : Moves free s (settle s) :=
  settle_keeps (Moves free s) (fun _ _ hs hdue => hs.trans (moves_nextDue hdue)) s .refl

/-! ### Key presses, which settle the key before them first -/

theorem moves_settleUndecided (p : Pos) (s : State) : Moves free s (settleUndecided p s) := by
  unfold settleUndecided
  split
  · exact .refl
  · exact ((moves_modKey _ _ _).trans (moves_routeSymbol _ _ _ _)).trans (moves_settle _)

theorem moves_trackPress (p : Pos) (code : Fin 24) (press held : Symbol) (s : State) :
    Moves free s (trackPress p code press held s) := by
  unfold trackPress
  simp only
  split
  · exact ((moves_settleUndecided _ _).trans (moves_routeSymbol _ _ _ _)).trans (moves_settle _)
  · exact (moves_settleUndecided _ _).trans (moves_modKey _ _ _)

theorem moves_keyPressed (p : Pos) (code : Fin 24) (s : State) : Moves free s (keyPressed p code s) := by
  unfold keyPressed
  split
  · simp only
    split
    · exact .refl
    · exact moves_trackPress _ _ _ _ _
  · exact .refl

/-! ### Settings -/

theorem moves_settings {s : State} {g : Settings} (h : s.settings.Sound → g.Sound) : Moves free s { s with settings := g } :=
  .of_move (.settings s g h)

theorem accountMin_loadDeviceItems (d : DeviceItems) :
    (loadDeviceItems d).accountMin.toNat ≤ (loadDeviceItems d).accountMax.toNat := by
  unfold loadDeviceItems interlock7
  split
  · exact le_refl _
  next h => exact Nat.le_of_not_lt h

/-- A write of items 7 and 8 that keeps their order keeps the settings sound. -/
theorem accountMin_write {d : DeviceItems} {n : Nat} (index : Nat) {w : Word} (h : d.accountMin.toNat ≤ d.accountMax.toNat)
    (h7 : n = 7 → w.toNat ≤ d.accountMax.toNat) (h8 : n = 8 → d.accountMin.toNat ≤ w.toNat) :
    (d.write n index w).accountMin.toNat ≤ (d.write n index w).accountMax.toNat := by
  unfold DeviceItems.write
  split
  case h_5 => exact h7 rfl
  case h_6 => exact h8 rfl
  all_goals exact h

theorem interlocked_seven (d : DeviceItems) (w : Word) : (interlocked d 7 w).toNat ≤ d.accountMax.toNat := by
  unfold interlocked
  split
  · exact le_refl _
  next h => exact Nat.le_of_not_lt fun hlt => h ⟨rfl, hlt⟩

theorem interlocked_eight (d : DeviceItems) (w : Word) : d.accountMin.toNat ≤ (interlocked d 8 w).toNat := by
  unfold interlocked
  rw [if_neg (fun h => absurd h.1 (by decide))]
  split
  · exact le_refl _
  next h => exact Nat.le_of_not_lt fun hlt => h ⟨rfl, hlt⟩

/-! ### Starts -/

theorem moves_setPosItems (t : PosItems) (s : State) : Moves true s (setPosItems t s) := by
  refine .of_move (.positions s _ fun p => ?_)
  rw [Vector.getElem_ofFn]
  exact ⟨rfl, rfl, rfl, id, id⟩

theorem accountMin_factory : factoryDeviceItems.accountMin.toNat ≤ factoryDeviceItems.accountMax.toNat := by decide

theorem moves_loadSettings (s : State) : Moves true s (loadSettings s) := by
  unfold loadSettings
  simp only
  split
  · exact (moves_settings fun _ => ⟨fun h => (by cases h), accountMin_loadDeviceItems _⟩).trans (moves_setPosItems _ _)
  · exact ((moves_settings fun _ => ⟨fun h => (by cases h), accountMin_factory⟩).trans (moves_setPosItems _ _)).trans
      (moves_raise _ _ _)

theorem moves_loadCold (s : State) : Moves true s (loadCold s) := by
  refine Moves.trans ?_ (moves_loadSettings _)
  exact moves_settings id

theorem moves_loadWarm (s : State) : Moves true s (loadWarm s) := by
  unfold loadWarm
  simp only
  split
  · exact (moves_loadSettings _).trans (moves_raise _ _ _)
  · exact moves_loadSettings _

/-- The settings change, and a free value of the store is used up (log 8). -/
theorem moves_store {s : State} {g : Settings} (n : Nat) (h : s.settings.Sound → g.Sound) :
    Moves true s { s with freeCount := n, settings := g } :=
  (moves_settings h).trans
    (.of_move (.other _ s.waitOrder s.noticeReport s.notices s.screening n))

theorem moves_cutJob (s : State) : Moves true s (cutJob s) := by
  unfold cutJob
  split
  · exact .refl
  · exact moves_store _ id

theorem moves_coldStarted (s : State) : Moves true s (coldStarted s) :=
  ((Moves.of_move (.start s rfl)).trans (moves_cutJob _)).trans (moves_loadCold _)

theorem moves_warmStarted (s : State) : Moves true s (warmStarted s) := by
  unfold warmStarted
  simp only
  split
  · exact (Moves.of_move (.start s rfl)).trans (moves_loadWarm _)
  · exact (Moves.of_move (.start s rfl)).trans (moves_settings fun h => ⟨fun hw => (by cases hw), h.2⟩)

theorem moves_restartReplySent (s : State) : Moves true s (restartReplySent s) := by
  unfold restartReplySent
  split
  · exact moves_warmStarted _
  · exact .refl

theorem moves_startCompletes (s : State) : Moves true s (startCompletes s) := by
  unfold startCompletes
  split
  · exact .refl
  · refine Moves.trans ?_ (moves_raise _ _ _)
    exact moves_link id

theorem moves_endJob (good : Bool) (j : StoreJob) (s : State) : Moves true s (endJob good j s) :=
  moves_store _ id

theorem moves_storeWriteEnds (good : Bool) (s : State) : Moves true s (storeWriteEnds good s) := by
  unfold storeWriteEnds
  split
  · exact .refl
  · split
    · exact (moves_endJob _ _ _).trans (moves_loadWarm _)
    · exact (moves_endJob _ _ _).trans (moves_raise _ _ _)

/-! ### The requests -/

theorem moves_appendRecords {p : Pos} {rs : List StepRecord} {s : State} (hfree : rs.length ≤ s.freeRecords)
    (hchain : (s.pos p).chain.length + rs.length ≤ 12) : Moves true s (appendRecords p rs s) := by
  have hpool : Moves true s (State.modPos { s with freeRecords := s.freeRecords - rs.length } p fun v =>
      { v with chain := (s.pos p).chain ++ rs }) :=
    .of_move (.pool s p _ _ (by rw [List.length_append]; omega) fun _ => by rw [List.length_append]; omega)
  have hstate := moves_plain (free := true) (p := p)
    (s := State.modPos { s with freeRecords := s.freeRecords - rs.length } p fun v => { v with chain := (s.pos p).chain ++ rs })
    (f := fun v => { v with chainState := if v.chainState = .idle then .running else v.chainState }) rfl rfl rfl rfl rfl
  rw [State.modPos_modPos] at hstate
  exact hpool.trans hstate

theorem moves_handlePost (p : Pos) (payload : List Byte) (s : State) : Moves true s (handlePost p payload s).state := by
  unfold handlePost
  split
  · exact .refl
  next rs _ =>
    simp only
    split
    · exact .refl
    next hroom =>
      have hroom' : rs.length ≤ s.freeRecords ∧ (s.pos p).chain.length + rs.length ≤ 12 := by
        simp only [Bool.or_eq_true, decide_eq_true_eq, not_or, Nat.not_lt] at hroom
        exact hroom
      exact moves_appendRecords (by rw [List.length_map]; exact hroom'.1) (by rw [List.length_map]; exact hroom'.2)

theorem moves_dropUnstarted (p : Pos) (s : State) : Moves true s (dropUnstarted p s) := by
  have hsum : ((s.pos p).chain.countP fun r => !r.started) + ((s.pos p).chain.filter StepRecord.started).length =
      (s.pos p).chain.length := by
    rw [← List.countP_eq_length_filter, Nat.add_comm]
    simpa using (List.length_eq_countP_add_countP StepRecord.started (l := (s.pos p).chain)).symm
  have hpool : Moves true s
      (State.modPos { s with freeRecords := s.freeRecords + (s.pos p).chain.countP fun r => !r.started } p fun v =>
        { v with chain := (s.pos p).chain.filter StepRecord.started }) :=
    .of_move (.pool s p _ _ (by omega) (by omega))
  have hstate := moves_plain (free := true) (p := p)
    (s := State.modPos { s with freeRecords := s.freeRecords + (s.pos p).chain.countP fun r => !r.started } p fun v =>
        { v with chain := (s.pos p).chain.filter StepRecord.started })
    (f := fun v => { v with chainState := if v.chainState = .halted then .idle else v.chainState }) rfl rfl rfl rfl rfl
  rw [State.modPos_modPos] at hstate
  exact hpool.trans hstate

theorem moves_cancelHead (p : Pos) (s : State) : Moves true s (cancelHead p s) := by
  unfold cancelHead
  split
  · exact moves_setProgress _ _ _
  · exact moves_endStep _ _ _ _
  · exact .refl

theorem moves_handleCancel (p : Pos) (payload : List Byte) (s : State) : Moves true s (handleCancel p payload s).state := by
  unfold handleCancel
  split
  · exact .refl
  · exact (moves_dropUnstarted _ _).trans (moves_cancelHead _ _)

theorem moves_handleResume (p : Pos) (payload : List Byte) (s : State) : Moves true s (handleResume p payload s).state := by
  unfold handleResume
  split
  · exact .refl
  · simp only
    split
    · exact moves_plain (f := fun v => { v with chainState := if (s.pos p).chain.isEmpty then .idle else .running })
        rfl rfl rfl rfl rfl
    · exact .refl

theorem moves_foldl {f : State → PortId → State} (h : ∀ s i, Moves true s (f s i)) (l : List PortId) (s : State) :
    Moves true s (l.foldl f s) := by
  induction l generalizing s with
  | nil => exact .refl
  | cons i l ih => exact (h s i).trans (ih _)

theorem moves_handlePower (payload : List Byte) (s : State) : Moves true s (handlePower payload s).state := by
  unfold handlePower
  split
  · split
    · exact .refl
    · simp only
      split_ifs
      · exact moves_foldl moves_powerOnPort _ _
      · exact moves_foldl moves_powerOffPort _ _
      · exact .refl
  · exact .refl

theorem moves_grantAfter (n : Nat) (s : State) : Moves true s (if n = 12 then grantDecision s else s) := by
  split
  · exact moves_grantDecision _
  · exact .refl

theorem moves_applySet (t : Target) (n index : Nat) (w : Word) (s : State) :
    Moves true s (applySet t n index (setValue s.settings.live n w) s) := by
  have hdevice : Moves true s (applySet .device n index (setValue s.settings.live n w) s) := by
    refine Moves.trans ?_ (moves_grantAfter n _)
    refine moves_settings fun h => ⟨h.1, accountMin_write index h.2 ?_ ?_⟩
    · rintro rfl
      exact interlocked_seven _ _
    · rintro rfl
      exact interlocked_eight _ _
  cases t with
  | position p =>
    have hitems : Moves true s (s.modPos p fun v => { v with items := v.items.write n (setValue s.settings.live n w) }) :=
      moves_plain rfl rfl rfl rfl rfl
    unfold applySet
    simp only
    split_ifs
    · exact hitems.trans (moves_modPort _ _ _ _)
    · exact hitems.trans (moves_modPort _ _ _ _)
    · exact hitems
  | device => exact hdevice
  | bad => exact hdevice

theorem moves_handleSet (t : Target) (payload : List Byte) (s : State) : Moves true s (handleSet t payload s).state := by
  unfold handleSet
  split
  · simp only
    split_ifs
    all_goals first
      | exact moves_applySet _ _ _ _ _
      | exact .refl
  · exact .refl

theorem state_handleGet (t : Target) (payload : List Byte) (s : State) : (handleGet t payload s).state = s := by
  unfold handleGet
  split
  · simp only
    split_ifs <;> rfl
  · rfl

theorem moves_handleNoticeClear (payload : List Byte) (s : State) : Moves true s (handleNoticeClear payload s).state := by
  unfold handleNoticeClear
  split
  · simp only
    split
    · exact .refl
    · exact moves_notices _ _
  · exact .refl

theorem moves_controlNotices (en dis mu un : Word) (s : State) : Moves true s (controlNotices en dis mu un s) := by
  unfold controlNotices
  simp only
  split
  · exact (moves_notices s _).trans (moves_askNotice _)
  · exact moves_notices s _

theorem moves_handleNoticeControl (payload : List Byte) (s : State) : Moves true s (handleNoticeControl payload s).state := by
  unfold handleNoticeControl
  split
  · simp only
    split_ifs
    · exact .refl
    · exact .refl
    · exact .refl
    · exact moves_controlNotices _ _ _ _ _
  · exact .refl

theorem moves_clearCounters (t : Target) (s : State) : Moves true s (clearCounters t s) := by
  have hdevice : Moves true s { s with deviceCounters := #v[0, 0, 0, 0] } :=
    .of_move (.deviceCounters s _ fun _ => countsBounded_deviceZero)
  cases t with
  | position p =>
    exact moves_modPos (f := fun v => { v with counters := #v[0, 0, 0, 0, 0, 0, 0, 0] })
      ⟨rfl, rfl, rfl, fun _ => countsBounded_posZero, id⟩
  | device => exact hdevice
  | bad => exact hdevice

theorem moves_handleCounters (t : Target) (payload : List Byte) (s : State) : Moves true s (handleCounters t payload s).state := by
  unfold handleCounters
  split
  · split_ifs
    · exact .refl
    · exact moves_clearCounters _ _
    · exact .refl
  · exact .refl

theorem moves_handleScreenLoad (payload : List Byte) (s : State) : Moves true s (handleScreenLoad payload s).state := by
  unfold handleScreenLoad
  split
  · exact .refl
  · split
    · exact .refl
    · exact moves_screening _ _

theorem moves_handleScreenDrop (payload : List Byte) (s : State) : Moves true s (handleScreenDrop payload s).state := by
  unfold handleScreenDrop
  split
  · exact .refl
  · split
    · exact moves_screening _ _
    · exact .refl

theorem moves_handleUnlock (payload : List Byte) (s : State) : Moves true s (handleUnlock payload s).state := by
  have hwrong : Moves true s (wrongPasscode s) := by
    unfold wrongPasscode
    simp only
    split
    · refine Moves.trans ?_ (moves_raise _ _ _)
      exact moves_settings id
    · exact moves_settings id
  unfold handleUnlock
  split
  · exact .refl
  · split_ifs
    · exact .refl
    · exact moves_settings fun h => ⟨fun _ => rfl, h.2⟩
    · exact hwrong

theorem moves_handleLock (payload : List Byte) (s : State) : Moves true s (handleLock payload s).state := by
  unfold handleLock
  split
  · exact .refl
  · exact moves_settings fun h => ⟨fun hw => (by cases hw), h.2⟩

theorem moves_handleStoreEnable (payload : List Byte) (s : State) : Moves true s (handleStoreEnable payload s).state := by
  unfold handleStoreEnable
  simp only
  split_ifs with _ _ _ hlocked
  · exact .refl
  · exact .refl
  · exact .refl
  · exact .refl
  · exact moves_settings fun h => ⟨fun _ => by simpa using hlocked, h.2⟩

theorem moves_refuseClearing (s : State) : Moves true s (refuseClearing s).state :=
  moves_settings fun h => ⟨fun hw => (by cases hw), h.2⟩

theorem moves_beginJob (j : StoreJob) (fields : List Byte) (s : State) : Moves true s (beginJob j fields s).state := by
  unfold beginJob
  simp only
  split_ifs
  · exact .refl
  · exact .refl
  · exact .refl
  all_goals exact moves_settings fun h => ⟨fun hw => (by cases hw), h.2⟩

theorem moves_handleStoreWrite (payload : List Byte) (s : State) : Moves true s (handleStoreWrite payload s).state := by
  unfold handleStoreWrite
  split
  · simp only
    split
    · split
      · split
        · exact moves_beginJob _ _ _
        · exact moves_refuseClearing _
      · exact moves_refuseClearing _
    · split
      · split
        · exact moves_refuseClearing _
        · exact moves_beginJob _ _ _
      · exact moves_refuseClearing _
  · exact moves_refuseClearing _

theorem moves_handleStoreLock (payload : List Byte) (s : State) : Moves true s (handleStoreLock payload s).state := by
  unfold handleStoreLock
  split
  · exact moves_refuseClearing _
  · exact moves_beginJob _ _ _

theorem moves_handleRestart (payload : List Byte) (s : State) : Moves true s (handleRestart payload s).state := by
  unfold handleRestart
  split
  · exact .refl
  · exact moves_link id

theorem moves_of_eq {s t : State} (h : t = s) : Moves true s t := h ▸ .refl

/-- Requests that only read the part. -/
theorem reads_handlers (payload : List Byte) (p : Pos) (s : State) :
    (handleQuery p payload s).state = s ∧ (handleNoticeRead payload s).state = s ∧ (handleScreenList payload s).state = s ∧
      (handleStoreRead payload s).state = s ∧ (handleStoreStatus payload s).state = s ∧ (handleIdentify payload s).state = s := by
  refine ⟨?_, ?_, ?_, ?_, ?_, ?_⟩
  · unfold handleQuery; split <;> rfl
  · unfold handleNoticeRead; split <;> rfl
  · unfold handleScreenList
    split
    · split <;> rfl
    · rfl
  · unfold handleStoreRead
    split
    · simp only
      split_ifs <;> rfl
    · rfl
  · unfold handleStoreStatus; split <;> rfl
  · unfold handleIdentify; split <;> rfl

theorem moves_ownRule (k : RequestKind) (t : Target) (payload : List Byte) (s : State) :
    Moves true s (ownRule k t payload s).state := by
  obtain ⟨-, hnotices, hlist, hstore, hstatus, hidentify⟩ := reads_handlers payload 0 s
  cases k with
  | identify => exact moves_of_eq hidentify
  | post => cases t with
    | position p => exact moves_handlePost _ _ _
    | device | bad => exact .refl
  | cancel => cases t with
    | position p => exact moves_handleCancel _ _ _
    | device | bad => exact .refl
  | resume => cases t with
    | position p => exact moves_handleResume _ _ _
    | device | bad => exact .refl
  | query => cases t with
    | position p => exact moves_of_eq (reads_handlers payload p s).1
    | device | bad => exact .refl
  | power => exact moves_handlePower _ _
  | set => exact moves_handleSet _ _ _
  | get => exact moves_of_eq (state_handleGet _ _ _)
  | noticeRead => exact moves_of_eq hnotices
  | noticeClear => exact moves_handleNoticeClear _ _
  | noticeControl => exact moves_handleNoticeControl _ _
  | counters => exact moves_handleCounters _ _ _
  | screenLoad => exact moves_handleScreenLoad _ _
  | screenDrop => exact moves_handleScreenDrop _ _
  | screenList => exact moves_of_eq hlist
  | unlock => exact moves_handleUnlock _ _
  | lock => exact moves_handleLock _ _
  | storeEnable => exact moves_handleStoreEnable _ _
  | storeWrite => exact moves_handleStoreWrite _ _
  | storeRead => exact moves_of_eq hstore
  | storeLock => exact moves_handleStoreLock _ _
  | storeStatus => exact moves_of_eq hstatus
  | restart => exact moves_handleRestart _ _

theorem moves_answer (f : Frame) (s : State) : Moves true s (answer f s).state := by
  unfold answer
  split
  · exact .refl
  · split
    · exact .refl
    · split
      · exact .refl
      · exact moves_ownRule _ _ _ _

theorem moves_takeFrame (f : Frame) (s : State) : Moves true s (takeFrame f s) := by
  have hreply := (moves_answer f s).trans
    (moves_link (l := { (answer f s).state.link with slot := some (replyFrame f (answer f s)) }) id)
  unfold takeFrame
  simp only
  split
  · exact hreply
  · exact hreply.trans (moves_countDevice _ _)

/-! ### The link -/

theorem moves_takeHead (f : Frame) (s : State) : Moves true s (takeHead f s) :=
  (moves_link (l := { s.link with buffer := s.link.buffer.tail }) (by simp only [List.length_tail]; omega)).trans
    (moves_takeFrame f _)

theorem moves_serveFor (n : Nat) (s : State) : Moves true s (serveFor n s) := by
  induction n generalizing s with
  | zero => exact moves_settle s
  | succ n ih =>
    unfold serveFor
    simp only
    split
    · exact ((moves_settle s).trans (moves_takeHead _ _)).trans (ih _)
    · exact moves_settle s

theorem moves_serve (s : State) : Moves true s (serve s) := by
  have htake : Moves true s (takeDue s) := by
    unfold takeDue
    split
    · exact moves_takeHead _ _
    · exact .refl
  exact htake.trans (moves_serveFor _ _)

theorem moves_frameLost (s : State) : Moves true s (frameLost s) := (moves_countDevice _ _).trans (moves_raise _ _ _)

theorem moves_acceptFrame (f : Frame) (s : State) : Moves true s (acceptFrame f s) := by
  unfold acceptFrame
  split
  next hroom =>
    have hroom' : s.link.buffer.length < 4 := hroom
    exact (moves_link (l := { s.link with buffer := s.link.buffer ++ [f] })
      (by simp only [List.length_append, List.length_singleton]; omega)).trans (moves_countDevice _ _)
  next => exact moves_frameLost s

theorem moves_lostFrame {s : State} (l : Link) (h : s.link.buffer.length ≤ 4 → l.buffer.length ≤ 4) :
    Moves true s (serve (frameLost { s with link := l })) :=
  ((moves_link h).trans (moves_frameLost _)).trans (moves_serve _)

theorem moves_acceptedFrame {s : State} (f : Frame) (l : Link) (h : s.link.buffer.length ≤ 4 → l.buffer.length ≤ 4) :
    Moves true s (serve (acceptFrame f { s with link := l })) :=
  ((moves_link h).trans (moves_acceptFrame _ _)).trans (moves_serve _)

theorem moves_byteArrives (b : Byte) (s : State) : Moves true s (byteArrives b s) := by
  unfold byteArrives
  split
  · split
    · exact moves_link id
    · exact .refl
  · split
    · exact moves_link id
    · exact moves_lostFrame _ id
  · unfold bodyByte
    simp only
    split_ifs
    · exact moves_link id
    · exact moves_acceptedFrame _ _ id
    · exact moves_lostFrame _ id

theorem moves_frameGap (s : State) : Moves true s (frameGap s) := by
  unfold frameGap
  split
  · exact moves_lostFrame _ id
  · exact .refl

theorem moves_bytes (bs : List Byte) (s : State) : Moves true s (bs.foldl (fun t b => byteArrives b t) s) := by
  induction bs generalizing s with
  | nil => exact .refl
  | cons b bs ih => exact (moves_byteArrives b s).trans (ih _)

theorem moves_sendRequest (f : Frame) (s : State) : Moves true s (sendRequest f s) := by
  unfold sendRequest
  split
  · exact moves_acceptedFrame _ _ id
  · exact moves_bytes _ _

theorem moves_transmitterDone (s : State) : Moves true s (transmitterDone s) := by
  unfold transmitterDone
  split
  · exact (moves_warmStarted _).trans (moves_settle _)
  · split
    · exact .refl
    · refine Moves.trans ?_ (moves_serve _)
      exact moves_link id

end Sys2Proof.Machine
end

section
/-! SUPPORT and PROOF for O1, O2, O3, O56, O57, O58, O59 and O60. The effect of a command, the limits each write keeps, the
rest every command comes to, and what an event at one position can reach. -/

namespace Sys2Proof.Machine

/-! ### The effect of a command -/

/-- The effect of a command that does not fault. -/
def effect (c : Instr) (s : State) : State :=
  match c with
  | .receiveByte b => byteArrives b s
  | .frameGapTimeout => frameGap s
  | .transmitDone => transmitterDone s
  | .coldStart => settle (coldStarted s)
  | .warmStart => settle (restartReplySent s)
  | .startComplete => settle (startCompletes s)
  | .storeWriteEnd good => settle (storeWriteEnds good s)
  | .portSwitchOn now => switchOnHead now s
  | .readerCharacterByte p x => readerCharacter p x s
  | .readerEndByte p => settle (readerEnd p s)
  | .readerFaultByte p b =>
    match readerClass b with
    | .faultByte => settle (readerFault p s)
    | .passEnd => settle (readerEnd p s)
    | .character x => readerCharacter p x s
  | .passGapTimeout p => settle (passGap p s)
  | .waitCardTimeout p => settle (waitCardRunsOut p s)
  | .keyPress p code => keyPressed p code s
  | .keyRelease p code => settle (keyReleased p code s)
  | .longPressTimeout p => settle (longPressRunsOut p s)
  | .announce p flags early => settle (announced p flags.display flags.beeper early s)
  | .acknowledge p => settle (acknowledged p s)
  | .keypadLineError p b =>
    match keypadClass b with
    | .other => settle (lineError p s)
    | .press code => keyPressed p code s
    | .release code => settle (keyReleased p code s)
    | .announce display beeper => settle (announced p display beeper false s)
    | .acknowledge => settle (acknowledged p s)
  | .acknowledgeTimeout p => settle (ackRunsOut p s)
  | .beepSent p => beepGoesOut p s
  | .firstKeyTimeout p => settle (sessionTimer p EntryUnit.firstKey s)
  | .interKeyTimeout p => settle (sessionTimer p EntryUnit.interKey s)
  | .ceilingTimeout p => settle (sessionTimer p EntryUnit.ceiling s)
  | .removalTimeout p => settle (removalRunsOut p s)
  | .pauseTimerExpiry p => settle (pauseRunsOut p s)
  | .cardPresentRises p => settle (cardRises p s)
  | .cardPresentFalls p => settle (cardFalls p s)
  | .cardLeftTimeout p => settle (cardLeftRunsOut p s)
  | .portCurrentChange p k mA => settle (currentChanges p k mA s)
  | .inrushAllowanceEnd p k => settle (inrushEnds p k s)
  | .readinessTimeout p k => settle (readinessRunsOut p k s)
  | .announceTimeout p => settle (announceRunsOut p s)
  | .overTimeTrip p k => settle (overTrips p k s)
  | .underTimeExpiry p k => settle (underRunsOut p k s)
  | .returnTimeExpiry p k => settle (returnRunsOut p k s)
  | .latchCeilingTimeout p => settle (ceilingRunsOut p s)
  | .reEnergizeTimeout p => settle (reEnergizeRunsOut p s)
  | c =>
    match c.requestFrame with
    | some f => sendRequest f s
    | none => s

/-- A command has its effect, but at a position the part does not have it faults (log 17). -/
theorem exec_eq_effect (c : Instr) (s : State) :
    exec c s = match c.line with
      | some p => atPosition p s (effect c)
      | none => .next (effect c s) := by
  cases c <;> rfl

/-- A command that completes has had its effect. -/
theorem eq_effect_of_exec {c : Instr} {s t : State} (h : exec c s = .next t) : t = effect c s := by
  rw [exec_eq_effect] at h
  split at h
  · unfold atPosition at h
    split at h
    · exact (Host.Outcome.next.inj h).symm
    · cases h
  · exact (Host.Outcome.next.inj h).symm

/-- An event on a line or at a timer of a position is a run of writes that leaves the power-up list as it is. -/
theorem moves_lineEvent {free : Bool} {c : Instr} {p : Pos} (h : c.line = some p) (s : State) :
    Moves free s (effect c s) := by
  cases c with
  | readerCharacterByte p x => exact moves_readerCharacter p x s
  | readerEndByte p => exact (moves_readerEnd p s).trans (moves_settle _)
  | readerFaultByte p b =>
    unfold effect
    dsimp only
    split
    · exact (moves_readerFault p s).trans (moves_settle _)
    · exact (moves_readerEnd p s).trans (moves_settle _)
    · exact moves_readerCharacter p _ s
  | passGapTimeout p => exact (moves_passGap p s).trans (moves_settle _)
  | waitCardTimeout p => exact (moves_waitCardRunsOut p s).trans (moves_settle _)
  | keyPress p code => exact moves_keyPressed p code s
  | keyRelease p code => exact (moves_keyReleased p code s).trans (moves_settle _)
  | longPressTimeout p => exact (moves_longPressRunsOut p s).trans (moves_settle _)
  | announce p flags early => exact (moves_announced p _ _ early s).trans (moves_settle _)
  | acknowledge p => exact (moves_acknowledged p s).trans (moves_settle _)
  | keypadLineError p b =>
    unfold effect
    dsimp only
    split
    · exact (moves_lineError p s).trans (moves_settle _)
    · exact moves_keyPressed p _ s
    · exact (moves_keyReleased p _ s).trans (moves_settle _)
    · exact (moves_announced p _ _ _ s).trans (moves_settle _)
    · exact (moves_acknowledged p s).trans (moves_settle _)
  | acknowledgeTimeout p => exact (moves_ackRunsOut p s).trans (moves_settle _)
  | beepSent p => exact moves_beepGoesOut p s
  | firstKeyTimeout p | interKeyTimeout p | ceilingTimeout p => exact (moves_sessionTimer p _ s).trans (moves_settle _)
  | removalTimeout p => exact (moves_removalRunsOut p s).trans (moves_settle _)
  | pauseTimerExpiry p => exact (moves_pauseRunsOut p s).trans (moves_settle _)
  | cardPresentRises p => exact (moves_cardRises p s).trans (moves_settle _)
  | cardPresentFalls p => exact (moves_cardFalls p s).trans (moves_settle _)
  | cardLeftTimeout p => exact (moves_cardLeftRunsOut p s).trans (moves_settle _)
  | portCurrentChange p k mA => exact (moves_currentChanges p k mA s).trans (moves_settle _)
  | inrushAllowanceEnd p k => exact (moves_inrushEnds p k s).trans (moves_settle _)
  | readinessTimeout p k => exact (moves_readinessRunsOut p k s).trans (moves_settle _)
  | announceTimeout p => exact (moves_announceRunsOut p s).trans (moves_settle _)
  | overTimeTrip p k => exact (moves_overTrips p k s).trans (moves_settle _)
  | underTimeExpiry p k => exact (moves_underRunsOut p k s).trans (moves_settle _)
  | returnTimeExpiry p k => exact (moves_returnRunsOut p k s).trans (moves_settle _)
  | latchCeilingTimeout p => exact (moves_ceilingRunsOut p s).trans (moves_settle _)
  | reEnergizeTimeout p => exact (moves_reEnergizeRunsOut p s).trans (moves_settle _)
  | receiveByte | frameGapTimeout | transmitDone | coldStart | warmStart | startComplete | storeWriteEnd | portSwitchOn
  | identify | post | cancel | resume | query | powerOn | powerOff | set | get | noticeRead | noticeClear | noticeControl
  | counters | screenLoad | screenDrop | screenList | unlock | lock | storeEnable | storeWrite | storeRead | storeLock
  | storeStatus | restart | unknownKind => cases h

theorem moves_effect (c : Instr) (s : State) : Moves true s (effect c s) := by
  cases hline : c.line with
  | some p => exact moves_lineEvent hline s
  | none =>
    cases c with
    | receiveByte b => exact moves_byteArrives b s
    | frameGapTimeout => exact moves_frameGap s
    | transmitDone => exact moves_transmitterDone s
    | coldStart => exact (moves_coldStarted s).trans (moves_settle _)
    | warmStart => exact (moves_restartReplySent s).trans (moves_settle _)
    | startComplete => exact (moves_startCompletes s).trans (moves_settle _)
    | storeWriteEnd good => exact (moves_storeWriteEnds good s).trans (moves_settle _)
    | portSwitchOn now => exact moves_switchOnHead now s
    | identify | post | cancel | resume | query | powerOn | powerOff | set | get | noticeRead | noticeClear | noticeControl
    | counters | screenLoad | screenDrop | screenList | unlock | lock | storeEnable | storeWrite | storeRead | storeLock
    | storeStatus | restart | unknownKind => exact moves_sendRequest _ s
    | _ => cases hline

/-- What every write keeps, and the taking of a command from the queue, every step keeps. -/
theorem step_keeps {I : State → Prop} (hpending : ∀ s rest, I s → I { s with pending := rest })
    (hmove : ∀ s t, Move true s t → I s → I t) {s t : State} (hs : I s) (h : step s = .next t) : I t := by
  unfold step at h
  split at h
  · cases h
    exact hs
  next c rest _ =>
    rw [eq_effect_of_exec h]
    exact (moves_effect c _).keeps hmove (hpending s rest hs)

/-! ### The limits each write keeps -/

/-- The lengths of all chains together. -/
def chainsLength (s : State) : Nat := (allPos.map fun p => (s.pos p).chain.length).sum

theorem chainsLength_congr {s t : State} (h : ∀ p, (t.pos p).chain.length = (s.pos p).chain.length) :
    chainsLength t = chainsLength s := by
  unfold chainsLength
  rw [List.map_congr_left fun p _ => h p]

theorem chainsLength_modPos (s : State) (p : Pos) (f : Position → Position) :
    chainsLength (s.modPos p f) + (s.pos p).chain.length = chainsLength s + (f (s.pos p)).chain.length := by
  have h := sum_map_update allPos nodup_allPos (fun q => (s.pos q).chain.length)
    (fun q => ((s.modPos p f).pos q).chain.length) p fun q hq => by rw [State.pos_modPos_ne s hq]
  simpa [chainsLength, mem_allPos] using h

theorem pos_resetBlocks (s : State) (p : Pos) :
    (resetBlocks s).pos p = startedPosition (s.pos p).items (s.pos p).cardLine := Vector.getElem_ofFn ..

theorem poolKept_of_lengths {s t : State} (h : PoolKept s) (hfree : t.freeRecords = s.freeRecords)
    (hlen : ∀ p, (t.pos p).chain.length = (s.pos p).chain.length) : PoolKept t :=
  ⟨by rw [hfree]; exact (congrArg _ (chainsLength_congr hlen)).trans h.1, fun p => by rw [hlen]; exact h.2 p⟩

theorem length_chain_modPos (s : State) (p q : Pos) (f : Position → Position) (h : ∀ v, (f v).chain = v.chain) :
    ((s.modPos p f).pos q).chain.length = (s.pos q).chain.length := congrArg _ (chain_modPos_self s p f h q)

theorem Move.keeps_pool {s t : State} (hmove : Move true s t) (h : PoolKept s) : PoolKept t := by
  cases hmove with
  | other | power | queue | link | deviceCounters | settings => exact h
  | positions ps hps => exact poolKept_of_lengths h rfl fun p => (hps p).chain
  | askLatch p | withdrawLatch p | grantLatch p | latchOff p =>
    exact poolKept_of_lengths h rfl fun q => length_chain_modPos _ p q _ fun _ => rfl
  | pool p n c hsum hlen =>
    obtain ⟨htotal, hmax⟩ := h
    refine ⟨?_, fun q => ?_⟩
    · have hchains := chainsLength_modPos { s with freeRecords := n } p fun v => { v with chain := c }
      have hsame : chainsLength { s with freeRecords := n } = chainsLength s := rfl
      have hpos : ({ s with freeRecords := n } : State).pos p = s.pos p := rfl
      rw [hsame, hpos] at hchains
      have htotal' : s.freeRecords + chainsLength s = 48 := htotal
      show n + chainsLength _ = 48
      simp only at hchains
      omega
    · rw [State.pos_modPos]
      split
      next e => exact hlen (e ▸ hmax q)
      next => exact hmax q
  | start =>
    refine ⟨?_, fun p => ?_⟩
    · have hempty : chainsLength (resetBlocks s) = 0 := by
        unfold chainsLength
        simp [pos_resetBlocks, startedPosition]
      show 48 + chainsLength (resetBlocks s) = 48
      rw [hempty]
    · simp [pos_resetBlocks, startedPosition]

/-- Settles O57: every write shares the 48 records out between the pool and the chains. -/
theorem poolKeptByEveryStep : Obligations.PoolKeptByEveryStep := fun _ _ hs h =>
  step_keeps (fun _ _ hs => hs) (fun _ _ hmove => hmove.keeps_pool) hs h

theorem latchesAgree_of_same {s t : State} (h : LatchesAgree s) (henergized : t.energized = s.energized)
    (hwait : t.latchWait = s.latchWait) (hlatch : ∀ p, (t.pos p).latchState = (s.pos p).latchState)
    (hceil : ∀ p, (t.pos p).ceilingTimer = (s.pos p).ceilingTimer) : LatchesAgree t := by
  obtain ⟨hon, hwaiting, hnodup, hceiling⟩ := h
  exact ⟨fun p => by rw [henergized, hlatch]; exact hon p, fun p => by rw [hwait, hlatch]; exact hwaiting p,
    henergized ▸ hnodup, fun p => by rw [hceil, hlatch]; exact hceiling p⟩

theorem not_energized_of_waiting {s : State} (h : LatchesAgree s) {p : Pos} (hp : p ∈ s.latchWait) : p ∉ s.energized := by
  obtain ⟨hon, hwaiting, -, -⟩ := h
  rw [hon, (hwaiting p).1 hp]
  decide

theorem Move.keeps_latches {s t : State} (hmove : Move true s t) (h : LatchesAgree s) : LatchesAgree t := by
  cases hmove with
  | other | power | queue | link | deviceCounters | settings => exact h
  | positions ps hps => exact latchesAgree_of_same h rfl rfl (fun p => (hps p).latch) fun p => (hps p).ceiling
  | pool p n c _ _ =>
    refine latchesAgree_of_same h rfl rfl (fun q => ?_) fun q => ?_ <;>
      · rw [State.pos_modPos]
        split <;> rfl
  | askLatch p hoff =>
    obtain ⟨hon, hwaiting, hnodup, hceiling⟩ := h
    refine ⟨fun q => ?_, fun q => ?_, hnodup, fun q => ?_⟩ <;> by_cases hq : q = p
    · subst hq
      simpa [State.pos_modPos] using mt (hon q).1 hoff
    · simpa [State.pos_modPos, hq] using hon q
    · simp [hq]
    · simpa [State.pos_modPos, hq] using hwaiting q
    · subst hq
      intro hrun
      exact absurd (hceiling q (by simpa using hrun)) hoff
    · simpa [State.pos_modPos, hq] using hceiling q
  | withdrawLatch p =>
    obtain ⟨hon, hwaiting, hnodup, hceiling⟩ := h
    refine ⟨fun q => ?_, fun q => ?_, hnodup, fun q => ?_⟩ <;> by_cases hq : q = p
    · subst hq
      have := hon q
      cases hstate : (s.pos q).latchState <;> simp_all
    · simpa [State.pos_modPos, hq] using hon q
    · subst hq
      cases hstate : (s.pos q).latchState <;> simp [hstate]
    · simpa [State.pos_modPos, hq] using hwaiting q
    · subst hq
      have := hceiling q
      cases hstate : (s.pos q).latchState <;> simp_all
    · simpa [State.pos_modPos, hq] using hceiling q
  | grantLatch p timer hp =>
    have hfresh := not_energized_of_waiting h hp
    obtain ⟨hon, hwaiting, hnodup, hceiling⟩ := h
    refine ⟨fun q => ?_, fun q => ?_, ?_, fun q => ?_⟩
    · by_cases hq : q = p
      · simp [hq]
      · simpa [State.pos_modPos, hq] using hon q
    · by_cases hq : q = p
      · simp [hq]
      · simpa [State.pos_modPos, hq] using hwaiting q
    · exact List.nodup_append.2 ⟨hnodup, List.nodup_singleton p, fun x hx y hy e =>
        hfresh (List.mem_singleton.1 hy ▸ e ▸ hx)⟩
    · by_cases hq : q = p
      · simp [hq]
      · simpa [State.pos_modPos, hq] using hceiling q
  | latchOff p timer hoff =>
    obtain ⟨hon, hwaiting, hnodup, hceiling⟩ := h
    have henergized : (s.pos p).latchState = .energized := hoff.elim id (hceiling p)
    refine ⟨fun q => ?_, fun q => ?_, hnodup.filter _, fun q => ?_⟩ <;> by_cases hq : q = p
    · simp [hq]
    · simpa [State.pos_modPos, hq] using hon q
    · subst hq
      have := hwaiting q
      simp_all
    · simpa [State.pos_modPos, hq] using hwaiting q
    · simp [hq, Timer.isRunning]
    · simpa [State.pos_modPos, hq] using hceiling q
  | start =>
    refine ⟨fun p => ?_, fun p => ?_, List.nodup_nil, fun p => ?_⟩ <;> rw [pos_resetBlocks] <;>
      simp [startedPosition, resetBlocks, Timer.isRunning]

/-- Settles O58: a position enters and leaves the lists of the latch supervisor in one write with its latch state. -/
theorem latchesAgreeAfterEveryStep : Obligations.LatchesAgreeAfterEveryStep := fun _ _ hs h =>
  step_keeps (fun _ _ hs => hs) (fun _ _ hmove => hmove.keeps_latches) hs h

theorem Move.keeps_queues {s t : State} (hmove : Move true s t) (h : QueuesBounded s) : QueuesBounded t := by
  cases hmove with
  | queue q hq => exact ⟨hq h.1, h.2⟩
  | link l hl => exact ⟨h.1, hl h.2⟩
  | start => exact ⟨Nat.zero_le _, Nat.zero_le _⟩
  | other | power | positions | deviceCounters | settings | pool | askLatch | withdrawLatch | grantLatch | latchOff => exact h

/-- What holds of every position as it was holds after a write of one position that keeps it. -/
theorem forall_pos_modPos {P : Position → Prop} {s : State} {p : Pos} {f : Position → Position} (h : ∀ q, P (s.pos q))
    (hf : P (s.pos p) → P (f (s.pos p))) (q : Pos) : P ((s.modPos p f).pos q) := by
  rw [State.pos_modPos]
  split
  next e => exact e ▸ hf (h p)
  next => exact h q

theorem Move.keeps_counters {s t : State} (hmove : Move true s t) (h : CountersBounded s) : CountersBounded t := by
  cases hmove with
  | positions ps hps => exact ⟨fun p => (hps p).counters (h.1 p), h.2⟩
  | deviceCounters counts hcounts => exact ⟨h.1, hcounts h.2⟩
  | start =>
    refine ⟨fun p => ?_, countsBounded_deviceZero⟩
    rw [pos_resetBlocks]
    exact countsBounded_posZero
  | other | power | queue | link | settings => exact h
  | pool p | askLatch p | withdrawLatch p | grantLatch p | latchOff p =>
    exact ⟨forall_pos_modPos (P := fun v => CountsBounded v.counters) h.1 id, h.2⟩

theorem Move.keeps_wiped {s t : State} (hmove : Move true s t) (h : EntryWiped s) : EntryWiped t := by
  cases hmove with
  | positions ps hps => exact fun p => (hps p).entry (h p)
  | start =>
    intro p _
    rw [pos_resetBlocks]
    rfl
  | other | power | queue | link | settings | deviceCounters => exact h
  | pool p | askLatch p | withdrawLatch p | grantLatch p | latchOff p =>
    exact forall_pos_modPos (P := fun v => v.entry.Wiped) h id

theorem Move.keeps_sound {s t : State} (hmove : Move true s t) (h : SettingsSound s) : SettingsSound t := by
  cases hmove with
  | settings g hg => exact hg h
  | other | power | positions | queue | link | deviceCounters | pool | askLatch | withdrawLatch | grantLatch | latchOff | start =>
    exact h

/-- Settles O59: the four limits, each kept by every write. -/
theorem limitsKeptByEveryStep : Obligations.LimitsKeptByEveryStep := fun _ _ h =>
  ⟨fun hs => step_keeps (fun _ _ hs => hs) (fun _ _ hmove => hmove.keeps_queues) hs h,
    fun hs => step_keeps (fun _ _ hs => hs) (fun _ _ hmove => hmove.keeps_counters) hs h,
    fun hs => step_keeps (fun _ _ hs => hs) (fun _ _ hmove => hmove.keeps_wiped) hs h,
    fun hs => step_keeps (fun _ _ hs => hs) (fun _ _ hmove => hmove.keeps_sound) hs h⟩

/-! ### Every command completes or faults -/

theorem Move.keeps_part {s t : State} (h : Move true s t) : t.variant = s.variant ∧ t.pending = s.pending := by
  cases h <;> exact ⟨rfl, rfl⟩

theorem Move.keeps_powerList {s t : State} (h : Move false s t) : t.powerList = s.powerList := by
  cases h with
  | power _ _ hfree | start hfree => cases hfree
  | _ => rfl

theorem Moves.keeps_powerList {s t : State} (h : Moves false s t) : t.powerList = s.powerList :=
  h.keeps (I := fun t => t.powerList = s.powerList) (fun _ _ hmove ht => hmove.keeps_powerList.trans ht) rfl

theorem effect_keeps_part (c : Instr) (s : State) : (effect c s).variant = s.variant ∧ (effect c s).pending = s.pending :=
  (moves_effect c s).keeps (I := fun t => t.variant = s.variant ∧ t.pending = s.pending)
    (fun _ _ hmove h => ⟨hmove.keeps_part.1.trans h.1, hmove.keeps_part.2.trans h.2⟩) ⟨rfl, rfl⟩

/-- Settles O2: a command has its effect, or names a position the part does not have. -/
theorem commandsCompleteOrFault : Obligations.CommandsCompleteOrFault := by
  intro s c
  refine ⟨fun hhas => ⟨effect c s, ?_, effect_keeps_part c s⟩, fun p hp hnot => ?_⟩ <;> rw [exec_eq_effect]
  · split
    next p hp => exact if_pos (hhas p hp)
    next => rfl
  · rw [hp]
    exact if_neg (Nat.not_lt.mpr hnot)

/-- Settles O1. -/
theorem stepRunsFrontCommand : Obligations.StepRunsFrontCommand := by
  refine ⟨fun s c rest h => ?_, fun s h => ?_⟩ <;> simp [step, h]

/-- Settles O3. -/
theorem resetIsStarted : Obligations.ResetIsStarted := by
  intro v s
  have hpos (p : Pos) : s.pos p = startedPosition factoryPosItems false := Vector.getElem_replicate ..
  have hchains : chainsLength s = 0 := by
    unfold chainsLength
    simp [hpos, startedPosition]
  refine ⟨hpos, rfl, rfl, rfl, rfl, rfl, rfl, rfl, rfl, rfl, ⟨fun _ => rfl, fun p => ?_, fun _ => ⟨rfl, rfl⟩⟩,
    ⟨?_, fun p => ?_⟩, ⟨Nat.zero_le _, Nat.zero_le _⟩, ⟨fun p => ?_, countsBounded_deviceZero⟩,
    ⟨fun p => ?_, fun p => ?_, List.nodup_nil, fun p => ?_⟩, fun p _ => ?_, ⟨fun h => (by cases h), accountMin_factory⟩⟩
  · rw [hpos]; rfl
  · show 48 + chainsLength s = 48
    rw [hchains]
  · rw [hpos]; exact Nat.zero_le _
  · rw [hpos]; exact countsBounded_posZero
  · rw [hpos]; simp [s, State.resetOf, startedPosition]
  · rw [hpos]; simp [s, State.resetOf, startedPosition]
  · rw [hpos]; simp [startedPosition, Timer.isRunning]
  · rw [hpos]; rfl

/-! ### The rest every command comes to -/

theorem atRest_serveFor (n : Nat) (s : State) : AtRest (serveFor n s) := by
  induction n generalizing s with
  | zero => exact atRest_settle s
  | succ n ih =>
    unfold serveFor
    simp only
    split
    · exact ih _
    · exact atRest_settle s

theorem atRest_serve (s : State) : AtRest (serve s) := atRest_serveFor _ _

/-- A change of the receiving side of the link leaves the part at rest. -/
theorem atRest_link {s : State} (h : AtRest s) (l : Link) (ht : l.transmitter = s.link.transmitter) (hs : l.slot = s.link.slot) :
    AtRest { s with link := l } := by
  obtain ⟨horder, hstarts, hsent⟩ := h
  exact ⟨horder, hstarts, fun hfree => ⟨hs.trans (hsent (ht.symm.trans hfree)).1, (hsent (ht.symm.trans hfree)).2⟩⟩

theorem atRest_modKey {s : State} (h : AtRest s) (p : Pos) (f : KeyUnit → KeyUnit) : AtRest (s.modKey p f) :=
  atRest_modPos h p _ (h.2.1 p)

theorem atRest_readerCharacter {s : State} (h : AtRest s) (p : Pos) (c : BitVec 5) : AtRest (readerCharacter p c s) := by
  unfold readerCharacter
  split
  · exact atRest_modPos h p _ (h.2.1 p)
  · exact h

theorem atRest_settleUndecided {s : State} (h : AtRest s) (p : Pos) : AtRest (settleUndecided p s) := by
  unfold settleUndecided
  split
  · exact h
  · exact atRest_settle _

theorem atRest_keyPressed {s : State} (h : AtRest s) (p : Pos) (code : Fin 24) : AtRest (keyPressed p code s) := by
  unfold keyPressed
  split
  · simp only
    split
    · exact h
    · unfold trackPress
      simp only
      split
      · exact atRest_settle _
      · exact atRest_modKey (atRest_settleUndecided h p) _ _
  · exact h

theorem atRest_beepGoesOut {s : State} (h : AtRest s) (p : Pos) : AtRest (beepGoesOut p s) := by
  unfold beepGoesOut
  split
  · exact h
  · exact atRest_modKey h _ _

theorem startDue_setPort (v : Position) (k : PortKind) (r : PortRecord) : startDue (v.setPort k r) = startDue v := by
  cases k <;> rfl

theorem atRest_modPort {s : State} (h : AtRest s) (p : Pos) (k : PortKind) (f : PortRecord → PortRecord) :
    AtRest (s.modPort p k f) :=
  atRest_modPos h p _ ((startDue_setPort _ _ _).trans (h.2.1 p))

theorem atRest_switchOnHead {s : State} (h : AtRest s) (now : Nat) : AtRest (switchOnHead now s) := by
  unfold switchOnHead
  split
  · exact h
  next i rest _ =>
    have hlist : AtRest { s with powerList := rest, lastSwitchOn := some now } := h.of_same rfl rfl rfl fun _ => rfl
    split
    · exact atRest_modPort hlist _ _ _
    · exact h

theorem atRest_byteArrives {s : State} (h : AtRest s) (b : Byte) : AtRest (byteArrives b s) := by
  unfold byteArrives
  split
  · split
    · exact atRest_link h _ rfl rfl
    · exact h
  · split
    · exact atRest_link h _ rfl rfl
    · exact atRest_serve _
  · unfold bodyByte
    simp only
    split
    · exact atRest_link h _ rfl rfl
    · exact atRest_serve _

theorem atRest_sendRequest {s : State} (h : AtRest s) (f : Frame) : AtRest (sendRequest f s) := by
  unfold sendRequest
  split
  · exact atRest_serve _
  · exact List.foldlRecOn f.wire _ h fun _ hs b _ => atRest_byteArrives hs b

theorem atRest_transmitterDone {s : State} (h : AtRest s) : AtRest (transmitterDone s) := by
  unfold transmitterDone
  split
  · exact atRest_settle _
  · split
    · exact h
    · exact atRest_serve _

theorem atRest_frameGap {s : State} (h : AtRest s) : AtRest (frameGap s) := by
  unfold frameGap
  split
  · exact atRest_serve _
  · exact h

/-- Most commands end by settling; the others start nothing. -/
theorem atRest_effect {s : State} (h : AtRest s) (c : Instr) : AtRest (effect c s) := by
  cases c with
  | receiveByte b => exact atRest_byteArrives h b
  | frameGapTimeout => exact atRest_frameGap h
  | transmitDone => exact atRest_transmitterDone h
  | portSwitchOn now => exact atRest_switchOnHead h now
  | readerCharacterByte p x => exact atRest_readerCharacter h p x
  | readerFaultByte p b =>
    unfold effect
    dsimp only
    split
    · exact atRest_settle _
    · exact atRest_settle _
    · exact atRest_readerCharacter h p _
  | keyPress p code => exact atRest_keyPressed h p code
  | keypadLineError p b =>
    unfold effect
    dsimp only
    split
    · exact atRest_settle _
    · exact atRest_keyPressed h p _
    · exact atRest_settle _
    · exact atRest_settle _
    · exact atRest_settle _
  | beepSent p => exact atRest_beepGoesOut h p
  | identify | post | cancel | resume | query | powerOn | powerOff | set | get | noticeRead | noticeClear | noticeControl
  | counters | screenLoad | screenDrop | screenList | unlock | lock | storeEnable | storeWrite | storeRead | storeLock
  | storeStatus | restart | unknownKind => exact atRest_sendRequest h _
  | _ => exact atRest_settle _

/-- Settles O56. -/
theorem atRestKept : Obligations.AtRestKept := by
  intro s t hs h
  unfold step at h
  split at h
  · cases h
    exact hs
  next c rest _ =>
    rw [eq_effect_of_exec h]
    exact atRest_effect (s := { s with pending := rest }) hs c

end Sys2Proof.Machine
end

section
/-! SUPPORT and PROOF for O60. What an event at one position can reach, and what becomes due after it. -/

namespace Sys2Proof.Machine

/-- `t` differs from `s` at most in the position `p`, in the report queue and the order of waiting reports, in the notices, the
counters and the pool, in the latch supervisor and in what the link sends; and nothing is due in `t` but at `p`. -/
structure Confined (p : Pos) (s t : State) : Prop where
  pos : ∀ q, q ≠ p → t.pos q = s.pos q
  settings : t.settings = s.settings
  screening : t.screening = s.screening
  powerList : t.powerList = s.powerList
  lastSwitchOn : t.lastSwitchOn = s.lastSwitchOn
  variant : t.variant = s.variant
  pending : t.pending = s.pending
  buffer : t.link.buffer = s.link.buffer
  rx : t.link.rx = s.link.rx
  partialFrame : t.link.partialFrame = s.link.partialFrame
  noStart : ∀ q, q ≠ p → startDue (s.pos q) = false
  latchWait : ∀ q ∈ t.latchWait, q = p
  /-- Either only this position and the notice unit wait for the report queue, or it is full and a frame is being sent. -/
  order : (∀ x ∈ t.waitOrder, x = .notices ∨ x = .position p) ∨ (32 ≤ t.queue.length ∧ t.link.transmitter ≠ none)

/-- The position is the one of the event. -/
def Here (p q : Pos) : Prop := q = p

theorem here (p : Pos) : Here p p := rfl

variable {p : Pos} {s t u : State}

theorem Confined.of_atRest (h : AtRest s) (hw : ∀ q ∈ s.latchWait, q = p) : Confined p s s := by
  obtain ⟨horder, hstarts, hsent⟩ := h
  refine ⟨fun _ _ => rfl, rfl, rfl, rfl, rfl, rfl, rfl, rfl, rfl, rfl, fun q _ => hstarts q, hw, ?_⟩
  by_cases hroom : s.queue.length < 32
  · rw [horder hroom]
    exact .inl fun _ hx => absurd hx List.not_mem_nil
  · refine .inr ⟨Nat.le_of_not_lt hroom, fun hfree => hroom ?_⟩
    rw [(hsent hfree).2]
    decide

/-- The work of the position itself, where it leaves the power-up list alone. -/
theorem Confined.within (h : Confined p s t) (hwork : Within (Here p) t u) (hlist : u.powerList = t.powerList) :
    Confined p s u := by
  obtain ⟨htouch, hwait, horder⟩ : Touches (Here p) t u ∧ _ := hwork h.latchWait
  refine ⟨fun q hq => (htouch.pos q hq).trans (h.pos q hq), htouch.settings.trans h.settings,
    htouch.screening.trans h.screening, hlist.trans h.powerList, htouch.lastSwitchOn.trans h.lastSwitchOn,
    htouch.variant.trans h.variant, htouch.pending.trans h.pending, by rw [htouch.link]; exact h.buffer,
    by rw [htouch.link]; exact h.rx, by rw [htouch.link]; exact h.partialFrame, h.noStart, hwait, ?_⟩
  refine h.order.imp (fun hall x hx => ?_) fun hfull => by rw [htouch.queue, htouch.link]; exact hfull
  rcases horder x hx with hold | hnotice | ⟨q, rfl, hq⟩
  · exact hall x hold
  · exact .inl hnotice
  · exact .inr hq

theorem Confined.modPos (h : Confined p s t) (f : Position → Position) : Confined p s (t.modPos p f) :=
  h.within (within_modPos (here _) _ _) rfl

/-- Reports go into the queue or leave it while only this position and the notice unit wait for it. -/
theorem Confined.reports (h : Confined p s t) (q : List Report) (nr : NoticeReport) {wo : List Producer}
    (hwo : ∀ x ∈ wo, x = .notices ∨ x = .position p) :
    Confined p s { t with queue := q, noticeReport := nr, waitOrder := wo } :=
  { h with order := .inl hwo }

theorem Confined.sends (h : Confined p s t) (f g : Option Frame) (hwo : ∀ x ∈ t.waitOrder, x = .notices ∨ x = .position p) :
    Confined p s { t with link := { t.link with slot := f, transmitter := g } } :=
  { h with order := .inl hwo }

theorem Confined.admitHead (h : Confined p s t) (hwo : ∀ x ∈ t.waitOrder, x = .notices ∨ x = .position p) :
    Confined p s (admitHead t) := by
  unfold Machine.admitHead
  split
  · exact h
  next order horder => exact h.reports _ .queued fun x hx => hwo x (horder ▸ List.mem_cons_of_mem _ hx)
  next q order horder =>
    rw [horder] at hwo
    obtain rfl : q = p := by simpa using hwo _ List.mem_cons_self
    have horderIn : ∀ x ∈ order, x = .notices ∨ x = .position q := fun x hx => hwo x (List.mem_cons_of_mem _ hx)
    unfold admitPosition
    split
    · exact h.reports t.queue t.noticeReport horderIn
    next r more _ =>
      have hqueued := (h.reports (t.queue ++ [r.filled (t.pos q).entry]) t.noticeReport
        (wo := if more.isEmpty then order else .position q :: order) (by split <;> assumption)).modPos
        fun v => { v with waiting := more }
      simp only
      split
      · exact hqueued.within (within_freeHead (here _) _) (moves_freeHead _ _).keeps_powerList
      · exact hqueued

theorem Confined.handReport (h : Confined p s t) (r : Report) (q : List Report)
    (hwo : ∀ x ∈ t.waitOrder, x = .notices ∨ x = .position p) : Confined p s (handReport r q t) := by
  unfold Machine.handReport
  split
  · have hnotice := h.reports q .absent hwo
    simp only
    split
    · exact hnotice
    · exact hnotice.sends _ _ hwo
  · exact (h.reports q t.noticeReport hwo).sends _ _ hwo

theorem Confined.nextDue (h : Confined p s t) (hdue : nextDue t = some u) : Confined p s u := by
  unfold Machine.nextDue at hdue
  split at hdue
  next hadmit =>
    cases hdue
    exact h.admitHead (h.order.resolve_right fun hfull => absurd hadmit.2 (Nat.not_lt.mpr hfull.1))
  next =>
    split at hdue
    next q hq =>
      cases hdue
      have hstart : startDue (t.pos q) = true := by simpa using List.find?_some hq
      have hqp : q = p := by
        by_contra hne
        rw [h.pos q hne, h.noStart q hne] at hstart
        cases hstart
      subst hqp
      exact h.within (within_startHead (here _) _) (moves_startHead _ _).keeps_powerList
    next =>
      unfold arbiter at hdue
      split at hdue
      · cases hdue
      next hfree =>
        have hwo := h.order.resolve_right fun hfull => hfull.2 hfree
        split at hdue
        · cases hdue
          exact h.sends _ _ hwo
        · split at hdue
          · cases hdue
          · cases hdue
            exact h.handReport _ _ hwo

theorem Confined.settle (h : Confined p s t) : Confined p s (settle t) :=
  settle_keeps (Confined p s) (fun _ _ hs hdue => hs.nextDue hdue) t h

/-- The event's own work at the position, and then what becomes due. -/
theorem Confined.event (h : Confined p s t) (hwork : Within (Here p) t u) (hmoves : Moves false t u) :
    Confined p s (Machine.settle u) :=
  (h.within hwork hmoves.keeps_powerList).settle

theorem Confined.keyPressed (h : Confined p s t) (code : Fin 24) : Confined p s (keyPressed p code t) := by
  have hundecided : Confined p s (settleUndecided p t) := by
    unfold settleUndecided
    split
    · exact h
    · exact (h.modPos _).event (within_routeSymbol (here _) _ _ _) (moves_routeSymbol _ _ _ _)
  unfold Machine.keyPressed
  split
  · simp only
    split
    · exact h
    · unfold trackPress
      simp only
      split
      · exact hundecided.event (within_routeSymbol (here _) _ _ _) (moves_routeSymbol _ _ _ _)
      · exact hundecided.modPos _
  · exact h

theorem Confined.effect {c : Instr} (h : Confined p s t) (hline : c.line = some p) : Confined p s (effect c t) := by
  cases c with
  | readerCharacterByte q x =>
    cases hline
    exact h.within (within_readerCharacter (here _) x t) (moves_readerCharacter p x t).keeps_powerList
  | readerEndByte q => cases hline; exact h.event (within_readerEnd (here _) t) (moves_readerEnd p t)
  | readerFaultByte q b =>
    cases hline
    unfold Machine.effect
    dsimp only
    split
    · exact h.event (within_readerFault (here _) t) (moves_readerFault p t)
    · exact h.event (within_readerEnd (here _) t) (moves_readerEnd p t)
    next x _ => exact h.within (within_readerCharacter (here _) x t) (moves_readerCharacter p x t).keeps_powerList
  | passGapTimeout q => cases hline; exact h.event (within_passGap (here _) t) (moves_passGap p t)
  | waitCardTimeout q => cases hline; exact h.event (within_waitCardRunsOut (here _) t) (moves_waitCardRunsOut p t)
  | keyPress q code => cases hline; exact h.keyPressed code
  | keyRelease q code => cases hline; exact h.event (within_keyReleased (here _) code t) (moves_keyReleased p code t)
  | longPressTimeout q => cases hline; exact h.event (within_longPressRunsOut (here _) t) (moves_longPressRunsOut p t)
  | announce q flags early => cases hline; exact h.event (within_announced (here _) _ _ early t) (moves_announced p _ _ early t)
  | acknowledge q => cases hline; exact h.event (within_acknowledged (here _) t) (moves_acknowledged p t)
  | keypadLineError q b =>
    cases hline
    unfold Machine.effect
    dsimp only
    split
    · exact h.event (within_lineError (here _) t) (moves_lineError p t)
    · exact h.keyPressed _
    · exact h.event (within_keyReleased (here _) _ t) (moves_keyReleased p _ t)
    · exact h.event (within_announced (here _) _ _ _ t) (moves_announced p _ _ _ t)
    · exact h.event (within_acknowledged (here _) t) (moves_acknowledged p t)
  | acknowledgeTimeout q => cases hline; exact h.event (within_ackRunsOut (here _) t) (moves_ackRunsOut p t)
  | beepSent q => cases hline; exact h.within (within_beepGoesOut (here _) t) (moves_beepGoesOut p t).keeps_powerList
  | firstKeyTimeout q => cases hline; exact h.event (within_sessionTimer (here _) _ t) (moves_sessionTimer p _ t)
  | interKeyTimeout q => cases hline; exact h.event (within_sessionTimer (here _) _ t) (moves_sessionTimer p _ t)
  | ceilingTimeout q => cases hline; exact h.event (within_sessionTimer (here _) _ t) (moves_sessionTimer p _ t)
  | removalTimeout q => cases hline; exact h.event (within_removalRunsOut (here _) t) (moves_removalRunsOut p t)
  | pauseTimerExpiry q => cases hline; exact h.event (within_pauseRunsOut (here _) t) (moves_pauseRunsOut p t)
  | cardPresentRises q => cases hline; exact h.event (within_cardRises (here _) t) (moves_cardRises p t)
  | cardPresentFalls q => cases hline; exact h.event (within_cardFalls (here _) t) (moves_cardFalls p t)
  | cardLeftTimeout q => cases hline; exact h.event (within_cardLeftRunsOut (here _) t) (moves_cardLeftRunsOut p t)
  | portCurrentChange q k mA => cases hline; exact h.event (within_currentChanges (here _) k mA t) (moves_currentChanges p k mA t)
  | inrushAllowanceEnd q k => cases hline; exact h.event (within_inrushEnds (here _) k t) (moves_inrushEnds p k t)
  | readinessTimeout q k => cases hline; exact h.event (within_readinessRunsOut (here _) k t) (moves_readinessRunsOut p k t)
  | announceTimeout q => cases hline; exact h.event (within_announceRunsOut (here _) t) (moves_announceRunsOut p t)
  | overTimeTrip q k => cases hline; exact h.event (within_overTrips (here _) k t) (moves_overTrips p k t)
  | underTimeExpiry q k => cases hline; exact h.event (within_underRunsOut (here _) k t) (moves_underRunsOut p k t)
  | returnTimeExpiry q k => cases hline; exact h.event (within_returnRunsOut (here _) k t) (moves_returnRunsOut p k t)
  | latchCeilingTimeout q => cases hline; exact h.event (within_ceilingRunsOut (here _) t) (moves_ceilingRunsOut p t)
  | reEnergizeTimeout q => cases hline; exact h.event (within_reEnergizeRunsOut (here _) t) (moves_reEnergizeRunsOut p t)
  | _ => cases hline

/-- Settles O60: at a part at rest, an event and all that becomes due after it are confined to its position. -/
theorem lineEventStaysAtItsPosition : Obligations.LineEventStaysAtItsPosition := by
  intro s t c p hline hrest hwait hexec
  rw [eq_effect_of_exec hexec]
  have h := (Confined.of_atRest hrest hwait).effect hline
  exact ⟨h.pos, h.settings, h.screening, h.powerList, h.lastSwitchOn, h.variant, h.pending, h.buffer, h.rx, h.partialFrame⟩

end Sys2Proof.Machine
end

section
/-! SUPPORT and PROOF for O5, O6, O7 and O8. Requests that are refused before or by their own rule, and requests that only read
the part. -/

namespace Sys2Proof.Machine

/-! ### Requests that are not taken (R160) -/

/-- A frame of an unknown KIND (R160). -/
theorem sendRequest_unknown {s : State} (h : LinkFree s) {k : Byte} (hk : isRequestKind k = false) (pos tag : Byte)
    {payload : List Byte} (hlen : payload.length ≤ 61) :
    sendRequest { kind := k, pos := pos, tag := tag, payload := payload } s =
      withReply { kind := 0xFF, pos := pos, tag := tag, payload := [1, k] } (countedRefusal (counted s)) := by
  have hnone := requestKind_unknown k hk
  have hanswer : answer { kind := k, pos := pos, tag := tag, payload := payload } (counted s) =
      { state := counted s, code := .badKind, fields := [k] } := by simp [answer, hnone]
  have hsent := sendRequest_refused h _ hlen (by decide) hanswer (counted_rest h.rest) rfl
  rwa [show replyKind k = 0xFF by simp [replyKind, hnone]] at hsent

/-- A request while a start is in progress (R160). -/
theorem sendRequest_busy {s : State} (h : LinkFree s) (hstart : s.link.startComplete = false) {k : RequestKind}
    (hk : k ≠ .identify) (pos tag : Byte) {payload : List Byte} (hlen : payload.length ≤ 61) :
    sendRequest (request k pos tag payload) s = withReply (refusalReply k pos tag .busy) (countedRefusal (counted s)) := by
  refine sendRequest_refuse k pos tag payload h hlen (by decide) ?_
  have hstart' : (counted s).link.startComplete = false := hstart
  simp [answer, request, requestKind_code, hstart', hk]

/-- Settles O5. -/
theorem untakenRequestsAnswered : Obligations.UntakenRequestsAnswered := by
  intro s pos tag payload hfree hlen
  refine ⟨fun k hk => ?_, fun c k hstart hframe hk => ?_⟩
  · rw [exec_request (f := { kind := k, pos := pos, tag := tag, payload := payload }) rfl,
      sendRequest_unknown hfree hk pos tag hlen]
  · rw [exec_request hframe, sendRequest_busy hfree hstart hk pos tag hlen]

/-! ### A POS byte that does not suit the scope (R161) -/

theorem scope_position_iff (k : RequestKind) :
    k.scope = .position ↔ k ∈ [RequestKind.post, .cancel, .resume, .query] := by
  cases k <;> decide

theorem scope_device_iff (k : RequestKind) :
    k.scope = .device ↔ k ∉ [RequestKind.post, .cancel, .resume, .query, .set, .get, .counters] := by
  cases k <;> decide

theorem target_bad (v : Variant) {k : RequestKind} {pos : Byte}
    (h : (8 ≤ pos.toNat ∧ pos ≠ 0xFF) ∨ (pos = 0xFF ∧ k ∈ [RequestKind.post, .cancel, .resume, .query]) ∨
      (pos.toNat < 8 ∧ k ∉ [RequestKind.post, .cancel, .resume, .query, .set, .get, .counters])) :
    target v k.scope pos = .bad := by
  rcases h with ⟨hlow, hFF⟩ | ⟨rfl, hk⟩ | ⟨hlow, hk⟩
  · rw [target, if_neg (Nat.not_lt.mpr hlow), if_neg hFF]
  · rw [(scope_position_iff k).mpr hk]
    rfl
  · rw [(scope_device_iff k).mpr hk, target, if_pos hlow, if_pos rfl]

/-! ### A request refused by its own rule -/

section ownRule

variable {s : State} {k : RequestKind} {tag : Byte} {payload : List Byte} {code : ResultCode}

/-- A request at a position that its rule refuses. -/
theorem sendRequest_position_refused (hready : LinkReady s) (hlen : payload.length ≤ 61) {pos : Byte} (hpos : pos.toNat < 8)
    (hk : k ∈ [RequestKind.post, .cancel, .resume, .query, .set, .get, .counters]) (hcode : code ≠ .ok)
    (hrule : ownRule k (.position (positionOf s.variant pos)) payload (counted s) = refuse (counted s) code) :
    sendRequest (request k pos tag payload) s = withReply (refusalReply k pos tag code) (countedRefusal (counted s)) :=
  sendRequest_refuse k pos tag payload hready.toLinkFree hlen hcode ((answer_position k tag payload hready hpos hk).trans hrule)

/-- A request at FF that its rule refuses. -/
theorem sendRequest_FF_refused (hready : LinkReady s) (hlen : payload.length ≤ 61)
    (hk : k ∉ [RequestKind.post, .cancel, .resume, .query]) (hcode : code ≠ .ok)
    (hrule : ownRule k .device payload (counted s) = refuse (counted s) code) :
    sendRequest (request k 0xFF tag payload) s = withReply (refusalReply k 0xFF tag code) (countedRefusal (counted s)) :=
  sendRequest_refuse k 0xFF tag payload hready.toLinkFree hlen hcode ((answer_device k tag payload hready hk).trans hrule)

/-- SET and GET, at whatever POS byte suits them, come to their rule. -/
theorem sendRequest_either_refused (hready : LinkReady s) (hlen : payload.length ≤ 61) {pos : Byte}
    (hpos : pos.toNat < 8 ∨ pos = 0xFF) (hk : k = .set ∨ k = .get) (hcode : code ≠ .ok)
    (hrule : ∀ t, (t = .device ∧ pos = 0xFF) ∨ (t = .position (positionOf s.variant pos) ∧ pos.toNat < 8) →
      ownRule k t payload (counted s) = refuse (counted s) code) :
    sendRequest (request k pos tag payload) s = withReply (refusalReply k pos tag code) (countedRefusal (counted s)) := by
  rcases hpos with hpos | rfl
  · exact sendRequest_position_refused hready hlen hpos (by rcases hk with rfl | rfl <;> decide) hcode
      (hrule _ (.inr ⟨rfl, hpos⟩))
  · exact sendRequest_FF_refused hready hlen (by rcases hk with rfl | rfl <;> decide) hcode (hrule _ (.inl ⟨rfl, rfl⟩))

end ownRule

/-! ### Payloads of a form the request does not have -/

theorem ownRule_noPayload_position {k : RequestKind} (hk : k ∈ [RequestKind.cancel, .resume, .query]) (p : Pos)
    {payload : List Byte} (h : payload ≠ []) (s : State) : ownRule k (.position p) payload s = refuse s .badArg := by
  rcases List.mem_cons.1 hk with rfl | hk
  · exact if_pos h
  rcases List.mem_cons.1 hk with rfl | hk
  · exact if_pos h
  obtain rfl := List.mem_singleton.1 hk
  exact if_pos h

theorem ownRule_noPayload_device {k : RequestKind}
    (hk : k ∈ [RequestKind.identify, .noticeRead, .lock, .storeEnable, .storeStatus, .restart]) {payload : List Byte}
    (h : payload ≠ []) (s : State) : ownRule k .device payload s = refuse s .badArg := by
  cases k <;> first | exact absurd hk (by decide) | exact if_pos h

theorem handleNoticeControl_form {payload : List Byte} (s : State) (h : payload.length ≠ 8) :
    handleNoticeControl payload s = refuse s .badArg := by
  unfold handleNoticeControl
  split
  · exact absurd rfl h
  · rfl

theorem passcodeOf_none {payload : List Byte} (h : payload.length ≠ 8 ∨ ∃ b ∈ payload, b.toNat < 0x30 ∨ 0x39 < b.toNat) :
    passcodeOf payload = none := by
  unfold passcodeOf
  split
  · rw [if_neg]
    rcases h with hlen | ⟨b, hb, hout⟩
    · exact absurd rfl hlen
    · intro hall
      have hdigit := List.all_eq_true.1 hall b hb
      simp only [isDigitByte, Bool.and_eq_true, decide_eq_true_eq] at hdigit
      omega
  · rfl

theorem handleUnlock_form {payload : List Byte} (s : State)
    (h : payload.length ≠ 8 ∨ ∃ b ∈ payload, b.toNat < 0x30 ∨ 0x39 < b.toNat) : handleUnlock payload s = refuse s .badArg := by
  unfold handleUnlock
  rw [passcodeOf_none h]

theorem powerKinds_none {kind : Byte} (h : 2 < kind.toNat) : powerKinds kind = none := by
  unfold powerKinds
  rw [if_neg, if_neg, if_neg] <;> rintro rfl <;> exact absurd h (by decide)

theorem handlePower_kind {mask kind action : Byte} (s : State) (h : 2 < kind.toNat) :
    handlePower [mask, kind, action] s = refuse s .badArg := by
  unfold handlePower
  simp only [powerKinds_none h]

theorem loadedEntry_none {payload : List Byte}
    (h : ∀ id action count dlo dhi segs, payload = id :: action :: count :: dlo :: dhi :: segs →
      15 < id.toNat ∨ 1 < action.toNat ∨ count.toNat < 1 ∨ 4 < count.toNat ∨ segs.length ≠ 2 * count.toNat) :
    loadedEntry payload = none := by
  unfold loadedEntry
  split
  next id action count dlo dhi segs =>
    have hbad := h id action count dlo dhi segs rfl
    split_ifs with hid hform
    · simp only [Bool.and_eq_true, decide_eq_true_eq] at hform
      omega
    · rfl
    · rfl
  next => rfl

theorem handleScreenLoad_form {payload : List Byte} {s : State} (hunlocked : s.settings.unlocked = true)
    (h : loadedEntry payload = none) : handleScreenLoad payload s = refuse s .badArg := by
  simp [handleScreenLoad, hunlocked, h]

theorem handleScreenLoad_locked (payload : List Byte) {s : State} (h : s.settings.unlocked = false) :
    handleScreenLoad payload s = refuse s .denied := by
  simp [handleScreenLoad, h]

/-! ### SET and GET of an item that does not suit -/

theorem handleSet_form {payload : List Byte} (t : Target) (s : State) (h : payload.length ≠ 4) :
    handleSet t payload s = refuse s .badArg := by
  unfold handleSet
  split
  · exact absurd rfl h
  · rfl

theorem handleGet_form {payload : List Byte} (t : Target) (s : State) (h : payload.length ≠ 2) :
    handleGet t payload s = refuse s .badArg := by
  unfold handleGet
  split
  · exact absurd rfl h
  · rfl

/-- The item number or the index is none of the item's (R175). -/
def ItemBad (item index : Byte) : Prop := (19 < item.toNat || !indexOk item.toNat index.toNat) = true

theorem itemBad_iff (item index : Byte) :
    ItemBad item index ↔ 19 < item.toNat ∨ if item.toNat = 15 then 47 < index.toNat else index ≠ 0 := by
  have hindex : index.toNat = 0 ↔ index = 0 := BitVec.toNat_inj (y := 0)
  unfold ItemBad indexOk
  by_cases h : item.toNat = 15 <;> simp [h, hindex]

theorem not_itemBad_iff (item index : Byte) :
    ¬ItemBad item index ↔ item.toNat ≤ 19 ∧ if item.toNat = 15 then index.toNat ≤ 47 else index = 0 := by
  rw [itemBad_iff]
  by_cases h : item.toNat = 15 <;> simp [h]

theorem itemScope_position_iff (n : Nat) : itemScope n = .position ↔ n ∈ [0, 1, 2, 10, 11] := by
  unfold itemScope
  split_ifs with h <;> simp [h]

theorem itemScope_storeOnly {n : Nat} (h : 16 ≤ n) : itemScope n = .storeOnly := by
  have hn : n ∉ [0, 1, 2, 10, 11] := by
    simp only [List.mem_cons, List.not_mem_nil, or_false, not_or]
    omega
  rw [itemScope, if_neg hn, if_pos h]

section item

variable {item index lo hi : Byte} {t : Target} (s : State)

theorem handleSet_item (h : ItemBad item index) : handleSet t [item, index, lo, hi] s = refuse s .badArg := if_pos h

theorem handleGet_item (h : ItemBad item index) : handleGet t [item, index] s = refuse s .badArg := if_pos h

theorem handleSet_scope (h : ¬ItemBad item index) (hscope : scopeSuits item.toNat t = false) :
    handleSet t [item, index, lo, hi] s = refuse s .badPos :=
  (if_neg h).trans (if_pos (by simp [hscope]))

theorem handleGet_scope (h : ¬ItemBad item index) (hscope : scopeSuits item.toNat t = false) :
    handleGet t [item, index] s = refuse s .badPos :=
  (if_neg h).trans (if_pos (by simp [hscope]))

theorem handleSet_storeOnly (h : ¬ItemBad item index) (hscope : scopeSuits item.toNat t = true)
    (hstore : itemScope item.toNat = .storeOnly) : handleSet t [item, index, lo, hi] s = refuse s .badArg :=
  (if_neg h).trans ((if_neg (by simp [hscope])).trans (if_pos hstore))

theorem handleGet_passcode (h : ¬ItemBad item index) (hscope : scopeSuits item.toNat t = true) (hitem : item.toNat = 19) :
    handleGet t [item, index] s = refuse s .badArg :=
  (if_neg h).trans ((if_neg (by simp [hscope])).trans (if_pos hitem))

end item

/-- A position item suits a position, every other item FF (R176, R177). -/
theorem scopeSuits_false {n : Nat} {pos : Byte} {v : Variant} {t : Target}
    (ht : (t = .device ∧ pos = 0xFF) ∨ (t = .position (positionOf v pos) ∧ pos.toNat < 8))
    (h : n ∈ [0, 1, 2, 10, 11] ↔ pos = 0xFF) : scopeSuits n t = false := by
  rcases ht with ⟨rfl, hFF⟩ | ⟨rfl, hpos⟩
  · exact decide_eq_false (not_not.mpr ((itemScope_position_iff n).mpr (h.mpr hFF)))
  · have hne : pos ≠ 0xFF := by rintro rfl; exact absurd hpos (by decide)
    exact decide_eq_false fun hscope => hne (h.mp ((itemScope_position_iff n).mp hscope))

theorem scopeSuits_position {n : Nat} (p : Pos) (h : n ∈ [0, 1, 2, 10, 11]) : scopeSuits n (.position p) = true :=
  decide_eq_true ((itemScope_position_iff n).mpr h)

theorem scopeSuits_device {n : Nat} (h : n ∉ [0, 1, 2, 10, 11]) : scopeSuits n .device = true :=
  decide_eq_true fun hscope => h ((itemScope_position_iff n).mp hscope)

theorem scopeSuits_storeOnly {n : Nat} (h : 16 ≤ n) : scopeSuits n .device = true := by
  simp [scopeSuits, itemScope_storeOnly h]

/-- Settles O6: the refusal of POS, then those of the payload kind by kind. -/
theorem badPosAndPayloadRefused : Obligations.BadPosAndPayloadRefused := by
  intro s c k pos tag payload hready hframe hlen refused
  rw [exec_request hframe]
  refine ⟨fun h => ?_, fun hpayload h => ?_, ?_, ?_, fun hpos => ⟨fun h => ?_, ?_⟩⟩
  · exact congrArg _ (sendRequest_badPos_of_target hready hlen (target_bad _ h))
  · rcases h with ⟨hk, hpos⟩ | ⟨hk, rfl⟩
    · exact congrArg _ (sendRequest_position_refused hready hlen hpos (List.mem_cons_of_mem _ (List.mem_append_left _ hk))
        (by decide) (ownRule_noPayload_position hk _ hpayload _))
    · exact congrArg _ (sendRequest_FF_refused hready hlen (by revert hk; cases k <;> decide) (by decide)
        (ownRule_noPayload_device hk hpayload _))
  · rintro rfl (⟨rfl, h⟩ | ⟨rfl, h⟩ | ⟨rfl, mask, kind, action, rfl, h⟩ | ⟨rfl, hunlocked, h⟩)
    · exact congrArg _ (sendRequest_FF_refused hready hlen (by decide) (by decide) (handleNoticeControl_form _ h))
    · exact congrArg _ (sendRequest_FF_refused hready hlen (by decide) (by decide) (handleUnlock_form _ h))
    · exact congrArg _ (sendRequest_FF_refused hready hlen (by decide) (by decide) (handlePower_kind _ h))
    · exact congrArg _ (sendRequest_FF_refused hready hlen (by decide) (by decide)
        (handleScreenLoad_form hunlocked (loadedEntry_none h)))
  · rintro rfl rfl hlocked
    exact congrArg _ (sendRequest_FF_refused hready hlen (by decide) (by decide) (handleScreenLoad_locked _ hlocked))
  · rcases h with ⟨rfl, h⟩ | ⟨rfl, h⟩
    · exact congrArg _ (sendRequest_either_refused hready hlen hpos (.inl rfl) (by decide) fun t _ => handleSet_form t _ h)
    · exact congrArg _ (sendRequest_either_refused hready hlen hpos (.inr rfl) (by decide) fun t _ => handleGet_form t _ h)
  · rintro item index rest rfl hkind n
    have hk : k = .set ∨ k = .get := hkind.imp And.left And.left
    refine ⟨fun h => ?_, fun hle hindex hscope => ?_, fun hn hindex hFF => ?_⟩ <;>
      refine congrArg _ (sendRequest_either_refused hready hlen hpos hk (by decide) fun t ht => ?_)
    · have hbad := (itemBad_iff item index).mpr h
      rcases hkind with ⟨rfl, hrest⟩ | ⟨rfl, rfl⟩
      · obtain ⟨lo, hi, rfl⟩ := List.length_eq_two.1 hrest
        exact handleSet_item _ hbad
      · exact handleGet_item _ hbad
    · have hgood := (not_itemBad_iff item index).mpr ⟨hle, hindex⟩
      have hsuits := scopeSuits_false ht hscope
      rcases hkind with ⟨rfl, hrest⟩ | ⟨rfl, rfl⟩
      · obtain ⟨lo, hi, rfl⟩ := List.length_eq_two.1 hrest
        exact handleSet_scope _ hgood hsuits
      · exact handleGet_scope _ hgood hsuits
    · have hn' : 16 ≤ n ∧ n ≤ 19 := by omega
      have hgood : ¬ItemBad item index := (not_itemBad_iff item index).mpr
        ⟨hn'.2, by rw [if_neg (show item.toNat ≠ 15 by omega)]; exact hindex⟩
      obtain rfl : t = .device := by
        rcases ht with ⟨rfl, -⟩ | ⟨-, hlow⟩
        · rfl
        · rw [hFF] at hlow
          exact absurd hlow (by decide)
      have hsuits : scopeSuits item.toNat .device = true := scopeSuits_storeOnly hn'.1
      rcases hkind with ⟨rfl, hrest⟩ | ⟨rfl, rfl⟩
      · obtain ⟨lo, hi, rfl⟩ := List.length_eq_two.1 hrest
        exact handleSet_storeOnly _ hgood hsuits (itemScope_storeOnly hn'.1)
      · exact handleGet_passcode _ hgood hsuits (hn.resolve_right fun h => by cases h.1)

/-! ### Requests that only read the part -/

/-- Settles O7: for each of the four requests the refusals in their order, then the fields. -/
theorem stateIsRead : Obligations.StateIsRead := by
  intro s pos tag payload hlen refused
  refine ⟨fun hfree => ?_, fun hready => ⟨?_, ?_, ?_⟩⟩
  · rw [exec_request (f := request .identify pos tag payload) rfl]
    congr 1
    by_cases hpos : pos = 0xFF
    · subst hpos
      have hanswer : answer (request .identify 0xFF tag payload) (counted s) = handleIdentify payload (counted s) :=
        answer_ownRule .identify 0xFF tag payload (.inr rfl)
          (by rw [target_device _ _ (show RequestKind.identify ∉ _ by decide)]; decide)
      rw [if_neg (not_not.mpr rfl)]
      split_ifs with hpayload
      · exact sendRequest_refuse _ _ _ _ hfree hlen (by decide) (hanswer.trans (if_pos hpayload))
      · exact sendRequest_answer _ _ _ _ hfree hlen (hanswer.trans (if_neg hpayload)) (counted_rest hfree.rest)
    · rw [if_pos hpos]
      refine sendRequest_refuse _ _ _ _ hfree hlen (by decide) ?_
      have htarget : target (counted s).variant .device pos = .bad := target_device_of_ne_FF _ hpos
      simp [answer, request, requestKind_code, RequestKind.scope, htarget]
  · rw [exec_request (f := request .noticeRead pos tag payload) rfl]
    congr 1
    split_ifs with hpos hpayload
    · exact sendRequest_device_badPos hready hlen rfl hpos
    · obtain rfl := not_not.mp hpos
      exact sendRequest_device_refused hready hlen rfl (by decide) (if_pos hpayload)
    · obtain rfl := not_not.mp hpos
      exact sendRequest_device_answered hready hlen rfl (counted_rest hready.rest) (if_neg hpayload)
  · rw [exec_request (f := request .storeStatus pos tag payload) rfl]
    congr 1
    split_ifs with hpos hpayload
    · exact sendRequest_device_badPos hready hlen rfl hpos
    · obtain rfl := not_not.mp hpos
      exact sendRequest_device_refused hready hlen rfl (by decide) (if_pos hpayload)
    · obtain rfl := not_not.mp hpos
      exact sendRequest_device_answered hready hlen rfl (counted_rest hready.rest) (if_neg hpayload)
  · rw [exec_request (f := request .query pos tag payload) rfl]
    congr 1
    split_ifs with hpos hpayload
    · exact sendRequest_badPos_of_target hready hlen (target_bad _ <| by
        by_cases hFF : pos = 0xFF
        · exact .inr (.inl ⟨hFF, by decide⟩)
        · exact .inl ⟨hpos, hFF⟩)
    · exact sendRequest_position_refused hready hlen (Nat.lt_of_not_le hpos) (by decide) (by decide) (if_pos hpayload)
    · have hanswer := (answer_position .query tag payload hready (Nat.lt_of_not_le hpos) (by decide)).trans (if_neg hpayload)
      refine (sendRequest_answer _ _ _ _ hready.toLinkFree hlen hanswer (counted_rest hready.rest)).trans ?_
      unfold queryFields
      rfl

/-- Settles O8: read protection, then the live value. -/
theorem getReadsItem : Obligations.GetReadsItem := by
  intro s pos tag item index hready hitem hindex n hpos
  rw [exec_request (f := request .get pos tag [item, index]) rfl]
  have hgood : ¬ItemBad item index := by
    have hle : item.toNat ≤ 19 := hitem.trans (by decide)
    simp [ItemBad, hindex, hle]
  obtain ⟨t, hsuits, hanswer, hvalue⟩ : ∃ t, scopeSuits n t = true ∧
      answer (request .get pos tag [item, index]) (counted s) = handleGet t [item, index] (counted s) ∧
      liveValue (counted s) t n index.toNat =
        if n ∈ [0, 1, 2, 10, 11] then (s.pos (positionOf s.variant pos)).items.read n
        else s.settings.live.read n index.toNat := by
    rcases hpos with ⟨hn, hlow⟩ | ⟨hn, rfl⟩
    · exact ⟨_, scopeSuits_position _ hn, answer_position .get tag _ hready hlow (by decide),
        (if_pos hn).symm⟩
    · exact ⟨_, scopeSuits_device hn, answer_device .get tag _ hready (by decide),
        (if_neg hn).symm⟩
  have hrule : handleGet t [item, index] (counted s) =
      if readProtected s.settings n then refuse (counted s) .denied
      else { state := counted s, code := .ok, fields := [item, index] ++ wordBytes (liveValue (counted s) t n index.toNat) } :=
    by
    have hn19 : item.toNat ≠ 19 := by omega
    have hsuits' : scopeSuits item.toNat t = true := hsuits
    exact (if_neg hgood).trans ((if_neg (by simp [hsuits'])).trans (if_neg hn19))
  simp only [readProtected_iff, hvalue] at hrule
  have hlen : [item, index].length ≤ Config.payloadLimit := show 2 ≤ Config.payloadLimit by decide
  by_cases hprotected : s.settings.live.readProtect = 1 ∧ s.settings.live.boundary.toNat ≤ n ∧ s.settings.unlocked = false
  · rw [if_pos hprotected] at hrule ⊢
    exact congrArg _ (sendRequest_refuse _ _ _ _ hready.toLinkFree hlen (by decide) (hanswer.trans hrule))
  · rw [if_neg hprotected] at hrule ⊢
    exact congrArg _ (sendRequest_answer _ _ _ _ hready.toLinkFree hlen (hanswer.trans hrule)
      (counted_rest hready.rest))

end Sys2Proof.Machine
end

section
/-! SUPPORT and PROOF for O18, O20, O21 and O22. UNLOCK and the requests that enable and begin a store write (R179,
R181 to R183): each rule with its payload read, then the checks in their order. -/

namespace Sys2Proof.Machine

/-! ### STORE ENABLE (R181) -/

theorem handleStoreEnable_nil (s : State) :
    handleStoreEnable [] s =
      if s.settings.storeLocked then refuse s .locked
      else if s.settings.job.isSome then refuse s .busy
      else if s.settings.unlocked = false then refuse s .denied
      else { state := { s with settings := { s.settings with writeEnable := true } }, code := .ok } := by
  simp [handleStoreEnable]

/-- Settles O20: the refusals in their order, then the latch. -/
theorem storeEnableSetsLatch : Obligations.StoreEnableSetsLatch := by
  intro s tag hready refusal
  rw [exec_request (f := request .storeEnable 0xFF tag []) rfl]
  have hrule : ownRule .storeEnable .device [] (counted s) = _ := handleStoreEnable_nil (counted s)
  change _ = if s.settings.storeLocked then refuse (counted s) .locked
    else if s.settings.job.isSome then refuse (counted s) .busy
    else if s.settings.unlocked = false then refuse (counted s) .denied
    else { state := { counted s with settings := { s.settings with writeEnable := true } }, code := .ok } at hrule
  split_ifs at hrule ⊢
  · exact congrArg _ (sendRequest_device_refused hready (Nat.zero_le _) rfl (by decide) hrule)
  · exact congrArg _ (sendRequest_device_refused hready (Nat.zero_le _) rfl (by decide) hrule)
  · exact congrArg _ (sendRequest_device_refused hready (Nat.zero_le _) rfl (by decide) hrule)
  · exact congrArg _ (sendRequest_device_answered hready (Nat.zero_le _) rfl (counted_rest hready.rest) hrule)

/-! ### A store write begins (R182, R183) -/

/-- The beginning of a store write, after the checks of its payload. -/
theorem sendRequest_begins {s : State} {k : RequestKind} {tag : Byte} {payload fields : List Byte} {j : StoreJob}
    (hready : LinkReady s) (hk : k.scope = .device) (hlen : payload.length ≤ 61)
    (hrule : ownRule k .device payload (counted s) = beginJob j fields (counted s)) :
    sendRequest (request k 0xFF tag payload) s =
      let refusal (c : ResultCode) := withReply (refusalReply k 0xFF tag c) (countedRefusal (counted s))
      if s.settings.storeLocked then refusal .locked
      else if s.settings.job.isSome then refusal .busy
      else if s.settings.unlocked = false ∨ s.settings.writeEnable = false then refusal .denied
      else
        withReply (okReply k 0xFF tag fields)
          { counted s with
            settings := { s.settings with
              writeEnable := false
              job := some j
              store := if j = .lockFlag then s.settings.store else { s.settings.store with checkGood := false } } } := by
  have hbegin : beginJob j fields (counted s) =
      if s.settings.storeLocked then refuse (counted s) .locked
      else if s.settings.job.isSome then refuse (counted s) .busy
      else if s.settings.unlocked = false ∨ s.settings.writeEnable = false then refuse (counted s) .denied
      else
        { state :=
            { counted s with
              settings := { s.settings with
                writeEnable := false
                job := some j
                store := if j = .lockFlag then s.settings.store else { s.settings.store with checkGood := false } } }
          code := .ok
          fields := fields } := by
    simp only [beginJob, Bool.or_eq_true, Bool.not_eq_true']
    rfl
  rw [hbegin] at hrule
  dsimp only
  split_ifs at hrule ⊢ with hlocked hjob hclosed
  · exact sendRequest_device_refused hready hlen hk (by decide) hrule
  · exact sendRequest_device_refused hready hlen hk (by decide) hrule
  · exact sendRequest_device_refused hready hlen hk (by decide) hrule
  all_goals exact sendRequest_device_answered hready hlen hk (counted_rest hready.rest) hrule

/-- A payload refused by STORE WRITE or STORE LOCK clears the write-enable latch (R181). -/
theorem sendRequest_clearing {s : State} {k : RequestKind} {tag : Byte} {payload : List Byte} (hready : LinkReady s)
    (hk : k.scope = .device) (hlen : payload.length ≤ 61)
    (hrule : ownRule k .device payload (counted s) = refuseClearing (counted s)) :
    sendRequest (request k 0xFF tag payload) s =
      withReply (refusalReply k 0xFF tag .badArg)
        (countedRefusal { counted s with settings := { s.settings with writeEnable := false } }) :=
  refusedWith _ _ _ _ hready.toLinkFree hlen (by decide) ((answer_device_FF hready hk).trans hrule) (counted_rest hready.rest)
    rfl

theorem handleStoreWrite_item {item index lo hi : Byte} (s : State) (hitem : item.toNat ≠ 19) :
    handleStoreWrite [item, index, lo, hi] s =
      if 18 < item.toNat ∨ indexOk item.toNat index.toNat = false ∨ inItemSet item.toNat (wordOf lo hi) = false then
        refuseClearing s
      else
        beginJob (.item item.toNat index.toNat (clampItem item.toNat (wordOf lo hi)))
          ([item, index] ++ wordBytes (clampItem item.toNat (wordOf lo hi)) ++
            [flagByte (clampItem item.toNat (wordOf lo hi) != wordOf lo hi)]) s := by
  have hle : 18 < item.toNat ↔ 19 < item.toNat := by omega
  simp [handleStoreWrite, hitem, hle, or_assoc]

/-- Settles O21: the checks of the payload, then the beginning. -/
theorem storeWriteBeginsItem : Obligations.StoreWriteBeginsItem := by
  intro s tag item index lo hi hready hitem n w v refusal
  rw [exec_request (f := request .storeWrite 0xFF tag [item, index, lo, hi]) rfl]
  have hlen : [item, index, lo, hi].length ≤ 61 := show 4 ≤ 61 by decide
  have hrule := handleStoreWrite_item (index := index) (lo := lo) (hi := hi) (counted s) hitem
  by_cases hbad : 18 < n ∨ indexOk n index.toNat = false ∨ inItemSet n w = false
  · rw [if_pos hbad] at hrule ⊢
    rw [sendRequest_clearing (k := .storeWrite) hready rfl hlen hrule]
  · rw [if_neg hbad] at hrule ⊢
    rw [sendRequest_begins (k := .storeWrite) hready rfl hlen hrule]
    simp only [reduceCtorEq, if_false]
    split_ifs <;> rfl

/-! ### The passcode and the lock -/

theorem handleStoreWrite_passcode {d : Vector Byte 8} (s : State) (h : ∀ b ∈ d.toList, 0x30 ≤ b.toNat ∧ b.toNat ≤ 0x39) :
    handleStoreWrite (19 :: 0 :: d.toList) s = beginJob (.passcode d) [19, 0] s := by
  simp [handleStoreWrite, passcode_digits d h]

/-- A payload that names the passcode with another index or no passcode, or that is no item, index and value. -/
theorem handleStoreWrite_form {payload : List Byte} (s : State)
    (hpasscode : ∀ index value, payload = 19 :: index :: value →
      index ≠ 0 ∨ value.length ≠ 8 ∨ ∃ b ∈ value, b.toNat < 0x30 ∨ 0x39 < b.toNat)
    (hitem : payload.head? ≠ some 19 → payload.length ≠ 4) : handleStoreWrite payload s = refuseClearing s := by
  match payload with
  | [] => rfl
  | [_] => rfl
  | item :: index :: value =>
    by_cases hn : item = 19
    · subst hn
      rcases hpasscode index value rfl with hindex | hvalue
      · cases hcode : passcodeOf value with
        | none => simp [handleStoreWrite, hcode]
        | some code => simpa [handleStoreWrite, hcode] using fun hzero => absurd hzero hindex
      · simp [handleStoreWrite, passcodeOf_none hvalue]
    · have hn' : item.toNat ≠ 19 := fun e => hn (BitVec.eq_of_toNat_eq e)
      have hlen : value.length ≠ 2 := fun e => hitem (by simpa using hn) (by simp [e])
      match value with
      | [] | [_] | _ :: _ :: _ :: _ => simp [handleStoreWrite, hn']
      | [_, _] => exact absurd rfl hlen

/-- Settles O22: the two beginnings, then the two refusals that clear the latch. -/
theorem passcodeAndLockBegin : Obligations.PasscodeAndLockBegin := by
  intro s tag d payload hready hdigits hlen g refusal cleared begins
  refine ⟨?_, ?_, fun hpasscode hitem => ?_, fun hpayload => ?_⟩
  · have hd : (19 :: 0 :: d.toList).length ≤ 61 := by simp
    rw [exec_request (f := request .storeWrite 0xFF tag (19 :: 0 :: d.toList)) rfl,
      sendRequest_begins (k := .storeWrite) hready rfl hd (handleStoreWrite_passcode _ hdigits)]
    rfl
  · rw [exec_request (f := request .storeLock 0xFF tag []) rfl,
      sendRequest_begins (k := .storeLock) (j := .lockFlag) (fields := []) hready rfl (Nat.zero_le _) rfl]
    rfl
  · rw [exec_request (f := request .storeWrite 0xFF tag payload) rfl,
      sendRequest_clearing (k := .storeWrite) hready rfl hlen (handleStoreWrite_form _ hpasscode hitem)]
  · rw [exec_request (f := request .storeLock 0xFF tag payload) rfl,
      sendRequest_clearing (k := .storeLock) hready rfl hlen (if_pos hpayload)]

/-! ### UNLOCK (R179) -/

theorem handleUnlock_passcode {d : Vector Byte 8} (s : State) (h : ∀ b ∈ d.toList, 0x30 ≤ b.toNat ∧ b.toNat ≤ 0x39) :
    handleUnlock d.toList s =
      if s.settings.lockout then refuse s .locked
      else if d = s.settings.passcode then
        { state := { s with settings := { s.settings with unlocked := true, failedCount := 0 } }, code := .ok }
      else { state := wrongPasscode s, code := .denied } := by
  rw [handleUnlock, passcode_digits d h]

/-- A request refused by a rule whose effect may leave something due. -/
theorem sendRequest_refused_settles {s t : State} {k : RequestKind} {pos tag : Byte} {payload : List Byte} {c : ResultCode}
    (hfree : LinkFree s) (hlen : payload.length ≤ 61) (hc : c ≠ .ok)
    (hanswer : answer (request k pos tag payload) (counted s) = { state := t, code := c })
    (hcount : t.deviceCounters = (counted s).deviceCounters) :
    sendRequest (request k pos tag payload) s =
      settle { countedRefusal t with link := { t.link with slot := some (refusalReply k pos tag c) } } := by
  have hlow : t.deviceCounters[DeviceCounter.requestsRefused.idx] < Config.counterHighAt - 1 := by
    rw [hcount]
    simpa [counted, DeviceCounter.idx] using hfree.refusedLow
  have hframe : replyFrame (request k pos tag payload) { state := t, code := c } = refusalReply k pos tag c := by
    simp [replyFrame, request, refusalReply, replyKind_code]
  rw [sendRequest_free hfree _ hlen, takeFrame, hanswer]
  simp only [if_neg hc, hframe]
  exact congrArg settle (countDevice_low _ _ hlow)

/-- A refusal whose rule raised a class: the reply goes before the NOTICE report (log 15). -/
theorem sendRequest_raises {s t : State} {k : RequestKind} {pos tag : Byte} {payload : List Byte} {code : ResultCode}
    {c : NoticeClass} {who : Option Pos} (hfree : LinkFree s) (hlen : payload.length ≤ 61) (hcode : code ≠ .ok)
    (hanswer : answer (request k pos tag payload) (counted s) = { state := raise c who t, code := code })
    (hrest : AtRest t) (hroom : t.queue.length < 32) (hcount : t.deviceCounters = (counted s).deviceCounters) :
    sendRequest (request k pos tag payload) s =
      let u := withReply (refusalReply k pos tag code) (countedRefusal { t with notices := raisedNotices c who t })
      if noticeAsked c who t then { u with queue := t.queue ++ [.notice], noticeReport := .queued } else u := by
  dsimp only
  have hraised : raise c who t = _ := raise_eq c who t
  split_ifs at hraised ⊢ with hasked
  · have habsent : t.noticeReport = .absent := by
      simp only [noticeAsked, Bool.and_eq_true, decide_eq_true_eq] at hasked
      exact hasked.2
    rw [sendRequest_refused_settles hfree hlen hcode hanswer, hraised]
    · have hnotices : AtRest (countedRefusal { t with notices := raisedNotices c who t }) := hrest
      refine Eq.trans ?_ (settle_slot_askNotice hnotices hroom habsent (refusalReply k pos tag code))
      simp [askNotice, countedRefusal, habsent]
    · rw [hraised]
      simp [askNotice, habsent, hcount]
  · rw [sendRequest_refused_settles hfree hlen hcode hanswer, hraised]
    · exact settle_slot (s := countedRefusal { t with notices := raisedNotices c who t }) hrest _
    · rw [hraised]
      exact hcount

/-- A wrong passcode below the attempt limit, or without one. -/
theorem wrongPasscode_below {s : State}
    (h : s.settings.live.unlockLimit = 0 ∨ min 255 (s.settings.failedCount + 1) < s.settings.live.unlockLimit.toNat) :
    wrongPasscode s = { s with settings := { s.settings with failedCount := min 255 (s.settings.failedCount + 1) } } := by
  rw [wrongPasscode, if_neg]
  rcases h with h | h
  · simp [h]
  · simp only [Bool.and_eq_true, decide_eq_true_eq, not_and, not_le]
    exact fun _ => h

theorem wrongPasscode_atLimit {s : State}
    (h : ¬(s.settings.live.unlockLimit = 0 ∨ min 255 (s.settings.failedCount + 1) < s.settings.live.unlockLimit.toNat)) :
    wrongPasscode s =
      raise .supervisorLockout none
        { s with settings := { s.settings with failedCount := min 255 (s.settings.failedCount + 1), lockout := true } } := by
  obtain ⟨hne, hle⟩ := not_or.1 h
  have hne' : s.settings.live.unlockLimit.toNat ≠ 0 := fun e => hne (BitVec.eq_of_toNat_eq e)
  rw [wrongPasscode, if_pos]
  simp only [Bool.and_eq_true, decide_eq_true_eq]
  exact ⟨hne', Nat.le_of_not_lt hle⟩

/-- Settles O18: the lockout, the match, and the mismatch below and at the limit. -/
theorem unlockComparesPasscode : Obligations.UnlockComparesPasscode := by
  intro s tag d hready hroom hdigits n g denied
  have hlen : d.toList.length ≤ 61 := by simp
  rw [exec_request (f := request .unlock 0xFF tag d.toList) rfl]
  have hrule : ownRule .unlock .device d.toList (counted s) = _ := handleUnlock_passcode (counted s) hdigits
  change _ = if s.settings.lockout then refuse (counted s) .locked
    else if d = s.settings.passcode then
      { state := { counted s with settings := { s.settings with unlocked := true, failedCount := 0 } }, code := .ok }
    else { state := wrongPasscode (counted s), code := .denied } at hrule
  by_cases hlockout : s.settings.lockout = true
  · rw [if_pos hlockout] at hrule ⊢
    exact congrArg _ (sendRequest_device_refused hready hlen rfl (by decide) hrule)
  rw [if_neg hlockout] at hrule ⊢
  by_cases hmatch : d = s.settings.passcode
  · rw [if_pos hmatch] at hrule ⊢
    exact congrArg _ (sendRequest_device_answered hready hlen rfl (counted_rest hready.rest) hrule)
  rw [if_neg hmatch] at hrule ⊢
  have hanswer := (answer_device_FF (tag := tag) hready rfl).trans hrule
  by_cases hbelow : s.settings.live.unlockLimit = 0 ∨ n < s.settings.live.unlockLimit.toNat
  · rw [wrongPasscode_below (s := counted s) hbelow] at hanswer
    rw [if_pos hbelow]
    exact congrArg _ (sendRequest_refused hready.toLinkFree _ hlen (by decide) hanswer (counted_rest hready.rest) rfl)
  · rw [wrongPasscode_atLimit (s := counted s) hbelow] at hanswer
    rw [if_neg hbelow, sendRequest_raises hready.toLinkFree hlen (by decide) hanswer (counted_rest hready.rest) hroom rfl]
    exact apply_ite _ _ _ _

end Sys2Proof.Machine
end

section
/-! SUPPORT and PROOF for O14 and O15. NOTICE CONTROL (R150) and SCREEN LOAD (R54, R55): the rule of each for a payload it
accepts. -/

namespace Sys2Proof.Machine

/-! ### SCREEN LOAD (R54, R55) -/

theorem toNat_byteOf {n : Nat} (h : n < 256) : (byteOf n).toNat = n := by
  simp [byteOf, Nat.mod_eq_of_lt h]

/-- The payload of a SCREEN LOAD that passes the checks of R54. -/
theorem loadedEntry_some {action dlo dhi : Byte} (i : Fin 16) {sent : List (Byte × Byte)} (haction : action.toNat ≤ 1)
    (hleast : 1 ≤ sent.length) (hmost : sent.length ≤ 4) :
    loadedEntry ([byteOf i.val, action, byteOf sent.length, dlo, dhi] ++ sent.flatMap fun g => [g.1, g.2]) =
      some (i, if action = 0 then .report else .hold, sent.map fun g => { skip := g.1.toNat, take := g.2.toNat },
        wordOf dlo dhi) := by
  have hid : (byteOf i.val).toNat = i.val := toNat_byteOf (by omega)
  have hcount : (byteOf sent.length).toNat = sent.length := toNat_byteOf (by omega)
  have hform : ((sent.flatMap fun g => [g.1, g.2]).length = 2 * (byteOf sent.length).toNat && 1 ≤ (byteOf sent.length).toNat &&
      (byteOf sent.length).toNat ≤ 4 && action.toNat ≤ 1) = true := by
    rw [len_of, hcount]
    simp [hleast, hmost, haction]
  have hlt : (byteOf i.val).toNat < 16 := by rw [hid]; exact i.isLt
  simp only [List.cons_append, List.nil_append, loadedEntry, dif_pos hlt, if_pos hform, segs_of]
  simp [hid]

theorem handleScreenLoad_entry {payload : List Byte} {s : State} {i : Fin 16} {a : ScreenAction} {sent : List ScreenSegment}
    {w : Word} (hunlocked : s.settings.unlocked = true) (h : loadedEntry payload = some (i, a, sent, w)) :
    handleScreenLoad payload s =
      { state := { s with
          screening := s.screening.set i (some { action := a, segments := sent.map clampSegment, digest := w }) }
        code := .ok
        fields := [flagByte s.screening[i].isSome, byteOf sent.length] ++ segmentBytes (sent.map clampSegment) ++
          [byteOf (markBits (sent.map fun g => clampSegment g != g)),
            byteOf (entryCount
              (s.screening.set i (some { action := a, segments := sent.map clampSegment, digest := w })))] } := by
  simp [handleScreenLoad, hunlocked, h]

/-- A segment is changed by the clamp where its skip or its take is outside its range (R54). -/
theorem clampSegment_bne (a b : Nat) :
    (clampSegment { skip := a, take := b } != { skip := a, take := b }) = decide (106 < a ∨ b < 1 ∨ 19 < b) := by
  have hclamp : clampSegment { skip := a, take := b } ≠ { skip := a, take := b } ↔ 106 < a ∨ b < 1 ∨ 19 < b := by
    simp only [clampSegment, clampNat, ne_eq, ScreenSegment.mk.injEq]
    omega
  rw [Bool.eq_iff_iff, bne_iff_ne, decide_eq_true_iff]
  exact hclamp

/-- Settles O15: the lock, then the entry of the payload put in its place. -/
theorem screenLoadPutsEntry : Obligations.ScreenLoadPutsEntry := by
  intro s tag action dlo dhi i sent hready haction hleast hmost payload kept table
  rw [exec_request (f := request .screenLoad 0xFF tag payload) rfl]
  have hlen : payload.length ≤ 61 := by
    simp only [payload, List.length_append, len_of, List.length_cons, List.length_nil]
    omega
  split_ifs with hopen
  · have hrule : ownRule .screenLoad .device payload (counted s) = _ :=
      handleScreenLoad_entry (s := counted s) hopen (loadedEntry_some i haction hleast hmost)
    refine congrArg _ ((sendRequest_device_answered hready hlen rfl (by exact counted_rest hready.rest) hrule).trans ?_)
    simp only [List.map_map, List.length_map, segmentBytes, Function.comp_def, clampSegment_bne]
    rfl
  · exact congrArg _ (sendRequest_device_refused hready hlen rfl (by decide)
      (handleScreenLoad_locked payload (s := counted s) (Bool.eq_false_iff.2 hopen)))

/-! ### NOTICE CONTROL (R150) -/

section control

variable {e0 e1 d0 d1 m0 m1 u0 u1 : Byte} (s : State)

/-- What is refused of a NOTICE CONTROL: an unknown class, contrary orders for one class, and the disabling of a class that
cannot be disabled. -/
def ControlBad (en dis mu un : Word) : Prop :=
  en.getLsbD 15 ∨ dis.getLsbD 15 ∨ mu.getLsbD 15 ∨ un.getLsbD 15 ∨ en &&& dis ≠ 0 ∨ mu &&& un ≠ 0 ∨
    dis.getLsbD 1 ∨ dis.getLsbD 4 ∨ dis.getLsbD 13 ∨ dis.getLsbD 14

theorem handleNoticeControl_bad (h : ControlBad (wordOf e0 e1) (wordOf d0 d1) (wordOf m0 m1) (wordOf u0 u1)) :
    handleNoticeControl [e0, e1, d0, d1, m0, m1, u0, u1] s = refuse s .badArg := by
  unfold handleNoticeControl
  simp only
  split_ifs with hclass hboth hnever
  · rfl
  · rfl
  · rfl
  · rw [neverDisabled_iff] at hnever
    simp only [namesNoClass, Bool.or_eq_true, decide_eq_true_eq] at hclass hboth
    unfold ControlBad at h
    tauto

theorem handleNoticeControl_good (h : ¬ControlBad (wordOf e0 e1) (wordOf d0 d1) (wordOf m0 m1) (wordOf u0 u1)) :
    handleNoticeControl [e0, e1, d0, d1, m0, m1, u0, u1] s =
      let t := controlNotices (wordOf e0 e1) (wordOf d0 d1) (wordOf m0 m1) (wordOf u0 u1) s
      { state := t, code := .ok
        fields := wordBytes (classSet t.notices ClassRecord.enabled) ++ wordBytes (classSet t.notices ClassRecord.muted) } := by
  unfold handleNoticeControl
  simp only
  unfold ControlBad at h
  rw [if_neg, if_neg, if_neg]
  · rw [neverDisabled_iff]
    tauto
  · simp only [Bool.or_eq_true, decide_eq_true_eq]
    tauto
  · simp only [namesNoClass, Bool.or_eq_true]
    tauto

end control

/-- The class records after a NOTICE CONTROL. -/
def controlledRecords (en dis mu un : Word) (ns : Vector ClassRecord 15) : Vector ClassRecord 15 :=
  mapClasses (fun i r => r.control (en.getLsbD i.val) (dis.getLsbD i.val) (mu.getLsbD i.val) (un.getLsbD i.val)) ns

/-- The unmuting of a pending class asks for a NOTICE report, whatever the other orders. -/
theorem controlNotices_eq (en dis mu un : Word) (s : State) :
    controlNotices en dis mu un s =
      if ∃ i : Fin 15, un.getLsbD i.val ∧ s.notices[i].pending then
        askNotice { s with notices := controlledRecords en dis mu un s.notices }
      else { s with notices := controlledRecords en dis mu un s.notices } := by
  have hpending : classSet (controlledRecords en dis mu un s.notices) ClassRecord.pending &&& un ≠ 0 ↔
      ∃ i : Fin 15, un.getLsbD i.val ∧ s.notices[i].pending := by
    rw [classSet_and_ne]
    simp [controlledRecords, mapClasses, ClassRecord.control]
  exact if_congr hpending rfl rfl

theorem askNotice_notices (s : State) : (askNotice s).notices = s.notices := by
  unfold askNotice
  split <;> rfl

theorem askNotice_held {s : State} (h : s.noticeReport ≠ .absent) : askNotice s = s := if_neg h

/-- Settles O14: the refusals, then the reply with the NOTICE report behind it where one is asked for. -/
theorem noticeControlChangesClasses : Obligations.NoticeControlChangesClasses := by
  intro s tag e0 e1 d0 d1 m0 m1 u0 u1 hready hroom en dis mu un ns t
  rw [exec_request (f := request .noticeControl 0xFF tag [e0, e1, d0, d1, m0, m1, u0, u1]) rfl]
  have hlen : [e0, e1, d0, d1, m0, m1, u0, u1].length ≤ 61 := show 8 ≤ 61 by decide
  by_cases hbad : ControlBad en dis mu un
  · refine Eq.trans ?_ (if_pos hbad).symm
    exact congrArg _ (sendRequest_device_refused hready hlen rfl (by decide) (handleNoticeControl_bad _ hbad))
  refine Eq.trans ?_ (if_neg hbad).symm
  have hrest : AtRest { counted s with notices := ns } := counted_rest hready.rest
  have hsettles {u : State} (hcontrol : controlNotices en dis mu un (counted s) = u) (hnotices : u.notices = ns) :=
    sendRequest_settles .noticeControl 0xFF tag [e0, e1, d0, d1, m0, m1, u0, u1] hready.toLinkFree hlen (t := u)
      (fields := wordBytes (classSet ns ClassRecord.enabled) ++ wordBytes (classSet ns ClassRecord.muted))
      ((answer_device_FF hready rfl).trans ((handleNoticeControl_good (counted s) hbad).trans (by
        simp only [show controlNotices (wordOf e0 e1) (wordOf d0 d1) (wordOf m0 m1) (wordOf u0 u1) (counted s) = u from hcontrol,
          hnotices])))
  have hcontrol := controlNotices_eq en dis mu un (counted s)
  by_cases hasked : ∃ i : Fin 15, un.getLsbD i.val ∧ s.notices[i].pending
  · replace hcontrol := hcontrol.trans (if_pos hasked)
    by_cases habsent : s.noticeReport = .absent
    · rw [if_pos ⟨hasked, habsent⟩, hsettles hcontrol (askNotice_notices _), link_askNotice]
      exact congrArg _ (settle_slot_askNotice hrest hroom habsent _)
    · rw [if_neg fun h => habsent h.2, hsettles (hcontrol.trans (askNotice_held habsent)) rfl]
      exact congrArg _ (settle_slot hrest _)
  · rw [if_neg fun h => hasked h.1, hsettles (hcontrol.trans (if_neg hasked)) rfl]
    exact congrArg _ (settle_slot hrest _)

end Sys2Proof.Machine
end

section
/-! SUPPORT and PROOF for O11 and O12. SET of an item that suits (R175, R176): what the rule does, the values it applies, and
what a new live value sets off. -/

namespace Sys2Proof.Machine

/-! ### Ranges and sets (R175) -/

theorem toNat_wordOfNat {n : Nat} (h : n < 65536) : (wordOfNat n).toNat = n := by
  simp [wordOfNat, Nat.mod_eq_of_lt h]

theorem clampItem_range {n lo hi : Nat} (h : itemRange n = some (lo, hi)) (hlo : lo < 65536) (hhi : hi < 65536) (w : Word) :
    (clampItem n w).toNat = clampNat lo hi w.toNat := by
  rw [clampItem, h]
  refine toNat_wordOfNat ?_
  simp only [clampNat]
  omega

theorem clampItem_free {n : Nat} (h : itemRange n = none) (w : Word) : clampItem n w = w := by
  rw [clampItem, h]

theorem inItemSet_flag {n : Nat} (h : n ∈ [0, 1, 2, 9, 17]) (w : Word) : inItemSet n w = true ↔ w.toNat ≤ 1 := by
  rw [inItemSet, if_pos h, decide_eq_true_iff]

theorem inItemSet_numeric {n : Nat} (h : n ∉ [0, 1, 2, 9, 17]) (h15 : n ≠ 15) (w : Word) : inItemSet n w = true := by
  rw [inItemSet, if_neg h, if_neg h15]

theorem loByte_wordOf (lo hi : Byte) : loByte (wordOf lo hi) = lo := by
  refine BitVec.eq_of_toNat_eq ?_
  simp only [loByte, wordOf, BitVec.toNat_setWidth, BitVec.toNat_ofNat]
  omega

theorem hiByte_wordOf (lo hi : Byte) : hiByte (wordOf lo hi) = hi := by
  refine BitVec.eq_of_toNat_eq ?_
  simp only [hiByte, wordOf, BitVec.toNat_setWidth, BitVec.toNat_ushiftRight, BitVec.toNat_ofNat, Nat.shiftRight_eq_div_pow]
  omega

theorem isSymbolByte_iff (b : Byte) : isSymbolByte b = true ↔ b.toNat ≤ 19 ∨ b = 0xFF := by
  simp [isSymbolByte]

/-! ### The rule (R176) -/

/-- SET of an item that has the index given and suits where it is addressed. -/
theorem handleSet_suits {t : Target} {item index lo hi : Byte} (s : State) (hgood : ¬ItemBad item index)
    (hsuits : scopeSuits item.toNat t = true) (hstore : itemScope item.toNat ≠ .storeOnly) :
    handleSet t [item, index, lo, hi] s =
      if s.settings.live.boundary.toNat ≤ item.toNat ∧ s.settings.unlocked = false then refuse s .denied
      else if inItemSet item.toNat (wordOf lo hi) = false then refuse s .badArg
      else
        { state := applySet t item.toNat index.toNat (setValue s.settings.live item.toNat (wordOf lo hi)) s
          code := .ok
          fields := [item, index] ++ wordBytes (setValue s.settings.live item.toNat (wordOf lo hi)) ++
            [flagByte (setValue s.settings.live item.toNat (wordOf lo hi) != wordOf lo hi)] } := by
  have hprotected : protectedNow s.settings item.toNat = true ↔
      s.settings.live.boundary.toNat ≤ item.toNat ∧ s.settings.unlocked = false := by
    simp [protectedNow]
  refine (if_neg hgood).trans ((if_neg (by simp [hsuits])).trans ((if_neg hstore).trans ?_))
  simp only [hprotected, Bool.not_eq_true']

/-! ### A position item -/

/-- The value a position item takes (R175, R176). -/
theorem setValue_position (live : DeviceItems) {n : Nat} (h : n ∈ [0, 1, 2, 10, 11]) (w : Word) :
    setValue live n w =
      if n = 10 then wordOfNat (clampNat 100 400 w.toNat) else if n = 11 then wordOfNat (clampNat 50 200 w.toNat) else w := by
  simp only [List.mem_cons, List.not_mem_nil, or_false] at h
  rcases h with rfl | rfl | rfl | rfl | rfl <;> rfl

/-- The set of a position item: of its flags only (R175). -/
theorem inItemSet_position {n : Nat} (h : n ∈ [0, 1, 2, 10, 11]) (w : Word) :
    inItemSet n w = false ↔ n ≤ 2 ∧ 1 < w.toNat := by
  simp only [List.mem_cons, List.not_mem_nil, or_false] at h
  rcases h with rfl | rfl | rfl | rfl | rfl <;> simp [inItemSet]

/-- What a new live value of a position item changes: the item, and the over-time it judges (R110, R117). -/
theorem applySet_position (p : Pos) {n : Nat} (h : n ∈ [0, 1, 2, 10, 11]) (index : Nat) (v : Word) (s : State) :
    applySet (.position p) n index v s = s.modPos p fun x =>
      { x with
        items := x.items.write n v
        reader := if n = 10 then x.reader.watchOver v.toNat else x.reader
        keypad := if n = 11 then x.keypad.watchOver v.toNat else x.keypad } := by
  simp only [List.mem_cons, List.not_mem_nil, or_false] at h
  rcases h with rfl | rfl | rfl | rfl | rfl
  · rfl
  · rfl
  · rfl
  · simp [applySet, State.modPort, Position.upperLimit, PosItems.write, Position.port, Position.setPort]
  · simp [applySet, State.modPort, Position.upperLimit, PosItems.write, Position.port, Position.setPort]

/-- Settles O11: protection, the item's set, then the value. -/
theorem setPositionItem : Obligations.SetPositionItem := by
  intro s pos tag item lo hi hready hpos hitem n p w v
  rw [exec_request (f := request .set pos tag [item, 0, lo, hi]) rfl]
  have hlen : [item, 0, lo, hi].length ≤ Config.payloadLimit := show 4 ≤ Config.payloadLimit by decide
  have hn : n ≤ 2 ∨ n = 10 ∨ n = 11 := by
    simp only [List.mem_cons, List.not_mem_nil, or_false] at hitem
    omega
  have hgood : ¬ItemBad item 0 := (not_itemBad_iff item 0).mpr ⟨by omega, by simp⟩
  have hstore : itemScope item.toNat ≠ .storeOnly := by
    rw [(itemScope_position_iff _).mpr hitem]
    decide
  have hset : inItemSet item.toNat w = false ↔ n ≤ 2 ∧ 1 < w.toNat := by
    exact inItemSet_position hitem w
  have hrule : handleSet (.position p) [item, 0, lo, hi] (counted s) = _ :=
    handleSet_suits (counted s) hgood (scopeSuits_position p hitem) hstore
  rw [setValue_position _ hitem, applySet_position _ hitem] at hrule
  have hanswer := (answer_position .set tag [item, 0, lo, hi] hready hpos (by decide)).trans hrule
  by_cases hprotected : s.settings.live.boundary.toNat ≤ n ∧ s.settings.unlocked = false
  · rw [if_pos hprotected]
    exact congrArg _ (sendRequest_refuse _ _ _ _ hready.toLinkFree hlen (by decide) (hanswer.trans (if_pos hprotected)))
  replace hanswer := hanswer.trans (if_neg hprotected)
  rw [if_neg hprotected]
  by_cases houtside : n ≤ 2 ∧ 1 < w.toNat
  · rw [if_pos houtside]
    exact congrArg _ (sendRequest_refuse _ _ _ _ hready.toLinkFree hlen (by decide)
      (hanswer.trans (if_pos (hset.mpr houtside))))
  · rw [if_neg houtside]
    exact congrArg _ (sendRequest_answer _ _ _ _ hready.toLinkFree hlen
      (hanswer.trans (if_neg fun h => houtside (hset.mp h)))
      (atRest_modPos (counted_rest hready.rest) p _ (by exact (counted_rest hready.rest).2.1 p)))

/-! ### A part-wide item -/

theorem setItem_tables :
    (∀ n lo hi, (n, lo, hi) ∈ [(3, 500, 3000), (4, 10, 300), (5, 1, 4), (6, 5, 50), (7, 12, 19), (8, 12, 19), (10, 100, 400),
        (11, 50, 200), (12, 1, 8), (13, 1, 600), (14, 100, 5000), (16, 0, 16), (18, 0, 7)] →
      itemRange n = some (lo, hi) ∧ lo < 65536 ∧ hi < 65536 ∧ n ∉ [0, 1, 2, 9, 17] ∧ n ≠ 15) ∧
    ∀ n ∈ [0, 1, 2, 9, 17], itemRange n = none := by
  refine ⟨fun n lo hi h => ?_, by decide⟩
  simp only [List.mem_cons, Prod.mk.injEq, List.not_mem_nil, or_false] at h
  rcases h with h | h | h | h | h | h | h | h | h | h | h | h | h <;> obtain ⟨rfl, rfl, rfl⟩ := h <;> decide

theorem itemScope_device {n : Nat} (h : n ∈ [3, 4, 5, 6, 7, 8, 9, 12, 13, 14, 15]) : itemScope n = .device ∧ n ≤ 19 := by
  simp only [List.mem_cons, List.not_mem_nil, or_false] at h
  rcases h with rfl | rfl | rfl | rfl | rfl | rfl | rfl | rfl | rfl | rfl | rfl <;> decide

/-- The budget has been set, and the decision it sets off grants the oldest eligible request: the reply goes first
(log 15). -/
theorem settle_slot_grant {q : Pos} {r : StepRecord} {rep : Report} {b : Bool} {s : State} (hrest : AtRest s)
    (hroom : s.queue.length < Config.queueLimit) (h : OldestWaiter q r rep b s)
    (hbudget : s.energized.length < s.settings.live.latchBudget.toNat)
    (hlast : s.energized.length + 1 = s.settings.live.latchBudget.toNat ∨ ∀ x ∈ s.latchWait, x ≠ q → PassedOver x s)
    (f : Frame) :
    settle { grantDecision s with link := { (grantDecision s).link with slot := some f } } =
      endedWithReply f q b (some rep) (latchOn q s) := by
  obtain ⟨o, d, hends, hdue, hreports, hfrees, hfill, rfl⟩ := h.ends
  have hpos := pos_grantedTo_self q s
  have hchain : ((grantedTo q s).pos q).chain = [r] := by rw [hpos]; exact h.chain
  have hwaiting : ((grantedTo q s).pos q).waiting = [] := by rw [hpos]; exact h.noneWaiting
  rw [h.decision hbudget hlast, hends _ hchain, ← endStep_slot hchain hdue,
    settle_slot_ended (atRest_grantedTo hrest q) hroom hwaiting hchain hreports hfrees hfill, if_pos hdue]
  simp only [endedWithReply, stepFreed_grantedTo]
  rfl

/-- The live value of a part-wide item written, and no grant set off by it. -/
theorem applySet_device {n : Nat} (index : Nat) (v : Word) (s : State)
    (h : n = 12 → v.toNat ≤ s.energized.length ∨ ∀ x ∈ s.latchWait, PassedOver x s) :
    applySet .device n index v s = { s with settings := { s.settings with live := s.settings.live.write n index v } } := by
  unfold applySet
  simp only
  split_ifs with hbudget
  · subst hbudget
    exact grantDecision_idle ((h rfl).imp id fun hpassed x hx => not_eligible_of (hpassed x hx))
  · rfl

/-- The answer to a SET that applied a value. -/
def itemSet (item index : Byte) (v w : Word) (s : State) : Answer :=
  { state := s, code := .ok, fields := [item, index] ++ wordBytes v ++ [flagByte (v != w)] }

/-- Settles O12: the tables, then protection, the item's set, and the value with what it sets off. -/
theorem setDeviceItem : Obligations.SetDeviceItem := by
  refine ⟨fun n lo hi h w => ?_, fun n h w => ?_, fun lo hi => ⟨clampItem_free rfl _, ?_⟩, ?_⟩
  · obtain ⟨hrange, hlo, hhi, hflag, h15⟩ := setItem_tables.1 n lo hi h
    exact ⟨clampItem_range hrange hlo hhi w, inItemSet_numeric hflag h15 w⟩
  · exact ⟨clampItem_free (setItem_tables.2 n h) w, inItemSet_flag h w⟩
  · rw [inItemSet, if_neg (by decide), if_pos rfl, Bool.and_eq_true, loByte_wordOf, hiByte_wordOf, isSymbolByte_iff,
      isSymbolByte_iff]
  intro s tag item index lo hi hready hitem hindex n w c v reply t isProtected
  rw [exec_request (f := request .set 0xFF tag [item, index, lo, hi]) rfl]
  have hlen : [item, index, lo, hi].length ≤ Config.payloadLimit := show 4 ≤ Config.payloadLimit by decide
  have hscope : itemScope n = .device ∧ n ≤ 19 := itemScope_device hitem
  have hgood : ¬ItemBad item index := (not_itemBad_iff item index).mpr ⟨hscope.2, hindex⟩
  have hsuits : scopeSuits item.toNat .device = true := decide_eq_true (by rw [hscope.1]; decide)
  have hrule : handleSet .device [item, index, lo, hi] (counted s) = _ :=
    handleSet_suits (counted s) hgood hsuits (by rw [hscope.1]; decide)
  have hanswer := (answer_device .set tag [item, index, lo, hi] hready (by decide)).trans hrule
  have hrest : AtRest t := counted_rest hready.rest
  refine ⟨fun hidle => ?_, fun q r rep halted hn hopen hroom hwaiter hbudget hlast => ?_⟩
  · split_ifs with hprotected hset
    · exact congrArg _ (sendRequest_refuse _ _ _ _ hready.toLinkFree hlen (by decide) (hanswer.trans (if_pos hprotected)))
    · exact congrArg _ (sendRequest_refuse _ _ _ _ hready.toLinkFree hlen (by decide)
        (hanswer.trans ((if_neg hprotected).trans (if_pos hset))))
    · have happlied : applySet .device n index.toNat v (counted s) = t := applySet_device _ _ _ hidle
      exact congrArg _ (sendRequest_answer _ _ _ _ hready.toLinkFree hlen
        (hanswer.trans ((if_neg hprotected).trans ((if_neg hset).trans (congrArg (itemSet item index v w) happlied)))) hrest)
  · have hset : ¬inItemSet n w = false := by simp [hn, inItemSet]
    have hanswer' := hanswer.trans ((if_neg hopen).trans (if_neg hset))
    have happlied : applySet .device n index.toNat v (counted s) = grantDecision t := if_pos hn
    have hbudget_eq : t.settings.live.latchBudget = v := by
      show (s.settings.live.write n index.toNat v).latchBudget = v
      rw [hn]
      rfl
    have hgranted := sendRequest_settles .set 0xFF tag _ hready.toLinkFree hlen
      (hanswer'.trans (congrArg (itemSet item index v w) happlied))
    rw [hgranted, settle_slot_grant hrest hroom (hwaiter.congr (fun _ => rfl) rfl) (hbudget_eq ▸ hbudget)
      (hbudget_eq ▸ hlast)]

end Sys2Proof.Machine
end

section
/-! SUPPORT and PROOF for O4, O23, O34, O35 and O36. Bytes, frames and the transmitter (sections 9.2, 9.6): the receiver byte
by byte, the frames that wait, and what the end of a sent frame hands on. -/

namespace Sys2Proof.Machine

/-! ### The receiver byte by byte (R157, R158) -/

section bytes

variable {s : State} {b : Byte}

theorem byteArrives_sync (h : s.link.rx = .hunting) : byteArrives syncByte s = { s with link := s.link.add .length [] } := by
  simp [byteArrives, h]

theorem byteArrives_noSync (h : s.link.rx = .hunting) (hb : b ≠ syncByte) : byteArrives b s = s := by
  simp [byteArrives, h, hb]

theorem byteArrives_length (h : s.link.rx = .length) (hlo : 3 ≤ b.toNat) (hhi : b.toNat ≤ 64) :
    byteArrives b s = { s with link := s.link.add .body [b] } := by
  simp [byteArrives, h, hlo, hhi]

theorem byteArrives_badLength (h : s.link.rx = .length) (hb : b.toNat < 3 ∨ 64 < b.toNat) :
    byteArrives b s = serve (frameLost { s with link := s.link.hunt }) := by
  have hnot : ¬(3 ≤ b.toNat ∧ b.toNat ≤ 64) := by omega
  simp [byteArrives, h, hnot]

variable {len : Byte} {rest : List Byte}

theorem byteArrives_body (h : s.link.rx = .body) (hpartial : s.link.partialFrame = len :: rest)
    (hshort : rest.length < len.toNat) : byteArrives b s = { s with link := s.link.add .body (len :: rest ++ [b]) } := by
  have hmore : (len :: rest ++ [b]).length < len.toNat + 2 := by
    simp only [List.length_append, List.length_cons, List.length_nil]
    omega
  simp only [byteArrives, h, bodyByte, hpartial, Link.lenByte, List.headD_cons, if_pos hmore]

theorem byteArrives_last (h : s.link.rx = .body) (hpartial : s.link.partialFrame = len :: rest)
    (hlast : rest.length = len.toNat) :
    byteArrives b s =
      serve (if sum8 (len :: rest ++ [b]) = 0 then acceptFrame (frameOf (len :: rest ++ [b])) { s with link := s.link.hunt }
        else frameLost { s with link := s.link.hunt }) := by
  have hfull : ¬(len :: rest ++ [b]).length < len.toNat + 2 := by
    simp only [List.length_append, List.length_cons, List.length_nil]
    omega
  simp only [byteArrives, h, bodyByte, hpartial, Link.lenByte, List.headD_cons, if_neg hfull]

/-- The bytes of a body up to its last but one join the partial frame. -/
theorem foldl_byteArrives_body (more : List Byte) : ∀ {s : State} {rest : List Byte}, s.link.rx = .body →
    s.link.partialFrame = len :: rest → rest.length + more.length ≤ len.toNat → more ≠ [] →
    more.foldl (fun t b => byteArrives b t) s = { s with link := s.link.add .body (len :: rest ++ more) } := by
  induction more with
  | nil => exact fun _ _ _ h => absurd rfl h
  | cons b more ih =>
    intro s rest h hpartial hlen _
    simp only [List.length_cons] at hlen
    rw [List.foldl_cons, byteArrives_body h hpartial (by omega)]
    by_cases hmore : more = []
    · subst hmore
      rfl
    · rw [ih (rest := rest ++ [b]) rfl rfl (by simp only [List.length_append, List.length_cons, List.length_nil]; omega) hmore]
      simp [Link.add]

end bytes

/-! ### A frame as its bytes -/

theorem sum8_append (xs ys : List Byte) : sum8 (xs ++ ys) = sum8 xs + sum8 ys := by
  induction xs with
  | nil => simp [sum8]
  | cons x xs ih =>
    have hcons : ∀ l : List Byte, sum8 (x :: l) = x + sum8 l := fun _ => rfl
    rw [List.cons_append, hcons, hcons, ih, BitVec.add_assoc]

theorem sum8_wire (xs : List Byte) : sum8 (xs ++ [0 - sum8 xs]) = 0 := by
  rw [sum8_append]
  have hcheck : sum8 [0 - sum8 xs] = 0 - sum8 xs := BitVec.add_zero _
  rw [hcheck]
  bv_omega

theorem frameOf_concat (len kind pos tag b : Byte) (payload : List Byte) :
    frameOf (len :: kind :: pos :: tag :: payload ++ [b]) = { kind := kind, pos := pos, tag := tag, payload := payload } := by
  simp only [frameOf, List.dropLast_concat]

/-- A frame's bytes bring a hunting receiver to the frame. -/
theorem foldl_wire {s : State} {f : Frame} (h : s.link.rx = .hunting) (hlen : f.payload.length ≤ 61) :
    f.wire.foldl (fun t b => byteArrives b t) s = serve (acceptFrame f { s with link := s.link.hunt }) := by
  have hbody : f.body.length = f.payload.length + 3 := rfl
  have hcount : (byteOf f.body.length).toNat = f.body.length := toNat_byteOf (by omega)
  rw [Frame.wire, List.foldl_cons, byteArrives_sync h, Frame.summed, List.cons_append, List.foldl_cons,
    byteArrives_length rfl (by omega) (by omega), List.foldl_append,
    foldl_byteArrives_body f.body (rest := []) rfl rfl (by simp [hcount]) (by simp [Frame.body])]
  rw [List.foldl_cons, List.foldl_nil, byteArrives_last rfl rfl (by simp [hcount])]
  have hsum : sum8 (byteOf f.body.length :: f.body ++ [0 - sum8 (byteOf f.body.length :: f.body)]) = 0 := sum8_wire _
  have hframe : frameOf (byteOf f.body.length :: f.body ++ [0 - sum8 (byteOf f.body.length :: f.body)]) = f :=
    frameOf_concat _ _ _ _ _ _
  exact congrArg serve ((if_pos hsum).trans (congrArg (acceptFrame · _) hframe))

/-- Settles O4. -/
theorem requestIsItsBytes : Obligations.RequestIsItsBytes := by
  intro s c f hframe hlen hrx
  rw [exec_request hframe, sendRequest, if_pos ⟨hrx, hlen⟩, foldl_wire hrx hlen]

/-! ### Counting at the mark (R152, R153) -/

theorem countUp_eq (n : Nat) : countUp n = if n < 65535 then n + 1 else n := rfl

theorem crossesHigh_iff (n : Nat) : crossesHigh n = true ↔ n = 49151 := by
  have hcrosses : crossesHigh n = true ↔ countUp n = 49152 ∧ n ≠ 49152 := by
    simp only [crossesHigh, Config.counterHighAt, Bool.and_eq_true, beq_iff_eq, bne_iff_ne]
  rw [hcrosses, countUp_eq]
  split <;> omega

/-- A device counter counts on a part at rest, and raises COUNTER_HIGH at its mark. -/
theorem settle_countDevice {s : State} (h : AtRest s) (hroom : s.queue.length < 32) (c : DeviceCounter) :
    settle (countDevice c s) =
      let n := s.deviceCounters[c.idx]
      let t := { s with deviceCounters := s.deviceCounters.set c.idx (countUp n) }
      if n = 49151 then withNotice .counterHigh none t else t := by
  have hrest : AtRest { s with deviceCounters := s.deviceCounters.set c.idx (countUp s.deviceCounters[c.idx]) } := h
  unfold countDevice
  simp only [crossesHigh_iff]
  split_ifs
  · exact settle_raise hrest hroom _ _
  · exact settle_of_atRest hrest

/-- A frame that joins the receive buffer while no frame may be taken. -/
theorem serve_acceptFrame {s : State} (h : AtRest s) (hroom : s.queue.length < 32)
    (hheld : s.link.slot ≠ none ∨ s.link.restarting = true) (hbuffer : s.link.buffer.length < 4) (f : Frame) :
    serve (acceptFrame f { s with link := s.link.hunt }) =
      let n := s.deviceCounters[0]
      let t := { s with
        deviceCounters := s.deviceCounters.set 0 (countUp n)
        link := { s.link.hunt with buffer := s.link.buffer ++ [f] } }
      if n = 49151 then withNotice .counterHigh none t else t := by
  have hrest : AtRest { s with link := { s.link.hunt with buffer := s.link.buffer ++ [f] } } := h
  have hheld' : s.link.slot ≠ none ∨ s.link.restarting = true ∨ s.link.buffer ++ [f] = [] := hheld.imp id .inl
  rw [accept_room (s := { s with link := s.link.hunt }) f hbuffer]
  refine serve_none (takeable_none ?_) (settle_countDevice hrest hroom .framesOk) (takeable_none ?_)
  · rw [link_countDevice]
    exact hheld'
  · simp only
    split_ifs
    · rw [(withNotice_link _ _ _).1, (withNotice_link _ _ _).2.1, (withNotice_link _ _ _).2.2]
      exact hheld'
    · exact hheld'

/-- Settles O34: the three receive states, and the last byte of a good frame. -/
theorem receiveByteBuildsFrame : Obligations.ReceiveByteBuildsFrame := by
  refine fun s b => ⟨fun h => ?_, fun h hlo hhi => ?_, fun len rest h hpartial hshort => ?_,
    fun len kind pos tag payload h hpartial hlen hsum hrest hheld hbuffer hroom => ?_⟩ <;>
    refine congrArg Host.Outcome.next ?_
  · split_ifs with hb
    · rw [hb]
      exact byteArrives_sync h
    · exact byteArrives_noSync h hb
  · exact byteArrives_length h hlo hhi
  · exact byteArrives_body h hpartial hshort
  · rw [byteArrives_last h hpartial (by simp only [List.length_cons]; omega), if_pos hsum, frameOf_concat,
      serve_acceptFrame hrest hroom hheld hbuffer]
    rfl

/-- Settles O35: the four losses come to `frameLost`. -/
theorem lostFrameCounts : Obligations.LostFrameCounts := by
  intro s hrest hroom hcount hheld t
  have hlost : serve (frameLost { s with link := s.link.hunt }) = t := frameLost_serve hrest hroom hcount hheld
  refine ⟨fun b h hb => ?_, fun h hgap => ?_, fun h => ?_, fun b len rest h hpartial hlast hbad => ?_⟩ <;>
    refine congrArg Host.Outcome.next ?_
  · rw [byteArrives_badLength h hb, hlost]
  · rw [frameGap, if_pos (by simp [hgap, h]), hlost]
  · simp [frameGap, h]
  · rw [byteArrives_last h hpartial hlast]
    split_ifs with hsum
    · have hfull : ¬s.link.buffer.length < Config.frameLimit := by
        rw [hbad.resolve_left fun h => h hsum]
        decide
      exact (congrArg serve (if_neg hfull)).trans hlost
    · exact hlost

/-! ### The transmitter (R147, R167) -/

/-- The transmitter has been freed. -/
def transmitterFree (s : State) : State := { s with link := { s.link with transmitter := none } }

/-- The one thing due is the arbiter's, and leaves nothing due. -/
theorem settle_arbiter {s t : State} (hwait : s.queue.length < Config.queueLimit → s.waitOrder = [])
    (hstart : ∀ p, startDue (s.pos p) = false) (h : arbiter s = some t) (hrest : AtRest t) : settle s = t := by
  rw [settle_next ((nextDue_arbiter hwait hstart).trans h), settle_of_atRest hrest]

theorem transmitDone_serves {s : State} {f : Frame} (h : s.link.transmitter = some f)
    (hreply : s.link.slot = none → s.link.restarting = false) :
    exec .transmitDone s = .next (serve (transmitterFree s)) := by
  refine congrArg Host.Outcome.next ?_
  rw [transmitterDone, notReply hreply, h]
  rfl

/-- The last byte of a frame is sent, and the receive buffer is empty. -/
theorem transmitDone_settles {s t : State} {f : Frame} (h : s.link.transmitter = some f)
    (hreply : s.link.slot = none → s.link.restarting = false) (hbuffer : s.link.buffer = [])
    (hsettle : settle (transmitterFree s) = t) (hlast : t.link.buffer = []) : exec .transmitDone s = .next t := by
  rw [transmitDone_serves h hreply, serve_none (s := transmitterFree s) (takeable_none (.inr (.inr hbuffer))) hsettle
    (takeable_none (.inr (.inr hlast)))]

/-- A report that is not a NOTICE report, handed to the free transmitter. -/
theorem handReport_plain {r : Report} (hr : r ≠ .notice) (q : List Report) (s : State) :
    handReport r q s = { s with queue := q, link := { s.link with transmitter := some (r.frame []) } } := if_neg hr

theorem noticeClasses_isEmpty_iff (ns : Vector ClassRecord 15) :
    (noticeClasses ns).isEmpty = true ↔ ∀ i : Fin 15, ns[i].pending = true → ns[i].muted = true := by
  simp only [noticeClasses, List.isEmpty_iff, List.filter_eq_nil_iff, Bool.and_eq_true, Bool.not_eq_true', not_and,
    Bool.not_eq_false]
  exact ⟨fun h i => h i (mem_allClasses i), fun h i _ => h i⟩

/-- A NOTICE report with a class to place in it (R147). -/
theorem handReport_notice {s : State} (h : ∃ i : Fin 15, s.notices[i].pending = true ∧ s.notices[i].muted = false)
    (q : List Report) :
    handReport .notice q s =
      { s with
        queue := q
        noticeReport := .absent
        link := { s.link with transmitter := some (Report.notice.frame (noticePayload s.notices)) } } := by
  obtain ⟨i, hpending, hunmuted⟩ := h
  have hplace : ¬(noticeClasses s.notices).isEmpty = true := by
    rw [noticeClasses_isEmpty_iff]
    intro hall
    have hmuted := hall i hpending
    rw [hunmuted] at hmuted
    cases hmuted
  exact (if_pos rfl).trans (if_neg hplace)

/-- A NOTICE report with no class to place in it is dropped (R147). -/
theorem handReport_noClass {s : State} (h : ∀ i : Fin 15, s.notices[i].pending = true → s.notices[i].muted = true)
    (q : List Report) : handReport .notice q s = { s with queue := q, noticeReport := .absent } :=
  (if_pos rfl).trans (if_pos ((noticeClasses_isEmpty_iff _).mpr h))

theorem arbiter_slot {s : State} {g : Frame} (h : s.link.slot = some g) :
    arbiter (transmitterFree s) = some { s with link := { s.link with slot := none, transmitter := some g } } := by
  simp only [arbiter, transmitterFree, h]

/-- The waiting reply goes first, and nothing else is due. -/
theorem settle_handReply {s : State} {g : Frame} (hwait : s.queue.length < Config.queueLimit → s.waitOrder = [])
    (hstart : ∀ p, startDue (s.pos p) = false) (h : s.link.slot = some g) :
    settle (transmitterFree s) = { s with link := { s.link with slot := none, transmitter := some g } } :=
  settle_arbiter hwait hstart (arbiter_slot h) ⟨hwait, hstart, fun h => absurd h (by simp)⟩

theorem arbiter_report {s : State} {r : Report} {q : List Report} (h : s.link.slot = none) (hq : s.queue = r :: q) :
    arbiter (transmitterFree s) = some (handReport r q (transmitterFree s)) := by
  simp only [arbiter, transmitterFree, h, hq]

/-- One frame waits, and may be taken once what is due is done. -/
theorem serve_one {s t : State} {f : Frame} (hfirst : takeable s = none) (hone : s.link.buffer = [f]) (hsettle : settle s = t)
    (htake : takeable t = some f) : serve s = settle (takeHead f t) := by
  have hdue : takeDue s = s := by rw [takeDue, hfirst]
  rw [serve, hdue, hone]
  simp only [List.length_singleton, serveFor, hsettle, htake]

/-- A frame of an unknown KIND is counted as refused, and its reply placed (R160). -/
theorem takeFrame_unknown {s : State} {k : Byte} (hk : isRequestKind k = false) (pos tag : Byte) (payload : List Byte)
    (hcount : s.deviceCounters[2] < 49151) :
    takeFrame { kind := k, pos := pos, tag := tag, payload := payload } s =
      countedRefusal
        { s with link := { s.link with slot := some { kind := 0xFF, pos := pos, tag := tag, payload := [1, k] } } } := by
  have hnone := requestKind_unknown k hk
  have hanswer : answer { kind := k, pos := pos, tag := tag, payload := payload } s =
      { state := s, code := .badKind, fields := [k] } := by simp [answer, hnone]
  rw [takeFrame, hanswer]
  have hframe : replyFrame { kind := k, pos := pos, tag := tag, payload := payload }
      { state := s, code := .badKind, fields := [k] } = { kind := 0xFF, pos := pos, tag := tag, payload := [1, k] } := by
    simp [replyFrame, replyKind, hnone, ResultCode.code]
  simp only [hframe, reduceCtorEq, if_false]
  exact countDevice_low _ _ hcount

/-- The one KEY report of the head producer is admitted to a queue that has room (R139). -/
theorem settle_admitKey {s : State} {p : Pos} {x : Symbol} {held : Bool} (horder : s.waitOrder = [.position p])
    (hwaiting : (s.pos p).waiting = [.key p x held]) (hroom : s.queue.length < Config.queueLimit)
    (hstart : ∀ q, startDue (s.pos q) = false) (ht : s.link.transmitter ≠ none) :
    settle s =
      State.modPos { s with queue := s.queue ++ [.key p x held], waitOrder := [] } p fun v => { v with waiting := [] } := by
  have hadmit : admitHead s =
      State.modPos { s with queue := s.queue ++ [.key p x held], waitOrder := [] } p fun v => { v with waiting := [] } := by
    simp [admitHead, horder, admitPosition, hwaiting, Report.filled, Report.freesRecord]
  have hrest : AtRest { s with queue := s.queue ++ [.key p x held], waitOrder := [] } :=
    ⟨fun _ => rfl, hstart, fun h => absurd h ht⟩
  rw [settle_next (nextDue_admit (by simp [horder]) hroom), hadmit, settle_of_atRest (atRest_modPos hrest p _ (hstart p))]

/-- Settles O36: the reply or the head report handed on, the frame that waits behind a reply, and the admission that follows a
hand-off from a full queue. -/
theorem transmitDoneHandsNext : Obligations.TransmitDoneHandsNext := by
  intro s f hrest ht
  obtain ⟨hwait, hstart, -⟩ := hrest
  refine ⟨fun hbuffer horder => ⟨fun g hslot => ?_, fun hslot hnot hqueue => ?_, fun r q hslot hnot hqueue hr => ?_,
    fun q hslot hnot hqueue hclass => ?_, fun hslot hnot hqueue hnone => ?_⟩, ?_, ?_⟩
  · exact transmitDone_settles ht (fun h => absurd (hslot.symm.trans h) (by simp)) hbuffer
      (settle_handReply hwait hstart hslot) hbuffer
  · exact transmitDone_settles ht (fun _ => hnot) hbuffer
      (settle_of_atRest ⟨hwait, hstart, fun _ => ⟨hslot, hqueue⟩⟩) hbuffer
  · have hhand := (arbiter_report hslot hqueue).trans (congrArg some (handReport_plain hr q (transmitterFree s)))
    exact transmitDone_settles ht (fun _ => hnot) hbuffer
      (settle_arbiter hwait hstart hhand ⟨fun _ => horder, hstart, fun h => absurd h (by simp)⟩) hbuffer
  · have hhand := (arbiter_report hslot hqueue).trans
      (congrArg some (handReport_notice (s := transmitterFree s) hclass q))
    exact transmitDone_settles ht (fun _ => hnot) hbuffer
      (settle_arbiter hwait hstart hhand ⟨fun _ => horder, hstart, fun h => absurd h (by simp)⟩) hbuffer
  · have hhand := (arbiter_report hslot hqueue).trans
      (congrArg some (handReport_noClass (s := transmitterFree s) hnone []))
    exact transmitDone_settles ht (fun _ => hnot) hbuffer
      (settle_arbiter hwait hstart hhand ⟨fun _ => horder, hstart, fun _ => ⟨hslot, rfl⟩⟩) hbuffer
  · intro g k pos tag payload hslot hnot horder hbuffer hk hcount
    rw [transmitDone_serves ht fun h => absurd (hslot.symm.trans h) (by simp)]
    refine congrArg Host.Outcome.next ?_
    have hnext := settle_handReply hwait hstart hslot
    have hfirst : takeable (transmitterFree s) = none := takeable_none (.inl (by rw [transmitterFree, hslot]; simp))
    rw [serve_one hfirst hbuffer hnext (by simp [takeable, hnot, hbuffer]), takeHead,
      takeFrame_unknown hk pos tag payload (by exact hcount)]
    refine Eq.trans (settle_of_atRest ?_) ?_
    · exact ⟨hwait, hstart, fun h => absurd h (Option.some_ne_none g)⟩
    · simp only [hbuffer, List.tail_cons]
  · intro r q p x held hslot hnot hbuffer hqueue hr hfull horder hwaiting
    refine transmitDone_settles ht (fun _ => hnot) hbuffer ?_ hbuffer
    have hnext := (nextDue_arbiter (s := transmitterFree s) hwait hstart).trans
      ((arbiter_report hslot hqueue).trans (congrArg some (handReport_plain hr q (transmitterFree s))))
    have hroom : q.length < Config.queueLimit := by
      rw [hqueue, List.length_cons] at hfull
      exact Nat.lt_of_succ_le hfull.le
    rw [settle_next hnext]
    exact settle_admitKey (s := { s with queue := q, link := { s.link with transmitter := some (r.frame []) } })
      horder hwaiting hroom hstart (by simp)

/-! ### RESTART (R165) -/

/-- While a restart is under way a whole frame waits in the receive buffer. -/
theorem sendRequest_restarting {s : State} {f : Frame} (hrest : AtRest s) (hrestart : s.link.restarting = true)
    (hlen : f.payload.length ≤ 61) (hrx : s.link.rx = .hunting) (hbuffer : s.link.buffer.length < 4)
    (hcount : s.deviceCounters[0] < 49151) :
    sendRequest f s =
      { counted s with
        link := { s.link with partialFrame := [], gapTimer := .stopped, buffer := s.link.buffer ++ [f] } } := by
  have hheld : s.link.slot ≠ none ∨ s.link.restarting = true ∨ s.link.buffer ++ [f] = [] := .inr (.inl hrestart)
  have haccept := accept_room (s := { s with link := s.link.hunt }) f hbuffer
  rw [countDev .framesOk (by exact hcount)] at haccept
  rw [sendRequest, if_pos ⟨hrx, hlen⟩, haccept]
  refine (serve_none (takeable_none hheld) (settle_of_atRest (by exact hrest)) (takeable_none hheld)).trans ?_
  simp only [Link.hunt, ← hrx]
  rfl

/-- Settles O23: the answer, and what a restart under way leaves of frames and of the buffer. -/
theorem restartAnswersFirst : Obligations.RestartAnswersFirst := by
  refine ⟨fun s tag hready => ?_, fun s hrest hrestart => ⟨fun c f hframe hlen hrx hbuffer hcount => ?_, fun f g ht hslot => ?_⟩⟩
  · rw [exec_request (f := request .restart 0xFF tag []) rfl]
    exact congrArg _ (sendRequest_device_answered hready (Nat.zero_le _) rfl (by exact counted_rest hready.rest)
      (show handleRestart [] (counted s) = _ from rfl))
  · rw [exec_request hframe, sendRequest_restarting hrest hrestart hlen hrx hbuffer hcount]
  · obtain ⟨hwait, hstart, -⟩ := hrest
    rw [transmitDone_serves ht fun h => absurd (hslot.symm.trans h) (by simp)]
    have hnext := settle_handReply hwait hstart hslot
    rw [serve_none (s := transmitterFree s) (takeable_none (.inr (.inl hrestart))) hnext (takeable_none (.inr (.inl hrestart)))]

end Sys2Proof.Machine
end

section
/-! SUPPORT and PROOF for O37, O38, O39 and O40. Starts and store writes (R27, R184, R187, R188): what the load makes of the
store, the two starts, and the end of a write. -/

namespace Sys2Proof.Machine

/-! ### What the load makes of the stored items (R187) -/

theorem interlock7_read (t : DeviceItems) {n : Nat} (h : n ≠ 7) (i : Nat) : (interlock7 t).read n i = t.read n i := by
  unfold interlock7
  split
  · unfold DeviceItems.read
    split <;> first | rfl | exact absurd rfl h
  · rfl

/-- Items 7 and 8 as loaded. -/
theorem interlock7_accountMin (t : DeviceItems) :
    (interlock7 t).accountMin.toNat = min t.accountMin.toNat t.accountMax.toNat := by
  unfold interlock7
  split
  next h => exact (Nat.min_eq_right (Nat.le_of_lt h)).symm
  next h => exact (Nat.min_eq_left (Nat.le_of_not_lt h)).symm

/-- A numeric item other than 7 is clamped. -/
theorem loadDeviceItems_numeric (d : DeviceItems) {n lo hi : Nat}
    (h : (n, lo, hi) ∈ [(3, 500, 3000), (4, 10, 300), (5, 1, 4), (6, 5, 50), (8, 12, 19), (12, 1, 8), (13, 1, 600),
      (14, 100, 5000), (16, 0, 16), (18, 0, 7)]) :
    ((loadDeviceItems d).read n 0).toNat = clampNat lo hi (d.read n 0).toNat := by
  simp only [List.mem_cons, Prod.mk.injEq, List.not_mem_nil, or_false] at h
  rcases h with h | h | h | h | h | h | h | h | h | h <;> obtain ⟨rfl, rfl, rfl⟩ := h <;>
    rw [loadDeviceItems, interlock7_read _ (by decide)] <;> exact clampItem_range rfl (by decide) (by decide) _

theorem loadDeviceItems_kept (d : DeviceItems) {n : Nat} (h : n ∈ [9, 15, 17]) (i : Nat) :
    (loadDeviceItems d).read n i = d.read n i := by
  simp only [List.mem_cons, List.not_mem_nil, or_false] at h
  rcases h with rfl | rfl | rfl <;> rw [loadDeviceItems, interlock7_read _ (by decide)] <;> rfl

theorem loadDeviceItems_accountMin (d : DeviceItems) :
    ((loadDeviceItems d).read 7 0).toNat = min (clampNat 12 19 (d.read 7 0).toNat) (clampNat 12 19 (d.read 8 0).toNat) := by
  rw [← clampItem_range (n := 7) rfl (by decide) (by decide), ← clampItem_range (n := 8) rfl (by decide) (by decide)]
  exact interlock7_accountMin _

theorem loadPosItems_readerUpper (x : PosItems) :
    ((loadPosItems x).read 10).toNat = clampNat 100 400 (x.read 10).toNat :=
  clampItem_range (n := 10) rfl (by decide) (by decide) x.readerUpper

theorem loadPosItems_keypadUpper (x : PosItems) :
    ((loadPosItems x).read 11).toNat = clampNat 50 200 (x.read 11).toNat :=
  clampItem_range (n := 11) rfl (by decide) (by decide) x.keypadUpper

theorem loadPosItems_kept (x : PosItems) {n : Nat} (h : n ∈ [0, 1, 2]) : (loadPosItems x).read n = x.read n := by
  simp only [List.mem_cons, List.not_mem_nil, or_false] at h
  rcases h with rfl | rfl | rfl <;> rfl

theorem factoryDeviceItems_read {n v : Nat}
    (h : (n, v) ∈ [(3, 1200), (4, 60), (5, 3), (6, 20), (7, 12), (8, 19), (9, 1), (12, 4), (13, 120), (14, 1000), (16, 7), (17, 0),
      (18, 3)]) : factoryDeviceItems.read n 0 = BitVec.ofNat 16 v := by
  simp only [List.mem_cons, Prod.mk.injEq, List.not_mem_nil, or_false] at h
  rcases h with h | h | h | h | h | h | h | h | h | h | h | h | h <;> obtain ⟨rfl, rfl⟩ := h <;> rfl

theorem factoryPosItems_read {n v : Nat} (h : (n, v) ∈ [(0, 0), (1, 0), (2, 1), (10, 300), (11, 150)]) :
    factoryPosItems.read n = BitVec.ofNat 16 v := by
  simp only [List.mem_cons, Prod.mk.injEq, List.not_mem_nil, or_false] at h
  rcases h with h | h | h | h | h <;> obtain ⟨rfl, rfl⟩ := h <;> rfl

/-! ### The load of a store with no write in progress -/

/-- The settings a load leaves, with the failed-attempt count and lockout given (R187). -/
def loadedFrom (st : StoreImage) (n : Nat) (l : Bool) : Settings :=
  { live := if st.checkGood then loadDeviceItems st.deviceItems else factoryDeviceItems
    passcode := if st.checkGood then st.passcode else factoryPasscode
    store := st
    storeLocked := st.lockFlag
    loadGood := st.checkGood
    failedCount := n
    lockout := l }

/-- The part a load leaves. -/
def loadedPart (n : Nat) (l : Bool) (s : State) : State :=
  startedWith (if s.settings.store.checkGood then loadPosItems s.settings.store.posItems else factoryPosItems)
    (loadedFrom s.settings.store n l) s

theorem loadSettings_eq {s : State} (hjob : s.settings.job = none) (n : Nat) (l : Bool) :
    loadSettings { resetBlocks s with settings := { s.settings with failedCount := n, lockout := l } } =
      if s.settings.store.checkGood then loadedPart n l s else raise .storeFault none (loadedPart n l s) := by
  by_cases hgood : s.settings.store.checkGood = true
  · rw [load_good (by exact hgood), if_pos hgood, loadedPart, loadedFrom, if_pos hgood, if_pos hgood, if_pos hgood, hgood]
    simp only [hjob]
  · have hbad : s.settings.store.checkGood = false := Bool.eq_false_iff.2 hgood
    rw [load_bad (by exact hbad), if_neg hgood, loadedPart, loadedFrom, if_neg hgood, if_neg hgood, if_neg hgood, hbad]
    simp only [hjob]

theorem atRest_loadedPart (n : Nat) (l : Bool) (s : State) : AtRest (loadedPart n l s) := started_rest _ _ _

/-- The load as a cold start meets it, settled. -/
theorem settle_loaded (n : Nat) (l : Bool) (s : State) :
    settle (if s.settings.store.checkGood then loadedPart n l s else raise .storeFault none (loadedPart n l s)) =
      if s.settings.store.checkGood then loadedPart n l s else withNotice .storeFault none (loadedPart n l s) := by
  split_ifs
  · exact settle_of_atRest (atRest_loadedPart n l s)
  · exact settle_raise (atRest_loadedPart n l s) (show 0 < 32 by decide) _ _

theorem coldStarted_eq {s : State} (hjob : s.settings.job = none) :
    coldStarted s =
      if s.settings.store.checkGood then loadedPart 0 false s else raise .storeFault none (loadedPart 0 false s) := by
  have hcut : cutJob (resetBlocks s) = resetBlocks s := by
    have hjob' : (resetBlocks s).settings.job = none := hjob
    rw [cutJob, hjob']
  rw [coldStarted, hcut, ← loadSettings_eq hjob]
  rfl

theorem warmStarted_eq {s : State} (hjob : s.settings.job = none) :
    warmStarted s =
      let n := s.settings.failedCount
      let l := s.settings.lockout
      let t := if s.settings.store.checkGood then loadedPart n l s else raise .storeFault none (loadedPart n l s)
      if l then raise .supervisorLockout none t else t := by
  have hjob' : (resetBlocks s).settings.job = none := hjob
  have hloaded : loadSettings (resetBlocks s) = _ := loadSettings_eq hjob s.settings.failedCount s.settings.lockout
  have hlockout : (loadSettings (resetBlocks s)).settings.lockout = s.settings.lockout := by
    rw [hloaded]
    split_ifs
    · rfl
    · rw [settings_raise]
      rfl
  rw [hloaded] at hlockout
  rw [warmStarted]
  simp only [hjob', loadWarm, hloaded, hlockout]

/-- The RESTART reply is the frame being sent. -/
theorem restartReplyOut_true {s : State} (h : s.link.restarting = true) (hslot : s.link.slot = none)
    (ht : s.link.transmitter ≠ none) : restartReplyOut s = true := by
  simp [restartReplyOut, h, hslot, Option.isSome_iff_ne_none, ht]

theorem exec_warmStart {s : State} (h : restartReplyOut s = true) : exec .warmStart s = .next (settle (warmStarted s)) :=
  congrArg (fun t => Host.Outcome.next (settle t)) (if_pos h)

theorem exec_warmStart_none {s : State} (hrest : AtRest s) (h : s.link.restarting = false) : exec .warmStart s = .next s := by
  refine congrArg Host.Outcome.next ?_
  rw [restartReplySent, if_neg (by simp [restartReplyOut, h]), settle_of_atRest hrest]

/-- A lockout and a failed check at one load: one NOTICE report names both classes (log 35). -/
theorem settle_lockout_storeFault (n : Nat) (s : State) :
    settle (raise .supervisorLockout none (raise .storeFault none (loadedPart n true s))) =
      { loadedPart n true s with
        notices := ((Vector.replicate 15 {}).set 13 { pending := true }).set 14 { pending := true }
        link := { transmitter := some { kind := 0x44, pos := 0xFF, tag := 0, payload := [2, 13, 0, 14, 0] } } } := by
  have hraised : raise .supervisorLockout none (raise .storeFault none (loadedPart n true s)) =
      { loadedPart n true s with
        notices := ((Vector.replicate 15 {}).set 13 { pending := true }).set 14 { pending := true }
        noticeReport := .waiting
        waitOrder := [.notices] } := rfl
  have hadmitted : nextDue (raise .supervisorLockout none (raise .storeFault none (loadedPart n true s))) =
      some { loadedPart n true s with
        notices := ((Vector.replicate 15 {}).set 13 { pending := true }).set 14 { pending := true }
        noticeReport := .queued
        queue := [.notice] } := by
    rw [hraised]
    exact nextDue_admit (by simp) (show 0 < Config.queueLimit by decide)
  obtain ⟨-, hstart, -⟩ := atRest_loadedPart n true s
  rw [settle_next hadmitted]
  refine settle_arbiter (fun _ => rfl) hstart ?_ ⟨fun _ => rfl, hstart, fun h => absurd h (Option.some_ne_none _)⟩
  rfl

/-- Settles O37: the tables of the load, then the cold and the warm start. -/
theorem startLoadsStore : Obligations.StartLoadsStore := by
  refine ⟨fun d => ⟨fun n lo hi h => loadDeviceItems_numeric d h, loadDeviceItems_accountMin d,
      fun n h i => loadDeviceItems_kept d h i⟩,
    fun x => ⟨loadPosItems_readerUpper x, loadPosItems_keypadUpper x, fun n h => loadPosItems_kept x h⟩,
    fun n v h => factoryDeviceItems_read h, fun n v h => factoryPosItems_read h, rfl, ?_⟩
  intro s hjob st loaded items t
  refine ⟨?_, fun hrestart hslot ht => ?_, exec_warmStart_none⟩
  · exact congrArg Host.Outcome.next ((congrArg settle (coldStarted_eq hjob)).trans (settle_loaded 0 false s))
  have hout := restartReplyOut_true hrestart hslot ht
  rw [exec_warmStart hout, warmStarted_eq hjob]
  refine ⟨congrArg Host.Outcome.next ?_, fun hlock => ?_, fun hlock hgood => ?_, fun hlock hbad => ?_⟩
  · rw [transmitterDone, hout, warmStarted_eq hjob]
    rfl
  · simp only [hlock, Bool.false_eq_true, if_false]
    exact congrArg Host.Outcome.next (settle_loaded _ false s)
  · have hgood' : s.settings.store.checkGood = true := hgood
    simp only [hlock, hgood', if_true]
    exact congrArg Host.Outcome.next (settle_raise (atRest_loadedPart _ true s) (show 0 < 32 by decide) _ _)
  · have hbad' : s.settings.store.checkGood = false := hbad
    simp only [hlock, hbad', Bool.false_eq_true, if_false, if_true]
    exact congrArg Host.Outcome.next (settle_lockout_storeFault _ s)

/-! ### START_COMPLETE and the end of a write (R184, R188) -/

/-- Settles O39. -/
theorem startCompletes_onceLoaded : Obligations.StartCompletes := by
  intro s hrest hroom
  refine congrArg Host.Outcome.next ?_
  have hstarted : AtRest { s with link := { s.link with startComplete := true } } := hrest
  have hcond : (s.link.startComplete || s.settings.loadPending) = true ↔
      ¬(s.link.startComplete = false ∧ s.settings.loadPending = false) := by
    cases s.link.startComplete <;> cases s.settings.loadPending <;> decide
  by_cases h : s.link.startComplete = false ∧ s.settings.loadPending = false
  · rw [startCompletes, if_neg fun hc => hcond.mp hc h, if_pos h]
    exact settle_raise hstarted hroom _ _
  · rw [startCompletes, if_pos (hcond.mpr h), if_neg h, settle_of_atRest hrest]

theorem otherWord_ne (w free : Word) : otherWord w free ≠ w := by
  unfold otherWord
  split
  · bv_omega
  · assumption

theorem otherPasscode_ne (d free : Vector Byte 8) : otherPasscode d free ≠ d := by
  unfold otherPasscode
  split
  next h =>
    subst h
    intro hsame
    have hfirst := congrArg (fun v : Vector Byte 8 => v[0]) hsame
    simp only [Vector.getElem_set_self] at hfirst
    bv_omega
  next h => exact h

/-- What a failed verify leaves: another value of the item, and no matching check; a lock leaves the flag (log 16). -/
theorem jobFailed_value (n : Nat) (j : StoreJob) (st : StoreImage) :
    match j with
    | .item i index w => ∃ w', w' ≠ w ∧ jobFailed n j st = { st.write i index w' with checkGood := false }
    | .passcode d => ∃ d', d' ≠ d ∧ jobFailed n j st = { st with passcode := d', checkGood := false }
    | .lockFlag => jobFailed n j st = st := by
  cases j with
  | item i index w => exact ⟨_, otherWord_ne w _, rfl⟩
  | passcode d => exact ⟨_, otherPasscode_ne d _, rfl⟩
  | lockFlag => rfl

/-- Settles O40: the good and the failed verify. -/
theorem storeWriteEnds_byVerify : Obligations.StoreWriteEnds := by
  intro s j hrest hroom hjob hpending st ends
  have hends (good : Bool) : exec (.storeWriteEnd good) s =
      .next (withNotice (if good then .storeDone else .storeFault) none (endJob good j s)) := by
    refine congrArg Host.Outcome.next ?_
    have hended : AtRest (endJob good j s) := hrest
    rw [storeWriteEnds, hjob]
    simp only [hpending, Bool.false_eq_true, if_false]
    exact settle_raise hended hroom _ _
  refine ⟨?_, jobFailed s.freeCount j st, hends false, jobFailed_value _ j st⟩
  rw [hends true]
  cases j <;> rfl

/-! ### A start that meets a store write (R188) -/

/-- The write in progress has ended and left the store given. -/
def storedBy (st : StoreImage) (s : State) : State :=
  { s with freeCount := s.freeCount + 1, settings := { s.settings with job := none, store := st } }

/-- A cold start cuts the write off, and then goes as one that found the store so. -/
theorem coldStarted_job {s : State} {j : StoreJob} (h : s.settings.job = some j) :
    coldStarted s = coldStarted (storedBy (jobCut s.freeCount j s.settings.store) s) := by
  have hjob : (resetBlocks s).settings.job = some j := h
  have hcut : cutJob (resetBlocks s) = resetBlocks (storedBy (jobCut s.freeCount j s.settings.store) s) := by
    rw [cutJob, hjob]
    rfl
  have hnone : cutJob (resetBlocks (storedBy (jobCut s.freeCount j s.settings.store) s)) =
      resetBlocks (storedBy (jobCut s.freeCount j s.settings.store) s) := rfl
  rw [coldStarted, coldStarted, hcut, hnone]

/-- The part while a warm start waits for the write to end. -/
def warmWaiting (s : State) : State :=
  { startedWith factoryPosItems { s.settings with loadPending := true, writeEnable := false, unlocked := false } s with
    positions := Vector.ofFn fun p => { items := (s.pos p).items, cardLine := (s.pos p).cardLine } }

theorem warmStarted_job {s : State} {j : StoreJob} (h : s.settings.job = some j) : warmStarted s = warmWaiting s := by
  have hjob : (resetBlocks s).settings.job = some j := h
  simp only [warmStarted]
  split
  next hnone => exact absurd (hjob.symm.trans hnone) (by simp)
  next => rfl

theorem atRest_warmWaiting (s : State) : AtRest (warmWaiting s) := by
  refine ⟨fun _ => rfl, fun p => ?_, fun _ => ⟨rfl, rfl⟩⟩
  rw [show (warmWaiting s).pos p = (resetBlocks s).pos p from rfl, pos_resetBlocks]
  rfl

/-- The settings as the load finds them, without those it replaces whatever they were. -/
def loadBase (g : Settings) : Settings :=
  { g with
    storeLocked := g.store.lockFlag, writeEnable := false, unlocked := false, lastWrite := .nothing, loadPending := false,
    loadGood := g.store.checkGood }

theorem loadWarm_loadBase (s : State) : loadWarm s = loadWarm { s with settings := loadBase s.settings } := rfl

/-- The write ends while the load waits for it, and the part loads as at a warm start. -/
theorem storeWriteEnds_waiting {s : State} {j : StoreJob} (h : s.settings.job = some j) (good : Bool) :
    storeWriteEnds good (warmWaiting s) =
      warmStarted (storedBy (if good then jobGood j s.settings.store else jobFailed s.freeCount j s.settings.store) s) := by
  have hjob : (warmWaiting s).settings.job = some j := h
  have hended : storeWriteEnds good (warmWaiting s) = loadWarm (endJob good j (warmWaiting s)) := by
    rw [storeWriteEnds, hjob]
    rfl
  have hwarm : warmStarted (storedBy (if good then jobGood j s.settings.store else jobFailed s.freeCount j s.settings.store) s) =
      loadWarm
        (resetBlocks (storedBy (if good then jobGood j s.settings.store else jobFailed s.freeCount j s.settings.store) s)) := rfl
  rw [hended, hwarm, loadWarm_loadBase, loadWarm_loadBase (resetBlocks _)]
  rfl

/-- Settles O38: the cold start's cut, then the warm start that waits and the two ends of the write. -/
theorem startMeetsStoreWrite : Obligations.StartMeetsStoreWrite := by
  intro s j hjob before cut written ended
  refine ⟨?_, fun hrestart hslot ht => ?_⟩
  · refine congrArg (fun u => Host.Outcome.next (settle u)) ((coldStarted_job hjob).trans ?_)
    cases j <;> rfl
  intro waits t
  have hout := restartReplyOut_true hrestart hslot ht
  have hends (good : Bool) (st : StoreImage)
      (hst : (if good then jobGood j before else jobFailed s.freeCount j before) = st) :
      exec (.storeWriteEnd good) t = exec .warmStart (ended st) := by
    rw [exec_warmStart (s := ended st) hout]
    exact congrArg (fun u => Host.Outcome.next (settle u)) (hst ▸ storeWriteEnds_waiting hjob good)
  refine ⟨?_, ?_, hends true _ (by cases j <;> rfl), jobFailed s.freeCount j before, hends false _ rfl, ?_⟩
  · rw [exec_warmStart hout, warmStarted_job hjob, settle_of_atRest (atRest_warmWaiting s)]
    rfl
  · exact congrArg Host.Outcome.next (settle_of_atRest (atRest_warmWaiting s))
  · exact jobFailed_value _ j before

end Sys2Proof.Machine
end

section
/-! SUPPORT and PROOF for O24. The step records of a POST payload (R6, R8, R170): the parameters of each kind, what is refused,
and records laid end to end. -/

namespace Sys2Proof.Machine

/-! ### Parameters kind by kind -/

/-- A clamp changes what lies outside its range (R8). -/
theorem applied_snd {lo hi : Nat} (h : lo ≤ hi) (n : Nat) : (applied lo hi n).2 = decide (n < lo ∨ hi < n) := by
  rw [Bool.eq_iff_iff, decide_eq_true_iff]
  simp only [applied, clampNat, bne_iff_ne]
  omega

theorem beepOf_le {b : Byte} (h : b.toNat ≤ 3) :
    beepOf b = some (if b = 0 then none else if b = 1 then some .short else if b = 2 then some .long else some .error) := by
  have hcases : b = 0 ∨ b = 1 ∨ b = 2 ∨ b = 3 := by bv_omega
  rcases hcases with rfl | rfl | rfl | rfl <;> rfl

theorem beepOf_none {b : Byte} (h : 3 < b.toNat) : beepOf b = none := by
  unfold beepOf
  split_ifs <;> first | rfl | (subst_vars; exact absurd h (by decide))

theorem modeOf_le {m : Byte} (h : m.toNat ≤ 2) :
    modeOf m = some (if m = 0 then .openKeys else if m = 1 then .amount else .concealed) := by
  have hcases : m = 0 ∨ m = 1 ∨ m = 2 := by bv_omega
  rcases hcases with rfl | rfl | rfl <;> rfl

theorem modeOf_none {m : Byte} (h : 2 < m.toNat) : modeOf m = none := by
  unfold modeOf
  split_ifs <;> first | rfl | (subst_vars; exact absurd h (by decide))

theorem all_isTextByte_iff (text : List Byte) :
    text.all isTextByte = true ↔ ∀ c ∈ text, 0x20 ≤ c.toNat ∧ c.toNat ≤ 0x7E := by
  simp [List.all_eq_true, isTextByte]

theorem stepParams_show {b : Byte} {bp : Option Beep} {text : List Byte} (hb : beepOf b = some bp) (hlen : text.length ≤ 16)
    (htext : ∀ c ∈ text, 0x20 ≤ c.toNat ∧ c.toNat ≤ 0x7E) :
    stepParams 1 (b :: text) = some (.showText bp (padRight text), false) := by
  have hgood : (text.length ≤ 16 && text.all isTextByte) = true := by
    rw [Bool.and_eq_true, all_isTextByte_iff, decide_eq_true_iff]
    exact ⟨hlen, htext⟩
  simp only [stepParams, if_true, hb, if_pos hgood]

theorem stepParams_waitCard (a lo hi : Byte) :
    stepParams 2 [a, lo, hi] = some (.waitCard (clampNat 0 4 a.toNat) (clampNat 5 300 (num2 lo hi)),
      decide (4 < a.toNat ∨ num2 lo hi < 5 ∨ 300 < num2 lo hi)) := by
  have hmark : ((applied 0 4 a.toNat).2 || (applied 5 300 (num2 lo hi)).2) =
      decide (4 < a.toNat ∨ num2 lo hi < 5 ∨ 300 < num2 lo hi) := by
    rw [applied_snd (by decide), applied_snd (by decide)]
    simp
  exact congrArg (fun mark => some (_, mark)) hmark

theorem stepParams_releaseCard {w : Byte} (h : w.toNat ≤ 1) (lo hi : Byte) :
    stepParams 4 [w, lo, hi] = some (.releaseCard (w = 1) (clampNat 5 300 (num2 lo hi)),
      decide (num2 lo hi < 5 ∨ 300 < num2 lo hi)) := by
  have hcases : w = 0 ∨ w = 1 := by bv_omega
  rw [← applied_snd (by decide)]
  rcases hcases with rfl | rfl <;> rfl

theorem stepParams_pause (lo hi : Byte) :
    stepParams 6 [lo, hi] =
      some (.pause (clampNat 1 6000 (num2 lo hi)), decide (num2 lo hi < 1 ∨ 6000 < num2 lo hi)) := by
  rw [← applied_snd (by decide)]
  rfl

theorem stepParams_collect {m : Byte} {mode : EntryMode} (h : modeOf m = some mode) (mx mn dec lim first inter lo hi : Byte) :
    stepParams 5 [m, mx, mn, dec, lim, first, inter, lo, hi] =
      some (.collect (collectParams mode mx.toNat mn.toNat dec.toNat lim.toNat first.toNat inter.toNat (num2 lo hi)).1,
        (collectParams mode mx.toNat mn.toNat dec.toNat lim.toNat first.toNat inter.toNat (num2 lo hi)).2) := by
  simp only [stepParams, h]
  rfl

/-- The mark of a COLLECT: the max length by the mode's range, the min length by the max length as applied (R8). -/
theorem collectParams_snd (mode : EntryMode) (mx mn dec lim first inter ceil : Nat) :
    let most := clampNat (if mode = .concealed then 4 else 1) 12 mx
    (collectParams mode mx mn dec lim first inter ceil).2 =
      decide (most ≠ mx ∨ mn < 1 ∨ most < mn ∨ 3 < dec ∨ 7 < lim ∨ first < 1 ∨ 120 < first ∨ inter < 1 ∨ 60 < inter ∨
        ceil < 5 ∨ 300 < ceil) := by
  intro most
  have hmost : 1 ≤ most := by
    simp only [most, clampNat]
    split_ifs <;> omega
  have hmx : (applied (if mode = .concealed then 4 else 1) 12 mx).2 = decide (most ≠ mx) := by
    rw [Bool.eq_iff_iff, decide_eq_true_iff]
    exact bne_iff_ne
  have hmn : (applied 1 (applied (if mode = .concealed then 4 else 1) 12 mx).1 mn).2 = decide (mn < 1 ∨ most < mn) :=
    applied_snd hmost mn
  simp only [collectParams, hmx, hmn, applied_snd (show 0 ≤ 3 by decide), applied_snd (show 0 ≤ 7 by decide),
    applied_snd (show 1 ≤ 120 by decide), applied_snd (show 1 ≤ 60 by decide), applied_snd (show 5 ≤ 300 by decide)]
  simp only [Nat.not_lt_zero, false_or, Bool.decide_or, Bool.or_assoc]

/-- The parameter bytes that a record's kind refuses (R6). -/
def ParamsBad (kind : Byte) (ps : List Byte) : Prop :=
  kind = 0 ∨ 6 < kind.toNat ∨
    (kind = 1 ∧ (ps.length = 0 ∨ 3 < (ps.headD 0).toNat ∨ ∃ c ∈ ps.tail, c.toNat < 0x20 ∨ 0x7E < c.toNat)) ∨
    (kind = 2 ∧ ps.length ≠ 3) ∨ (kind = 3 ∧ ps.length ≠ 0) ∨ (kind = 4 ∧ (ps.length ≠ 3 ∨ 1 < (ps.headD 0).toNat)) ∨
    (kind = 5 ∧ (ps.length ≠ 9 ∨ 2 < (ps.headD 0).toNat)) ∨ (kind = 6 ∧ ps.length ≠ 2)

theorem stepParams_unknown {kind : Byte} (h : kind = 0 ∨ 6 < kind.toNat) (ps : List Byte) : stepParams kind ps = none := by
  unfold stepParams
  split_ifs with h1 h2 h3 h4 h5 h6
  case neg => rfl
  all_goals (subst kind; exact absurd h (by decide))

theorem stepParams_show_none {ps : List Byte}
    (h : ps.length = 0 ∨ 3 < (ps.headD 0).toNat ∨ ∃ c ∈ ps.tail, c.toNat < 0x20 ∨ 0x7E < c.toNat) :
    stepParams 1 ps = none := by
  match ps with
  | [] => rfl
  | b :: text =>
    cases hb : beepOf b with
    | none => simp [stepParams, hb]
    | some bp =>
      have hlow : ¬3 < b.toNat := fun hout => by
        rw [beepOf_none hout] at hb
        cases hb
      have htext : ∃ c ∈ text, c.toNat < 0x20 ∨ 0x7E < c.toNat := by simpa [hlow] using h
      have hbad : ¬(text.length ≤ 16 && text.all isTextByte) = true := by
        rw [Bool.and_eq_true, all_isTextByte_iff]
        rintro ⟨-, hall⟩
        obtain ⟨c', hmem, hout⟩ := htext
        have hin := hall c' hmem
        omega
      simp only [stepParams, if_true, hb, if_neg hbad]

theorem stepParams_none {kind : Byte} {ps : List Byte} (h : ParamsBad kind ps) : stepParams kind ps = none := by
  rcases h with h | h | ⟨rfl, h⟩ | ⟨rfl, h⟩ | ⟨rfl, h⟩ | ⟨rfl, h⟩ | ⟨rfl, h⟩ | ⟨rfl, h⟩
  · exact stepParams_unknown (.inl h) ps
  · exact stepParams_unknown (.inr h) ps
  · exact stepParams_show_none h
  · unfold stepParams
    rw [if_neg (by decide), if_pos rfl]
    split
    · exact absurd rfl h
    · rfl
  · unfold stepParams
    rw [if_neg (by decide), if_neg (by decide), if_pos rfl]
    split
    · exact absurd rfl h
    · rfl
  · unfold stepParams
    rw [if_neg (by decide), if_neg (by decide), if_neg (by decide), if_pos rfl]
    split
    next w lo hi =>
      have hw : 1 < w.toNat := h.resolve_left fun hlen => hlen rfl
      rw [if_neg (by rintro rfl; exact absurd hw (by decide)), if_neg (by rintro rfl; exact absurd hw (by decide))]
    next => rfl
  · unfold stepParams
    rw [if_neg (by decide), if_neg (by decide), if_neg (by decide), if_neg (by decide), if_pos rfl]
    split
    next m mx mn dec lim first inter lo hi =>
      have hm : 2 < m.toNat := h.resolve_left fun hlen => hlen rfl
      rw [modeOf_none hm]
    next => rfl
  · unfold stepParams
    rw [if_neg (by decide), if_neg (by decide), if_neg (by decide), if_neg (by decide), if_neg (by decide), if_pos rfl]
    split
    · exact absurd rfl h
    · rfl

/-! ### Records end to end -/

/-- One record and what stands behind it, with fuel to spare. -/
theorem stepRecords_cons (n : Nat) (kind flags tag len : Byte) (rest : List Byte) :
    stepRecords (n + 1) (kind :: flags :: tag :: len :: rest) =
      if 17 < len.toNat ∨ rest.length < len.toNat ∨ 3 < flags.toNat then none
      else
        (stepParams kind (rest.take len.toNat)).bind fun x =>
          (stepRecords n (rest.drop len.toNat)).map fun more =>
            ({ params := x.1, tag := tag, notify := flags.getLsbD 0, stopOnFailure := flags.getLsbD 1 }, x.2) :: more := by
  simp only [stepRecords, Bool.or_eq_true, decide_eq_true_eq, or_assoc]
  split_ifs
  · rfl
  · cases stepParams kind (rest.take len.toNat) <;> cases stepRecords n (rest.drop len.toNat) <;> rfl

theorem stepRecords_short {n : Nat} {l : List Byte} (hne : l ≠ []) (h : l.length < 4) : stepRecords n l = none := by
  match n, l with
  | _, [] => exact absurd rfl hne
  | 0, _ :: _ => rfl
  | _ + 1, [_] | _ + 1, [_, _] | _ + 1, [_, _, _] => rfl

/-- The fuel does not matter where it is the length at least. -/
theorem stepRecords_fuel (n : Nat) : ∀ {m : Nat} {l : List Byte}, l.length ≤ n → l.length ≤ m →
    stepRecords n l = stepRecords m l := by
  induction n with
  | zero =>
    intro m l hn _
    obtain rfl := List.length_eq_zero_iff.1 (Nat.le_zero.1 hn)
    cases m <;> rfl
  | succ n ih =>
    intro m l hn hm
    by_cases hshort : l.length < 4
    · by_cases hne : l = []
      · subst hne
        cases m <;> rfl
      · rw [stepRecords_short hne hshort, stepRecords_short hne hshort]
    · match l, m with
      | kind :: flags :: tag :: len :: rest, m + 1 =>
        simp only [List.length_cons] at hn hm
        have hdrop : (rest.drop len.toNat).length ≤ rest.length := by
          rw [List.length_drop]
          exact Nat.sub_le _ _
        rw [stepRecords_cons, stepRecords_cons, ih (m := m) (by omega) (by omega)]
      | [], _ | [_], _ | [_, _], _ | [_, _, _], _ => simp at hshort
      | _ :: _ :: _ :: _ :: _, 0 => simp at hm

theorem postRecords_eq {l : List Byte} (h : l ≠ []) {n : Nat} (hn : l.length ≤ n) : postRecords l = stepRecords n l := by
  obtain ⟨b, rest, rfl⟩ := List.exists_cons_of_ne_nil h
  exact stepRecords_fuel _ (Nat.le_refl _) hn

/-- Records laid end to end parse one after another. -/
theorem stepRecords_append (n : Nat) : ∀ {a : List Byte} {xs : List (StepRecord × Bool)} (b : List Byte),
    a.length + b.length ≤ n → stepRecords n a = some xs →
    stepRecords n (a ++ b) = (stepRecords n b).map (xs ++ ·) := by
  induction n with
  | zero =>
    intro a xs b hn ha
    obtain rfl := List.length_eq_zero_iff.1 (show a.length = 0 by omega)
    obtain rfl := List.length_eq_zero_iff.1 (show b.length = 0 by omega)
    cases ha
    rfl
  | succ n ih =>
    intro a xs b hn ha
    by_cases hshort : a.length < 4
    · by_cases hne : a = []
      · subst hne
        cases ha
        simp
      · rw [stepRecords_short hne hshort] at ha
        cases ha
    · match a with
      | [] | [_] | [_, _] | [_, _, _] => simp at hshort
      | kind :: flags :: tag :: len :: rest =>
        simp only [List.length_cons] at hn
        rw [stepRecords_cons] at ha
        split_ifs at ha with hbad
        obtain ⟨x, hx, ha⟩ := Option.bind_eq_some_iff.1 ha
        obtain ⟨more, hmore, rfl⟩ := Option.map_eq_some_iff.1 ha
        have hlen : len.toNat ≤ rest.length := by omega
        have hbad' : ¬(17 < len.toNat ∨ (rest ++ b).length < len.toNat ∨ 3 < flags.toNat) := by
          rw [List.length_append]
          omega
        have hdrop : (rest.drop len.toNat).length ≤ rest.length := by
          rw [List.length_drop]
          exact Nat.sub_le _ _
        have hfuel : stepRecords n b = stepRecords (n + 1) b := stepRecords_fuel n (by omega) (by omega)
        simp only [List.cons_append, stepRecords_cons, if_neg hbad', List.take_append_of_le_length hlen,
          List.drop_append_of_le_length hlen, hx, Option.bind_some, ih b (by omega) hmore, hfuel, Option.map_map]
        rfl

/-- A COLLECT record (R8, R170). -/
theorem postRecords_collect {flags m : Byte} (hflags : flags.toNat ≤ 3) {mode : EntryMode} (hm : modeOf m = some mode)
    (tag mx mn dec lim first inter lo hi : Byte) :
    let c := collectParams mode mx.toNat mn.toNat dec.toNat lim.toNat first.toNat inter.toNat (num2 lo hi)
    postRecords [5, flags, tag, 9, m, mx, mn, dec, lim, first, inter, lo, hi] =
      some [({ params := .collect c.1, tag := tag, notify := flags.getLsbD 0, stopOnFailure := flags.getLsbD 1 }, c.2)] :=
  one_record 5 flags tag 9 _ _ rfl (by decide) hflags (stepParams_collect hm mx mn dec lim first inter lo hi)

/-- A SHOW record (R8, R170). -/
theorem postRecords_show {flags b : Byte} (hflags : flags.toNat ≤ 3) {bp : Option Beep} (hb : beepOf b = some bp) (tag : Byte)
    {text : List Byte} (hlen : text.length ≤ 16) (htext : ∀ c ∈ text, 0x20 ≤ c.toNat ∧ c.toNat ≤ 0x7E) :
    postRecords ([1, flags, tag, byteOf (1 + text.length), b] ++ text) =
      some
        [({ params := .showText bp (padRight text), tag := tag, notify := flags.getLsbD 0, stopOnFailure := flags.getLsbD 1 },
          false)] := by
  have hcount : (byteOf (1 + text.length)).toNat = 1 + text.length := toNat_byteOf (by omega)
  refine one_record 1 flags tag _ (b :: text) _ ?_ (by omega) hflags (stepParams_show hb hlen htext)
  rw [hcount, List.length_cons, Nat.add_comm]

/-- A record that its form or its kind refuses (R6). -/
theorem postRecords_none {kind flags tag len : Byte} {rest : List Byte}
    (h : 17 < len.toNat ∨ rest.length < len.toNat ∨ 3 < flags.toNat ∨ ParamsBad kind (rest.take len.toNat)) :
    postRecords (kind :: flags :: tag :: len :: rest) = none := by
  rw [postRecords_eq (by simp) (Nat.le_refl _), List.length_cons, stepRecords_cons]
  split_ifs with hform
  · rfl
  · obtain ⟨hlong, hmissing, hflags⟩ : ¬17 < len.toNat ∧ ¬rest.length < len.toNat ∧ ¬3 < flags.toNat := by
      simpa only [not_or] using hform
    have hparams := ((h.resolve_left hlong).resolve_left hmissing).resolve_left hflags
    rw [stepParams_none hparams]
    rfl

/-- Settles O24: the records kind by kind, the refusals, and the parsing end to end. -/
theorem stepRecordsParsed : Obligations.StepRecordsParsed := by
  refine ⟨?_, fun a ha => ?_, ?_, fun a b xs ha hb => ?_⟩
  · intro flags tag hflags rec'
    refine ⟨fun b text hb hlen htext => postRecords_show hflags (beepOf_le hb) tag hlen htext,
      fun a lo hi => one_record 2 flags tag 3 _ _ rfl (by decide) hflags (stepParams_waitCard a lo hi),
      one_record 3 flags tag 0 [] (.holdCard, false) rfl (by decide) hflags rfl,
      fun w lo hi hw => one_record 4 flags tag 3 _ _ rfl (by decide) hflags (stepParams_releaseCard hw lo hi), ?_,
      fun lo hi => one_record 6 flags tag 2 _ _ rfl (by decide) hflags (stepParams_pause lo hi)⟩
    intro m mx mn dec lim first inter lo hi hm least most
    have hmode : m = 0 ∨ m = 1 ∨ m = 2 := by bv_omega
    have hmark := collectParams_snd (if m = 0 then .openKeys else if m = 1 then .amount else .concealed) mx.toNat mn.toNat
      dec.toNat lim.toNat first.toNat inter.toNat (num2 lo hi)
    rw [postRecords_collect hflags (modeOf_le hm)]
    simp only [hmark]
    rcases hmode with rfl | rfl | rfl <;> rfl
  · by_cases hne : a = []
    · rw [hne]
      rfl
    · rw [postRecords_eq hne (Nat.le_refl _), stepRecords_short hne ha]
  · intro kind flags tag len rest ps h
    refine postRecords_none ?_
    by_cases hshort : rest.length < len.toNat
    · exact .inr (.inl hshort)
    have hlen : ps.length = len.toNat := by
      rw [List.length_take]
      omega
    have hsame (n : Byte) : ps.length ≠ n.toNat ↔ len ≠ n := by
      rw [hlen, ne_eq, BitVec.toNat_inj]
    have hempty : ps.length = 0 ↔ len = 0 := by
      rw [hlen]
      exact BitVec.toNat_inj (y := 0)
    unfold ParamsBad
    rw [show (rest.take len.toNat).length = ps.length from rfl]
    have h3 := hsame 3
    have h0 := hsame 0
    have h9 := hsame 9
    have h2 := hsame 2
    simp only [BitVec.reduceToNat] at h3 h0 h9 h2
    rw [h3, h0, h9, h2, hempty]
    exact h
  · have hne : a ≠ [] := by
      rintro rfl
      cases ha
    rw [postRecords_eq hne (Nat.le_add_right _ b.length)] at ha
    rw [postRecords_eq (by simp [hne]) (List.length_append ..).le, postRecords_eq hb (Nat.le_add_left _ a.length),
      stepRecords_append _ _ (Nat.le_refl _) ha]

end Sys2Proof.Machine
end

section
/-! SUPPORT and PROOF for O25, O26 and O27. POST at a position (R6, R7): records appended, and the start of a PAUSE and of a WAIT
CARD. -/

namespace Sys2Proof.Machine

/-- Only what a position holds matters of a change to it. -/
theorem State.modPos_congr {s : State} {p : Pos} {f g : Position → Position} (h : f (s.pos p) = g (s.pos p)) :
    s.modPos p f = s.modPos p g := congrArg (s.setPos p) h

/-! ### Records appended, or refused (R7) -/

theorem handlePost_records {p : Pos} {payload : List Byte} {rs : List (StepRecord × Bool)} (s : State)
    (h : postRecords payload = some rs) :
    handlePost p payload s =
      if s.freeRecords < rs.length ∨ 12 < (s.pos p).chain.length + rs.length then
        { state := s, code := .noRoom, fields := [0, byteOf (s.pos p).chain.length, byteOf s.freeRecords, 0, 0] }
      else
        { state := appendRecords p (rs.map Prod.fst) s, code := .ok,
          fields := [byteOf rs.length, byteOf ((s.pos p).chain.length + rs.length), byteOf (s.freeRecords - rs.length)] ++
            wordBytes (wordOfNat (markBits (rs.map Prod.snd))) } := by
  rw [handlePost, h]
  simp only [Bool.or_eq_true, decide_eq_true_eq]
  rfl

/-- Records join a chain that is not IDLE. -/
theorem appendRecords_tail {p : Pos} {s : State} (h : (s.pos p).chainState ≠ .idle) (rs : List StepRecord) :
    appendRecords p rs s =
      State.modPos { s with freeRecords := s.freeRecords - rs.length } p fun v => { v with chain := v.chain ++ rs } := by
  unfold appendRecords
  refine State.modPos_congr ?_
  rw [if_neg (by exact h)]

/-- Records at the tail start nothing at a chain that is HALTED, or RUNNING with records. -/
theorem startDue_append {v : Position} (h : v.chainState = .halted ∨ (v.chainState = .running ∧ v.chain ≠ []))
    (hdue : startDue v = false) (rs : List StepRecord) : startDue { v with chain := v.chain ++ rs } = false := by
  rcases h with h | ⟨h, hne⟩
  · simp [startDue, h]
  · obtain ⟨r, rest, hchain⟩ := List.exists_cons_of_ne_nil hne
    simpa [startDue, h, hchain, Position.inFlight, Position.headProgress] using hdue

/-- Settles O25: the form of the payload, the room, then the tail. -/
theorem postAppendsOrRefuses : Obligations.PostAppendsOrRefuses := by
  intro s pos tag payload hready hpos hlen p c hchain
  rw [exec_request (f := request .post pos tag payload) rfl]
  have hanswer := answer_position .post tag payload hready hpos (by decide)
  split
  next hnone =>
    have hrule : handlePost p payload (counted s) = refuse (counted s) .badArg := by rw [handlePost, hnone]
    exact congrArg _ (sendRequest_refuse _ _ _ _ hready.toLinkFree hlen (by decide) (hanswer.trans hrule))
  next rs hrs =>
    have hrule := hanswer.trans (handlePost_records (counted s) hrs)
    by_cases hfull : s.freeRecords < rs.length ∨ 12 < c + rs.length
    · rw [if_pos hfull]
      have hsent := sendRequest_refused hready.toLinkFree _ hlen (by decide) (hrule.trans (if_pos hfull))
        (counted_rest hready.rest) rfl
      exact congrArg _ hsent
    · rw [if_neg hfull]
      have hstate : (s.pos p).chainState = .halted ∨ ((s.pos p).chainState = .running ∧ (s.pos p).chain ≠ []) := by
        rcases hchain with h | h | h
        · exact .inl h
        · exact .inr h
        · exact absurd (h rs hrs) hfull
      have hidle : (s.pos p).chainState ≠ .idle := by
        rcases hstate with h | ⟨h, -⟩ <;> rw [h] <;> decide
      rw [appendRecords_tail (s := counted s) hidle, List.length_map] at hrule
      exact congrArg _ (sendRequest_answer _ _ _ _ hready.toLinkFree hlen (hrule.trans (if_neg hfull))
        (atRest_modPos (s := { counted s with freeRecords := s.freeRecords - rs.length }) (by exact counted_rest hready.rest) p _
          (startDue_append hstate (hready.rest.2.1 p) _)))

/-! ### A PAUSE starts (R16) -/

/-- A PAUSE needs no port, and its timer runs from its start. -/
theorem startHead_pause {s : State} {p : Pos} {r : StepRecord} {rest : List StepRecord} {d : Nat}
    (hc : (s.pos p).chain = r :: rest) (hr : r.params = .pause d) :
    startHead p s = s.modPos p fun v =>
      { v with
        cardLeftTimer := .stopped
        chain := { r with progress := some (.active (.pause (.running (d * 10)))) } :: rest } := by
  unfold startHead
  rw [hc]
  simp only [hr, StepParams.kind, StepKind.port, startAttempts]
  unfold activate
  rw [State.pos_modPos_self, hc]
  simp only [hr, State.setProgress_eq, State.modPos_modPos]
  refine State.modPos_congr ?_
  simp [Position.setProgress, hc, hr]

/-- One record has been posted to an empty chain, with the reply `f` placed, and is due to start. -/
def enqueued (p : Pos) (r : StepRecord) (f : Frame) (s : State) : State :=
  State.modPos { counted s with freeRecords := s.freeRecords - 1, link := { s.link with slot := some f } } p fun v =>
    { v with chain := [r], chainState := .running }

theorem pos_enqueued (p : Pos) (r : StepRecord) (f : Frame) (s : State) :
    (enqueued p r f s).pos p = { s.pos p with chain := [r], chainState := .running } := State.pos_modPos_self _ _ _

/-- A change of the position after the record is posted, as one of the posted and started record. -/
theorem enqueued_modPos {p : Pos} {r r' : StepRecord} {f : Frame} {s : State} {g h : Position → Position}
    (hgh : g { s.pos p with chain := [r], chainState := .running } =
      h { s.pos p with chain := [r'], chainState := .running, cardLeftTimer := .stopped }) :
    (enqueued p r f s).modPos p g =
      { State.modPos (posted p r' s) p h with link := { s.link with slot := some f } } := by
  unfold enqueued posted
  rw [State.modPos_modPos, State.modPos_modPos]
  exact congrArg
    (State.setPos { counted s with freeRecords := s.freeRecords - 1, link := { s.link with slot := some f } } p) hgh

theorem post_enqueued {s : State} {pos tag : Byte} {payload : List Byte} {r : StepRecord} {b : Bool} (h : LinkReady s)
    (hpos : pos.toNat < 8) (hlen : payload.length ≤ 61) (hr : postRecords payload = some [(r, b)])
    (hidle : EmptyIdle (positionOf s.variant pos) s) (hnew : r.progress = none) :
    sendRequest (request .post pos tag payload) s =
      settle (startHead (positionOf s.variant pos) (enqueued (positionOf s.variant pos) r (postReply pos tag s b) s)) :=
  post_one h hpos hlen hr hidle hnew

/-- Settles O26: the record is posted, and starts. -/
theorem postStartsPause : Obligations.PostStartsPause := by
  intro s pos tag flags rtag lo hi hready hpos hflags p d hidle
  rw [exec_request (f := request .post pos tag [6, flags, rtag, 2, lo, hi]) rfl]
  refine congrArg Host.Outcome.next ?_
  have hrecords := one_record 6 flags rtag 2 [lo, hi] _ rfl (by decide) hflags (stepParams_pause lo hi)
  have hmark : (num2 lo hi < 1 || 6000 < num2 lo hi) = decide (num2 lo hi < 1 ∨ 6000 < num2 lo hi) := by simp
  rw [post_enqueued hready hpos (by simp) hrecords hidle rfl, startHead_pause (congrArg Position.chain (pos_enqueued _ _ _ _)) rfl,
    enqueued_modPos (h := id) rfl, hmark, State.modPos_id _ _ _ rfl]
  exact settle_slot (rest_posted hready.rest p _ (by simp)) _

/-! ### A WAIT CARD starts (R9, R12) -/

/-- A posted WAIT CARD with its attempts set (R8, R9). -/
def attempted (p : Pos) (r : StepRecord) (limit : Nat) (s : State) : State :=
  State.modPos (posted p r s) p fun v => { v with attemptCount := 0, attemptLimit := limit }

/-- The start of a posted WAIT CARD by its reader port (R9). -/
theorem startHead_waitCard {p : Pos} {r : StepRecord} {f : Frame} {s : State} {a t : Nat} (hr : r.params = .waitCard a t) :
    startHead p (enqueued p r f s) =
      let s1 : State :=
        { attempted p r (if a = 0 then s.settings.live.attempts.toNat else a) s with link := { s.link with slot := some f } }
      match (s.pos p).reader.state with
      | .ready => activateWaitCard p t s1
      | .starting => s1.setProgress p .waitingPort
      | st => endStep p (portOutcome st) .nothing s1 := by
  have hport : r.params.kind.port = some .reader := by rw [hr]; rfl
  have hstart := startHead_port (congrArg Position.chain (pos_enqueued p r f s)) hport
  have hs1 : (enqueued p r f s).modPos p (fun v => startAttempts (enqueued p r f s).settings.live r.params
      { v with cardLeftTimer := .stopped }) =
      { attempted p r (if a = 0 then s.settings.live.attempts.toNat else a) s with link := { s.link with slot := some f } } := by
    refine enqueued_modPos ?_
    rw [hr]
    rfl
  have hactivate : activate p
      { attempted p r (if a = 0 then s.settings.live.attempts.toNat else a) s with link := { s.link with slot := some f } } =
      activateWaitCard p t
        { attempted p r (if a = 0 then s.settings.live.attempts.toNat else a) s with link := { s.link with slot := some f } } := by
    have hchain : ((attempted p r (if a = 0 then s.settings.live.attempts.toNat else a) s).pos p).chain = [r] := by
      rw [attempted, State.pos_modPos_self, pos_posted_self]
    unfold activate
    rw [show (State.pos { attempted p r (if a = 0 then s.settings.live.attempts.toNat else a) s with
      link := { s.link with slot := some f } } p).chain = [r] from hchain]
    simp only [hr]
  rw [hstart, pos_enqueued, hs1]
  simp only [hactivate]
  rfl

/-- What becomes of the record at its freeing does not depend on how far its step had come. -/
theorem stepFreed_attempted (p : Pos) (b : Bool) (r r' : StepRecord) (limit : Nat) (s : State) :
    stepFreed p b (attempted p r limit s) = stepFreed p b (attempted p r' limit s) := by
  refine State.ext_pos (fun q => ?_) rfl
  rw [pos_stepFreed, pos_stepFreed]
  by_cases e : q = p
  · rw [if_pos e, if_pos e, attempted, attempted, State.pos_modPos_self, State.pos_modPos_self, pos_posted_self, pos_posted_self]
    rfl
  · rw [if_neg e, if_neg e, attempted, attempted, State.pos_modPos_ne _ e, State.pos_modPos_ne _ e, pos_posted_ne e, pos_posted_ne e]

theorem State.setProgress_modPos {s : State} {p : Pos} {h : Position → Position} {g : Progress}
    (hcomm : (h (s.pos p)).setProgress g = h ((s.pos p).setProgress g)) :
    (s.modPos p h).setProgress p g = (s.setProgress p g).modPos p h := by
  rw [State.setProgress_eq, State.setProgress_eq, State.modPos_modPos, State.modPos_modPos]
  exact State.modPos_congr hcomm

/-- A posted WAIT CARD goes on in its life. -/
theorem attempted_setProgress (p : Pos) (r : StepRecord) (limit : Nat) (s : State) (L : Link) (g : Progress) :
    ({ attempted p r limit s with link := L } : State).setProgress p g =
      { attempted p { r with progress := some g } limit s with link := L } := by
  refine (State.setProgress_modPos (s := { posted p r s with link := L })
    (h := fun v => { v with attemptCount := 0, attemptLimit := limit }) ?_).trans ?_
  · rw [show ({ posted p r s with link := L } : State).pos p = (posted p r s).pos p from rfl, pos_posted_self]
    rfl
  · rw [posted_setProgress]
    rfl

theorem atRest_attempted {s : State} (h : AtRest s) (p : Pos) {r : StepRecord} (hr : r.progress ≠ none) (limit : Nat) :
    AtRest (attempted p r limit s) := by
  have hposted := rest_posted h p r hr
  exact atRest_modPos hposted p _ (hposted.2.1 p)

/-- A step that a lost port ends halts its chain, but for a port that is OFF (R20). -/
theorem halts_portOutcome (r : StepRecord) {o : StepOutcome} (ho : o = .portOff ∨ o = .portFault ∨ o = .deviceAbsent) :
    ({ r with progress := some (.completing o .nothing false) } : StepRecord).halts = (o != .portOff || r.stopOnFailure) := by
  rcases ho with rfl | rfl | rfl <;> simp only [StepRecord.halts] <;> cases r.stopOnFailure <;> rfl

/-- The posted WAIT CARD ends at its start, the reply before its report (logs 11 and 15). -/
theorem settle_attempted_ends {p : Pos} {r : StepRecord} {a t : Nat} (hr : r.params = .waitCard a t) {limit : Nat} {f : Frame}
    {s : State} (hrest : AtRest s) (hroom : s.queue.length < 32) (hwaiting : (s.pos p).waiting = []) {o : StepOutcome}
    (ho : o = .portOff ∨ o = .portFault ∨ o = .deviceAbsent) :
    settle (endStep p o .nothing { attempted p r limit s with link := { s.link with slot := some f } }) =
      { withReply f (stepFreed p (o != .portOff || r.stopOnFailure)
          (attempted p { r with progress := some (.completing o .nothing false) } limit s)) with
        queue := s.queue ++ [.cardSegment p 1 [] (some { tag := r.tag, outcome := o, data := {}, total := 0 })] } := by
  have hpos : (attempted p r limit s).pos p =
      { s.pos p with
        chain := [r], chainState := .running, cardLeftTimer := .stopped, attemptCount := 0, attemptLimit := limit } := by
    rw [attempted, State.pos_modPos_self, pos_posted_self]
  have hne : o ≠ .done := by rcases ho with rfl | rfl | rfl <;> decide
  have hreport : failureReport p r o = .cardSegment p 1 [] (some { tag := r.tag, outcome := o, data := {}, total := 0 }) := by
    rw [failureReport, hr]
  have hfreed (b : Bool) : AtRest (stepFreed p b (attempted p r limit s)) := by
    rw [stepFreed_attempted p b r { r with progress := some .waitingPort }]
    exact atRest_stepFreed (atRest_attempted hrest p (by simp) limit) p b
  have hended := settle_slot_endStep (s := attempted p r limit s) (hrest.1 hroom) hroom (by rw [hpos]; exact hwaiting)
    (congrArg Position.chain hpos) (due_fail r hne) (completionReports_failure p r hne) (failureReport_frees p r o).1 f
    ((failureReport_frees p r o).2 _) (hfreed _)
  rw [halts_portOutcome r ho, stepFreed_attempted _ _ r { r with progress := some (.completing o .nothing false) }, hreport]
    at hended
  exact hended

/-- Settles O27: the reader port's five states. -/
theorem postStartsWaitCard : Obligations.PostStartsWaitCard := by
  intro s pos tag flags rtag a lo hi hready hpos hflags p attempts t limit r reply started ended hidle hroom hwaiting
  rw [exec_request (f := request .post pos tag [2, flags, rtag, 3, a, lo, hi]) rfl]
  refine congrArg Host.Outcome.next ?_
  have hrecords := one_record 2 flags rtag 3 [a, lo, hi] _ rfl (by decide) hflags (stepParams_waitCard a lo hi)
  have hmark : (4 < a.toNat || num2 lo hi < 5 || 300 < num2 lo hi) =
      decide (4 < a.toNat ∨ num2 lo hi < 5 ∨ 300 < num2 lo hi) := by simp [Bool.or_assoc]
  have hreply : postReply pos tag s (decide (4 < a.toNat ∨ num2 lo hi < 5 ∨ 300 < num2 lo hi)) = reply := by
    rw [← hmark]
  rw [post_enqueued hready hpos (by simp) hrecords hidle rfl, startHead_waitCard rfl, hreply]
  cases hport : (s.pos p).reader.state with
  | ready =>
    have hactive := attempted_setProgress p { r .waitingPort with progress := none } limit s
      { s.link with slot := some reply } (.active (.card (.running (t * 1000))))
    have harmed : activateWaitCard p t { attempted p { r .waitingPort with progress := none } limit s with
        link := { s.link with slot := some reply } } =
        { State.modPos (started (.active (.card (.running (t * 1000))))) p fun v => { v with pass := { v.pass with armed := true } }
          with link := { s.link with slot := some reply } } := by
      refine (State.setProgress_modPos (h := fun v => { v with pass := { v.pass with armed := true } }) ?_).trans
        (congrArg (State.modPos · p _) hactive)
      unfold Position.setProgress
      dsimp only
      split <;> rfl
    have hrest := atRest_attempted hready.rest p (r := r (.active (.card (.running (t * 1000))))) (by simp) limit
    exact (congrArg settle harmed).trans (settle_slot (atRest_modPos hrest p _ (hrest.2.1 p)) reply)
  | starting =>
    exact (congrArg settle (attempted_setProgress p { r .waitingPort with progress := none } limit s _ .waitingPort)).trans
      (settle_slot (atRest_attempted hready.rest p (by simp) limit) reply)
  | off => exact settle_attempted_ends rfl hready.rest hroom hwaiting (.inl rfl)
  | fault => exact settle_attempted_ends rfl hready.rest hroom hwaiting (.inr (.inl rfl))
  | absent => exact settle_attempted_ends rfl hready.rest hroom hwaiting (.inr (.inr rfl))

end Sys2Proof.Machine
end

section
/-! SUPPORT and PROOF for O55. The echo of an entry (R100 to R102). -/

namespace Sys2Proof.Machine

theorem length_padLeft {text : List Byte} (h : text.length ≤ 16) : (padLeft text).length = 16 := by
  simp only [padLeft, List.length_append, List.length_replicate]
  omega

theorem amountText_zero (buffer : List (Fin 10)) :
    amountText 0 buffer = if buffer.map digitChar = [] then [0x30] else buffer.map digitChar := by
  simp [amountText]

/-- With decimals, the point stands before the last of the padded digits. -/
theorem amountText_point {d : Nat} (hd : 0 < d) {buffer : List (Fin 10)} {whole frac : List Byte}
    (h : whole ++ frac = List.replicate (d + 1 - (buffer.map digitChar).length) 0x30 ++ buffer.map digitChar)
    (hfrac : frac.length = d) : amountText d buffer = whole ++ [0x2E] ++ frac := by
  have hwhole : (whole ++ frac).length - d = whole.length := by
    rw [List.length_append]
    omega
  simp only [amountText, if_neg (Nat.pos_iff_ne_zero.1 hd), ← h, hwhole, List.take_left', List.drop_left', List.append_assoc,
    List.singleton_append]

theorem length_amountText {d : Nat} (hd : d ≤ 3) {buffer : List (Fin 10)} (hbuffer : buffer.length ≤ 12) :
    (amountText d buffer).length ≤ 16 := by
  unfold amountText
  simp only
  split_ifs
  · simp
  · simpa using Nat.le_trans hbuffer (by decide)
  · simp only [List.length_append, List.length_cons, List.length_take, List.length_drop, List.length_replicate, List.length_map]
    omega

section mode

variable {e : EntryUnit}

theorem echoText_open (h : e.mode = .openKeys) : echoText e = none := by
  rw [echoText, h]

theorem echoText_amount (h : e.mode = .amount) : echoText e = some (padLeft (amountText e.decimals e.buffer)) := by
  rw [echoText, h]

theorem echoText_concealed (h : e.mode = .concealed) :
    echoText e = some (List.replicate e.buffer.length 0x2A ++ List.replicate (16 - e.buffer.length) 0x20) := by
  rw [echoText, h]
  simp only [concealedEcho, padRight, List.length_replicate]

/-- The echo of an amount without decimals. -/
theorem echoText_whole (h : e.mode = .amount) (hd : e.decimals = 0) :
    echoText e =
      some (if e.buffer.map digitChar = [] then List.replicate 15 0x20 ++ [0x30]
        else List.replicate (16 - (e.buffer.map digitChar).length) 0x20 ++ e.buffer.map digitChar) := by
  rw [echoText_amount h, hd, amountText_zero]
  split <;> rfl

/-- The echo of an amount with decimals. -/
theorem echoText_point (h : e.mode = .amount) (hd : 0 < e.decimals) {whole frac : List Byte}
    (hdigits : whole ++ frac =
      List.replicate (e.decimals + 1 - (e.buffer.map digitChar).length) 0x30 ++ e.buffer.map digitChar)
    (hfrac : frac.length = e.decimals) :
    echoText e =
      some (List.replicate (16 - (whole.length + 1 + frac.length)) 0x20 ++ whole ++ [0x2E] ++ frac) := by
  rw [echoText_amount h, amountText_point hd hdigits hfrac, padLeft]
  simp only [List.length_append, List.length_singleton, List.append_assoc, Nat.add_assoc]

end mode

/-- Settles O55: mode by mode. -/
theorem echoShapes : Obligations.EchoShapes := by
  intro e hbuffer hdecimals digits spaces
  refine ⟨echoText_open, fun hmode => ?_, echoText_concealed, echoText_whole,
    fun hmode hd whole frac hdigits hfrac => echoText_point hmode hd hdigits hfrac⟩
  cases hcase : e.mode with
  | openKeys => exact absurd hcase hmode
  | amount => exact ⟨_, echoText_amount hcase, length_padLeft (length_amountText hdecimals hbuffer)⟩
  | concealed =>
    refine ⟨_, echoText_concealed hcase, ?_⟩
    simp only [List.length_append, List.length_replicate]
    omega

end Sys2Proof.Machine
end

section
/-! SUPPORT and PROOF for O28. POST of a COLLECT or a SHOW at a READY keypad (R11, R15, R80, R82, R88): the posted record goes on
at once, and what its start hands to the keypad line. -/

namespace Sys2Proof.Machine

/-- A posted and started record with other changes of its position leaves the part at rest. -/
theorem atRest_posted_modPos {s : State} (h : AtRest s) (p : Pos) {r : StepRecord} (hr : r.progress ≠ none)
    {f : Position → Position} (hf : ∀ v, (f v).chainState = v.chainState ∧ (f v).chain = v.chain) :
    AtRest ((posted p r s).modPos p f) := by
  have hposted := rest_posted h p r hr
  refine atRest_modPos hposted p f ?_
  have hdue := hposted.2.1 p
  obtain ⟨hstate, hchain⟩ := hf ((posted p r s).pos p)
  simpa [startDue, Position.inFlight, Position.headProgress, hstate, hchain] using hdue

/-- A posted and started record, with the reply `f` placed. -/
def postedWith (p : Pos) (r : StepRecord) (f : Frame) (s : State) : State :=
  { posted p r s with link := { s.link with slot := some f } }

theorem pos_postedWith (p : Pos) (r : StepRecord) (f : Frame) (s : State) :
    (postedWith p r f s).pos p = { s.pos p with chain := [r], chainState := .running, cardLeftTimer := .stopped } :=
  pos_posted_self p r s

theorem postedWith_setProgress (p : Pos) (r : StepRecord) (f : Frame) (s : State) (g : Progress) :
    (postedWith p r f s).setProgress p g = postedWith p { r with progress := some g } f s := posted_setProgress p r s g _

theorem settle_postedWith {s : State} (h : AtRest s) (p : Pos) {r : StepRecord} (hr : r.progress ≠ none)
    {f : Position → Position} (hf : ∀ v, (f v).chainState = v.chainState ∧ (f v).chain = v.chain) (reply : Frame) :
    settle ((postedWith p r reply s).modPos p f) = withReply reply ((posted p r s).modPos p f) :=
  settle_slot (atRest_posted_modPos h p hr hf) reply

/-- The POST of one record whose port is READY: its work begins on the posted record. -/
theorem post_activates {s : State} {pos tag : Byte} {payload : List Byte} {r : StepRecord} {b : Bool} (hready : LinkReady s)
    (hpos : pos.toNat < 8) (hlen : payload.length ≤ 61) (hrecords : postRecords payload = some [(r, b)])
    (hidle : EmptyIdle (positionOf s.variant pos) s) (hnew : r.progress = none) {k : PortKind}
    (hk : r.params.kind.port = some k) (hcard : r.params.kind ≠ .waitCard)
    (hport : ((s.pos (positionOf s.variant pos)).port k).state = .ready) :
    sendRequest (request .post pos tag payload) s =
      settle (activate (positionOf s.variant pos)
        (postedWith (positionOf s.variant pos) r (postReply pos tag s b) s)) :=
  post_ready hready hpos hlen hrecords hidle hnew hk hcard hport

/-- What enters ACTIVE is the posted record. -/
theorem activate_postedWith (p : Pos) (r : StepRecord) (f : Frame) (s : State) :
    activate p (postedWith p r f s) =
      match r.params with
      | .showText beep text => activateShow p beep text (postedWith p r f s)
      | .waitCard _ timeout => activateWaitCard p timeout (postedWith p r f s)
      | .holdCard => activateHoldCard p (postedWith p r f s)
      | .releaseCard waitRemoval timeout => activateReleaseCard p waitRemoval timeout (postedWith p r f s)
      | .collect c => activateCollect p c (postedWith p r f s)
      | .pause duration => (postedWith p r f s).setProgress p (.active (.pause (.running (duration * 10)))) := by
  unfold activate
  rw [pos_postedWith] <;> rfl

/-! ### A COLLECT opens its session (R15, R88) -/

/-- The session that a COLLECT opens. -/
def openedEntry (c : CollectParams) : EntryUnit :=
  { state := .collecting, mode := c.mode, maxLen := c.maxLen, minLen := c.minLen, decimals := c.decimals,
    clearLimit := c.clearLimit, clearCount := 0, firstKey := .running (c.firstKey * 1000), interKey := .stopped,
    ceiling := .running (c.ceiling * 1000), buffer := [] }

/-- The first echo of a session: nothing in OPEN mode, zero in AMOUNT mode, blank in CONCEALED mode. -/
def firstEcho (mode : EntryMode) (decimals : Nat) : Option (List Byte) :=
  match mode with
  | .openKeys => none
  | .amount => some (if decimals = 0 then List.replicate 15 0x20 ++ [0x30]
      else List.replicate (14 - decimals) 0x20 ++ [0x30, 0x2E] ++ List.replicate decimals 0x30)
  | .concealed => some (List.replicate 16 0x20)

theorem echoText_openedEntry (c : CollectParams) : echoText (openedEntry c) = firstEcho c.mode c.decimals := by
  cases hmode : c.mode with
  | openKeys => exact echoText_open hmode
  | concealed => exact echoText_concealed hmode
  | amount =>
    by_cases hd : c.decimals = 0
    · rw [echoText_whole hmode hd, firstEcho, if_pos hd]
      rfl
    · have hpos : 0 < (openedEntry c).decimals := Nat.pos_iff_ne_zero.2 hd
      rw [echoText_point (whole := [0x30]) (frac := List.replicate c.decimals 0x30) hmode hpos ?_ List.length_replicate, firstEcho,
        if_neg hd, List.length_replicate, List.length_singleton]
      · have hspaces : 16 - (1 + 1 + c.decimals) = 14 - c.decimals := by omega
        simp only [hspaces, List.append_assoc, List.cons_append, List.nil_append]
      · simp [openedEntry, List.replicate_succ]

/-- The echo of a session is handed to the display of a READY keypad (R80, R100). -/
theorem handEcho_ready {p : Pos} {s : State} (h : (s.pos p).keypad.state = .ready) :
    handEcho p s = s.modPos p fun v =>
      { v with
        key := match echoText (s.pos p).entry with
          | none => v.key
          | some text => if v.key.display then takeContent text v.key else v.key } := by
  unfold handEcho
  cases echoText (s.pos p).entry with
  | none => exact (State.modPos_id _ _ _ rfl).symm
  | some text =>
    refine State.modPos_congr ?_
    simp only [h, decide_true, Bool.true_and]
    split <;> rfl

/-- The session of a COLLECT opens at a READY keypad, and its echo is handed to the display. -/
theorem activateCollect_ready {p : Pos} {s : State} (h : (s.pos p).keypad.state = .ready) (c : CollectParams) :
    activateCollect p c s =
      (s.setProgress p (.active .session)).modPos p fun v =>
        { v with
          entry := openedEntry c
          key := match firstEcho c.mode c.decimals with
            | none => v.key
            | some text => if v.key.display then takeContent text v.key else v.key } := by
  have hready : ((s.setProgress p (.active .session)).pos p).keypad.state = .ready := by
    rw [State.setProgress_eq, State.pos_modPos_self]
    unfold Position.setProgress
    split <;> exact h
  show handEcho p ((s.setProgress p (.active .session)).modPos p fun v => { v with entry := openedEntry c }) = _
  rw [handEcho_ready (by rw [State.pos_modPos_self]; exact hready), State.pos_modPos_self, State.modPos_modPos]
  dsimp only
  rw [echoText_openedEntry]

/-- The POST of a COLLECT at a READY keypad. -/
theorem sendRequest_postCollect {s : State} {pos tag : Byte} {payload : List Byte} {r : StepRecord} {b : Bool}
    {c : CollectParams} (hready : LinkReady s) (hpos : pos.toNat < 8) (hlen : payload.length ≤ 61)
    (hrecords : postRecords payload = some [(r, b)]) (hidle : EmptyIdle (positionOf s.variant pos) s)
    (hnew : r.progress = none) (hr : r.params = .collect c)
    (hkeypad : (s.pos (positionOf s.variant pos)).keypad.state = .ready) :
    sendRequest (request .post pos tag payload) s =
      withReply (postReply pos tag s b)
        ((posted (positionOf s.variant pos) { r with progress := some (.active .session) } s).modPos (positionOf s.variant pos)
          fun v =>
            { v with
              entry := openedEntry c
              key := match firstEcho c.mode c.decimals with
                | none => v.key
                | some text => if v.key.display then takeContent text v.key else v.key }) := by
  have hcard : r.params.kind ≠ .waitCard := by
    rw [hr]
    exact fun h => nomatch h
  rw [post_activates hready hpos hlen hrecords hidle hnew (k := .keypad) (by rw [hr]; rfl) hcard hkeypad]
  generalize positionOf s.variant pos = p at *
  have hactivate : activate p (postedWith p r (postReply pos tag s b) s) =
      activateCollect p c (postedWith p r (postReply pos tag s b) s) := by rw [activate_postedWith, hr]
  rw [hactivate, activateCollect_ready (by rw [pos_postedWith]; exact hkeypad), postedWith_setProgress]
  exact settle_postedWith hready.rest p (by simp) (by exact fun _ => ⟨rfl, rfl⟩) _

/-! ### A SHOW is written, or ends without a display (R11, R82) -/

/-- The key unit after a SHOW has asked its beep. -/
def beepAsked (beep : Option Beep) (u : KeyUnit) : KeyUnit :=
  if beep ≠ none ∧ u.beeper = true then { u with waitingBeep := beep } else u

theorem askShowBeep_ready {p : Pos} {s : State} (h : (s.pos p).keypad.state = .ready) (beep : Option Beep) :
    askShowBeep p beep s = s.modPos p fun v => { v with key := beepAsked beep v.key } := by
  cases beep with
  | none => exact (State.modPos_id _ _ _ (by simp [beepAsked])).symm
  | some b =>
    refine State.modPos_congr ?_
    simp only [h, decide_true, Bool.true_and, beepAsked, ne_eq, reduceCtorEq, not_false_eq_true, true_and]
    split <;> rfl

/-- The SHOW's text is handed to the display. -/
def textHanded (text : List Byte) (u : KeyUnit) : KeyUnit :=
  if u.outstanding = none then
    { u with outstanding := some text, ackTimer := .running 200, lastOut := some (.write text) }
  else { u with pendingContent := some text }

theorem takeContent_eq (text : List Byte) (u : KeyUnit) : takeContent text u = textHanded text u := by
  unfold takeContent textHanded
  cases u.outstanding <;> rfl

/-- Content handed to the display of a READY keypad. -/
theorem handContent_ready {s : State} {p : Pos} (hkeypad : (s.pos p).keypad.state = .ready)
    (hdisplay : (s.pos p).key.display = true) (text : List Byte) :
    handContent p text s = s.modPos p fun v => { v with key := textHanded text v.key } := by
  refine State.modPos_congr ?_
  simp only [hkeypad, hdisplay, decide_true, Bool.true_and, if_true, takeContent_eq]

/-- A step that ends DONE is reported where its record asks for it, a WAIT CARD always (R19). -/
theorem reportDue_done {r : StepRecord} (h : r.params.kind ≠ .waitCard) : r.reportDue .done = r.notify := by
  simp [StepRecord.reportDue, h, StepOutcome.isFailure]

section showStart

variable {s : State} {p : Pos} {r : StepRecord} {reply : Frame} {beep : Option Beep} {text : List Byte}

/-- The posted SHOW at a READY keypad with a display waits for the write that carries its text. -/
theorem activateShow_display (hkeypad : (s.pos p).keypad.state = .ready) (hdisplay : (s.pos p).key.display = true) :
    activateShow p beep text (postedWith p r reply s) =
      (postedWith p { r with progress := some (.active (.display (decide ((s.pos p).key.outstanding = none)))) } reply s).modPos p
        fun v => { v with key := beepAsked beep (textHanded text v.key) } := by
  have hfree : (s.pos p).key.outstanding.isNone = decide ((s.pos p).key.outstanding = none) := by
    cases (s.pos p).key.outstanding <;> rfl
  have hpos := pos_postedWith p r reply s
  unfold activateShow
  simp only [hpos, hdisplay, if_true, hfree]
  rw [handContent_ready (by rw [hpos]; exact hkeypad) (by rw [hpos]; exact hdisplay), State.setProgress_modPos (by rw [hpos]; rfl),
    postedWith_setProgress, askShowBeep_ready (by rw [State.pos_modPos_self, pos_postedWith]; exact hkeypad),
    State.modPos_modPos]

/-- The posted SHOW at a READY keypad without one ends at once. -/
theorem activateShow_noDisplay (hkeypad : (s.pos p).keypad.state = .ready) (hdisplay : (s.pos p).key.display = false) :
    activateShow p beep text (postedWith p r reply s) =
      endStep p .done .noDisplay
        ((postedWith p { r with progress := some (.active (.display false)) } reply s).modPos p fun v =>
          { v with key := beepAsked beep v.key }) := by
  unfold activateShow
  simp only [pos_postedWith, hdisplay, Bool.false_eq_true, if_false]
  rw [postedWith_setProgress, askShowBeep_ready (by rw [pos_postedWith]; exact hkeypad)]

end showStart

/-- Settles O28: the session of a COLLECT, then the SHOW with and without a display. -/
theorem postOpensSession : Obligations.PostOpensSession := by
  intro s pos tag flags rtag hready hpos hflags p r hidle hkeypad
  refine ⟨?_, ?_⟩
  · intro m mx mn dec lim first inter lo hi mode hmode c blank zero echo
    rw [exec_request (f := request .post pos tag [5, flags, rtag, 9, m, mx, mn, dec, lim, first, inter, lo, hi]) rfl]
    refine congrArg Host.Outcome.next ?_
    have hrecords := postRecords_collect hflags hmode rtag mx mn dec lim first inter lo hi
    have hecho : echo = firstEcho c.1.mode c.1.decimals := by cases mode <;> rfl
    rw [sendRequest_postCollect hready hpos (by simp) hrecords hidle rfl rfl hkeypad, hecho]
    rfl
  · intro b text beep hbeep hlen htext shown beeped reply free
    rw [exec_request (f := request .post pos tag ([1, flags, rtag, byteOf (1 + text.length), b] ++ text)) rfl]
    have hrecords := postRecords_show hflags hbeep rtag hlen htext
    have hpayload : ([1, flags, rtag, byteOf (1 + text.length), b] ++ text).length ≤ 61 := by
      simp only [List.length_append, List.length_cons, List.length_nil]
      omega
    rw [post_activates hready hpos hpayload hrecords hidle rfl (k := .keypad) rfl (fun h => nomatch h) hkeypad]
    refine ⟨fun hdisplay => congrArg Host.Outcome.next ?_, fun hdisplay hroom hwaiting => congrArg Host.Outcome.next ?_⟩
    · rw [activate_postedWith]
      dsimp only
      rw [activateShow_display hkeypad hdisplay]
      rw [settle_postedWith hready.rest p (by simp) (by exact fun _ => ⟨rfl, rfl⟩)]
      refine congrArg (withReply reply) (State.modPos_congr ?_)
      rw [pos_posted_self]
      rfl
    · have hposted : AtRest _ := atRest_posted_modPos hready.rest p (r := r (.showText beep shown) (.display false)) (by simp)
        (f := fun v => { v with key := beepAsked beep v.key }) fun _ => ⟨rfl, rfl⟩
      have hpos : ((posted p (r (.showText beep shown) (.display false)) s).modPos p fun v =>
          { v with key := beepAsked beep v.key }).pos p = _ := (State.pos_modPos_self _ _ _).trans
        (congrArg (fun v : Position => { v with key := beepAsked beep v.key }) (pos_posted_self _ _ _))
      rw [activate_postedWith]
      dsimp only
      rw [activateShow_noDisplay hkeypad hdisplay]
      refine (settle_slot_ended hposted hroom (by rw [hpos]; exact hwaiting) (by rw [hpos]) rfl rfl (fun _ => rfl) reply).trans ?_
      rw [halts_done, reportDue_done (by exact fun h => nomatch h)]
      rfl

end Sys2Proof.Machine
end

section
/-! SUPPORT and PROOF for O29. POST of a HOLD CARD or a RELEASE CARD at a READY reader (R13, R14, R124 to R126, R130): the ending at
once, the request for the latch, and the release. -/

namespace Sys2Proof.Machine

/-- How far a step had come does not matter for its ending. -/
theorem endStep_setProgress {p : Pos} {s : State} {r : StepRecord} {rest : List StepRecord} (hc : (s.pos p).chain = r :: rest)
    (g : Progress) (o : StepOutcome) (d : OutcomeData) : endStep p o d (s.setProgress p g) = endStep p o d s := by
  have hstop : (stopWork p (s.setProgress p g)).setProgress p (.completing o d false) =
      (stopWork p s).setProgress p (.completing o d false) := by
    show ((State.modPos { s with latchWait := s.latchWait.filter (· ≠ p) } p (·.setProgress g)).modPos p _).setProgress p _ =
      (State.modPos { s with latchWait := s.latchWait.filter (· ≠ p) } p _).setProgress p _
    rw [State.setProgress_eq, State.setProgress_eq, State.modPos_modPos, State.modPos_modPos, State.modPos_modPos]
    refine State.modPos_congr ?_
    have hchain : (State.pos { s with latchWait := s.latchWait.filter (· ≠ p) } p).chain = r :: rest := hc
    simp only [Position.setProgress, hchain]
  unfold endStep
  rw [chain_setProgress g hc, hc]
  simp only [hstop]
  rfl

/-- The end of a posted step at its start, as that of one in flight. -/
theorem endStep_postedWith (p : Pos) (r : StepRecord) (f : Frame) (s : State) (g : Progress) (o : StepOutcome) (d : OutcomeData) :
    endStep p o d (postedWith p r f s) = endStep p o d (postedWith p { r with progress := some g } f s) := by
  rw [← postedWith_setProgress, endStep_setProgress (congrArg Position.chain (pos_postedWith p r f s))]

theorem pos_latchOn_self (p : Pos) (s : State) :
    (latchOn p s).pos p =
      { s.pos p with latchState := .energized, ceilingTimer := .running (s.settings.live.latchCeiling.toNat * 1000) } :=
  State.pos_modPos_self _ _ _

theorem pos_latchOn_ne {p q : Pos} (h : q ≠ p) (s : State) : (latchOn p s).pos q = s.pos q := State.pos_modPos_ne _ h _

theorem atRest_latchOn {s : State} (h : AtRest s) (p : Pos) : AtRest (latchOn p s) := by
  have hlist : AtRest { s with energized := s.energized ++ [p] } := h
  exact atRest_modPos hlist p _ (h.2.1 p)

theorem atRest_latchOff {s : State} (h : AtRest s) (p : Pos) : AtRest (latchOff p s) := by
  have hlist : AtRest { s with energized := s.energized.filter (· ≠ p) } := h
  exact atRest_modPos hlist p _ (h.2.1 p)

/-- The one step of a position, in flight and not a WAIT CARD, ends without data while a reply is placed. -/
theorem settle_slot_stepDone {s : State} (h : AtRest s) (hroom : s.queue.length < 32) {p : Pos}
    (hwaiting : (s.pos p).waiting = []) {r : StepRecord} (hc : (s.pos p).chain = [r])
    (hkind : r.params = .holdCard ∨ ∃ w t, r.params = .releaseCard w t) {o : StepOutcome} (f : Frame) :
    settle (endStep p o .nothing { s with link := { s.link with slot := some f } }) =
      endedWithReply f p ({ r with progress := some (.completing o .nothing false) } : StepRecord).halts
        (if r.reportDue o then some (.stepDone p r.tag r.params.kind o [] false) else none) s := by
  have hreports : completionReports p r o .nothing = [.stepDone p r.tag r.params.kind o [] false] := by
    rcases hkind with hr | ⟨w, t, hr⟩ <;> rw [completionReports, hr]
  exact settle_slot_ended h hroom hwaiting hc hreports rfl (fun _ => rfl) f

/-! ### A HOLD CARD (R13, R124 to R126) -/

section holdCard

variable {s : State} {p : Pos} {r : StepRecord} {reply : Frame}

/-- A HOLD CARD that ends at its start, the latch ENERGIZED or no card present. -/
theorem settle_holdCard_ends (hrest : AtRest s) (hroom : s.queue.length < 32) (hwaiting : (s.pos p).waiting = [])
    (hr : r.params = .holdCard) (o : StepOutcome) :
    settle (endStep p o .nothing (postedWith p r reply s)) =
      endedWithReply reply p ({ r with progress := some (.completing o .nothing false) } : StepRecord).halts
        (if r.reportDue o then some (.stepDone p r.tag .holdCard o [] false) else none)
        (posted p { r with progress := some (.active .latch) } s) := by
  have hactive : AtRest (posted p { r with progress := some (.active .latch) } s) := rest_posted hrest p _ (by simp)
  have hpos := pos_posted_self p { r with progress := some (.active .latch) } s
  rw [endStep_postedWith p r reply s (.active .latch)]
  refine (settle_slot_stepDone hactive hroom (by rw [hpos]; exact hwaiting) (congrArg Position.chain hpos) (.inl hr) reply).trans ?_
  rw [show StepParams.kind _ = _ from congrArg StepParams.kind hr]
  rfl

/-- The posted HOLD CARD waits for the latch. -/
def asking (p : Pos) (r : StepRecord) (s : State) : State :=
  State.modPos { posted p { r with progress := some (.active .latch) } s with latchWait := [p] } p fun v =>
    { v with latchState := .waiting }

theorem pos_asking (p : Pos) (r : StepRecord) (s : State) :
    (asking p r s).pos p =
      { s.pos p with
        chain := [{ r with progress := some (.active .latch) }], chainState := .running, cardLeftTimer := .stopped,
        latchState := .waiting } :=
  (State.pos_modPos_self _ _ _).trans
    (congrArg (fun v : Position => { v with latchState := .waiting }) (pos_posted_self p _ s))

theorem requestLatch_postedWith (hwait : s.latchWait = []) :
    requestLatch p .latch (postedWith p r reply s) =
      grantDecision { asking p r s with link := { s.link with slot := some reply } } := by
  have hasked : (State.modPos { postedWith p r reply s with latchWait := (postedWith p r reply s).latchWait ++ [p] } p fun v =>
      { v with latchState := .waiting }).setProgress p (.active .latch) =
      { asking p r s with link := { s.link with slot := some reply } } := by
    rw [State.setProgress_modPos (by unfold Position.setProgress; dsimp only; split <;> rfl)]
    show ((postedWith p r reply { s with latchWait := s.latchWait ++ [p] }).setProgress p _).modPos p _ = _
    rw [postedWith_setProgress, hwait]
    rfl
  exact congrArg grantDecision hasked

/-- The request is granted at once: the latch is driven on and the step has ended. -/
theorem grantDecision_asking (hroom : s.energized.length < s.settings.live.latchBudget.toNat)
    (hready : (s.pos p).reader.state = .ready) (hcard : (s.pos p).cardPresent = true)
    (hinterval : (s.pos p).reEnergizeTimer = .stopped) (hwait : s.latchWait = []) :
    grantDecision { asking p r s with link := { s.link with slot := some reply } } =
      endStep p .done .nothing
        { latchOn p (posted p { r with progress := some (.active .latch) } s) with link := { s.link with slot := some reply } } := by
  let asked : State := { asking p r s with link := { s.link with slot := some reply } }
  have hpos : asked.pos p = _ := pos_asking p r s
  have heligible : eligible asked p = true :=
    eligible_of (by rw [hpos]; exact hready) (by rw [hpos]; exact hcard) (by rw [hpos]; exact hinterval)
  have hgrant : grantDecision asked = grant p asked :=
    grantDecision_one (before := []) (after := []) rfl (by simp) heligible hroom (.inr (by simp))
  have hlist : asked.latchWait.filter (· ≠ p) = s.latchWait := by
    rw [hwait, show asked.latchWait = [p] from rfl]
    simp
  have hgranted : grantedTo p asked =
      { latchOn p (posted p { r with progress := some (.active .latch) } s) with
        link := { s.link with slot := some reply } } := by
    refine State.ext_pos (fun q => ?_) ?_
    · show (grantedTo p asked).pos q = (latchOn p (posted p { r with progress := some (.active .latch) } s)).pos q
      by_cases e : q = p
      · subst e
        rw [pos_grantedTo_self, hpos, pos_latchOn_self, pos_posted_self]
        rfl
      · rw [pos_grantedTo_ne e, pos_latchOn_ne e, pos_posted_ne e]
        show (asking p r s).pos q = s.pos q
        rw [asking, State.pos_modPos_ne _ e]
        exact pos_posted_ne e _ s
    · unfold grantedTo
      rw [hlist]
      rfl
  have hchain : ((grantedTo p asked).pos p).chain = [{ r with progress := some (.active .latch) }] := by
    rw [pos_grantedTo_self, hpos]
  refine hgrant.trans ((grant_eq p asked).trans ?_)
  unfold endGranted
  rw [work_of hchain rfl, hgranted]

theorem atRest_asking (h : AtRest s) (p : Pos) {r : StepRecord} (hr : ({ r with progress := some (.active .latch) } :
    StepRecord).progress ≠ none) : AtRest (asking p r s) := by
  have hlist : AtRest { posted p { r with progress := some (.active .latch) } s with latchWait := [p] } := rest_posted h p _ hr
  exact atRest_modPos hlist p _ (hlist.2.1 p)

/-- The budget is full, or the re-energize interval is not over: the request waits. -/
theorem grantDecision_asking_waits
    (h : ¬ (s.energized.length < s.settings.live.latchBudget.toNat ∧ (s.pos p).reEnergizeTimer.isRunning = false)) :
    grantDecision { asking p r s with link := { s.link with slot := some reply } } =
      { asking p r s with link := { s.link with slot := some reply } } := by
  refine grantDecision_idle ?_
  by_cases hroom : s.energized.length < s.settings.live.latchBudget.toNat
  · refine .inr fun x hx => ?_
    obtain rfl : x = p := List.mem_singleton.mp hx
    refine not_eligible_of (.inr (.inr ?_))
    show ((asking x r s).pos x).reEnergizeTimer.isRunning = true
    rw [pos_asking]
    simpa [hroom] using h
  · exact .inl (Nat.le_of_not_lt hroom)

end holdCard

/-- The latch of a posted RELEASE CARD, as R130 leaves it where no request waits. -/
theorem deEnergize_postedWith {p : Pos} {r : StepRecord} {f : Frame} {s off : State}
    (h : (s.pos p).latchState = .energized → s.latchWait = [])
    (hoff : off = if (s.pos p).latchState = .energized then latchOff p (posted p r s) else posted p r s) :
    deEnergize p (postedWith p r f s) = { off with link := { off.link with slot := some f } } := by
  subst hoff
  unfold deEnergize
  simp only [pos_postedWith]
  by_cases hon : (s.pos p).latchState = .energized
  · rw [if_pos hon, if_pos hon, driveOff_eq, grantDecision_none (s := latchOff p (postedWith p r f s)) (h hon)]
    rfl
  · rw [if_neg hon, if_neg hon]
    rfl

/-- Settles O29: the HOLD CARD's five outcomes, then the RELEASE CARD's two. -/
theorem postHoldCardAsksLatch : Obligations.PostHoldCardAsksLatch := by
  intro s pos tag flags rtag hready hpos hflags p r done hidle hroom hwaiting hreader
  refine ⟨?_, ?_⟩
  · intro reply asked hcase
    rw [exec_request (f := request .post pos tag [3, flags, rtag, 0]) rfl]
    have hrecords := one_record 3 flags rtag 0 [] (.holdCard, false) rfl (by decide) hflags rfl
    rw [post_activates hready hpos (by simp) hrecords hidle rfl (k := .reader) rfl (fun h => nomatch h) hreader,
      activate_postedWith, show positionOf s.variant pos = p from rfl]
    dsimp only
    unfold activateHoldCard
    simp only [pos_postedWith]
    by_cases hon : (s.pos p).latchState = .energized
    · rw [if_pos hon, if_pos hon, settle_holdCard_ends hready.rest hroom hwaiting rfl, halts_done,
        reportDue_done (by exact fun h => nomatch h)]
    rw [if_neg hon, if_neg hon]
    by_cases hcard : (s.pos p).cardPresent = false
    · rw [if_pos (by simp [hcard]), if_pos hcard, settle_holdCard_ends hready.rest hroom hwaiting rfl,
        halts_eq _ _ _ (by decide), due_fail _ (by decide)]
      rfl
    rw [if_neg (by simpa using hcard), if_neg hcard]
    obtain ⟨hoff, hwait⟩ := (hcase.resolve_left hon).resolve_left hcard
    have hcard' : (s.pos p).cardPresent = true := by simpa using hcard
    rw [requestLatch_postedWith hwait]
    by_cases hgrant : s.energized.length < s.settings.live.latchBudget.toNat ∧ (s.pos p).reEnergizeTimer.isRunning = false
    · obtain ⟨hbudget, hinterval⟩ := hgrant
      have hstopped : (s.pos p).reEnergizeTimer = .stopped := by
        cases htimer : (s.pos p).reEnergizeTimer with
        | stopped => rfl
        | running _ => simp [htimer, Timer.isRunning] at hinterval
      have hon' := atRest_latchOn (rest_posted hready.rest p (r .holdCard .latch) (by simp)) p
      have hpos' : (latchOn p (posted p (r .holdCard .latch) s)).pos p = _ := pos_latchOn_self p _
      rw [if_pos ⟨hbudget, hinterval⟩, grantDecision_asking hbudget hreader hcard' hstopped hwait]
      refine congrArg Host.Outcome.next ((settle_slot_stepDone hon' hroom (by rw [hpos', pos_posted_self]; exact hwaiting)
        (by rw [hpos', pos_posted_self]) (.inl rfl) reply).trans ?_)
      rw [halts_done, reportDue_done (by exact fun h => nomatch h)]
      rfl
    · rw [if_neg hgrant, grantDecision_asking_waits (by exact hgrant)]
      exact congrArg Host.Outcome.next (settle_slot (atRest_asking hready.rest p (by simp)) reply)
  · intro w lo hi hw hrelease t reply active off
    rw [exec_request (f := request .post pos tag [4, flags, rtag, 3, w, lo, hi]) rfl]
    refine congrArg Host.Outcome.next ?_
    have hrecords := one_record 4 flags rtag 3 [w, lo, hi] _ rfl (by decide) hflags (stepParams_releaseCard hw lo hi)
    have hmark : (num2 lo hi < 5 || 300 < num2 lo hi) = decide (num2 lo hi < 5 ∨ 300 < num2 lo hi) := by simp
    have hreply : postReply pos tag s (decide (num2 lo hi < 5 ∨ 300 < num2 lo hi)) = reply := by rw [← hmark]
    rw [post_activates hready hpos (by simp) hrecords hidle rfl (k := .reader) rfl (fun h => nomatch h) hreader,
      activate_postedWith, show positionOf s.variant pos = p from rfl]
    dsimp only
    rw [hreply]
    unfold activateReleaseCard
    simp only [postedWith_setProgress]
    rw [deEnergize_postedWith hrelease (off := off) rfl]
    have hoff : AtRest off := by
      dsimp only [off]
      split
      · exact atRest_latchOff (rest_posted hready.rest p _ (by simp)) p
      · exact rest_posted hready.rest p _ (by simp)
    have hpos : (off.pos p).chain = [r (.releaseCard (decide (w = 1)) t) (.removal (.running (t * 1000)))] ∧
        (off.pos p).cardPresent = (s.pos p).cardPresent ∧ (off.pos p).waiting = (s.pos p).waiting := by
      dsimp only [off]
      split
      · rw [pos_latchOff_self, pos_posted_self]
        exact ⟨rfl, rfl, rfl⟩
      · rw [pos_posted_self]
        exact ⟨rfl, rfl, rfl⟩
    obtain ⟨hchain, hcard, hnone⟩ := hpos
    have hqueue : off.queue.length < 32 := by
      dsimp only [off]
      split
      · exact hroom
      · exact hroom
    clear_value off
    by_cases hremoval : w = 1 ∧ (s.pos p).cardPresent = true
    · rw [if_pos hremoval, if_pos (by show (decide (w = 1) && (off.pos p).cardPresent) = true; rw [hcard]; simp [hremoval])]
      exact settle_slot hoff reply
    · rw [if_neg hremoval, if_neg (by show ¬ (decide (w = 1) && (off.pos p).cardPresent) = true; rw [hcard]; simpa using hremoval)]
      refine (settle_slot_stepDone (o := .done) hoff hqueue (hnone.trans hwaiting) hchain (.inr ⟨_, _, rfl⟩) reply).trans ?_
      rw [halts_done, reportDue_done (by exact fun h => nomatch h)]
      rfl

end Sys2Proof.Machine
end

section
/-! SUPPORT and PROOF for O30 and O31. CANCEL and RESUME (R21 to R23): what the dropping of the unstarted records and the leaving of
a halt make of the head. -/

namespace Sys2Proof.Machine

/-- The one step of a position fails without data while a reply is placed. -/
theorem settle_slot_fails {s : State} (h : AtRest s) (hroom : s.queue.length < 32) {p : Pos} (hwaiting : (s.pos p).waiting = [])
    {r : StepRecord} (hc : (s.pos p).chain = [r]) {o : StepOutcome} (ho : o ≠ .done) (f : Frame) :
    settle (endStep p o .nothing { s with link := { s.link with slot := some f } }) =
      { withReply f (stepFreed p ({ r with progress := some (.completing o .nothing false) } : StepRecord).halts s) with
        queue := s.queue ++ [failureReport p r o] } := by
  obtain ⟨hfrees, hfill⟩ := failureReport_frees p r o
  exact settle_slot_endStep (h.1 hroom) hroom hwaiting hc (due_fail r ho) (completionReports_failure p r ho) hfrees f (hfill _)
    (atRest_stepFreed h p _)

/-! ### CANCEL (R22, R23) -/

section cancel

variable {s : State} {p : Pos} {r : StepRecord} {rest : List StepRecord} {g : Progress}

/-- The records that have not started are gone, and the step in flight is alone in the chain. -/
def dropped (p : Pos) (r : StepRecord) (n : Nat) (s : State) : State :=
  State.modPos { counted s with freeRecords := s.freeRecords + n } p fun v => { v with chain := [r], chainState := .running }

theorem pos_dropped (p : Pos) (r : StepRecord) (n : Nat) (s : State) :
    (dropped p r n s).pos p = { s.pos p with chain := [r], chainState := .running } := State.pos_modPos_self _ _ _

theorem Position.chain_of_running {v : Position} (h : v.chainState = .running) (l : List StepRecord) :
    { v with chain := l, chainState := .running } = { v with chain := l } := by
  rw [← h]

theorem countP_unstarted (hg : r.progress = some g) (hrest : ∀ x ∈ rest, x.progress = none) :
    (r :: rest).countP (fun x => !x.started) = rest.length ∧ (r :: rest).filter StepRecord.started = [r] := by
  obtain ⟨hcount, hfilter⟩ := countP_none rest hrest
  have hstarted : r.started = true := by simp [StepRecord.started, hg]
  constructor
  · rw [List.countP_cons, hcount, hstarted]
    rfl
  · rw [List.filter_cons, hfilter, hstarted]
    rfl

theorem dropUnstarted_running (hc : (s.pos p).chain = r :: rest) (hg : r.progress = some g)
    (hrest : ∀ x ∈ rest, x.progress = none) (hstate : (s.pos p).chainState = .running) :
    dropUnstarted p (counted s) = dropped p r rest.length s := by
  obtain ⟨hcount, hfilter⟩ := countP_unstarted hg hrest
  exact drop_eq (by rw [hc]; exact hcount) (by rw [hc]; exact hfilter) (by rw [hstate]; rfl)

theorem atRest_dropped (h : AtRest s) (hg : r.progress = some g) (n : Nat) : AtRest (dropped p r n s) := by
  have hfree : AtRest { counted s with freeRecords := s.freeRecords + n } := counted_rest h
  exact atRest_modPos hfree p _ (by simp [startDue, Position.inFlight, Position.headProgress, hg])

/-- The end of the step that is left alone, as that of the whole chain. -/
theorem stepFreed_dropped (b : Bool) (n : Nat) :
    stepFreed p b (dropped p r n s) = stepFreed p b { counted s with freeRecords := s.freeRecords + n } := by
  refine State.ext_pos (fun q => ?_) rfl
  rw [pos_stepFreed, pos_stepFreed, pos_dropped]
  by_cases hq : q = p
  · rw [if_pos hq, if_pos hq]
    rfl
  · rw [if_neg hq, if_neg hq]
    exact State.pos_modPos_ne _ hq _

theorem inFlightCode_completing {v : Position} {o : StepOutcome} {d : OutcomeData} {c : Bool} (hc : v.chain = r :: rest)
    (hg : r.progress = some (.completing o d c)) : inFlightCode v = 2 := by
  simp [inFlightCode, Position.headProgress, hc, hg]

theorem inFlightCode_flight {v : Position} (hc : v.chain = r :: rest) (hg : r.progress = some g)
    (hkind : g = .waitingPort ∨ ∃ w, g = .active w) : inFlightCode v = 1 := by
  rcases hkind with rfl | ⟨w, rfl⟩ <;> simp [inFlightCode, Position.headProgress, hc, hg]

theorem handleCancel_running (hc : (s.pos p).chain = r :: rest) (hg : r.progress = some g)
    (hrest : ∀ x ∈ rest, x.progress = none) (hstate : (s.pos p).chainState = .running) :
    handleCancel p [] (counted s) =
      { state := cancelHead p (dropped p r rest.length s), code := .ok
        fields := [byteOf rest.length, inFlightCode (s.pos p)] } := by
  obtain ⟨hcount, -⟩ := countP_unstarted hg hrest
  have hpos : (counted s).pos p = s.pos p := rfl
  unfold handleCancel
  rw [if_neg (by simp), dropUnstarted_running hc hg hrest hstate, hpos]
  simp only [hc, hcount]

theorem headProgress_dropped (hg : r.progress = some g) (n : Nat) : ((dropped p r n s).pos p).headProgress = some g := by
  rw [pos_dropped]
  exact hg

end cancel

/-- Settles O30: a HALTED chain, a step in COMPLETING, and a step that is aborted. -/
theorem cancelDropsChain : Obligations.CancelDropsChain := by
  intro s pos tag hready hpos p
  have hanswer := answer_position .cancel tag [] hready hpos (by decide)
  have hfree := hready.toLinkFree
  refine ⟨?halted, ?completing, ?flight⟩
  case halted =>
    intro v hv hhalted hnone
    subst hv
    obtain ⟨hcount, hfilter⟩ := countP_none _ hnone
    have hdrop := drop_eq (cs := .idle) hcount hfilter (by rw [hhalted]; rfl)
    have hhead : cancelHead p (dropUnstarted p (counted s)) = dropUnstarted p (counted s) := by
      rw [hdrop]
      unfold cancelHead
      rw [State.pos_modPos_self]
      rfl
    have hcode : inFlightCode (s.pos p) = 0 := by
      unfold inFlightCode Position.headProgress
      cases hc : (s.pos p).chain with
      | nil => rfl
      | cons r rest =>
        have hnew : r.progress = none := hnone r (by rw [hc]; exact List.mem_cons_self)
        simp only [hnew]
    have hrule : handleCancel p [] (counted s) =
        { state := dropUnstarted p (counted s), code := .ok, fields := [byteOf (s.pos p).chain.length, 0] } := by
      unfold handleCancel
      rw [if_neg (by simp), hhead]
      have hfields : (counted s).pos p = s.pos p := rfl
      simp only [hfields, hcount, hcode]
    rw [exec_request (f := request .cancel pos tag []) rfl]
    rw [hdrop] at hrule
    have hrest : AtRest { counted s with freeRecords := s.freeRecords + (s.pos p).chain.length } := counted_rest hready.rest
    exact congrArg _ (sendRequest_answer _ _ _ _ hfree (by simp) (hanswer.trans hrule)
      (atRest_modPos hrest p _ (by simp [startDue])))
  case completing =>
    intro r rest o d c hc hg hrest hstate
    have hrule := handleCancel_running hc hg hrest hstate
    rw [inFlightCode_completing hc hg] at hrule
    have hhead : cancelHead p (dropped p r rest.length s) =
        State.modPos { counted s with freeRecords := s.freeRecords + rest.length } p fun v =>
          { v with chain := [{ r with progress := some (.completing o d true) }] } := by
      unfold cancelHead
      rw [headProgress_dropped hg]
      refine (State.setProgress_eq _ _ _).trans ?_
      refine (State.modPos_modPos _ _ _ _).trans (State.modPos_congr ?_)
      exact Position.chain_of_running (v := s.pos p) hstate _
    rw [hhead] at hrule
    rw [exec_request (f := request .cancel pos tag []) rfl]
    have hfreed : AtRest { counted s with freeRecords := s.freeRecords + rest.length } := counted_rest hready.rest
    exact congrArg _ (sendRequest_answer _ _ _ _ hfree (by simp) (hanswer.trans hrule)
      (atRest_modPos hfreed p _ (by simp [startDue, Position.inFlight, Position.headProgress])))
  case flight =>
    intro r rest g hc hg hkind hrest hstate hroom hwaiting
    have hrule := handleCancel_running hc hg hrest hstate
    have hcode : inFlightCode (s.pos p) = 1 := inFlightCode_flight hc hg hkind
    have hhead : cancelHead p (dropped p r rest.length s) = endStep p .aborted .nothing (dropped p r rest.length s) := by
      unfold cancelHead
      rw [headProgress_dropped hg]
      rcases hkind with rfl | ⟨w, rfl⟩ <;> rfl
    rw [hcode, hhead] at hrule
    rw [exec_request (f := request .cancel pos tag []) rfl, sendRequest_settles _ _ _ _ hfree (by simp) (hanswer.trans hrule)]
    have hchain : ((dropped p r rest.length s).pos p).chain = [r] := by rw [pos_dropped]
    rw [← endStep_slot hchain (due_fail r (by decide))]
    have hhalts : ({ r with progress := some (.completing .aborted .nothing false) } : StepRecord).halts = false := rfl
    refine congrArg Host.Outcome.next ((settle_slot_fails (atRest_dropped hready.rest hg _) hroom (by rw [pos_dropped]; exact hwaiting)
      hchain (by decide) _).trans ?_)
    rw [hhalts, stepFreed_dropped]
    rfl

/-! ### RESUME (R21) -/

/-- The chain has left its halt, with the reply `f` placed, and its head is due to start. -/
def resumed (p : Pos) (f : Frame) (s : State) : State :=
  State.modPos { counted s with link := { s.link with slot := some f } } p fun v => { v with chainState := .running }

theorem pos_resumed (p : Pos) (f : Frame) (s : State) : (resumed p f s).pos p = { s.pos p with chainState := .running } :=
  State.pos_modPos_self _ _ _

theorem pos_resumed_ne {p q : Pos} (h : q ≠ p) (f : Frame) (s : State) : (resumed p f s).pos q = s.pos q :=
  State.pos_modPos_ne _ h _

theorem startHead_resumed {s : State} {p : Pos} {r : StepRecord} {rest : List StepRecord} {d : Nat} (f : Frame)
    (hc : (s.pos p).chain = r :: rest) (hr : r.params = .pause d) :
    startHead p (resumed p f s) = State.modPos { counted s with link := { s.link with slot := some f } } p fun v =>
      { v with
        chainState := .running
        cardLeftTimer := .stopped
        chain := { r with progress := some (.active (.pause (.running (d * 10)))) } :: rest } := by
  rw [startHead_pause (by rw [pos_resumed]; exact hc) hr]
  exact State.modPos_modPos _ p _ _

/-- Settles O31. -/
theorem resumeLeavesHalt : Obligations.ResumeLeavesHalt := by
  intro s pos tag hready hpos p
  have hanswer := answer_position .resume tag [] hready hpos (by decide)
  change _ = handleResume p [] (counted s) at hanswer
  have hfree := hready.toLinkFree
  have hsame : (counted s).pos p = s.pos p := rfl
  simp only [exec_request (f := request .resume pos tag []) (c := .resume pos tag []) rfl]
  unfold handleResume at hanswer
  simp only [ne_eq, not_true_eq_false, if_false, hsame] at hanswer
  refine ⟨?refused, ?empty, ?pause⟩
  case refused =>
    intro hstate
    rw [if_neg hstate] at hanswer
    exact congrArg _ (sendRequest_refuse _ _ _ _ hfree (by simp) (by decide) hanswer)
  case empty =>
    intro hstate hc
    rw [if_pos hstate, hc] at hanswer
    exact congrArg _ (sendRequest_answer _ _ _ _ hfree (by simp) hanswer
      (atRest_modPos (counted_rest hready.rest) p _ (by simp [startDue])))
  case pause =>
    intro r rest d hstate hc hr hnone
    rw [if_pos hstate, hc] at hanswer
    rw [sendRequest_settles _ _ _ _ hfree (by simp) hanswer]
    have hdue : startDue ((resumed p (okReply .resume pos tag [1]) s).pos p) = true := by
      rw [pos_resumed]
      simp [startDue, Position.inFlight, Position.headProgress, hc, hnone]
    have hothers : ∀ q, q ≠ p → startDue ((resumed p (okReply .resume pos tag [1]) s).pos q) = false := fun q hq => by
      rw [pos_resumed_ne hq]
      exact hready.rest.2.1 q
    have hnext := nextDue_start (s := resumed p (okReply .resume pos tag [1]) s) hready.rest.1 hdue hothers
    refine congrArg Host.Outcome.next ((settle_next hnext).trans ?_)
    rw [startHead_resumed _ hc hr]
    have hrest : AtRest ((counted s).modPos p fun v =>
        { v with
          chainState := .running
          cardLeftTimer := .stopped
          chain := { r with progress := some (.active (.pause (.running (d * 10)))) } :: rest }) :=
      atRest_modPos (counted_rest hready.rest) p _ (by simp [startDue, Position.inFlight, Position.headProgress])
    exact settle_slot hrest _

end Sys2Proof.Machine
end

section
/-! SUPPORT and PROOF for O32 and O33. POWER (R111 to R113, R120, R132): what the switching of ports does to the part, and what the
reply says. -/

namespace Sys2Proof.Machine

/-- The reply to a POWER says the port states and the length of the power-up list, nothing else. -/
theorem powerFields_eq {t : State} {v : Variant} {reader keypad : Pos → PortRecord} {list : List PortId} (hv : t.variant = v)
    (hreader : ∀ q, (t.pos q).reader = reader q) (hkeypad : ∀ q, (t.pos q).keypad = keypad q) (hlist : t.powerList = list) :
    powerFields t =
      ((allPos.filter fun q => q.val < v.positions).flatMap fun q => [(reader q).state.code, (keypad q).state.code]) ++
        [byteOf list.length] := by
  unfold powerFields State.partPos
  simp only [hv, hreader, hkeypad, hlist]

theorem handlePower_on {mask kind : Byte} {ks : List PortKind} (hks : powerKinds kind = some ks) (s : State) :
    handlePower [mask, kind, 1] s =
      { state := (powerPorts s.variant mask ks).foldl powerOnPort s, code := .ok
        fields := powerFields ((powerPorts s.variant mask ks).foldl powerOnPort s) } := by
  unfold handlePower
  simp [hks]

theorem handlePower_off {mask kind : Byte} {ks : List PortKind} (hks : powerKinds kind = some ks) (s : State) :
    handlePower [mask, kind, 0] s =
      { state := (powerPorts s.variant mask ks).foldl powerOffPort s, code := .ok
        fields := powerFields ((powerPorts s.variant mask ks).foldl powerOffPort s) } := by
  unfold handlePower
  simp [hks]

/-- A part whose positions differ in their ports only is at rest with the other. -/
theorem AtRest.of_ports {s t : State} (h : AtRest s) (hqueue : t.queue = s.queue) (hwait : t.waitOrder = s.waitOrder)
    (hlink : t.link = s.link) {reader keypad : Pos → PortRecord}
    (hpos : ∀ p, t.pos p = { s.pos p with reader := reader p, keypad := keypad p }) : AtRest t := by
  obtain ⟨hadmitted, hstarted, hsent⟩ := h
  refine ⟨by rw [hqueue, hwait]; exact hadmitted, fun q => ?_, by rw [hlink, hqueue]; exact hsent⟩
  rw [hpos]
  exact hstarted q

/-- Settles O32. -/
theorem powerOnStartsPorts : Obligations.PowerOnStartsPorts := by
  intro s tag mask kind ks hready hks named starts become
  obtain ⟨hpos, hstate⟩ := powerOn_foldl named (counted s) (nodup_ports s.variant mask kind ks hks)
  let t : State := named.foldl powerOnPort (counted s)
  have hports : ∀ p, t.pos p = { s.pos p with reader := become p .reader, keypad := become p .keypad } := hpos
  have hlist : t.powerList = s.powerList ++ named.filter starts := (congrArg State.powerList hstate :)
  have hvariant : t.variant = s.variant := (congrArg State.variant hstate :)
  have hrest : AtRest t := (counted_rest hready.rest).of_ports (congrArg State.queue hstate :) (congrArg State.waitOrder hstate :)
    (congrArg State.link hstate :) hports
  have hfields := powerFields_eq hvariant (fun q => congrArg Position.reader (hports q))
    (fun q => congrArg Position.keypad (hports q)) hlist
  have hrule := (answer_device_FF (k := .power) (tag := tag) (payload := [mask, kind, 1]) hready rfl).trans
    (handlePower_on hks (mask := mask) (counted s))
  have hlen : [mask, kind, 1].length ≤ 61 := show 3 ≤ 61 by decide
  refine ⟨t, ?_, hports, hstate⟩
  rw [exec_request (f := request .power 0xFF tag [mask, kind, 1]) rfl,
    sendRequest_answer _ _ _ _ hready.toLinkFree hlen hrule hrest]
  exact congrArg (fun fs => Host.Outcome.next (withReply (okReply .power 0xFF tag fs) t)) hfields

/-! ### POWER off at one port (R113, R120, R132) -/

section off

variable {s : State} {p : Pos} {k : PortKind}

theorem powerPorts_one {v : Variant} {mask : Byte} (h : allPos.filter (setNames v mask) = [p]) :
    powerPorts v mask [k] = [{ pos := p, kind := k }] := by
  unfold powerPorts
  rw [h]
  rfl

/-- The port is OFF and off the list, and its line's units have given up their state. -/
def portSwitchedOff (p : Pos) (k : PortKind) (s : State) : State :=
  lostUnit p k (State.modPort { counted s with powerList := s.powerList.filter (· ≠ { pos := p, kind := k }) } p k
    (PortRecord.switchOff .off))

theorem portSwitchedOff_reader (p : Pos) (s : State) :
    portSwitchedOff p .reader s =
      State.modPos { counted s with powerList := s.powerList.filter (· ≠ { pos := p, kind := .reader }) } p fun v =>
        { v with
          reader := { state := .off }
          pass := { v.pass with state := .idle, buffer := [], overlong := false, gapTimer := .stopped }
          cardPresent := false
          cardLeftTimer := .stopped
          cardLeftRaised := false } := by
  unfold portSwitchedOff lostUnit readerLost State.modPort
  exact State.modPos_modPos _ _ _ _

theorem portSwitchedOff_keypad (p : Pos) (s : State) :
    portSwitchedOff p .keypad s =
      State.modPos { counted s with powerList := s.powerList.filter (· ≠ { pos := p, kind := .keypad }) } p fun v =>
        { v with keypad := { state := .off }, key := { lastOut := v.key.lastOut } } := by
  unfold portSwitchedOff lostUnit keypadLost State.modPort
  rw [State.modKey_eq]
  exact State.modPos_modPos _ _ _ _

/-- What POWER off leaves of a port's record. -/
theorem port_portSwitchedOff (q : Pos) (l : PortKind) :
    (portSwitchedOff p k s).port q l = if q = p ∧ l = k then { state := .off } else s.port q l := by
  by_cases hq : q = p
  · subst hq
    cases k
    · rw [portSwitchedOff_reader, State.port_eq, State.pos_modPos_self]
      cases l
      · simp [Position.port]
      · simp [Position.port, State.port_eq]
        rfl
    · rw [portSwitchedOff_keypad, State.port_eq, State.pos_modPos_self]
      cases l
      · simp [Position.port, State.port_eq]
        rfl
      · simp [Position.port]
  · rw [if_neg (by simp [hq])]
    cases k
    · rw [portSwitchedOff_reader, State.port_eq, State.pos_modPos_ne _ hq]
      rfl
    · rw [portSwitchedOff_keypad, State.port_eq, State.pos_modPos_ne _ hq]
      rfl

theorem powerOffPort_off (h : (s.port p k).state = .off) : powerOffPort s { pos := p, kind := k } = s := by
  unfold powerOffPort
  simp only [h]

/-- What POWER off makes of a port that is not OFF, where nobody waits for the latch that is released. -/
def poweredOff (p : Pos) (k : PortKind) (s : State) : State := released p k .off (portSwitchedOff p k s)

theorem powerOffPort_eq (h : (s.port p k).state ≠ .off)
    (hwait : k = .reader → (s.pos p).latchState = .energized → s.latchWait = []) :
    powerOffPort (counted s) { pos := p, kind := k } =
      if (s.pos p).needsPort k then endStep p .portOff .nothing (poweredOff p k s) else poweredOff p k s := by
  let cleared : State := State.modPort
    { counted s with powerList := s.powerList.filter (· ≠ { pos := p, kind := k }) } p k (PortRecord.switchOff .off)
  have hpos : cleared.pos p = (s.pos p).setPort k { state := .off } := State.pos_modPos_self _ _ _
  have hchain : (cleared.pos p).chain = (s.pos p).chain := by rw [hpos, Position.chain_setPort]
  have hlatch : (cleared.pos p).latchState = (s.pos p).latchState := by
    rw [hpos]
    cases k <;> rfl
  have hneeds : (cleared.pos p).needsPort k = (s.pos p).needsPort k := by
    unfold Position.needsPort
    rw [hchain]
  have hlost : powerOffPort (counted s) { pos := p, kind := k } = portLost p k .off cleared := by
    unfold powerOffPort
    cases hstate : (s.port p k).state with
    | off => exact absurd hstate h
    | _ =>
      rw [show ((counted s).port p k).state = _ from hstate]
      rfl
  rw [hlost, portLost_eq (by decide) (by rw [hlatch]; exact fun hk _ => hwait hk) (fun hn => ?_), hneeds]
  · rfl
  · unfold Position.needsPort at hn
    cases hc : (cleared.pos p).chain with
    | nil => simp [hc] at hn
    | cons r rest => exact ⟨r, rest, rfl⟩

theorem poweredOff_eq : poweredOff p k s =
    if k = .reader ∧ (s.pos p).latchState = .energized then latchOff p (portSwitchedOff p k s) else portSwitchedOff p k s := by
  have hlatch : ((portSwitchedOff p k s).pos p).latchState = (s.pos p).latchState := by
    unfold portSwitchedOff
    rw [(chain_lostUnit _ _ _).2.1]
    unfold State.modPort
    rw [State.pos_modPos_self]
    cases k <;> rfl
  unfold poweredOff released
  rw [hlatch]
  exact if_congr (by simp) rfl rfl

/-- The release of a latch leaves the ports of every position. -/
theorem port_poweredOff (q : Pos) (l : PortKind) :
    (poweredOff p k s).port q l = if q = p ∧ l = k then { state := .off } else s.port q l := by
  rw [← port_portSwitchedOff, poweredOff_eq, State.port_eq, State.port_eq]
  split
  · by_cases hq : q = p
    · rw [hq, pos_latchOff_self]
      cases l <;> rfl
    · rw [pos_latchOff_ne hq]
  · rfl

theorem atRest_portSwitchedOff (h : AtRest s) (p : Pos) (k : PortKind) : AtRest (portSwitchedOff p k s) := by
  have hlist : AtRest { counted s with powerList := s.powerList.filter (· ≠ { pos := p, kind := k }) } := counted_rest h
  cases k
  · rw [portSwitchedOff_reader]
    exact atRest_modPos hlist p _ (h.2.1 p)
  · rw [portSwitchedOff_keypad]
    exact atRest_modPos hlist p _ (h.2.1 p)

theorem atRest_poweredOff (h : AtRest s) : AtRest (poweredOff p k s) := by
  rw [poweredOff_eq]
  split
  · exact atRest_latchOff (atRest_portSwitchedOff h p k) p
  · exact atRest_portSwitchedOff h p k

/-- POWER off leaves the chain and the waiting reports of the position, the report queue, the variant, and the list but for the
port. -/
theorem frame_portSwitchedOff (p : Pos) (k : PortKind) (s : State) :
    ((portSwitchedOff p k s).pos p).chain = (s.pos p).chain ∧ ((portSwitchedOff p k s).pos p).waiting = (s.pos p).waiting ∧
      (portSwitchedOff p k s).queue = s.queue ∧ (portSwitchedOff p k s).variant = s.variant ∧
      (portSwitchedOff p k s).powerList = s.powerList.filter (· ≠ { pos := p, kind := k }) := by
  cases k
  · rw [portSwitchedOff_reader, State.pos_modPos_self]
    exact ⟨rfl, rfl, rfl, rfl, rfl⟩
  · rw [portSwitchedOff_keypad, State.pos_modPos_self]
    exact ⟨rfl, rfl, rfl, rfl, rfl⟩

theorem frame_poweredOff (p : Pos) (k : PortKind) (s : State) :
    ((poweredOff p k s).pos p).chain = (s.pos p).chain ∧ ((poweredOff p k s).pos p).waiting = (s.pos p).waiting ∧
      (poweredOff p k s).queue = s.queue ∧ (poweredOff p k s).variant = s.variant ∧
      (poweredOff p k s).powerList = s.powerList.filter (· ≠ { pos := p, kind := k }) := by
  have h := frame_portSwitchedOff p k s
  rw [poweredOff_eq]
  split
  · rw [pos_latchOff_self]
    exact h
  · exact h

/-- The end of a step leaves the ports of every position. -/
theorem port_endStep {o : StepOutcome} {r : StepRecord} (hc : (s.pos p).chain = [r]) (ho : o ≠ .done) (q : Pos) (l : PortKind) :
    (endStep p o .nothing s).port q l = s.port q l := by
  rw [State.port_eq, State.port_eq]
  by_cases hq : q = p
  · subst hq
    rw [endStep_offers hc (due_fail r ho) (completionReports_failure q r ho), pos_offer_self, State.setProgress_eq,
      State.pos_modPos_self]
    unfold stopWork
    rw [State.pos_modPos_self]
    cases l <;> (unfold Position.setProgress; split <;> rfl)
  · rw [pos_endStep_ne hq]

end off

/-- Settles O33: the port OFF already, a port no step needs, and a port whose step ends. -/
theorem powerOffStopsPort : Obligations.PowerOffStopsPort := by
  intro s tag mask kind p k hready hk hmask become list lost off reply
  have hlen : [mask, kind, 0].length ≤ 61 := show 3 ≤ 61 by decide
  have hrule := (answer_device_FF (k := .power) (tag := tag) (payload := [mask, kind, 0]) hready rfl).trans
    (handlePower_off hk (mask := mask) (counted s))
  rw [show (counted s).variant = s.variant from rfl, powerPorts_one hmask, List.foldl_cons, List.foldl_nil] at hrule
  simp only [exec_request (f := request .power 0xFF tag [mask, kind, 0]) (c := .powerOff 0xFF tag mask kind) rfl]
  refine ⟨?_, ?_⟩
  · intro hstate
    rw [powerOffPort_off (by exact hstate), powerFields_eq (t := counted s) (reader := fun q => s.port q .reader)
      (keypad := fun q => s.port q .keypad) rfl (fun _ => rfl) (fun _ => rfl) rfl] at hrule
    exact congrArg _ (sendRequest_answer _ _ _ _ hready.toLinkFree hlen hrule (counted_rest hready.rest))
  intro hstate hwait
  have hoff : poweredOff p k s = off := by
    rw [poweredOff_eq]
    cases k
    · rw [portSwitchedOff_reader]
    · rw [portSwitchedOff_keypad]
  obtain ⟨hchain, hnone, hqueue, hvariant, hlist⟩ := frame_poweredOff p k s
  have hports := port_poweredOff (s := s) (p := p) (k := k)
  have hrest := atRest_poweredOff (p := p) (k := k) hready.rest
  rw [hoff] at hchain hnone hqueue hvariant hlist hports hrest
  clear_value off
  refine ⟨fun hneeds => ?_, fun r hneeds hc hwaiting hroom => ?_⟩
  · rw [powerOffPort_eq hstate hwait, hneeds, if_neg (by simp), hoff,
      powerFields_eq hvariant (fun q => hports q .reader) (fun q => hports q .keypad) hlist] at hrule
    exact congrArg _ (sendRequest_answer _ _ _ _ hready.toLinkFree hlen hrule hrest)
  · have hended := port_endStep (o := .portOff) (hchain.trans hc) (by decide)
    have hsame : (endStep p .portOff .nothing off).variant = off.variant ∧
        (endStep p .portOff .nothing off).powerList = off.powerList := by
      rw [endStep_offers (hchain.trans hc) (due_fail r (by decide)) (completionReports_failure p r (by decide))]
      exact ⟨rfl, rfl⟩
    rw [powerOffPort_eq hstate hwait, if_pos hneeds, hoff,
      powerFields_eq (hsame.1.trans hvariant) (fun q => (hended q .reader).trans (hports q .reader))
        (fun q => (hended q .keypad).trans (hports q .keypad)) (hsame.2.trans hlist)] at hrule
    rw [sendRequest_settles _ _ _ _ hready.toLinkFree hlen hrule, ← endStep_slot (hchain.trans hc) (due_fail r (by decide))]
    refine congrArg Host.Outcome.next ((settle_slot_fails hrest (by rw [hqueue]; exact hroom) (hnone.trans hwaiting)
      (hchain.trans hc) (by decide) _).trans ?_)
    rw [halts_portOutcome r (.inl rfl), hqueue]
    rfl

end Sys2Proof.Machine
end

section
/-! SUPPORT and PROOF for O41 and O42. The pass unit (R29 to R36, R48): what each event of the reader line makes of it, and the attempt
that fails. -/

namespace Sys2Proof.Machine

/-! ### The events of the reader line, by port and assembly state -/

section line

variable {p : Pos} {s : State}

/-- A pass unit written whole. -/
theorem modPass_eq (f : PassUnit → PassUnit) : s.modPass p f = s.modPos p fun v => { v with pass := f (s.pos p).pass } := rfl

theorem Quiet.modPass (h : Quiet p s) (f : PassUnit → PassUnit) : Quiet p (s.modPass p f) := h.modPos _ ⟨rfl, rfl, rfl⟩

theorem readerCharacter_notReady (h : (s.pos p).reader.state ≠ .ready) (c : BitVec 5) : readerCharacter p c s = s := if_neg h

theorem readerEnd_notReady (h : (s.pos p).reader.state ≠ .ready) : readerEnd p s = s := if_neg h

theorem readerFault_notReady (h : (s.pos p).reader.state ≠ .ready) : readerFault p s = s := if_neg h

theorem readerCharacter_ready (h : (s.pos p).reader.state = .ready) (c : BitVec 5) :
    readerCharacter p c s = s.modPass p (PassUnit.character c) := if_pos h

theorem character_idle {u : PassUnit} (h : u.state = .idle) (c : BitVec 5) :
    u.character c = { u with state := .receiving, buffer := [c], gapTimer := .running 50 } := by
  simp [PassUnit.character, h, Config.passGapMs]

theorem character_fits {u : PassUnit} (h : u.state = .receiving) (hlen : u.buffer.length < 110) (c : BitVec 5) :
    u.character c = { u with buffer := u.buffer ++ [c], gapTimer := .running 50 } := by
  simp [PassUnit.character, h, Config.passGapMs, Config.passLimit, hlen]

theorem character_overlong {u : PassUnit} (h : u.state = .receiving) (hlen : 110 ≤ u.buffer.length) (c : BitVec 5) :
    u.character c = { u with overlong := true, gapTimer := .running 50 } := by
  simp [PassUnit.character, h, Config.passGapMs, Config.passLimit, Nat.not_lt.mpr hlen]

theorem character_discarding {u : PassUnit} (h : u.state = .discarding) (c : BitVec 5) :
    u.character c = { u with gapTimer := .running 50 } := by
  simp [PassUnit.character, h, Config.passGapMs]

theorem readerEnd_discarding (h : (s.pos p).reader.state = .ready) (hd : (s.pos p).pass.state = .discarding) :
    readerEnd p s = s.modPass p PassUnit.toIdle := by
  simp [readerEnd, h, hd]

theorem readerEnd_completes (h : (s.pos p).reader.state = .ready) (hd : (s.pos p).pass.state ≠ .discarding) :
    readerEnd p s = passCompletes p s := by
  unfold readerEnd
  rw [if_pos h]
  cases hstate : (s.pos p).pass.state with
  | discarding => exact absurd hstate hd
  | _ => rfl

theorem readerFault_discarding (h : (s.pos p).reader.state = .ready) (hd : (s.pos p).pass.state = .discarding) :
    readerFault p s = s.modPass p fun u => { u with gapTimer := .running 50 } := by
  simp [readerFault, h, hd, Config.passGapMs]

theorem readerFault_breaks (h : (s.pos p).reader.state = .ready) (hd : (s.pos p).pass.state ≠ .discarding) :
    readerFault p s = passBreaks p (s.pos p).pass (s.modPass p PassUnit.toDiscarding) := by
  unfold readerFault
  rw [if_pos h]
  cases hstate : (s.pos p).pass.state with
  | discarding => exact absurd hstate hd
  | _ => simp only [hstate]

theorem passGap_stopped (h : (s.pos p).pass.gapTimer = .stopped) : passGap p s = s := by
  simp [passGap, h, Timer.isRunning]

theorem passGap_breaks (h : (s.pos p).pass.gapTimer.isRunning = true) (hr : (s.pos p).pass.state = .receiving) :
    passGap p s = passBreaks p (s.pos p).pass (s.modPass p PassUnit.toIdle) := by
  simp [passGap, h, hr]

/-- The gap ends a pass that nobody waits for: it leaves the unit IDLE. -/
theorem passGap_idles (h : (s.pos p).pass.gapTimer.isRunning = true)
    (hd : (s.pos p).pass.state = .discarding ∨ (s.pos p).pass.armed = false) : passGap p s = s.modPass p PassUnit.toIdle := by
  unfold passGap
  rw [if_pos h]
  cases hstate : (s.pos p).pass.state with
  | receiving =>
    have hunarmed : (s.pos p).pass.armed = false := by simpa [hstate] using hd
    simp [passBreaks, hunarmed]
  | _ => rfl

theorem passBreaks_unarmed {u : PassUnit} (h : u.armed = false) (t : State) : passBreaks p u t = t := by
  simp [passBreaks, h]

theorem passBreaks_armed {u : PassUnit} (h : u.armed = true) (t : State) :
    passBreaks p u t = attemptFailed p (brokenFlags u.overlong) 0 t := by
  simp [passBreaks, h]

theorem passCompletes_unarmed (h : (s.pos p).pass.armed = false) :
    passCompletes p s = raise .unsolicitedPass (some p) (countDevice .unsolicitedPasses (s.modPass p PassUnit.toIdle)) := by
  simp [passCompletes, h]

theorem passCompletes_failed (h : (s.pos p).pass.armed = true) {f : CheckFlag}
    (hf : (checkPass s.settings.live (s.pos p).pass.buffer (s.pos p).pass.overlong).failure = some f) :
    passCompletes p s =
      attemptFailed p (checkPass s.settings.live (s.pos p).pass.buffer (s.pos p).pass.overlong).flags
        (checkPass s.settings.live (s.pos p).pass.buffer (s.pos p).pass.overlong).parityErrors
        (s.modPass p PassUnit.toIdle) := by
  simp [passCompletes, h, hf]

theorem passCompletes_good (h : (s.pos p).pass.armed = true)
    (hf : (checkPass s.settings.live (s.pos p).pass.buffer (s.pos p).pass.overlong).failure = none) :
    passCompletes p s =
      goodPass p (checkPass s.settings.live (s.pos p).pass.buffer (s.pos p).pass.overlong).text
        (checkPass s.settings.live (s.pos p).pass.buffer (s.pos p).pass.overlong).flags (s.modPass p PassUnit.toIdle) := by
  simp [passCompletes, h, hf]

end line

/-- Settles O41: a reader not READY, then the assembly states in turn. -/
theorem unarmedReaderAssembles : Obligations.UnarmedReaderAssembles := by
  intro s p c b hquiet hb u passIs
  have hidle (f : PassUnit → PassUnit) : settle (s.modPass p f) = s.modPass p f := (hquiet.modPass f).idle
  rw [hquiet.readerCharacterByte, hquiet.readerEndByte, hquiet.readerFaultByte hb, hquiet.passGapTimeout]
  refine ⟨fun hport => ?_, fun hgap => ?_, fun hready => ⟨fun hstate => ?_, fun hstate hlen => ?_, fun hstate hlen => ?_,
    fun hstate => ?_, fun hstate harmed => ?_⟩, fun hgap hdrop => ?_⟩
  · rw [readerCharacter_notReady hport, readerEnd_notReady hport, readerFault_notReady hport, hquiet.idle]
    exact ⟨rfl, rfl, rfl⟩
  · rw [passGap_stopped hgap, hquiet.idle]
  · rw [readerCharacter_ready hready, modPass_eq, character_idle hstate]
  · rw [readerCharacter_ready hready, modPass_eq, character_fits hstate hlen]
  · rw [readerCharacter_ready hready, modPass_eq, character_overlong hstate hlen]
  · rw [readerCharacter_ready hready, readerFault_discarding hready hstate, readerEnd_discarding hready hstate, hidle, hidle,
      modPass_eq, character_discarding hstate]
    exact ⟨rfl, rfl, rfl⟩
  · rw [readerFault_breaks hready hstate, passBreaks_unarmed harmed, hidle]
    refine ⟨rfl, fun hcount => ?_⟩
    rw [readerEnd_completes hready hstate, passCompletes_unarmed harmed, countDev .unsolicitedPasses (by exact hcount)]
    have hrest : AtRest { s.modPass p PassUnit.toIdle with
        deviceCounters := s.deviceCounters.set 3 (s.deviceCounters[3] + 1) } := (hquiet.modPass _).rest
    exact congrArg _ (settle_raise hrest hquiet.room _ _)
  · rw [passGap_idles hgap hdrop, hidle]
    rfl

/-! ### An attempt that fails (R48) -/

/-- The report of a WAIT CARD that ends without the text of a card (R19). -/
theorem completionReports_waitCard (p : Pos) {r : StepRecord} {a t : Nat} (hr : r.params = .waitCard a t) {o : StepOutcome}
    (ho : o ≠ .done ∧ o ≠ .screened) (d : CardData) :
    completionReports p r o (.card d) = [.cardSegment p 1 [] (some { tag := r.tag, outcome := o, data := d, total := 0 })] := by
  have htext : reportedText o d = [] := by
    unfold reportedText
    simp [ho.1, ho.2]
  rw [completionReports, hr]
  simp only [OutcomeData.cardData, htext]
  rfl

section attempt

variable {p : Pos} {s : State} {r : StepRecord} {a t : Nat}

/-- The attempt is counted, the pass unit left as `w`. -/
def attemptCounted (p : Pos) (w : PassUnit) (s : State) : State :=
  s.modPos p fun v =>
    { v with pass := w, attemptCount := v.attemptCount + 1, counters := v.counters.set 1 (v.counters[1] + 1) }

theorem pos_attemptCounted (w : PassUnit) : (attemptCounted p w s).pos p =
    { s.pos p with
      pass := w, attemptCount := (s.pos p).attemptCount + 1
      counters := (s.pos p).counters.set 1 ((s.pos p).counters[1] + 1) } := State.pos_modPos_self _ _ _

theorem attemptFailed_eq (hcount : (s.pos p).counters[1] < 49151) (f : PassUnit → PassUnit) (flags : Word) (parity : Nat) :
    attemptFailed p flags parity (s.modPass p f) =
      if (s.pos p).attemptCount + 1 < (s.pos p).attemptLimit then askBeep p .error (attemptCounted p (f (s.pos p).pass) s)
      else endStep p .readFailed (.card { flags := flags, parityErrors := parity })
        (attemptCounted p (f (s.pos p).pass) s) := by
  have hpos : (s.modPass p f).pos p = { s.pos p with pass := f (s.pos p).pass } := State.pos_modPos_self _ _ _
  have hstate : (countPos .passesFailed p (s.modPass p f)).modPos p (fun v => { v with attemptCount := v.attemptCount + 1 }) =
      attemptCounted p (f (s.pos p).pass) s := by
    rw [countPos_low .passesFailed (by rw [hpos]; exact hcount), hpos, State.modPass_eq, State.modPos_modPos, State.modPos_modPos]
    rfl
  unfold attemptFailed
  simp only [hstate, pos_attemptCounted]

/-- Below the limit the attempt asks the keypad for a beep, and at the limit it ends the WAIT CARD. -/
theorem settle_attemptFailed (hquiet : Quiet p s) (hc : (s.pos p).chain = [r]) (hr : r.params = .waitCard a t)
    (hcount : (s.pos p).counters[1] < 49151) (f : PassUnit → PassUnit) (flags : Word) (parity : Nat) :
    settle (attemptFailed p flags parity (s.modPass p f)) =
      if (s.pos p).attemptCount + 1 < (s.pos p).attemptLimit then
        (if (s.pos p).keypad.state = .ready ∧ (s.pos p).key.beeper = true then
          (attemptCounted p (f (s.pos p).pass) s).modPos p fun v => { v with key := { v.key with waitingBeep := some .error } }
        else attemptCounted p (f (s.pos p).pass) s)
      else
        withReport
          (.cardSegment p 1 []
            (some { tag := r.tag, outcome := .readFailed, data := { flags := flags, parityErrors := parity }, total := 0 }))
          (stepFreed p r.stopOnFailure (attemptCounted p (f (s.pos p).pass) s)) := by
  have hcounted : Quiet p (attemptCounted p (f (s.pos p).pass) s) := hquiet.modPos _ ⟨rfl, rfl, rfl⟩
  rw [attemptFailed_eq hcount]
  split_ifs with hlimit hbeep
  · have hasked : askBeep p .error (attemptCounted p (f (s.pos p).pass) s) =
        (attemptCounted p (f (s.pos p).pass) s).modPos p fun v => { v with key := { v.key with waitingBeep := some .error } } := by
      refine State.modPos_congr (if_pos ?_)
      rw [pos_attemptCounted]
      simpa using hbeep
    rw [hasked]
    exact (hcounted.modPos _ ⟨rfl, rfl, rfl⟩).idle
  · have hasked : askBeep p .error (attemptCounted p (f (s.pos p).pass) s) = attemptCounted p (f (s.pos p).pass) s := by
      refine State.modPos_id _ _ _ (if_neg ?_)
      rw [pos_attemptCounted]
      simpa using hbeep
    rw [hasked]
    exact hcounted.idle
  · have hchain : ((attemptCounted p (f (s.pos p).pass) s).pos p).chain = [r] := by
      rw [pos_attemptCounted]
      exact hc
    rw [settle_endStep hcounted.rest hcounted.room hcounted.noneWaiting hchain (due_fail r (by decide))
      (completionReports_waitCard p hr (by decide) _) rfl, halts_eq _ _ _ (by decide)]
    rfl

end attempt

/-- Settles O42: a pass that fails its checks, a fault byte, and a gap, each with the same counting. -/
theorem failedAttemptCounts : Obligations.FailedAttemptCounts := by
  intro s p r a t ms b hquiet hb hc hr _ hready harmed hstate hcount v u checked brokenBits failed idle dropping
  have hnot : (s.pos p).pass.state ≠ .discarding := by
    rw [hstate]
    decide
  have hflags : brokenFlags u.overlong = brokenBits := by
    unfold brokenFlags
    dsimp only [brokenBits]
    cases u.overlong <;> rfl
  have hfailed (f : PassUnit → PassUnit) (flags : Word) (parity : Nat) :=
    settle_attemptFailed hquiet hc hr hcount f flags parity
  rw [hquiet.readerEndByte, hquiet.readerFaultByte hb, hquiet.passGapTimeout]
  refine ⟨fun hfailure => ?_, ?_, fun hgap => ?_⟩
  · obtain ⟨flag, hflag⟩ := Option.ne_none_iff_exists'.1 hfailure
    rw [readerEnd_completes hready hnot, passCompletes_failed harmed hflag, hfailed]
    rfl
  · rw [readerFault_breaks hready hnot, passBreaks_armed harmed, hfailed, hflags]
    rfl
  · rw [passGap_breaks hgap hstate, passBreaks_armed harmed, hfailed, hflags]
    rfl

end Sys2Proof.Machine
end

section
/-! SUPPORT and PROOF for O43. A pass that checks good while armed (R12, R47, R61 to R63): the reports of the WAIT CARD that ends, and
the HOLD match that asks for the latch. -/

namespace Sys2Proof.Machine

/-! ### The reports of a WAIT CARD with a text (R19) -/

section segments

variable {p : Pos} {r : StepRecord} {o : StepOutcome} {d : CardData} {s : State}

/-- The segments of a text, of which the last tells the outcome. -/
def cardReports (p : Pos) (tag : Byte) (o : StepOutcome) (d : CardData) : List Report :=
  let last (n : Nat) (part : List Byte) : Report :=
    .cardSegment p n part (some { tag := tag, outcome := o, data := d, total := d.text.length })
  if d.text.length ≤ 48 then [last 1 d.text]
  else if d.text.length ≤ 96 then [.cardSegment p 1 (d.text.take 48) none, last 2 (d.text.drop 48)]
  else [.cardSegment p 1 (d.text.take 48) none, .cardSegment p 2 ((d.text.drop 48).take 48) none, last 3 (d.text.drop 96)]

theorem length_cardReports (p : Pos) (tag : Byte) (o : StepOutcome) (d : CardData) :
    (cardReports p tag o d).length = if d.text.length ≤ 48 then 1 else if d.text.length ≤ 96 then 2 else 3 := by
  unfold cardReports
  split_ifs <;> rfl

/-- Every segment but the last leaves the record, the last frees it, and none is filled later or is a NOTICE report. -/
theorem cardReports_shape (p : Pos) (tag : Byte) (o : StepOutcome) (d : CardData) :
    cardReports p tag o d ≠ [] ∧ (∀ x ∈ (cardReports p tag o d).dropLast, x.freesRecord = false) ∧
      (∀ x ∈ (cardReports p tag o d).getLast?, x.freesRecord = true) ∧ (∀ x ∈ cardReports p tag o d, x ≠ .notice) ∧
      ∀ e, (cardReports p tag o d).map (Report.filled e) = cardReports p tag o d := by
  unfold cardReports
  split_ifs <;> simp [Report.freesRecord, Report.filled]

theorem completionReports_text {a t : Nat} (hr : r.params = .waitCard a t) (ho : o = .done ∨ o = .screened) :
    completionReports p r o (.card d) = cardReports p r.tag o d := completionReports_card p r a t hr o ho d

/-- The one step of a position, a WAIT CARD, ends with a text, a class having been raised first. -/
theorem settle_raise_textEnds (h : AtRest s) (hwaiting : (s.pos p).waiting = []) (hc : (s.pos p).chain = [r]) {a t : Nat}
    (hr : r.params = .waitCard a t) (hroom : s.queue.length + (cardReports p r.tag .screened d).length < 32)
    (c : NoticeClass) (who : Option Pos) :
    settle (endStep p .screened (.card d) (raise c who s)) =
      withReports (cardReports p r.tag .screened d) (stepFreed p r.stopOnFailure (withNotice c who s)) := by
  obtain ⟨hne, hkeep, hfree, hnotice, hfill⟩ := cardReports_shape p r.tag .screened d
  rw [settle_raise_endStep_to h hwaiting c who hc (due_fail r (by decide)) (completionReports_text hr (.inr rfl)) hroom hne hkeep
    hfree (by simp) (.inr (fun _ hx => nomatch hx)) hnotice, hfill, halts_eq _ _ _ (by decide), stepFreedTo_nil]

/-- The same DONE, with no class raised. -/
theorem settle_textEnds (h : AtRest s) (hwaiting : (s.pos p).waiting = []) (hc : (s.pos p).chain = [r]) {a t : Nat}
    (hr : r.params = .waitCard a t) (hroom : s.queue.length + (cardReports p r.tag .done d).length < 32) :
    settle (endStep p .done (.card d) s) = withReports (cardReports p r.tag .done d) (stepFreed p false s) := by
  obtain ⟨hne, hkeep, hfree, hnotice, hfill⟩ := cardReports_shape p r.tag .done d
  have hdue : r.reportDue .done = true := by simp [StepRecord.reportDue, hr, StepParams.kind]
  rw [settle_endStep_to h hwaiting hc hdue (completionReports_text hr (.inl rfl)) (Nat.le_of_lt hroom) hne hkeep hfree (by simp)
    (.inr (fun _ hx => nomatch hx)) hnotice, hfill, halts_done, stepFreedTo_nil]

end segments

/-! ### A good pass (R47, R61) -/

section good

variable {p : Pos} {s : State}

/-- The pass has been taken: the unit is IDLE, and the pass is counted. -/
def passTaken (p : Pos) (s : State) : State :=
  s.modPos p fun v => { v with pass := (s.pos p).pass.toIdle, counters := v.counters.set 0 (v.counters[0] + 1) }

/-- A taken pass that screening matches is counted once more. -/
def passMatched (p : Pos) (s : State) : State :=
  (passTaken p s).modPos p fun v => { v with counters := v.counters.set 2 (v.counters[2] + 1) }

theorem pos_passTaken (p : Pos) (s : State) : (passTaken p s).pos p =
    { s.pos p with pass := (s.pos p).pass.toIdle, counters := (s.pos p).counters.set 0 ((s.pos p).counters[0] + 1) } :=
  State.pos_modPos_self _ _ _

theorem pos_passMatched (p : Pos) (s : State) : (passMatched p s).pos p =
    { s.pos p with
      pass := (s.pos p).pass.toIdle
      counters := ((s.pos p).counters.set 0 ((s.pos p).counters[0] + 1)).set 2 ((s.pos p).counters[2] + 1) } := by
  unfold passMatched
  rw [State.pos_modPos_self, pos_passTaken]
  simp

theorem passedOver_passMatched {x : Pos} (h : PassedOver x s) : PassedOver x (passMatched p s) := by
  unfold PassedOver
  by_cases hx : x = p
  · subst hx
    rw [pos_passMatched]
    exact h
  · have hne : (passMatched p s).pos x = s.pos x := (State.pos_modPos_ne _ hx _).trans (State.pos_modPos_ne _ hx _)
    rw [hne]
    exact h

theorem countPos_passTaken (h : (s.pos p).counters[0] < 49151) :
    countPos .passesOk p (s.modPass p PassUnit.toIdle) = passTaken p s := by
  have hpos : (s.modPass p PassUnit.toIdle).pos p = { s.pos p with pass := (s.pos p).pass.toIdle } := State.pos_modPos_self _ _ _
  rw [countPos_low .passesOk (by rw [hpos]; exact h), hpos]
  exact State.modPos_modPos _ _ _ _

theorem countPos_passMatched (h : (s.pos p).counters[2] < 49151) : countPos .screenMatches p (passTaken p s) = passMatched p s := by
  have hsame : ((passTaken p s).pos p).counters[2] = (s.pos p).counters[2] := by
    rw [pos_passTaken]
    simp
  rw [countPos_low .screenMatches (by exact hsame ▸ h)]
  rfl

theorem goodPass_unmatched (h0 : (s.pos p).counters[0] < 49151) {text : List Byte} (hscreen : screen s.screening text = none)
    (flags : Word) :
    goodPass p text flags (s.modPass p PassUnit.toIdle) = endStep p .done (.card { text := text, flags := flags }) (passTaken p s) := by
  unfold goodPass
  rw [countPos_passTaken h0]
  simp only [show screen (passTaken p s).screening text = none from hscreen]

theorem goodPass_report (h0 : (s.pos p).counters[0] < 49151) (h2 : (s.pos p).counters[2] < 49151) {text : List Byte} {i : Fin 16}
    (hscreen : screen s.screening text = some (i, .report)) (flags : Word) :
    goodPass p text flags (s.modPass p PassUnit.toIdle) =
      endStep p .screened (.card { text := text, flags := flags, entryId := some i })
        (raise .screenMatch (some p) (passMatched p s)) := by
  unfold goodPass
  rw [countPos_passTaken h0]
  simp only [show screen (passTaken p s).screening text = some (i, .report) from hscreen, countPos_passMatched h2]

theorem goodPass_hold (h0 : (s.pos p).counters[0] < 49151) (h2 : (s.pos p).counters[2] < 49151) {text : List Byte} {i : Fin 16}
    (hscreen : screen s.screening text = some (i, .hold)) (flags : Word) :
    goodPass p text flags (s.modPass p PassUnit.toIdle) =
      holdMatch p i text flags (raise .screenMatch (some p) (passMatched p s)) := by
  unfold goodPass
  rw [countPos_passTaken h0]
  simp only [show screen (passTaken p s).screening text = some (i, .hold) from hscreen, countPos_passMatched h2]

end good

/-! ### A HOLD match (R63) -/

section hold

variable {p : Pos} {s : State} {r : StepRecord} {a t : Nat} {i : Fin 16} {text : List Byte} {flags : Word}

/-- The reader is disarmed. -/
def disarmed (p : Pos) (s : State) : State := s.modPos p fun v => { v with pass := v.pass.disarm }

theorem pos_disarmed (p : Pos) (s : State) : (disarmed p s).pos p = { s.pos p with pass := (s.pos p).pass.disarm } :=
  State.pos_modPos_self _ _ _

theorem disarmed_raise (c : NoticeClass) (who : Option Pos) (s : State) :
    (raise c who s).modPass p PassUnit.disarm = raise c who (disarmed p s) := raise_modPos c who p _ s

theorem disarm_of_not_receiving {u : PassUnit} (h : u.state ≠ .receiving) : u.disarm = { u with armed := false } := by
  simp [PassUnit.disarm, h]

theorem disarm_disarm (u : PassUnit) : u.disarm.disarm = u.disarm := by
  unfold PassUnit.disarm
  split_ifs <;> simp_all

/-- The freeing of the record disarms the reader, so it is one whether that has happened before or not. -/
theorem stepFreed_disarmed (b : Bool) (s : State) : stepFreed p b (disarmed p s) = stepFreed p b s := by
  refine State.ext_pos (fun q => ?_) rfl
  rw [pos_stepFreed, pos_stepFreed, pos_disarmed]
  by_cases hq : q = p
  · rw [if_pos hq, if_pos hq, disarm_disarm]
    rfl
  · rw [if_neg hq, if_neg hq]
    exact State.pos_modPos_ne _ hq _

theorem holdMatch_energized (h : (s.pos p).latchState = .energized) (c : NoticeClass) (who : Option Pos) :
    holdMatch p i text flags (raise c who s) =
      endStep p .screened (.card { text := text, flags := flags, entryId := some i, hold := .held })
        (raise c who (disarmed p s)) := by
  unfold holdMatch
  rw [disarmed_raise]
  simp only [pos_raise, pos_disarmed, h, if_true]

theorem holdMatch_noCard (h : (s.pos p).latchState ≠ .energized) (hcard : (s.pos p).cardPresent = false) (c : NoticeClass)
    (who : Option Pos) :
    holdMatch p i text flags (raise c who s) =
      endStep p .screened (.card { text := text, flags := flags, entryId := some i, hold := .notHeld })
        (raise c who (disarmed p s)) := by
  unfold holdMatch
  rw [disarmed_raise]
  simp only [pos_raise, pos_disarmed, hcard, if_neg h]
  rfl

/-- The WAIT CARD waits for the latch with the text it will end with. -/
def holdAsked (p : Pos) (r : StepRecord) (i : Fin 16) (text : List Byte) (flags : Word) (s : State) : State :=
  State.modPos { s with latchWait := s.latchWait ++ [p] } p fun v =>
    { v with
      pass := { v.pass with armed := false }
      latchState := .waiting
      chain := [{ r with progress := some (.active (.screenHold i text flags)) }] }

theorem pos_holdAsked : (holdAsked p r i text flags s).pos p =
    { s.pos p with
      pass := { (s.pos p).pass with armed := false }
      latchState := .waiting
      chain := [{ r with progress := some (.active (.screenHold i text flags)) }] } := State.pos_modPos_self _ _ _

theorem pos_holdAsked_ne {q : Pos} (h : q ≠ p) : (holdAsked p r i text flags s).pos q = s.pos q := State.pos_modPos_ne _ h _

/-- A raising does not read or write the wait list. -/
theorem raise_latchWait (c : NoticeClass) (who : Option Pos) (s : State) (L : List Pos) :
    { raise c who s with latchWait := L } = raise c who { s with latchWait := L } := by
  have h := raise_with c who s s.positions L s.energized
  have hpositions := positions_raise (c := c) (p := who) (s := s)
  have henergized := energized_raise (c := c) (p := who) (s := s)
  generalize raise c who s = R at h hpositions henergized ⊢
  exact (h.trans (by rw [← hpositions, ← henergized])).symm

theorem requestLatch_raise (c : NoticeClass) (who : Option Pos) (w : Work) (s : State) :
    requestLatch p w (raise c who s) =
      grantDecision (raise c who ((State.modPos { s with latchWait := s.latchWait ++ [p] } p fun v =>
        { v with latchState := .waiting }).setProgress p (.active w))) := by
  unfold requestLatch
  simp only [latchWait_raise, raise_latchWait]
  rw [raise_modPos, State.setProgress_eq, raise_modPos, ← State.setProgress_eq]

theorem holdMatch_asks (hc : (s.pos p).chain = [r]) (hidle : (s.pos p).pass.state ≠ .receiving)
    (h : (s.pos p).latchState ≠ .energized) (hcard : (s.pos p).cardPresent = true) (c : NoticeClass) (who : Option Pos) :
    holdMatch p i text flags (raise c who s) = grantDecision (raise c who (holdAsked p r i text flags s)) := by
  have hasked : (State.modPos { disarmed p s with latchWait := (disarmed p s).latchWait ++ [p] } p fun v =>
      { v with latchState := .waiting }).setProgress p (.active (.screenHold i text flags)) = holdAsked p r i text flags s := by
    have hstart : { disarmed p s with latchWait := (disarmed p s).latchWait ++ [p] } =
        State.modPos { s with latchWait := s.latchWait ++ [p] } p fun v => { v with pass := v.pass.disarm } := rfl
    rw [hstart, State.setProgress_eq, State.modPos_modPos, State.modPos_modPos]
    refine State.modPos_congr ?_
    have hchain : (State.pos { s with latchWait := s.latchWait ++ [p] } p).chain = [r] := hc
    have hpass : (State.pos { s with latchWait := s.latchWait ++ [p] } p).pass.disarm = _ := disarm_of_not_receiving hidle
    simp only [Position.setProgress, hchain, hpass]
  unfold holdMatch
  rw [disarmed_raise]
  simp only [pos_raise, pos_disarmed, hcard, if_neg h]
  rw [if_neg (by simp), requestLatch_raise, hasked]

theorem atRest_holdAsked (h : Quiet p s) : AtRest (holdAsked p r i text flags s) := by
  have hlist : AtRest { s with latchWait := s.latchWait ++ [p] } := h.rest
  refine atRest_modPos hlist p _ ?_
  simp [startDue, Position.inFlight, Position.headProgress]

/-- A request that is not granted at once: the budget is full, or the re-energize interval is not over and every older request is
passed over. -/
theorem grantDecision_holdAsked_waits (c : NoticeClass) (who : Option Pos)
    (h : s.settings.live.latchBudget.toNat ≤ s.energized.length ∨
      ((s.pos p).reEnergizeTimer.isRunning = true ∧ ∀ x ∈ s.latchWait, PassedOver x s)) :
    grantDecision (raise c who (holdAsked p r i text flags s)) = raise c who (holdAsked p r i text flags s) := by
  refine grantDecision_idle ?_
  rw [settings_raise, energized_raise, latchWait_raise]
  refine h.imp id fun ⟨hinterval, hpassed⟩ x hx => not_eligible_of ?_
  unfold PassedOver
  rw [pos_raise]
  by_cases hxp : x = p
  · rw [hxp, pos_holdAsked]
    exact .inr (.inr hinterval)
  · rw [pos_holdAsked_ne hxp]
    have hmem : x ∈ s.latchWait ++ [p] := hx
    exact hpassed x (by simpa [hxp] using hmem)

/-- The request is granted at once, and the WAIT CARD ends held. -/
theorem grantDecision_holdAsked_granted (c : NoticeClass) (who : Option Pos)
    (hroom : s.energized.length < s.settings.live.latchBudget.toNat) (hready : (s.pos p).reader.state = .ready)
    (hcard : (s.pos p).cardPresent = true) (hinterval : (s.pos p).reEnergizeTimer = .stopped)
    (hpassed : ∀ x ∈ s.latchWait, PassedOver x s) :
    grantDecision (raise c who (holdAsked p r i text flags s)) =
      endStep p .screened (.card { text := text, flags := flags, entryId := some i, hold := .held })
        (raise c who (grantedTo p (holdAsked p r i text flags s))) := by
  have hmember : ∀ x ∈ s.latchWait, eligible (raise c who (holdAsked p r i text flags s)) x = false := fun x hx => by
    have hne : x ≠ p := by
      rintro rfl
      rcases hpassed x hx with h | h | h
      · exact h hready
      · rw [hcard] at h
        cases h
      · rw [hinterval] at h
        cases h
    refine not_eligible_of ?_
    unfold PassedOver
    rw [pos_raise, pos_holdAsked_ne hne]
    exact hpassed x hx
  have heligible : eligible (raise c who (holdAsked p r i text flags s)) p = true :=
    eligible_of (by rw [pos_raise, pos_holdAsked]; exact hready) (by rw [pos_raise, pos_holdAsked]; exact hcard)
      (by rw [pos_raise, pos_holdAsked]; exact hinterval)
  rw [grantDecision_one (after := []) (by rw [latchWait_raise]; rfl) hmember heligible
    (by rw [energized_raise, settings_raise]; exact hroom) (.inr (by simp)), grant_eq, grantedTo_raise]
  have hchain : ((raise c who (grantedTo p (holdAsked p r i text flags s))).pos p).chain =
      [{ r with progress := some (.active (.screenHold i text flags)) }] := by
    rw [pos_raise, pos_grantedTo_self, pos_holdAsked]
  unfold endGranted
  rw [work_of hchain rfl]

/-- What the freeing leaves of the request, the grant and the ended step is what it leaves of a latch that was driven on. -/
theorem stepFreed_holdGranted (hidle : (s.pos p).pass.state ≠ .receiving) (b : Bool) :
    stepFreed p b (grantedTo p (holdAsked p r i text flags s)) = stepFreed p b (latchOn p s) := by
  have hlist : (latchOn p (holdAsked p r i text flags s)).latchWait.filter (· ≠ p) = (latchOn p s).latchWait.filter (· ≠ p) := by
    show (s.latchWait ++ [p]).filter (· ≠ p) = s.latchWait.filter (· ≠ p)
    simp
  rw [stepFreed_grantedTo]
  refine State.ext_pos (fun q => ?_) ?_
  · rw [pos_stepFreed, pos_stepFreed]
    by_cases hq : q = p
    · have hpass : ({ (s.pos p).pass with armed := false } : PassUnit).disarm = (s.pos p).pass.disarm := by
        rw [← disarm_of_not_receiving hidle, disarm_disarm]
      rw [if_pos hq, if_pos hq, pos_latchOn_self, pos_latchOn_self, pos_holdAsked, hpass]
      rfl
    · rw [if_neg hq, if_neg hq, pos_latchOn_ne hq, pos_latchOn_ne hq, pos_holdAsked_ne hq]
  · unfold stepFreed
    simp only [hlist]
    rfl

end hold

/-- Settles O43: no match, a REPORT match, and a HOLD match by the latch and the card. -/
theorem goodPassEndsWaitCard : Obligations.GoodPassEndsWaitCard := by
  intro s p r a t ms hquiet hc hr _ hready harmed hstate h0 h2 u checked text hgood hroom emptied again matched ended
  have htaken : Quiet p (passTaken p s) := hquiet.modPos _ ⟨rfl, rfl, rfl⟩
  have hmatched : Quiet p (passMatched p s) := htaken.modPos _ ⟨rfl, rfl, rfl⟩
  have hpos := pos_passMatched p s
  have hchain : ((passMatched p s).pos p).chain = [r] := by
    rw [hpos]
    exact hc
  have hidle : ((passMatched p s).pos p).pass.state ≠ .receiving := by
    rw [hpos]
    simp [PassUnit.toIdle]
  have hnot : (s.pos p).pass.state ≠ .discarding := by
    rw [hstate]
    decide
  have hfits (o : StepOutcome) (d : CardData) (hd : d.text = text) : s.queue.length + (cardReports p r.tag o d).length < 32 := by
    rw [length_cardReports, hd]
    exact hroom
  have hends (d : CardData) (hd : d.text = text) {x : State} (hrest : AtRest x) (hwaiting : (x.pos p).waiting = [])
      (hchain : (x.pos p).chain = [r]) (hqueue : x.queue = s.queue) :
      settle (endStep p .screened (.card d) (raise .screenMatch (some p) x)) =
        withReports (cardReports p r.tag .screened d) (stepFreed p r.stopOnFailure (withNotice .screenMatch (some p) x)) :=
    settle_raise_textEnds hrest hwaiting hchain hr (by rw [hqueue]; exact hfits .screened d hd) _ _
  rw [hquiet.readerEndByte, readerEnd_completes hready hnot, passCompletes_good harmed hgood]
  refine ⟨fun hscreen => ?_, fun i hscreen => ?_, fun i hscreen => ?_⟩
  · rw [goodPass_unmatched h0 hscreen, settle_textEnds htaken.rest htaken.noneWaiting (by rw [pos_passTaken]; exact hc) hr
      (hfits _ _ rfl)]
    rfl
  · rw [goodPass_report h0 h2 hscreen, hends _ rfl hmatched.rest hmatched.noneWaiting hchain rfl]
    rfl
  rw [goodPass_hold h0 h2 hscreen]
  have hdisarmed : Quiet p (disarmed p (passMatched p s)) := hmatched.modPos _ ⟨rfl, rfl, rfl⟩
  have hdischain : ((disarmed p (passMatched p s)).pos p).chain = [r] := by
    rw [pos_disarmed]
    exact hchain
  have hlatch : ((passMatched p s).pos p).latchState = (s.pos p).latchState := by rw [hpos]
  have hcardIs : ((passMatched p s).pos p).cardPresent = (s.pos p).cardPresent := by rw [hpos]
  refine ⟨fun hon => ?_, fun hoff hcard => ?_, fun hoff hcard => ⟨fun hbudget hinterval hpassed => ?_, fun hwaits => ?_⟩⟩
  · rw [holdMatch_energized (hlatch.trans hon), hends _ rfl hdisarmed.rest hdisarmed.noneWaiting hdischain rfl,
      stepFreed_withNotice, stepFreed_disarmed, ← stepFreed_withNotice]
    rfl
  · rw [holdMatch_noCard (hlatch.trans_ne hoff) (hcardIs.trans hcard),
      hends _ rfl hdisarmed.rest hdisarmed.noneWaiting hdischain rfl, stepFreed_withNotice, stepFreed_disarmed,
      ← stepFreed_withNotice]
    rfl
  · have hgranted := atRest_grantedTo (atRest_holdAsked (r := r) (i := i) (text := text) (flags := checked.flags) hmatched) p
    rw [holdMatch_asks hchain hidle (hlatch.trans_ne hoff) (hcardIs.trans hcard),
      grantDecision_holdAsked_granted (s := passMatched p s) _ _ hbudget (by rw [hpos]; exact hready) (hcardIs.trans hcard)
        (by rw [hpos]; exact hinterval) fun x hx => passedOver_passMatched (hpassed x hx)]
    rw [settle_raise_textEnds hgranted (r := { r with progress := some (.active (.screenHold i text checked.flags)) })
      (by rw [pos_grantedTo_self, pos_holdAsked]; exact hmatched.noneWaiting) (by rw [pos_grantedTo_self, pos_holdAsked]) hr
      (hfits _ _ rfl), stepFreed_withNotice, stepFreed_holdGranted hidle, ← stepFreed_withNotice, ← latchOn_withNotice]
    rfl
  · have hwaiting : (passMatched p s).settings.live.latchBudget.toNat ≤ (passMatched p s).energized.length ∨
        (((passMatched p s).pos p).reEnergizeTimer.isRunning = true ∧
          ∀ x ∈ (passMatched p s).latchWait, PassedOver x (passMatched p s)) :=
      hwaits.imp id fun ⟨hinterval, hpassed⟩ =>
        ⟨by rw [hpos]; exact hinterval, fun x hx => passedOver_passMatched (hpassed x hx)⟩
    have hasked := atRest_holdAsked (r := r) (i := i) (text := text) (flags := checked.flags) hmatched
    rw [holdMatch_asks hchain hidle (hlatch.trans_ne hoff) (hcardIs.trans hcard), 
      grantDecision_holdAsked_waits (s := passMatched p s) _ _ hwaiting, settle_raise hasked hmatched.room]
    rfl

end Sys2Proof.Machine
end

section
/-! SUPPORT and PROOF for O44. The timers of steps and sessions (R16, R49, R98, R104): what each ends, with the records behind the step
left to go on or to stay. -/

namespace Sys2Proof.Machine

section timers

variable {p : Pos} {s : State} {r : StepRecord} {rest : List StepRecord} {w : Work}

/-- The work of a head step that is ACTIVE, with records behind it. -/
theorem work_cons {v : Position} (hc : v.chain = r :: rest) (hp : r.progress = some (.active w)) : v.work = some w := by
  unfold Position.work Position.headProgress
  simp only [hc, hp]

/-- A step fails by a cause of its own, with one report that no entry fills. -/
theorem settle_failsTo (h : Quiet p s) (hc : (s.pos p).chain = r :: rest) (hnew : ∀ n ∈ rest.head?, n.progress = none)
    (hnext : r.stopOnFailure = true ∨ PauseNext rest) {o : StepOutcome}
    (ho : o ≠ .done ∧ o ≠ .aborted ∧ o ≠ .portFault ∧ o ≠ .deviceAbsent) {d : OutcomeData} {rep : Report}
    (hrep : completionReports p r o d = [rep]) (hfrees : rep.freesRecord = true) (hfill : ∀ e, rep.filled e = rep) :
    settle (endStep p o d s) = withReport rep (stepFreedTo p r.stopOnFailure rest s) := by
  rw [settle_endStep_to_one h.rest h.room h.noneWaiting hc (due_fail r ho.1) hrep hfrees hnew
    (by rw [halts_eq r o d ho]; exact hnext), halts_eq r o d ho, hfill]

theorem sessionTimer_stopped {t : EntryUnit → Timer} (h : t (s.pos p).entry = .stopped) : sessionTimer p t s = s := by
  simp [sessionTimer, h, Timer.isRunning]

theorem sessionTimer_runs {t : EntryUnit → Timer} (h : (t (s.pos p).entry).isRunning = true)
    (hopen : (s.pos p).entry.state = .collecting) : sessionTimer p t s = sessionTimesOut p s := by
  simp [sessionTimer, h, hopen]

/-- The session is counted as timed out. -/
def timeoutCounted (p : Pos) (s : State) : State := s.modPos p fun v => { v with counters := v.counters.set 4 (v.counters[4] + 1) }

/-- The session is closed and counted as timed out. -/
def sessionClosed (p : Pos) (s : State) : State :=
  s.modPos p fun v => { v with entry := v.entry.close, counters := v.counters.set 4 (v.counters[4] + 1) }

theorem sessionTimesOut_eq (hcount : (s.pos p).counters[4] < 49151) :
    sessionTimesOut p s = endStep p .timeout .nothing (sessionClosed p s) := by
  have hpos : (s.modEntry p EntryUnit.close).pos p = { s.pos p with entry := (s.pos p).entry.close } := State.pos_modPos_self _ _ _
  unfold sessionTimesOut
  rw [countPos_low .entriesTimedOut (by rw [hpos]; exact hcount), hpos]
  exact congrArg _ (State.modPos_modPos _ _ _ _)

/-- The freeing wipes a collecting session, so it is one whether that has happened before or not. -/
theorem stepFreed_sessionClosed (hopen : (s.pos p).entry.state = .collecting) (b : Bool) :
    stepFreed p b (sessionClosed p s) = stepFreed p b (timeoutCounted p s) := by
  refine State.ext_pos (fun q => ?_) rfl
  rw [pos_stepFreed, pos_stepFreed]
  by_cases hq : q = p
  · have hclosed : (sessionClosed p s).pos p = _ := State.pos_modPos_self _ _ _
    have hcounted : (timeoutCounted p s).pos p = _ := State.pos_modPos_self _ _ _
    rw [if_pos hq, if_pos hq, hclosed, hcounted, if_pos (show (s.pos p).entry.close.state = .closed from rfl),
      if_neg (show ¬ (s.pos p).entry.state = .closed by rw [hopen]; decide)]
    rfl
  · rw [if_neg hq, if_neg hq]
    exact (State.pos_modPos_ne _ hq _).trans (State.pos_modPos_ne _ hq _).symm

/-- A session that times out ends its COLLECT. -/
theorem settle_sessionTimesOut (h : Quiet p s) (hc : (s.pos p).chain = r :: rest) (hnew : ∀ n ∈ rest.head?, n.progress = none)
    (hnext : r.stopOnFailure = true ∨ PauseNext rest) {c : CollectParams} (hr : r.params = .collect c)
    (hopen : (s.pos p).entry.state = .collecting) (hcount : (s.pos p).counters[4] < 49151) :
    settle (sessionTimesOut p s) =
      withReport (.stepDone p r.tag .collect .timeout [] false) (stepFreedTo p r.stopOnFailure rest (timeoutCounted p s)) := by
  have hclosed : Quiet p (sessionClosed p s) := h.modPos _ ⟨rfl, rfl, rfl⟩
  have hchain : ((sessionClosed p s).pos p).chain = r :: rest := by
    unfold sessionClosed
    rw [State.pos_modPos_self]
    exact hc
  have hreports : completionReports p r .timeout .nothing = [.stepDone p r.tag .collect .timeout [] false] := by
    rw [completionReports, hr]
    rfl
  rw [sessionTimesOut_eq hcount, settle_failsTo hclosed hchain hnew hnext (by decide) hreports rfl fun _ => rfl]
  unfold stepFreedTo
  rw [stepFreed_sessionClosed hopen]

end timers

/-- Settles O44: the timers of the steps, those of the session, the PAUSE, and the timers that are stopped. -/
theorem timersEndSteps : Obligations.TimersEndSteps := by
  intro s p hquiet
  rw [hquiet.waitCardTimeout, hquiet.removalTimeout, hquiet.pauseTimerExpiry, hquiet.firstKeyTimeout, hquiet.interKeyTimeout,
    hquiet.ceilingTimeout]
  refine ⟨fun r rest hc hnew => ⟨fun hnext => ⟨?card, ?removal, ?session⟩, ?pause⟩, fun hnone => ?_, fun hstopped => ?_,
    fun hstopped => ?_, fun hstopped => ?_⟩
  case card =>
    intro a t ms hr hprogress
    have hends : waitCardRunsOut p s = endStep p .timeout (.card { attempts := (s.pos p).attemptCount }) s := by
      unfold waitCardRunsOut
      rw [work_cons hc hprogress]
      rfl
    rw [hends, settle_failsTo hquiet hc hnew hnext (by decide) (completionReports_waitCard p hr (by decide) _) rfl fun _ => rfl]
  case removal =>
    intro w t ms hr hprogress
    have hends : removalRunsOut p s = endStep p .timeout .nothing s := by
      unfold removalRunsOut
      rw [work_cons hc hprogress]
      rfl
    have hreports : completionReports p r .timeout .nothing = [.stepDone p r.tag .releaseCard .timeout [] false] := by
      rw [completionReports, hr]
      rfl
    rw [hends, settle_failsTo hquiet hc hnew hnext (by decide) hreports rfl fun _ => rfl]
  case session =>
    intro c hr _ hopen hcount out
    have hout : settle (sessionTimesOut p s) = out := settle_sessionTimesOut hquiet hc hnew hnext hr hopen hcount
    refine ⟨fun hruns => ?_, fun hruns => ?_, fun hruns => ?_⟩ <;> rw [sessionTimer_runs hruns hopen, hout]
  case pause =>
    intro d ms hr hprogress hpause
    have hends : pauseRunsOut p s = endStep p .done .nothing s := by
      unfold pauseRunsOut
      rw [work_cons hc hprogress]
      rfl
    have hreports : completionReports p r .done .nothing = [.stepDone p r.tag .pause .done [] false] := by
      rw [completionReports, hr]
      rfl
    have hdue : r.reportDue .done = r.notify := reportDue_done (by rw [hr]; exact fun h => nomatch h)
    rw [hends]
    cases hnotify : r.notify with
    | true =>
      rw [settle_endStep_to_one hquiet.rest hquiet.room hquiet.noneWaiting hc (hdue.trans hnotify) hreports rfl hnew (.inr hpause),
        halts_done]
      rfl
    | false =>
      rw [settle_endStep_silent_to hquiet.rest hquiet.order hc (hdue.trans hnotify) hnew (.inr hpause), halts_done]
      rfl
  · have hwork : (s.pos p).work = none := work_none hnone
    have hidle : waitCardRunsOut p s = s ∧ removalRunsOut p s = s ∧ pauseRunsOut p s = s := by
      unfold waitCardRunsOut removalRunsOut pauseRunsOut
      rw [hwork]
      exact ⟨rfl, rfl, rfl⟩
    rw [hidle.1, hidle.2.1, hidle.2.2, hquiet.idle]
    exact ⟨rfl, rfl, rfl⟩
  · rw [sessionTimer_stopped hstopped, hquiet.idle]
  · rw [sessionTimer_stopped hstopped, hquiet.idle]
  · rw [sessionTimer_stopped hstopped, hquiet.idle]

end Sys2Proof.Machine
end

section
/-! SUPPORT and PROOF for O45. Key presses, releases and long presses where no session collects (R70 to R79): the hold tracker, and
the KEY report at a queue with room and at a full one. -/

namespace Sys2Proof.Machine

/-! ### The hold tracker (R70 to R75) -/

section tracker

variable {p : Pos} {s : State} {code : Fin 24}

theorem keyPressed_nothing (h : symbolOf (loByte (pressEntry s p code)) = .nothing) : keyPressed p code s = s := by
  unfold keyPressed
  split_ifs
  · simp only [h, if_true]
  · rfl

theorem keyPressed_tracked (hready : (s.pos p).keypad.state = .ready) (h : symbolOf (loByte (pressEntry s p code)) ≠ .nothing) :
    keyPressed p code s =
      trackPress p code (symbolOf (loByte (pressEntry s p code))) (symbolOf (hiByte (pressEntry s p code))) s := by
  unfold keyPressed
  simp only [hready, if_true, if_neg h]

theorem settleUndecided_none (h : (s.pos p).key.undecided = none) : settleUndecided p s = s := by
  simp [settleUndecided, h]

/-- A press decided at once, no key being undecided. -/
theorem keyPressed_decided (hready : (s.pos p).keypad.state = .ready) (h : symbolOf (loByte (pressEntry s p code)) ≠ .nothing)
    (hheld : symbolOf (hiByte (pressEntry s p code)) = .nothing) (hnone : (s.pos p).key.undecided = none) :
    keyPressed p code s = settle (routeSymbol p (symbolOf (loByte (pressEntry s p code))) false s) := by
  rw [keyPressed_tracked hready h, trackPress, settleUndecided_none hnone, if_pos hheld]

/-- The undecided key has been settled. -/
def tracked (p : Pos) (s : State) : State :=
  s.modPos p fun v => { v with key := { v.key with undecided := none, longPress := .stopped } }

theorem pos_tracked (p : Pos) (s : State) :
    (tracked p s).pos p = { s.pos p with key := { (s.pos p).key with undecided := none, longPress := .stopped } } :=
  State.pos_modPos_self _ _ _

theorem keyReleased_none (h : (s.pos p).key.undecided = none) : keyReleased p code s = s := by
  unfold keyReleased
  split_ifs
  · simp only [h]
  · rfl

theorem keyReleased_some (hready : (s.pos p).keypad.state = .ready) {u : Undecided} (hu : (s.pos p).key.undecided = some u) :
    keyReleased p code s = if u.code = code then routeSymbol p u.press false (tracked p s) else s := by
  unfold keyReleased
  rw [if_pos hready]
  simp only [hu]
  rfl

theorem longPressRunsOut_some (hruns : (s.pos p).key.longPress.isRunning = true) {u : Undecided}
    (hu : (s.pos p).key.undecided = some u) : longPressRunsOut p s = routeSymbol p u.held true (tracked p s) := by
  unfold longPressRunsOut
  rw [if_pos hruns]
  simp only [hu]
  rfl

/-- With no session collecting, a symbol is a KEY report where idle-key reporting is on. -/
theorem routeSymbol_idle (h : (s.pos p).collecting = none) (x : Symbol) (b : Bool) :
    routeSymbol p x b s = if (s.pos p).items.idleKeys = 1 then keyReport p x b s else s := by
  unfold routeSymbol
  rw [h]

/-- What a decided symbol leaves where no session collects. -/
def symbolDecided (p : Pos) (x : Symbol) (b : Bool) (s : State) : State :=
  if (s.pos p).items.idleKeys = 1 then withReport (.key p x b) s else s

theorem settle_routeSymbol_idle (hquiet : Quiet p s) (h : (s.pos p).collecting = none) (x : Symbol) (b : Bool) :
    settle (routeSymbol p x b s) = symbolDecided p x b s := by
  rw [routeSymbol_idle h]
  unfold symbolDecided
  split_ifs
  · exact keyReport_settle hquiet x b
  · exact hquiet.idle

theorem withReport_same (r : Report) (s : State) :
    (withReport r s).positions = s.positions ∧ (withReport r s).settings = s.settings ∧
      (withReport r s).variant = s.variant := by
  unfold withReport
  split_ifs <;> exact ⟨rfl, rfl, rfl⟩

theorem symbolDecided_same (x : Symbol) (b : Bool) :
    (symbolDecided p x b s).positions = s.positions ∧ (symbolDecided p x b s).settings = s.settings ∧
      (symbolDecided p x b s).variant = s.variant := by
  unfold symbolDecided
  split_ifs
  · exact withReport_same _ s
  · exact ⟨rfl, rfl, rfl⟩

theorem collecting_tracked (h : (s.pos p).collecting = none) : ((tracked p s).pos p).collecting = none := by
  rw [pos_tracked]
  exact h

theorem settleUndecided_some (hquiet : Quiet p s) (h : (s.pos p).collecting = none) {u : Undecided}
    (hu : (s.pos p).key.undecided = some u) : settleUndecided p s = symbolDecided p u.press false (tracked p s) := by
  have htracked : Quiet p (tracked p s) := hquiet.modPos _ ⟨rfl, rfl, rfl⟩
  unfold settleUndecided
  rw [hu]
  exact settle_routeSymbol_idle htracked (collecting_tracked h) u.press false

/-- A press with a key undecided is the press that comes once that key has been settled. -/
theorem keyPressed_settled (hquiet : Quiet p s) (hready : (s.pos p).keypad.state = .ready) (h : (s.pos p).collecting = none)
    (hpress : symbolOf (loByte (pressEntry s p code)) ≠ .nothing) {u : Undecided}
    (hu : (s.pos p).key.undecided = some u) :
    keyPressed p code s = keyPressed p code (symbolDecided p u.press false (tracked p s)) := by
  obtain ⟨hpositions, hsettings, -⟩ := symbolDecided_same (p := p) (s := tracked p s) u.press false
  have hpos : (symbolDecided p u.press false (tracked p s)).pos p = (tracked p s).pos p := by
    unfold State.pos
    rw [hpositions]
  have hentry : pressEntry (symbolDecided p u.press false (tracked p s)) p code = pressEntry s p code := by
    unfold pressEntry
    rw [hsettings, hpos, pos_tracked]
    rfl
  have hnone : ((symbolDecided p u.press false (tracked p s)).pos p).key.undecided = none := by
    rw [hpos, pos_tracked]
  rw [keyPressed_tracked hready hpress, keyPressed_tracked (by rw [hpos, pos_tracked]; exact hready) (by rw [hentry]; exact hpress),
    hentry, trackPress, settleUndecided_some hquiet h hu, trackPress, settleUndecided_none hnone]

end tracker

/-! ### A KEY report at a full queue (R78, R79) -/

section full

variable {p : Pos} {s : State}

/-- What waits for admission waits on, while the queue is full. -/
theorem AtRest.of_full {s t : State} (h : AtRest s) (hfull : s.queue.length = 32) (hqueue : t.queue = s.queue)
    (hlink : t.link = s.link) (hstart : ∀ q, startDue (t.pos q) = startDue (s.pos q)) : AtRest t := by
  obtain ⟨-, hstarted, hsent⟩ := h
  refine ⟨fun hroom => ?_, fun q => (hstart q).trans (hstarted q), by rw [hlink, hqueue]; exact hsent⟩
  rw [hqueue, hfull] at hroom
  exact absurd hroom (by decide)

theorem atRest_offer_full (h : AtRest s) (hfull : s.queue.length = 32) (p : Pos) (rs : List Report) : AtRest (offer p rs s) :=
  h.of_full hfull rfl rfl fun q => by
    by_cases hq : q = p
    · rw [hq, pos_offer_self]
      rfl
    · rw [pos_offer_ne hq]

theorem settle_keyReport_joins (h : AtRest s) (hfull : s.queue.length = 32) (hkeys : (s.pos p).keyCount < 8) (x : Symbol) (b : Bool) :
    settle (keyReport p x b s) =
      { s.modPos p fun v => { v with waiting := v.waiting ++ [.key p x b] } with
        waitOrder := joinOrder s.waitOrder (.position p) } := by
  unfold keyReport
  rw [if_pos (by exact hkeys), settle_of_atRest (atRest_offer_full h hfull p _)]
  rfl

/-- The dropped KEY is counted and an error beep asked of a keypad that has a beeper. -/
def keyDropped (p : Pos) (s : State) : State :=
  s.modPos p fun v =>
    { v with
      counters := v.counters.set 5 (v.counters[5] + 1)
      key := if v.key.beeper then { v.key with waitingBeep := some .error } else v.key }

theorem settle_keyReport_dropped (h : AtRest s) (hfull : s.queue.length = 32) (hready : (s.pos p).keypad.state = .ready)
    (hkeys : 8 ≤ (s.pos p).keyCount) (hcount : (s.pos p).counters[5] < 49151) (x : Symbol) (b : Bool) :
    settle (keyReport p x b s) =
      if noticeAsked .keysDropped (some p) s then
        { keyDropped p s with
          notices := raisedNotices .keysDropped (some p) s
          noticeReport := .waiting
          waitOrder := joinOrder s.waitOrder .notices }
      else { keyDropped p s with notices := raisedNotices .keysDropped (some p) s } := by
  have hdropped : keyReport p x b s = raise .keysDropped (some p) (keyDropped p s) := by
    have hcounted := countPos_low .keysDropped hcount
    unfold keyReport
    rw [if_neg (by simp [Config.keyLimit]; omega), hcounted, askBeep, raise_modPos, State.modPos_modPos]
    refine congrArg _ (State.modPos_congr ?_)
    by_cases hbeeper : (s.pos p).key.beeper = true
    · simp [hready, hbeeper]
      rfl
    · simp [hbeeper]
      rfl
  have hstart (q : Pos) : startDue ((keyDropped p s).pos q) = startDue (s.pos q) := by
    unfold keyDropped
    by_cases hq : q = p
    · rw [hq, State.pos_modPos_self]
      rfl
    · rw [State.pos_modPos_ne _ hq]
  have hasks : noticeAsked .keysDropped (some p) (keyDropped p s) = noticeAsked .keysDropped (some p) s := rfl
  rw [hdropped, raise_eq, hasks]
  split_ifs with hasked
  · have habsent : s.noticeReport = .absent := by
      simp only [noticeAsked, Bool.and_eq_true, decide_eq_true_eq] at hasked
      exact hasked.2
    have hnotices : askNotice { keyDropped p s with notices := raisedNotices .keysDropped (some p) (keyDropped p s) } =
        { keyDropped p s with
          notices := raisedNotices .keysDropped (some p) s
          noticeReport := .waiting
          waitOrder := joinOrder s.waitOrder .notices } := if_pos habsent
    rw [hnotices]
    exact settle_of_atRest (h.of_full hfull rfl rfl hstart)
  · exact settle_of_atRest (h.of_full hfull rfl rfl hstart)

end full

/-- Settles O45: the press, the release and the long press, then a press decided at once at a full queue. -/
theorem keysBecomeSymbols : Obligations.KeysBecomeSymbols := by
  intro s p code hready hidle k w press held
  refine ⟨fun hquiet => ?_, fun hpresent hrest hfull hidleKeys hnone hpress hheld => ?_⟩
  · intro decided clear
    have hdecided (x : Symbol) (b : Bool) : settle (routeSymbol p x b s) = decided x b s := settle_routeSymbol_idle hquiet hidle x b
    have htracked : Quiet p (tracked p s) := hquiet.modPos _ ⟨rfl, rfl, rfl⟩
    have hclear (x : Symbol) (b : Bool) : symbolDecided p x b (tracked p s) = decided x b clear := by
      unfold symbolDecided
      rw [pos_tracked]
      rfl
    have hcleared (x : Symbol) (b : Bool) : settle (routeSymbol p x b (tracked p s)) = decided x b clear :=
      (settle_routeSymbol_idle htracked (collecting_tracked hidle) x b).trans (hclear x b)
    rw [hquiet.keyPress, hquiet.keyRelease, hquiet.longPressTimeout]
    refine ⟨fun hpress => ?_, fun hnone hpress hheld => ?_, fun hnone hpress hheld => ?_, fun hnone => ?_,
      fun u hu => ⟨fun hcode => ?_, fun hcode => ?_, fun hruns => ?_, fun hpress => ?_⟩, fun hstopped => ?_⟩
    · rw [keyPressed_nothing hpress]
    · rw [keyPressed_decided hready hpress hheld hnone, hdecided]
    · rw [keyPressed_tracked hready hpress, trackPress, settleUndecided_none hnone, if_neg hheld]
      rfl
    · rw [keyReleased_none hnone, hquiet.idle]
    · rw [keyReleased_some hready hu, if_pos hcode, hcleared]
    · rw [keyReleased_some hready hu, if_neg hcode, hquiet.idle]
    · rw [longPressRunsOut_some hruns hu, hcleared]
    · obtain ⟨-, -, hvariant⟩ := symbolDecided_same (p := p) (s := tracked p s) u.press false
      have hexec : exec (.keyPress p code) (symbolDecided p u.press false (tracked p s)) =
          .next (keyPressed p code (symbolDecided p u.press false (tracked p s))) :=
        if_pos (by rw [hvariant]; exact hquiet.present)
      rw [keyPressed_settled hquiet hready hidle hpress hu, ← hexec, hclear]
    · have hstop : longPressRunsOut p s = s := if_neg (by rw [hstopped]; decide)
      rw [hstop, hquiet.idle]
  · intro keys joined
    have hexec : exec (.keyPress p code) s = .next (keyPressed p code s) := if_pos hpresent
    have hroute : routeSymbol p press false s = keyReport p press false s := by
      rw [routeSymbol_idle hidle, if_pos hidleKeys]
    have hcount : (s.pos p).keyCount = keys := rfl
    rw [hexec, keyPressed_decided hready hpress hheld hnone, show symbolOf (loByte (pressEntry s p code)) = press from rfl, hroute]
    refine ⟨fun hkeys => ?_, fun hkeys hcounter => ?_⟩
    · rw [settle_keyReport_joins hrest hfull (hcount ▸ hkeys)]
      rfl
    · intro t
      rw [settle_keyReport_dropped hrest hfull hready (hcount ▸ hkeys) hcounter]
      rfl

end Sys2Proof.Machine
end

section
/-! SUPPORT and PROOF for O46. The keys of a collecting session (R89 to R97, R103 to R105): what each symbol makes of the session, and
how a session ends. -/

namespace Sys2Proof.Machine

/-! ### A session that has been wiped before its record is freed -/

theorem stepFreed_modPos_entry {p : Pos} {s : State} {f g : Position → Position} {e : EntryUnit}
    (hf : f (s.pos p) = { g (s.pos p) with entry := e })
    (he : (if e.state = .closed then e else e.close) =
      if (g (s.pos p)).entry.state = .closed then (g (s.pos p)).entry else (g (s.pos p)).entry.close) (b : Bool) :
    stepFreed p b (s.modPos p f) = stepFreed p b (s.modPos p g) := by
  refine State.ext_pos (fun q => ?_) rfl
  rw [pos_stepFreed, pos_stepFreed]
  by_cases hq : q = p
  · rw [if_pos hq, if_pos hq, State.pos_modPos_self, State.pos_modPos_self, hf, ← he]
    rfl
  · rw [if_neg hq, if_neg hq, State.pos_modPos_ne _ hq, State.pos_modPos_ne _ hq]

/-- The same, against a position that is left as it is. -/
theorem stepFreed_modPos_entry_self {p : Pos} {s : State} {f : Position → Position} {e : EntryUnit}
    (hf : f (s.pos p) = { s.pos p with entry := e })
    (he : (if e.state = .closed then e else e.close) =
      if (s.pos p).entry.state = .closed then (s.pos p).entry else (s.pos p).entry.close) (b : Bool) :
    stepFreed p b (s.modPos p f) = stepFreed p b s := by
  rw [stepFreed_modPos_entry (g := fun v => v) hf he, State.modPos_id _ _ _ rfl]

theorem stepFreed_withReport (p : Pos) (b : Bool) (r : Report) (s : State) :
    stepFreed p b (withReport r s) = withReport r (stepFreed p b s) := by
  have hlink : (stepFreed p b s).link = s.link := rfl
  unfold withReport
  rw [hlink]
  split_ifs <;> rfl

section session

variable {p : Pos} {s : State} {r : StepRecord} {c : CollectParams}

/-! ### A symbol comes to its session (R77, R89) -/

/-- Every symbol stops the first-key timer and restarts the inter-key timer. -/
def timedEntry (c : CollectParams) (e : EntryUnit) : EntryUnit :=
  { e with firstKey := .stopped, interKey := .running (c.interKey * 1000) }

def timedSession (p : Pos) (c : CollectParams) (s : State) : State :=
  s.modPos p fun v => { v with entry := timedEntry c v.entry }

theorem pos_timedSession (p : Pos) (c : CollectParams) (s : State) :
    (timedSession p c s).pos p = { s.pos p with entry := timedEntry c (s.pos p).entry } := State.pos_modPos_self _ _ _

theorem collecting_some (hc : (s.pos p).chain = [r]) (hr : r.params = .collect c) (hp : r.progress = some (.active .session))
    (hopen : (s.pos p).entry.state = .collecting) : (s.pos p).collecting = some c := by
  obtain ⟨params, tag, notify, stop, progress⟩ := r
  simp only at hr hp
  subst hr hp
  simp [Position.collecting, hc, hopen]

theorem routeSymbol_collecting (h : (s.pos p).collecting = some c) (x : Symbol) (b : Bool) :
    routeSymbol p x b s = takeSymbol p c x b s := by
  unfold routeSymbol
  rw [h]

theorem takeSymbol_open (h : (s.pos p).entry.mode = .openKeys) (x : Symbol) (b : Bool) :
    takeSymbol p c x b s = takeOpen p x b (timedSession p c s) := by
  have hmode : ((timedSession p c s).pos p).entry.mode = .openKeys := by
    rw [pos_timedSession]
    exact h
  have htimed : (s.modEntry p fun e => { e with firstKey := .stopped, interKey := .running (c.interKey * 1000) }) =
      timedSession p c s := rfl
  unfold takeSymbol
  simp only [htimed, hmode]

theorem takeSymbol_amount (h : (s.pos p).entry.mode = .amount) (x : Symbol) (b : Bool) :
    takeSymbol p c x b s = takeAmount p x (timedSession p c s) := by
  have hmode : ((timedSession p c s).pos p).entry.mode = .amount := by
    rw [pos_timedSession]
    exact h
  have htimed : (s.modEntry p fun e => { e with firstKey := .stopped, interKey := .running (c.interKey * 1000) }) =
      timedSession p c s := rfl
  unfold takeSymbol
  simp only [htimed, hmode]

theorem takeSymbol_concealed (h : (s.pos p).entry.mode = .concealed) (x : Symbol) (b : Bool) :
    takeSymbol p c x b s = takeConcealed p x (timedSession p c s) := by
  have hmode : ((timedSession p c s).pos p).entry.mode = .concealed := by
    rw [pos_timedSession]
    exact h
  have htimed : (s.modEntry p fun e => { e with firstKey := .stopped, interKey := .running (c.interKey * 1000) }) =
      timedSession p c s := rfl
  unfold takeSymbol
  simp only [htimed, hmode]

/-! ### What a symbol leaves of the session -/

/-- The buffer is `b`, and its echo has been handed to the display. -/
def sessionEdited (p : Pos) (c : CollectParams) (b : List (Fin 10)) (s : State) : State :=
  s.modPos p fun v =>
    { v with
      entry := { timedEntry c v.entry with buffer := b }
      key := if v.key.display then takeContent ((echoText { (s.pos p).entry with buffer := b }).getD []) v.key else v.key }

/-- An error beep is asked of a keypad that has a beeper. -/
def sessionBeeped (p : Pos) (c : CollectParams) (s : State) : State :=
  s.modPos p fun v =>
    { v with
      entry := timedEntry c v.entry
      key := if v.key.beeper then { v.key with waitingBeep := some .error } else v.key }

theorem quiet_timedSession (h : Quiet p s) : Quiet p (timedSession p c s) := h.modPos _ ⟨rfl, rfl, rfl⟩

theorem editBuffer_ready (hready : (s.pos p).keypad.state = .ready) (hmode : (s.pos p).entry.mode ≠ .openKeys)
    (b : List (Fin 10)) :
    editBuffer p b s = s.modPos p fun v =>
      { v with
        entry := { v.entry with buffer := b }
        key := if v.key.display then takeContent ((echoText { (s.pos p).entry with buffer := b }).getD []) v.key else v.key } := by
  have hpos : (s.modEntry p fun e => { e with buffer := b }).pos p =
      { s.pos p with entry := { (s.pos p).entry with buffer := b } } := State.pos_modPos_self _ _ _
  have hsome : echoText { (s.pos p).entry with buffer := b } ≠ none := by
    unfold echoText
    cases hm : (s.pos p).entry.mode with
    | openKeys => exact absurd hm hmode
    | _ => simp
  obtain ⟨text, htext⟩ := Option.ne_none_iff_exists'.1 hsome
  unfold editBuffer handEcho
  rw [hpos]
  simp only [htext, Option.getD_some]
  unfold handContent State.modEntry
  rw [State.modPos_modPos]
  refine State.modPos_congr ?_
  simp only [hready, decide_true, Bool.true_and]
  split_ifs <;> rfl

theorem editBuffer_timed (hready : (s.pos p).keypad.state = .ready) (hmode : (s.pos p).entry.mode ≠ .openKeys)
    (b : List (Fin 10)) : editBuffer p b (timedSession p c s) = sessionEdited p c b s := by
  have hpos := pos_timedSession p c s
  rw [editBuffer_ready (by rw [hpos]; exact hready) (by rw [hpos]; exact hmode), hpos]
  exact State.modPos_modPos _ _ _ _

theorem askBeep_timed (hready : (s.pos p).keypad.state = .ready) : askBeep p .error (timedSession p c s) = sessionBeeped p c s := by
  unfold askBeep timedSession sessionBeeped
  rw [State.modPos_modPos]
  refine State.modPos_congr ?_
  simp only [hready, decide_true, Bool.true_and]
  split_ifs <;> rfl

/-! ### The end of a session (R103 to R105) -/

theorem completionReports_collect (p : Pos) (hr : r.params = .collect c) (o : StepOutcome) :
    completionReports p r o .nothing = [.stepDone p r.tag .collect o [] false] := by
  rw [completionReports, hr]
  rfl

/-- A session that is wiped at its failure, whatever its state. -/
theorem settle_sessionFails (h : Quiet p s) (hc : (s.pos p).chain = [r]) (hr : r.params = .collect c)
    (hopen : (s.pos p).entry.state ≠ .closed) {o : StepOutcome} (ho : o = .customerCancel ∨ o = .clearLimit) :
    settle (sessionFails p o s) =
      withReport (.stepDone p r.tag .collect o [] false) (stepFreed p r.stopOnFailure s) := by
  have hclosed : Quiet p (s.modEntry p EntryUnit.close) := h.modPos _ ⟨rfl, rfl, rfl⟩
  have hchain : ((s.modEntry p EntryUnit.close).pos p).chain = [r] := by
    rw [State.modEntry, State.pos_modPos_self]
    exact hc
  have hfails : o ≠ .done ∧ o ≠ .aborted ∧ o ≠ .portFault ∧ o ≠ .deviceAbsent := by
    rcases ho with rfl | rfl <;> decide
  have hfreed : stepFreed p r.stopOnFailure (s.modEntry p EntryUnit.close) = stepFreed p r.stopOnFailure s :=
    stepFreed_modPos_entry_self (e := (s.pos p).entry.close) rfl
      (by rw [if_pos (show (s.pos p).entry.close.state = .closed from rfl), if_neg hopen]) _
  unfold sessionFails
  rw [settle_endStep hclosed.rest hclosed.room hclosed.noneWaiting hchain (due_fail r hfails.1)
    (completionReports_collect p hr o) rfl, halts_eq r o _ hfails, hfreed]
  rfl

theorem stepFreed_timedSession (hopen : (s.pos p).entry.state = .collecting) (b : Bool) :
    stepFreed p b (timedSession p c s) = stepFreed p b s := by
  have hnot : (s.pos p).entry.state ≠ .closed := by
    rw [hopen]
    decide
  exact stepFreed_modPos_entry_self (e := timedEntry c (s.pos p).entry) rfl
    (by rw [if_neg hnot, if_neg (show (timedEntry c (s.pos p).entry).state ≠ .closed from hnot)]; rfl) b

/-- The entry is counted as done. -/
def entryCounted (p : Pos) (s : State) : State := s.modPos p fun v => { v with counters := v.counters.set 3 (v.counters[3] + 1) }

/-- The session is over with its entry DONE, and counted. -/
def sessionFinished (p : Pos) (c : CollectParams) (s : State) : State :=
  s.modPos p fun v =>
    { v with entry := (timedEntry c v.entry).finish, counters := v.counters.set 3 (v.counters[3] + 1) }

theorem pos_sessionFinished : (sessionFinished p c s).pos p =
    { s.pos p with
      entry := (timedEntry c (s.pos p).entry).finish
      counters := (s.pos p).counters.set 3 ((s.pos p).counters[3] + 1) } := State.pos_modPos_self _ _ _

theorem sessionDone_timed (hcount : (s.pos p).counters[3] < 49151) :
    sessionDone p (timedSession p c s) = endStep p .done (s.pos p).entry.doneData (sessionFinished p c s) := by
  have hfinished : (timedSession p c s).modEntry p EntryUnit.finish =
      s.modPos p fun v => { v with entry := (timedEntry c v.entry).finish } := State.modPos_modPos _ _ _ _
  have hpos : (s.modPos p fun v => { v with entry := (timedEntry c v.entry).finish }).pos p =
      { s.pos p with entry := (timedEntry c (s.pos p).entry).finish } := State.pos_modPos_self _ _ _
  have hdata : ((timedSession p c s).pos p).entry.doneData = (s.pos p).entry.doneData := by
    rw [pos_timedSession]
    rfl
  unfold sessionDone
  rw [hdata, hfinished, countPos_low .entriesDone (by rw [hpos]; exact hcount), hpos]
  exact congrArg (endStep p .done (s.pos p).entry.doneData) (State.modPos_modPos _ _ _ _)

/-- A session that keeps its digits until its report is in the queue is wiped as its record is freed. -/
theorem stepFreed_sessionFinished (hopen : (s.pos p).entry.state = .collecting) (hmode : (s.pos p).entry.mode ≠ .openKeys)
    (b : Bool) : stepFreed p b (sessionFinished p c s) = stepFreed p b (entryCounted p s) := by
  refine stepFreed_modPos_entry (e := (timedEntry c (s.pos p).entry).finish) rfl ?_ b
  have hstate : (timedEntry c (s.pos p).entry).finish.state = .finished := if_neg hmode
  rw [hstate, hopen]
  rfl

/-- A DONE of AMOUNT and CONCEALED mode. -/
theorem settle_sessionDone (h : Quiet p s) (hc : (s.pos p).chain = [r]) (hr : r.params = .collect c)
    (hopen : (s.pos p).entry.state = .collecting) (hmode : (s.pos p).entry.mode ≠ .openKeys)
    (hcount : (s.pos p).counters[3] < 49151) :
    settle (sessionDone p (timedSession p c s)) =
      if r.notify then
        withReport (.stepDone p r.tag .collect .done (entryData (s.pos p).entry) false) (stepFreed p false (entryCounted p s))
      else stepFreed p false (entryCounted p s) := by
  have hfinished : Quiet p (sessionFinished p c s) := h.modPos _ ⟨rfl, rfl, rfl⟩
  have hchain : ((sessionFinished p c s).pos p).chain = [r] := by
    rw [pos_sessionFinished]
    exact hc
  have hdata : (s.pos p).entry.doneData = .entry (s.pos p).entry.mode (s.pos p).entry.decimals := if_neg hmode
  have hreports : completionReports p r .done (.entry (s.pos p).entry.mode (s.pos p).entry.decimals) =
      [.stepDone p r.tag .collect .done [] true] := by
    rw [completionReports, hr]
    rfl
  have hdue : r.reportDue .done = r.notify := reportDue_done (by rw [hr]; exact fun h => nomatch h)
  rw [sessionDone_timed hcount, hdata, ← stepFreed_sessionFinished hopen hmode]
  cases hnotify : r.notify with
  | true =>
    have hkept : ((sessionFinished p c s).pos p).entry.closeCollecting = (timedEntry c (s.pos p).entry).finish := by
      rw [pos_sessionFinished]
      refine if_neg ?_
      have hstate : (timedEntry c (s.pos p).entry).finish.state = .finished := if_neg hmode
      rw [hstate]
      decide
    rw [settle_endStep hfinished.rest hfinished.room hfinished.noneWaiting hchain (hdue.trans hnotify) hreports rfl, halts_done,
      hkept]
    rfl
  | false =>
    rw [settle_endStep_silent hfinished.rest hchain (hdue.trans hnotify), halts_done]
    rfl

/-! ### OPEN mode: the KEY report goes before the end (R90) -/

theorem offer_modPos {f : Position → Position} (rs : List Report)
    (hf : ∀ v, f { v with waiting := v.waiting ++ rs } = { f v with waiting := (f v).waiting ++ rs }) :
    (offer p rs s).modPos p f = offer p rs (s.modPos p f) := by
  have hjoined : (offer p rs s).modPos p f =
      { (s.modPos p fun v => { v with waiting := v.waiting ++ rs }).modPos p f with
        waitOrder := joinOrder s.waitOrder (.position p) } := rfl
  have hoffered : offer p rs (s.modPos p f) =
      { (s.modPos p f).modPos p (fun v => { v with waiting := v.waiting ++ rs }) with
        waitOrder := joinOrder s.waitOrder (.position p) } := rfl
  rw [hjoined, hoffered, State.modPos_modPos, State.modPos_modPos,
    State.modPos_congr (f := fun v => f { v with waiting := v.waiting ++ rs })
      (g := fun v => { f v with waiting := (f v).waiting ++ rs }) (hf (s.pos p))]

theorem keyReport_offers (h : Quiet p s) (x : Symbol) (b : Bool) : keyReport p x b s = offer p [.key p x b] s := by
  have hkeys : (s.pos p).keyCount = 0 := by
    unfold Position.keyCount
    rw [h.noneWaiting]
    rfl
  unfold keyReport
  rw [hkeys]
  rfl

theorem takeOpen_plain {x : Symbol} {b : Bool} (henter : x ≠ .enter) (hcancel : x ≠ .cancel) :
    takeOpen p x b s = keyReport p x b s := by
  unfold takeOpen
  cases x with
  | enter => exact absurd rfl henter
  | cancel => exact absurd rfl hcancel
  | _ => rfl

theorem settle_openEnter (h : Quiet p s) (hroom : s.queue.length < 31) (hc : (s.pos p).chain = [r]) (hr : r.params = .collect c)
    (hopen : (s.pos p).entry.state = .collecting) (hmode : (s.pos p).entry.mode = .openKeys)
    (hempty : (s.pos p).entry.buffer = []) (hcount : (s.pos p).counters[3] < 49151) (hnotify : r.notify = true) (x : Symbol) (b : Bool) :
    settle (sessionDone p (keyReport p x b (timedSession p c s))) =
      withReport (.stepDone p r.tag .collect .done [] false)
        (stepFreed p false (withReport (.key p x b) (entryCounted p s))) := by
  have hfinished : Quiet p (sessionFinished p c s) := h.modPos _ ⟨rfl, rfl, rfl⟩
  have hchain : ((sessionFinished p c s).pos p).chain = [r] := by
    rw [pos_sessionFinished]
    exact hc
  have hdue : r.reportDue .done = true := (reportDue_done (by rw [hr]; exact fun h => nomatch h)).trans hnotify
  have hdone : sessionDone p (offer p [.key p x b] (timedSession p c s)) =
      endStep p .done .nothing (offer p [.key p x b] (sessionFinished p c s)) := by
    have hoffered : ((offer p [.key p x b] (timedSession p c s)).pos p).entry = timedEntry c (s.pos p).entry := by
      rw [pos_offer_self, pos_timedSession]
    have hdata : (timedEntry c (s.pos p).entry).doneData = .nothing := if_pos hmode
    have hclosed : (offer p [.key p x b] (timedSession p c s)).modEntry p EntryUnit.finish =
        offer p [.key p x b] ((timedSession p c s).modEntry p EntryUnit.finish) := offer_modPos _ fun _ => rfl
    have hpos : ((offer p [.key p x b] ((timedSession p c s).modEntry p EntryUnit.finish)).pos p).counters = (s.pos p).counters := by
      rw [pos_offer_self, State.modEntry, State.pos_modPos_self, pos_timedSession]
    have hcounted : ((timedSession p c s).modEntry p EntryUnit.finish).modPos p (fun v =>
        { v with counters := v.counters.set 3 ((s.pos p).counters[3] + 1) }) = sessionFinished p c s := by
      unfold timedSession State.modEntry
      rw [State.modPos_modPos, State.modPos_modPos]
      rfl
    unfold sessionDone
    rw [hoffered, hdata, hclosed, countPos_low .entriesDone (by simp only [hpos]; exact hcount), offer_modPos _ fun _ => rfl]
    simp only [hpos]
    exact congrArg (fun t => endStep p .done .nothing (offer p [.key p x b] t)) hcounted
  have hwiped : stepFreed p false (sessionFinished p c s) = stepFreed p false (entryCounted p s) := by
    refine stepFreed_modPos_entry (e := (timedEntry c (s.pos p).entry).finish) rfl ?_ false
    have hstate : (timedEntry c (s.pos p).entry).finish.state = .closed := if_pos hmode
    rw [if_pos hstate, if_neg (by rw [hopen]; decide)]
    simp [EntryUnit.finish, EntryUnit.stopTimers, EntryUnit.close, timedEntry, hmode, hempty]
  rw [keyReport_offers (quiet_timedSession h), hdone, settle_offer_endStep hfinished hroom rfl (by simp) hchain hdue
    (completionReports_collect p hr .done) rfl, halts_done, stepFreed_withReport, hwiped, ← stepFreed_withReport]
  rfl

theorem settle_openCancel (h : Quiet p s) (hroom : s.queue.length < 31) (hc : (s.pos p).chain = [r]) (hr : r.params = .collect c)
    (hopen : (s.pos p).entry.state = .collecting) (x : Symbol) (b : Bool) :
    settle (sessionFails p .customerCancel (keyReport p x b (timedSession p c s))) =
      withReport (.stepDone p r.tag .collect .customerCancel [] false) (stepFreed p r.stopOnFailure (withReport (.key p x b) s)) := by
  have hclosed : Quiet p ((timedSession p c s).modEntry p EntryUnit.close) := (quiet_timedSession h).modPos _ ⟨rfl, rfl, rfl⟩
  have hchain : (((timedSession p c s).modEntry p EntryUnit.close).pos p).chain = [r] := by
    rw [State.modEntry, State.pos_modPos_self, pos_timedSession]
    exact hc
  have hoffered : (offer p [.key p x b] (timedSession p c s)).modEntry p EntryUnit.close =
      offer p [.key p x b] ((timedSession p c s).modEntry p EntryUnit.close) := offer_modPos _ fun _ => rfl
  have hwiped : stepFreed p r.stopOnFailure ((timedSession p c s).modEntry p EntryUnit.close) = stepFreed p r.stopOnFailure s := by
    have hnot : ¬(s.pos p).entry.state = .closed := by
      rw [hopen]
      decide
    unfold timedSession State.modEntry
    rw [State.modPos_modPos]
    refine stepFreed_modPos_entry_self (e := (timedEntry c (s.pos p).entry).close) rfl ?_ _
    rw [if_neg hnot]
    exact if_pos rfl
  unfold sessionFails
  rw [keyReport_offers (quiet_timedSession h), hoffered, settle_offer_endStep hclosed hroom rfl (by simp) hchain
    (due_fail r (by decide)) (completionReports_collect p hr .customerCancel) rfl, halts_eq _ _ _ (by decide), stepFreed_withReport,
    hwiped, ← stepFreed_withReport]
  rfl

/-! ### The symbols of AMOUNT and CONCEALED mode (R91 to R97) -/

theorem one_le_room (e : EntryUnit) : 1 ≤ e.room ↔ e.buffer.length < e.maxLen := by
  unfold EntryUnit.room
  omega

theorem two_le_room (e : EntryUnit) : 2 ≤ e.room ↔ e.buffer.length + 2 ≤ e.maxLen := by
  unfold EntryUnit.room
  omega

/-- A digit, by the mode: a leading zero of an amount is passed over. -/
theorem takeSymbol_digit (hmode : (s.pos p).entry.mode ≠ .openKeys) (d : Fin 10) (b : Bool) :
    takeSymbol p c (.digit d) b s =
      if (s.pos p).entry.mode = .amount ∧ d = 0 ∧ (s.pos p).entry.buffer = [] then timedSession p c s
      else if (s.pos p).entry.buffer.length < (s.pos p).entry.maxLen then
        editBuffer p ((s.pos p).entry.buffer ++ [d]) (timedSession p c s)
      else askBeep p .error (timedSession p c s) := by
  have hroom := one_le_room (timedEntry c (s.pos p).entry)
  cases hm : (s.pos p).entry.mode with
  | openKeys => exact absurd hm hmode
  | amount =>
    rw [takeSymbol_amount hm]
    unfold takeAmount
    simp only [pos_timedSession]
    exact if_congr (by simp [timedEntry]) rfl (if_congr hroom rfl rfl)
  | concealed =>
    rw [takeSymbol_concealed hm, if_neg (by simp)]
    unfold takeConcealed
    simp only [pos_timedSession]
    exact if_congr hroom rfl rfl

theorem takeSymbol_doubleZero (hmode : (s.pos p).entry.mode ≠ .openKeys) (b : Bool) :
    takeSymbol p c .doubleZero b s =
      if (s.pos p).entry.mode = .concealed then askBeep p .error (timedSession p c s)
      else if (s.pos p).entry.buffer = [] then timedSession p c s
      else if (s.pos p).entry.buffer.length + 2 ≤ (s.pos p).entry.maxLen then
        editBuffer p ((s.pos p).entry.buffer ++ [0, 0]) (timedSession p c s)
      else askBeep p .error (timedSession p c s) := by
  have hroom := two_le_room (timedEntry c (s.pos p).entry)
  cases hm : (s.pos p).entry.mode with
  | openKeys => exact absurd hm hmode
  | amount =>
    rw [takeSymbol_amount hm, if_neg (by simp)]
    unfold takeAmount
    simp only [pos_timedSession]
    exact if_congr (by simp [timedEntry]) rfl (if_congr hroom rfl rfl)
  | concealed =>
    rw [takeSymbol_concealed hm, if_pos rfl]
    rfl

theorem takeSymbol_back (hmode : (s.pos p).entry.mode ≠ .openKeys) (b : Bool) :
    takeSymbol p c .back b s =
      if (s.pos p).entry.buffer = [] then askBeep p .error (timedSession p c s)
      else editBuffer p (s.pos p).entry.buffer.dropLast (timedSession p c s) := by
  cases hm : (s.pos p).entry.mode with
  | openKeys => exact absurd hm hmode
  | amount =>
    rw [takeSymbol_amount hm]
    unfold takeAmount
    simp only [pos_timedSession]
    exact if_congr (by simp [timedEntry]) rfl rfl
  | concealed =>
    rw [takeSymbol_concealed hm]
    unfold takeConcealed
    simp only [pos_timedSession]
    exact if_congr (by simp [timedEntry]) rfl rfl

theorem takeSymbol_clear (hmode : (s.pos p).entry.mode ≠ .openKeys) (b : Bool) :
    takeSymbol p c .clear b s =
      if (s.pos p).entry.buffer = [] then timedSession p c s
      else if (s.pos p).entry.mode = .amount then editBuffer p [] (timedSession p c s)
      else clearConcealed p (timedSession p c s) := by
  cases hm : (s.pos p).entry.mode with
  | openKeys => exact absurd hm hmode
  | amount =>
    rw [takeSymbol_amount hm, if_pos rfl]
    unfold takeAmount
    simp only [pos_timedSession]
    exact if_congr (by simp [timedEntry]) rfl rfl
  | concealed =>
    rw [takeSymbol_concealed hm, if_neg (c := EntryMode.concealed = .amount) (by decide)]
    unfold takeConcealed
    simp only [pos_timedSession]
    exact if_congr (by simp [timedEntry]) rfl rfl

theorem takeSymbol_function (hmode : (s.pos p).entry.mode ≠ .openKeys) {x : Symbol} (hx : x ∈ [Symbol.dot, .f1, .f2, .f3, .f4])
    (b : Bool) : takeSymbol p c x b s = askBeep p .error (timedSession p c s) := by
  simp only [List.mem_cons, List.not_mem_nil, or_false] at hx
  cases hm : (s.pos p).entry.mode with
  | openKeys => exact absurd hm hmode
  | amount =>
    rw [takeSymbol_amount hm]
    rcases hx with rfl | rfl | rfl | rfl | rfl <;> rfl
  | concealed =>
    rw [takeSymbol_concealed hm]
    rcases hx with rfl | rfl | rfl | rfl | rfl <;> rfl

theorem takeSymbol_enter (hmode : (s.pos p).entry.mode ≠ .openKeys) (b : Bool) :
    takeSymbol p c .enter b s =
      if (s.pos p).entry.minLen ≤ (s.pos p).entry.buffer.length then sessionDone p (timedSession p c s)
      else askBeep p .error (timedSession p c s) := by
  cases hm : (s.pos p).entry.mode with
  | openKeys => exact absurd hm hmode
  | amount =>
    rw [takeSymbol_amount hm]
    unfold takeAmount
    simp only [pos_timedSession]
    rfl
  | concealed =>
    rw [takeSymbol_concealed hm]
    unfold takeConcealed
    simp only [pos_timedSession]
    rfl

theorem takeSymbol_cancel (hmode : (s.pos p).entry.mode ≠ .openKeys) (b : Bool) :
    takeSymbol p c .cancel b s = sessionFails p .customerCancel (timedSession p c s) := by
  cases hm : (s.pos p).entry.mode with
  | openKeys => exact absurd hm hmode
  | amount => exact takeSymbol_amount hm _ _
  | concealed => exact takeSymbol_concealed hm _ _

/-- A CLEAR of digits in CONCEALED mode: the buffer is empty and the clear counted. -/
def sessionCleared (p : Pos) (c : CollectParams) (s : State) : State :=
  s.modPos p fun v =>
    { v with
      entry := { timedEntry c v.entry with buffer := [], clearCount := min 7 ((s.pos p).entry.clearCount + 1) }
      key := if v.key.display then takeContent (List.replicate 16 0x20) v.key else v.key }

theorem clearConcealed_timed (hready : (s.pos p).keypad.state = .ready) (hmode : (s.pos p).entry.mode = .concealed) :
    clearConcealed p (timedSession p c s) =
      if (s.pos p).entry.clearLimit ≠ 0 ∧ (s.pos p).entry.clearLimit ≤ min 7 ((s.pos p).entry.clearCount + 1) then
        sessionFails p .clearLimit (sessionCleared p c s)
      else sessionCleared p c s := by
  have hpos : ((timedSession p c s).modEntry p EntryUnit.countClear).pos p =
      { s.pos p with entry := (timedEntry c (s.pos p).entry).countClear } := by
    rw [State.modEntry, State.pos_modPos_self, pos_timedSession]
  have hecho : echoText { (timedEntry c (s.pos p).entry).countClear with buffer := [] } = some (List.replicate 16 0x20) :=
    echoText_concealed hmode
  have hcleared : editBuffer p [] ((timedSession p c s).modEntry p EntryUnit.countClear) = sessionCleared p c s := by
    rw [editBuffer_ready (by rw [hpos]; exact hready) (by rw [hpos]; exact hmode ▸ (by decide)), hpos]
    simp only [hecho, Option.getD_some]
    unfold timedSession State.modEntry
    rw [State.modPos_modPos, State.modPos_modPos]
    rfl
  have hentry : ((sessionCleared p c s).pos p).entry =
      { timedEntry c (s.pos p).entry with buffer := [], clearCount := min 7 ((s.pos p).entry.clearCount + 1) } := by
    rw [sessionCleared, State.pos_modPos_self]
  unfold clearConcealed
  rw [hcleared]
  simp only [hentry]
  exact if_congr (by rw [Bool.and_eq_true]; exact and_congr decide_eq_true_iff decide_eq_true_iff) rfl rfl

end session

/-- Settles O46: OPEN mode, a CLEAR of digits in CONCEALED mode, and the symbols of the two other modes. -/
theorem sessionTakesKeys : Obligations.SessionTakesKeys := by
  intro s p code r c hquiet hready hc hr hprogress hopen hnone hheld hcount e press timed unchanged edited beeped freed keyed
  have hcollecting := collecting_some hc hr hprogress hopen
  have hkey (hpress : press ≠ .nothing) : exec (.keyPress p code) s = .next (settle (takeSymbol p c press false s)) := by
    rw [hquiet.keyPress, keyPressed_decided hready hpress hheld hnone, routeSymbol_collecting hcollecting]
  have htimed : Quiet p (timedSession p c s) := quiet_timedSession hquiet
  have hunchanged : settle (timedSession p c s) = unchanged := htimed.idle
  have hbeeped : settle (askBeep p .error (timedSession p c s)) = beeped := by
    rw [askBeep_timed hready]
    exact (hquiet.modPos _ ⟨rfl, rfl, rfl⟩).idle
  have hedited (hmode : e.mode ≠ .openKeys) (b : List (Fin 10)) : settle (editBuffer p b (timedSession p c s)) = edited b := by
    rw [editBuffer_timed hready hmode]
    exact (hquiet.modPos _ ⟨rfl, rfl, rfl⟩).idle
  refine ⟨fun hmode hempty hroom => ⟨fun hpress => ?_, fun hpress hnotify => ?_, fun hpress => ?_⟩,
    fun hmode hdigits hpress => ?_, fun hmode => ⟨fun d hpress => ?_, fun hpress => ?_, fun hpress => ?_,
      fun hpress hamount => ?_, fun hpress => ?_, fun hpress hshort => ?_, fun hpress hlong => ?_, fun hpress => ?_⟩⟩
  · have hplain : settle (takeOpen p press false (timedSession p c s)) = keyed unchanged := by
      have htaken : takeOpen p press false (timedSession p c s) = keyReport p press false (timedSession p c s) := by
        simp only [List.mem_cons, List.not_mem_nil, or_false, not_or] at hpress
        obtain ⟨-, henter, hcancel⟩ := hpress
        exact takeOpen_plain henter hcancel
      rw [htaken]
      exact keyReport_settle htimed press false
    rw [hkey (fun h => hpress (by rw [h]; decide)), takeSymbol_open hmode, hplain]
  · rw [hkey (by rw [hpress]; decide), takeSymbol_open hmode]
    have htaken : takeOpen p press false (timedSession p c s) = sessionDone p (keyReport p press false (timedSession p c s)) := by
      rw [hpress]
      rfl
    rw [htaken, settle_openEnter hquiet hroom hc hr hopen hmode hempty hcount hnotify]
    rfl
  · rw [hkey (by rw [hpress]; decide), takeSymbol_open hmode]
    have htaken : takeOpen p press false (timedSession p c s) =
        sessionFails p .customerCancel (keyReport p press false (timedSession p c s)) := by
      rw [hpress]
      rfl
    rw [htaken, settle_openCancel hquiet hroom hc hr hopen]
  · have hnot : e.mode ≠ .openKeys := by
      rw [hmode]
      decide
    have hcleared : Quiet p (sessionCleared p c s) := hquiet.modPos _ ⟨rfl, rfl, rfl⟩
    have hpos : (sessionCleared p c s).pos p = _ := State.pos_modPos_self _ _ _
    have hamount : ¬e.mode = .amount := by
      rw [hmode]
      decide
    intro n wiped
    rw [hkey (by rw [hpress]; decide), hpress, takeSymbol_clear hnot, if_neg hdigits, if_neg hamount,
      clearConcealed_timed hready hmode, apply_ite settle, hcleared.idle,
      settle_sessionFails hcleared (by rw [hpos]; exact hc) hr (by rw [hpos]; exact hopen ▸ (by decide)) (.inr rfl)]
    rfl
  · rw [hkey (by rw [hpress]; exact fun h => nomatch h), hpress, takeSymbol_digit hmode, apply_ite settle, apply_ite settle,
      hunchanged, hedited hmode, hbeeped]
  · rw [hkey (by rw [hpress]; decide), hpress, takeSymbol_doubleZero hmode, apply_ite settle, apply_ite settle, apply_ite settle,
      hunchanged, hedited hmode, hbeeped]
  · rw [hkey (by rw [hpress]; decide), hpress, takeSymbol_back hmode, apply_ite settle, hedited hmode, hbeeped]
  · rw [hkey (by rw [hpress]; decide), hpress, takeSymbol_clear hmode, apply_ite settle, hunchanged]
    by_cases hempty : e.buffer = []
    · rw [if_pos hempty, if_pos hempty]
    · rw [if_neg hempty, if_neg hempty, if_pos (by exact hamount.resolve_right hempty), hedited hmode]
  · have hsome : press ≠ .nothing := by
      rintro h
      rw [h] at hpress
      exact absurd hpress (by decide)
    rw [hkey hsome, takeSymbol_function hmode hpress, hbeeped]
  · rw [hkey (by rw [hpress]; decide), hpress, takeSymbol_enter hmode, if_neg (Nat.not_le.mpr hshort), hbeeped]
  · rw [hkey (by rw [hpress]; decide), hpress, takeSymbol_enter hmode, if_pos hlong, settle_sessionDone hquiet hc hr hopen hmode hcount]
    rfl
  · have hkept : (s.modPos p fun v => { v with counters := v.counters.set 3 (s.pos p).counters[3] }) = s :=
      State.modPos_id _ _ _ (by simp)
    rw [hkey (by rw [hpress]; decide), hpress, takeSymbol_cancel hmode,
      settle_sessionFails htimed (by rw [pos_timedSession]; exact hc) hr (by rw [pos_timedSession]; exact hopen ▸ (by decide))
        (.inl rfl), stepFreed_timedSession hopen]
    dsimp only [freed]
    rw [hkept]
    rfl

end Sys2Proof.Machine
end

section
/-! SUPPORT and PROOF for O47. The answers of a keypad (R67, R68, R80 to R84): the end of a write, the waiting beep, the line errors
counted and the flags of an announce. -/

namespace Sys2Proof.Machine

section writer

variable {p : Pos} {s : State} {r : StepRecord} {k : KeyUnit}

/-- The key unit is left as `u`. -/
def keyLeft (p : Pos) (u : KeyUnit) (s : State) : State := s.modPos p fun v => { v with key := u }

theorem pos_keyLeft (u : KeyUnit) (s : State) : (keyLeft p u s).pos p = { s.pos p with key := u } := State.pos_modPos_self _ _ _

theorem keyLeft_keyLeft (a b : KeyUnit) (s : State) : keyLeft p b (keyLeft p a s) = keyLeft p b s := State.modPos_modPos _ _ _ _

theorem Quiet.keyLeft (h : Quiet p s) (u : KeyUnit) : Quiet p (keyLeft p u s) := h.modPos _ ⟨rfl, rfl, rfl⟩

theorem modKey_eq_keyLeft (f : KeyUnit → KeyUnit) : s.modKey p f = keyLeft p (f (s.pos p).key) s := rfl

/-- The write outstanding is over. -/
def writeEnded (k : KeyUnit) : KeyUnit := { k with outstanding := none, ackTimer := .stopped }

/-- The write outstanding is over, and pending content is sent as the next. -/
def nextWrite (k : KeyUnit) : KeyUnit :=
  match k.pendingContent with
  | none => writeEnded k
  | some text =>
    { k with outstanding := some text, ackTimer := .running 200, pendingContent := none, lastOut := some (.write text) }

theorem sendPending_ended (hkey : (s.pos p).key = writeEnded k) (hwork : (s.pos p).work ≠ some (.display false)) :
    sendPending p s = keyLeft p (nextWrite k) s := by
  have hpending : (s.pos p).key.pendingContent = k.pendingContent := by
    rw [hkey]
    rfl
  unfold sendPending nextWrite
  cases hk : k.pendingContent with
  | none =>
    rw [hpending, hk]
    exact (State.modPos_id _ _ _ (by rw [← hkey])).symm
  | some text =>
    rw [hpending, hk]
    refine State.modPos_congr ?_
    have hsent : ({ s.pos p with key := sendWrite text { (s.pos p).key with pendingContent := none } } : Position).showSent =
        { s.pos p with key := sendWrite text { (s.pos p).key with pendingContent := none } } := if_neg hwork
    rw [hsent, hkey]
    rfl

/-! ### The end of a step does not read or write the key unit -/

/-- What the end of a step does to its position, its report aside. -/
theorem stopWork_keyLeft (hc : (s.pos p).chain = [r]) (a b : KeyUnit) (g : Progress) :
    keyLeft p b ((stopWork p (keyLeft p a s)).setProgress p g) = (stopWork p (keyLeft p b s)).setProgress p g := by
  have hstopped (u : KeyUnit) : stopWork p (keyLeft p u s) =
      State.modPos { s with latchWait := s.latchWait.filter (· ≠ p) } p fun v =>
        { v with
          key := u
          pass := v.pass.disarm
          entry := v.entry.closeCollecting
          latchState := if v.latchState = .waiting then .off else v.latchState } := by
    have hlist : { keyLeft p u s with latchWait := (keyLeft p u s).latchWait.filter (· ≠ p) } =
        keyLeft p u { s with latchWait := s.latchWait.filter (· ≠ p) } := rfl
    unfold stopWork
    rw [hlist]
    exact State.modPos_modPos _ p _ _
  unfold keyLeft at hstopped ⊢
  rw [hstopped, hstopped, State.setProgress_eq, State.setProgress_eq, State.modPos_modPos, State.modPos_modPos, State.modPos_modPos]
  have hchain : (State.pos { s with latchWait := s.latchWait.filter (· ≠ p) } p).chain = [r] := hc
  refine State.modPos_congr ?_
  simp only [Position.setProgress, hchain]

theorem stepFreed_keyLeft (u : KeyUnit) (b : Bool) : stepFreed p b (keyLeft p u s) = keyLeft p u (stepFreed p b s) := by
  refine State.ext_pos (fun q => ?_) rfl
  unfold keyLeft
  rw [pos_stepFreed]
  by_cases hq : q = p
  · rw [if_pos hq, hq, State.pos_modPos_self, State.pos_modPos_self, pos_stepFreed, if_pos rfl]
    rfl
  · rw [if_neg hq, State.pos_modPos_ne _ hq, State.pos_modPos_ne _ hq, pos_stepFreed, if_neg hq]

/-- The one step of a position ends without a report: its record is freed. -/
theorem endStep_silent (hc : (s.pos p).chain = [r]) {o : StepOutcome} {d : OutcomeData} (hdue : r.reportDue o = false) :
    endStep p o d s = stepFreed p ({ r with progress := some (.completing o d false) } : StepRecord).halts s := by
  unfold endStep
  rw [hc]
  simp only [hdue, Bool.false_eq_true, if_false]
  exact freeHead_completing hc o d

theorem endStep_keyLeft (hc : (s.pos p).chain = [r]) {o : StepOutcome} {d : OutcomeData} {rep : Report}
    (hrep : completionReports p r o d = [rep]) (a b : KeyUnit) :
    keyLeft p b (endStep p o d (keyLeft p a s)) = endStep p o d (keyLeft p b s) := by
  have hchain (u : KeyUnit) : ((keyLeft p u s).pos p).chain = [r] := by
    rw [pos_keyLeft]
    exact hc
  cases hdue : r.reportDue o with
  | true =>
    rw [endStep_offers (hchain a) hdue hrep, endStep_offers (hchain b) hdue hrep]
    have hoffer : keyLeft p b (offer p [rep] ((stopWork p (keyLeft p a s)).setProgress p (.completing o d false))) =
        offer p [rep] (keyLeft p b ((stopWork p (keyLeft p a s)).setProgress p (.completing o d false))) :=
      offer_modPos _ fun _ => rfl
    rw [hoffer, stopWork_keyLeft hc]
  | false =>
    rw [endStep_silent (hchain a) hdue, endStep_silent (hchain b) hdue, stepFreed_keyLeft, stepFreed_keyLeft, keyLeft_keyLeft]

/-- After its end the step displays nothing, and the key unit is as it was. -/
theorem pos_endStep_keyLeft (hc : (s.pos p).chain = [r]) {o : StepOutcome} {d : OutcomeData} {rep : Report}
    (hrep : completionReports p r o d = [rep]) (u : KeyUnit) :
    ((endStep p o d (keyLeft p u s)).pos p).key = u ∧
      ((endStep p o d (keyLeft p u s)).pos p).work ≠ some (.display false) := by
  have hchain : ((keyLeft p u s).pos p).chain = [r] := by
    rw [pos_keyLeft]
    exact hc
  cases hdue : r.reportDue o with
  | true =>
    rw [endStep_offers hchain hdue hrep, pos_offer_self, State.setProgress_eq, State.pos_modPos_self]
    unfold stopWork
    rw [State.pos_modPos_self]
    have hlist : (State.pos { keyLeft p u s with latchWait := (keyLeft p u s).latchWait.filter (· ≠ p) } p) =
        { s.pos p with key := u } := pos_keyLeft u s
    rw [hlist]
    simp [Position.setProgress, hc, Position.work, Position.headProgress]
  | false =>
    rw [endStep_silent hchain hdue, stepFreed_keyLeft, pos_keyLeft, pos_stepFreed, if_pos rfl]
    simp [Position.work, Position.headProgress]

/-! ### The end of the write outstanding (R80, R81, R84) -/

theorem writeOver_idle (hidle : (s.pos p).inFlight = false) (o : StepOutcome) :
    writeOver p o s = keyLeft p (nextWrite (s.pos p).key) s := by
  have hwork : (s.pos p).work = none := work_none hidle
  have hended := pos_keyLeft (p := p) (writeEnded (s.pos p).key) s
  have hsame : ((keyLeft p (writeEnded (s.pos p).key) s).pos p).work = none := by
    rw [hended]
    exact hwork
  have hover : writeOver p o s = sendPending p (keyLeft p (writeEnded (s.pos p).key) s) := by
    unfold writeOver
    rw [hwork]
    rfl
  rw [hover, sendPending_ended (by rw [hended]) (by rw [hsame]; exact fun h => nomatch h), keyLeft_keyLeft]

theorem writeOver_show (hc : (s.pos p).chain = [r]) (hprogress : r.progress = some (.active (.display true))) {o : StepOutcome}
    {rep : Report} (hrep : completionReports p r o .nothing = [rep]) :
    writeOver p o s = endStep p o .nothing (keyLeft p (nextWrite (s.pos p).key) s) := by
  obtain ⟨hkey, hwork⟩ := pos_endStep_keyLeft hc hrep (writeEnded (s.pos p).key)
  have hover : writeOver p o s = sendPending p (endStep p o .nothing (keyLeft p (writeEnded (s.pos p).key) s)) := by
    unfold writeOver
    rw [work_of hc hprogress]
    rfl
  rw [hover, sendPending_ended hkey hwork, endStep_keyLeft hc hrep]

theorem keyLeft_raise (c : NoticeClass) (who : Option Pos) (u : KeyUnit) (s : State) :
    keyLeft p u (raise c who s) = raise c who (keyLeft p u s) := raise_modPos c who p _ s

end writer

/-- A counter of a position counts on a part at rest, and raises COUNTER_HIGH at its mark. -/
theorem settle_countPos {p : Pos} {s : State} (h : Quiet p s) (c : PosCounter) :
    settle (countPos c p s) =
      let n := (s.pos p).counters[c.idx]
      let t := s.modPos p fun v => { v with counters := v.counters.set c.idx (countUp n) }
      if n = 49151 then withNotice .counterHigh (some p) t else t := by
  have hcounted : Quiet p (s.modPos p fun v =>
      { v with counters := v.counters.set c.idx (countUp (s.pos p).counters[c.idx]) }) := h.modPos _ ⟨rfl, rfl, rfl⟩
  unfold countPos
  simp only [crossesHigh_iff]
  split_ifs
  · exact settle_raise hcounted.rest hcounted.room _ _
  · exact hcounted.idle

/-- Settles O47: the write with no step in flight, the SHOW that waits on it, the beep, the line error and the announce. -/
theorem keypadAnswers : Obligations.KeypadAnswers := by
  intro s p b display beeper early hquiet hroom k keyIs next
  have hnext : keyIs s next = keyLeft p (nextWrite k) s := rfl
  have hleft : Quiet p (keyLeft p (nextWrite k) s) := hquiet.keyLeft _
  have hacknowledged (hready : (s.pos p).keypad.state = .ready) (hout : k.outstanding ≠ none) :
      acknowledged p s = writeOver p .done s := if_pos (by simpa [hready, Option.isSome_iff_ne_none] using hout)
  have htimeout (hruns : k.ackTimer.isRunning = true) :
      ackRunsOut p s = writeOver p .keypadSilent (raise .keypadSilent (some p) s) := if_pos hruns
  rw [hquiet.acknowledge, hquiet.acknowledgeTimeout, hquiet.beepSent, hquiet.announce]
  refine ⟨fun hidle hready hout => ?_, fun hout => ?_, fun hidle hruns => ?_, fun hstopped => ?_,
    fun r bp text hc hr hprogress => ⟨fun hout hready => ?_, fun hruns => ?_⟩, ?_, fun hother => ?_, fun hready => ?_,
    fun hoff => ?_⟩
  · rw [hacknowledged hready hout, writeOver_idle hidle, hleft.idle, hnext]
  · have hnone : acknowledged p s = s := if_neg (by simp [show (s.pos p).key.outstanding = none from hout])
    rw [hnone, hquiet.idle]
  · rw [htimeout hruns, writeOver_idle (by rw [pos_raise]; exact hidle), pos_raise, keyLeft_raise,
      settle_raise hleft.rest hleft.room, hnext]
  · have hnone : ackRunsOut p s = s := if_neg (by rw [show (s.pos p).key.ackTimer = _ from hstopped]; decide)
    rw [hnone, hquiet.idle]
  · have hreports : completionReports p r .done .nothing = [.stepDone p r.tag .showText .done [0] false] := by
      rw [completionReports, hr]
      rfl
    have hchain : ((keyLeft p (nextWrite k) s).pos p).chain = [r] := by
      rw [pos_keyLeft]
      exact hc
    have hdue : r.reportDue .done = r.notify := reportDue_done (by rw [hr]; exact fun h => nomatch h)
    rw [hacknowledged hready hout, writeOver_show hc hprogress hreports, hnext]
    cases hnotify : r.notify with
    | true =>
      rw [settle_endStep hleft.rest hleft.room hleft.noneWaiting hchain (hdue.trans hnotify) hreports rfl, halts_done]
      rfl
    | false =>
      rw [settle_endStep_silent hleft.rest hchain (hdue.trans hnotify), halts_done]
      rfl
  · have hreports : completionReports p r .keypadSilent .nothing = [.stepDone p r.tag .showText .keypadSilent [] false] := by
      rw [completionReports, hr]
      rfl
    have hchain : ((keyLeft p (nextWrite k) s).pos p).chain = [r] := by
      rw [pos_keyLeft]
      exact hc
    rw [htimeout hruns, writeOver_show (by rw [pos_raise]; exact hc) hprogress hreports, pos_raise, keyLeft_raise,
      settle_raise_endStep hleft hroom _ _ hchain (due_fail r (by decide)) hreports rfl, halts_eq _ _ _ (by decide), hnext]
    rfl
  · unfold beepGoesOut
    cases hbeep : k.waitingBeep with
    | none => rfl
    | some bp => rfl
  · rw [hquiet.keypadLineError hother]
    have hcounts := settle_countPos hquiet .keyLineErrors
    by_cases hoff : (s.pos p).keypad.state = .off ∨ (s.pos p).keypad.state = .fault
    · have hsame : lineError p s = s := by
        unfold lineError
        rcases hoff with h | h <;> rw [h]
      rw [if_pos hoff, hsame, hquiet.idle]
    · have hline : lineError p s = countPos .keyLineErrors p s := by
        unfold lineError
        cases h : (s.pos p).keypad.state with
        | off => exact absurd (.inl h) hoff
        | fault => exact absurd (.inr h) hoff
        | _ => rfl
      rw [if_neg hoff, hline, hcounts]
      rfl
  · have hannounced : announced p display beeper early s = keyLeft p { k with display := display, beeper := beeper } s := by
      unfold announced
      simp only [hready]
      unfold announceTold
      rw [State.port_eq, modKey_eq_keyLeft, pos_keyLeft]
      simp only [Position.port, hready]
      rfl
    rw [hannounced, (hquiet.keyLeft _).idle]
    rfl
  · have hsame : announced p display beeper early s = s := by
      unfold announced
      rcases hoff with h | h <;> rw [h]
    rw [hsame, hquiet.idle]

end Sys2Proof.Machine
end

section
/-! SUPPORT and PROOF for O48 and O49. Switch-on and readiness (R114 to R116, R120): the head of the power-up list, and a STARTING
port that becomes READY or ABSENT. -/

namespace Sys2Proof.Machine

/-! ### Switch-on (R114) -/

theorem staggerPassed_eq (s : State) (now : Nat) :
    staggerPassed s now = true ↔
      s.lastSwitchOn = none ∨ ∃ last, s.lastSwitchOn = some last ∧ s.settings.live.stagger.toNat ≤ now - last := by
  unfold staggerPassed
  cases s.lastSwitchOn <;> simp

/-- Settles O48. -/
theorem switchOnTakesHead : Obligations.SwitchOnTakesHead := by
  intro s now
  have hexec : exec (.portSwitchOn now) s = .next (switchOnHead now s) := rfl
  rw [hexec]
  refine ⟨fun hempty => ?_, fun last hlast hearly hlate => ?_, fun i rest hlist hpassed => ?_⟩
  · unfold switchOnHead
    rw [hempty]
  · have hnot : ¬ staggerPassed s now = true := by
      rw [staggerPassed_eq, hlast]
      rintro (h | ⟨x, h, hx⟩)
      · cases h
      · cases h
        omega
    unfold switchOnHead
    cases s.powerList with
    | nil => rfl
    | cons i rest => simp only [if_neg hnot]
  · have hstagger : staggerPassed s now = true := by
      rw [staggerPassed_eq]
      refine hpassed.imp id fun ⟨last, hlast, hnow⟩ => ⟨last, hlast, ?_⟩
      omega
    unfold switchOnHead
    rw [hlist]
    simp only [if_pos hstagger]

/-! ### The records of a port in its checks -/

/-- A switched-on port in its readiness checks. -/
def startingPort (inrush currentSeen announceSeen : Bool) (current : Nat) : PortRecord :=
  { state := .starting
    switchedOn := true
    readiness := some { inrush := inrush, currentSeen := currentSeen, announceSeen := announceSeen }
    current := current }

def readyPort (current : Nat) : PortRecord := { state := .ready, switchedOn := true, current := current }

/-- A port that has just become ABSENT, its supply on. -/
def absentPort (k : PortKind) (current : Nat) : PortRecord :=
  { state := .absent
    switchedOn := true
    current := current
    returnChecks := some { standing := if current < lowerLimit k then .below else .counting, announceSeen := false } }

section starting

variable {p : Pos} {s : State} {k : PortKind} {i c a : Bool} {n mA : Nat}

/-- A port whose current stands within its upper limit has no over-time to run. -/
theorem watchOver_starting (upper : Nat) (hupper : n ≤ upper) :
    PortRecord.watchOver upper (startingPort i c a n) = startingPort i c a n := by
  unfold PortRecord.watchOver
  rw [if_neg (show ¬ upper < (startingPort i c a n).current from Nat.not_lt.mpr hupper)]
  split <;> rfl

theorem currentChanges_starting (h : (s.pos p).port k = startingPort false c a n) (hupper : mA ≤ (s.pos p).upperLimit k) :
    currentChanges p k mA s = seeCurrent p k (setP s p k (startingPort false c a mA)) := by
  have hport : s.port p k = startingPort false c a n := (State.port_eq s p k).trans h
  have hset : s.modPort p k (fun r => PortRecord.watchOver ((s.pos p).upperLimit k) { r with current := mA }) =
      setP s p k (startingPort false c a mA) := by
    rw [modPort_set, h]
    exact congrArg _ (watchOver_starting _ hupper)
  have hread : (setP s p k (startingPort false c a mA)).port p k = startingPort false c a mA :=
    (State.port_eq _ p k).trans (port_set _)
  unfold currentChanges
  rw [hport]
  simp only [hset, hread]
  rfl

theorem inrushEnds_starting (h : (s.pos p).port k = startingPort true c a n) (hupper : n ≤ (s.pos p).upperLimit k) :
    inrushEnds p k s = seeCurrent p k (setP s p k (startingPort false c a n)) := by
  have hport : s.port p k = startingPort true c a n := (State.port_eq s p k).trans h
  have hset : s.modPort p k (fun r => PortRecord.watchOver ((s.pos p).upperLimit k)
      { r with readiness := some { inrush := false, currentSeen := c, announceSeen := a } }) =
      setP s p k (startingPort false c a n) := by
    rw [modPort_set, h]
    exact congrArg _ (watchOver_starting _ hupper)
  unfold inrushEnds
  rw [hport]
  exact congrArg (seeCurrent p k) hset

theorem seeCurrent_reader (h : (s.pos p).port .reader = startingPort false c a n) :
    seeCurrent p .reader s = if 15 ≤ n then portReady p .reader s else s := by
  have hport : s.port p .reader = startingPort false c a n := (State.port_eq s p .reader).trans h
  unfold seeCurrent
  rw [hport]
  exact if_congr (decide_eq_true_iff (p := 15 ≤ n)) rfl rfl

theorem seeCurrent_keypad (h : (s.pos p).port .keypad = startingPort false c a n) :
    seeCurrent p .keypad s =
      if 8 ≤ n then
        if a = true then portReady p .keypad (setP s p .keypad (startingPort false true a n))
        else setP s p .keypad (startingPort false true a n)
      else s := by
  have hport : s.port p .keypad = startingPort false c a n := (State.port_eq s p .keypad).trans h
  have hset : s.modPort p .keypad (fun r =>
      { r with readiness := some { inrush := false, currentSeen := true, announceSeen := a } }) =
      setP s p .keypad (startingPort false true a n) := by
    rw [modPort_set, h]
    rfl
  unfold seeCurrent
  rw [hport]
  exact if_congr (decide_eq_true_iff (p := 8 ≤ n)) (by simp only [startingPort] at hset ⊢; rw [hset]) rfl

/-- A STARTING port whose current stands at its lower limit or above is READY, with nothing to watch. -/
theorem watchUnder_starting (hlower : lowerLimit k ≤ n) :
    PortRecord.watchUnder (lowerLimit k)
      { startingPort i c a n with state := .ready, readiness := none, returnChecks := none, underTime := .stopped } =
        readyPort n := if_neg (Nat.not_lt.mpr hlower)

theorem portReady_starting (hidle : (s.pos p).inFlight = false) (hline : (s.pos p).cardLine = false)
    (h : (s.pos p).port k = startingPort i c a n) (hlower : lowerLimit k ≤ n) :
    portReady p k s = setP s p k (readyPort n) := by
  rw [portReady_set hidle hline, h, watchUnder_starting hlower]

theorem inFlight_setP (hidle : (s.pos p).inFlight = false) (w : PortRecord) : ((setP s p k w).pos p).inFlight = false := by
  unfold Position.inFlight Position.headProgress
  rw [set_pos, Position.chain_setPort]
  exact hidle

theorem cardLine_setP (w : PortRecord) : ((setP s p k w).pos p).cardLine = (s.pos p).cardLine := by
  rw [set_pos, Position.cardLine_setPort]

/-- The same of a port whose checks have just moved on. -/
theorem portReady_setP (hidle : (s.pos p).inFlight = false) (hline : (s.pos p).cardLine = false) (hlower : lowerLimit k ≤ n) :
    portReady p k (setP s p k (startingPort i c a n)) = setP s p k (readyPort n) := by
  rw [portReady_starting (inFlight_setP hidle _) ((cardLine_setP _).trans hline) (port_set _) hlower, set_set]

/-! ### A port that goes (R115 to R118, R120): it ends the step that needs it, and a reader that is switched off its latch -/

/-- The port's record is replaced, and its line's units give up their state. -/
def portDown (p : Pos) (k : PortKind) (w : PortRecord) (s : State) : State := lostUnit p k (setP s p k w)

theorem portDown_reader (w : PortRecord) (s : State) :
    portDown p .reader w s = s.modPos p fun v =>
      { v with
        reader := w
        pass := v.pass.toIdle
        cardPresent := false
        cardLeftTimer := .stopped
        cardLeftRaised := false } := by
  unfold portDown lostUnit readerLost setP
  exact State.modPos_modPos _ _ _ _

theorem portDown_keypad (w : PortRecord) (s : State) :
    portDown p .keypad w s = s.modPos p fun v => { v with keypad := w, key := { lastOut := v.key.lastOut } } := by
  unfold portDown lostUnit keypadLost setP
  rw [State.modKey_eq]
  exact State.modPos_modPos _ _ _ _

theorem quiet_lostUnit (h : Quiet p s) (k : PortKind) : Quiet p (lostUnit p k s) := by
  unfold lostUnit readerLost keypadLost
  cases k
  · exact h.modPos _ ⟨rfl, rfl, rfl⟩
  · rw [State.modKey_eq]
    exact h.modPos _ ⟨rfl, rfl, rfl⟩

theorem chain_portDown (k : PortKind) (w : PortRecord) : ((portDown p k w s).pos p).chain = (s.pos p).chain := by
  unfold portDown
  rw [(chain_lostUnit _ _ _).1, set_pos, Position.chain_setPort]

theorem needsPort_setP (w : PortRecord) : ((setP s p k w).pos p).needsPort k = (s.pos p).needsPort k := by
  unfold Position.needsPort
  rw [set_pos, Position.chain_setPort]

theorem exists_chain_of_needsPort (h : (s.pos p).needsPort k = true) : ∃ r rest, (s.pos p).chain = r :: rest := by
  unfold Position.needsPort at h
  cases hc : (s.pos p).chain with
  | nil => simp [hc] at h
  | cons r rest => exact ⟨r, rest, rfl⟩

/-- The port is gone, and its latch is released where it is switched off. -/
def portGone (p : Pos) (k : PortKind) (st : PortState) (w : PortRecord) (s : State) : State := released p k st (portDown p k w s)

theorem portGone_absent (w : PortRecord) (s : State) : portGone p k .absent w s = portDown p k w s := if_neg fun h => h.2.1 rfl

theorem portGone_fault (w : PortRecord) (s : State) :
    portGone p k .fault w s =
      if k = .reader ∧ (s.pos p).latchState = .energized then latchOff p (portDown p k w s) else portDown p k w s := by
  have hlatch : ((portDown p k w s).pos p).latchState = (s.pos p).latchState := by
    unfold portDown
    rw [(chain_lostUnit _ _ _).2.1, set_pos]
    cases k <;> rfl
  unfold portGone released
  rw [hlatch]
  exact if_congr (by simp) rfl rfl

theorem frame_portGone {st : PortState} (w : PortRecord) (hquiet : Quiet p s) :
    Quiet p (portGone p k st w s) ∧ (portGone p k st w s).queue = s.queue ∧
      ((portGone p k st w s).pos p).chain = (s.pos p).chain := by
  have hdown : Quiet p (portDown p k w s) := quiet_lostUnit (set_quiet hquiet k w) k
  have hqueue : (portDown p k w s).queue = s.queue := by
    cases k
    · rw [portDown_reader]
      rfl
    · rw [portDown_keypad]
      rfl
  unfold portGone released
  split
  · refine ⟨⟨hdown.present, atRest_latchOff hdown.rest p, hdown.room, ?_⟩, hqueue, ?_⟩
    · rw [pos_latchOff_self]
      exact hdown.noneWaiting
    · rw [pos_latchOff_self]
      exact chain_portDown k w
  · exact ⟨hdown, hqueue, chain_portDown k w⟩

section gone

variable {st : PortState} {w : PortRecord} (c : NoticeClass)

/-- A port that goes raises its notice, and then ends the step that needs it (log 34). -/
theorem portLost_setP (hst : st ≠ .ready)
    (hwait : k = .reader → st ≠ .absent → (s.pos p).latchState = .energized → s.latchWait = []) :
    portLost p k st (raise c (some p) (setP s p k w)) =
      if (s.pos p).needsPort k then endStep p (portOutcome st) .nothing (raise c (some p) (portGone p k st w s))
      else raise c (some p) (portGone p k st w s) := by
  have hlatch : ((setP s p k w).pos p).latchState = (s.pos p).latchState := by
    rw [set_pos]
    cases k <;> rfl
  rw [portLost_raise c (some p) hst (by rw [hlatch]; exact hwait) exists_chain_of_needsPort, needsPort_setP]
  rfl

theorem settle_portLost_idle (hquiet : Quiet p s) (hst : st ≠ .ready)
    (hwait : k = .reader → st ≠ .absent → (s.pos p).latchState = .energized → s.latchWait = [])
    (hidle : (s.pos p).needsPort k = false) :
    settle (portLost p k st (raise c (some p) (setP s p k w))) = withNotice c (some p) (portGone p k st w s) := by
  obtain ⟨hgone, -, -⟩ := frame_portGone (k := k) (st := st) w hquiet
  rw [portLost_setP c hst hwait, hidle, if_neg (by simp), settle_raise hgone.rest hgone.room]

theorem settle_portLost_step (hquiet : Quiet p s) (hst : st = .fault ∨ st = .absent)
    (hwait : k = .reader → st ≠ .absent → (s.pos p).latchState = .energized → s.latchWait = [])
    (hneeds : (s.pos p).needsPort k = true) {r : StepRecord} (hc : (s.pos p).chain = [r]) (hroom : s.queue.length < 31) :
    settle (portLost p k st (raise c (some p) (setP s p k w))) =
      withReport (failureReport p r (portOutcome st)) (stepFreed p true (withNotice c (some p) (portGone p k st w s))) := by
  obtain ⟨hgone, hqueue, hchain⟩ := frame_portGone (k := k) (st := st) w hquiet
  obtain ⟨hfrees, hfill⟩ := failureReport_frees p r (portOutcome st)
  have hfails : portOutcome st ≠ .done := by rcases hst with rfl | rfl <;> decide
  have hnotReady : st ≠ .ready := by rcases hst with rfl | rfl <;> decide
  have hhalts : ({ r with progress := some (.completing (portOutcome st) .nothing false) } : StepRecord).halts = true := by
    rcases hst with rfl | rfl
    · exact halts_portOutcome r (.inr (.inl rfl))
    · exact halts_portOutcome r (.inr (.inr rfl))
  rw [portLost_setP c hnotReady hwait, if_pos hneeds, settle_raise_endStep hgone (by rw [hqueue]; exact hroom) _ _
    (hchain.trans hc) (due_fail r hfails) (completionReports_failure p r hfails) hfrees, hfill, hhalts]

end gone

/-- The record of a port that becomes ABSENT: its return checks begin. -/
def leftPort (k : PortKind) (r : PortRecord) : PortRecord :=
  PortRecord.watchReturn (lowerLimit k)
    { r with state := .absent, readiness := none, underTime := .stopped,
             returnChecks := some { standing := .below, announceSeen := false } }

theorem leftPort_starting {r : PortRecord} (h : r = startingPort i c a n) : leftPort k r = absentPort k n := by
  subst h
  unfold leftPort PortRecord.watchReturn absentPort startingPort
  split_ifs <;> rfl

theorem becomeAbsent_setP (p : Pos) (k : PortKind) (s : State) :
    becomeAbsent p k s =
      portLost p k .absent (raise .deviceAbsent (some p) (setP s p k (leftPort k ((s.pos p).port k)))) := by
  unfold becomeAbsent
  rw [modPort_set]
  rfl

/-- A port that becomes ABSENT leaves its latch as it is (R120). -/
theorem settle_becomeAbsent_idle (hquiet : Quiet p s) (hidle : (s.pos p).needsPort k = false) :
    settle (becomeAbsent p k s) =
      withNotice .deviceAbsent (some p) (portDown p k (leftPort k ((s.pos p).port k)) s) := by
  rw [becomeAbsent_setP, settle_portLost_idle _ hquiet (by decide) (fun _ h => absurd rfl h) hidle, portGone_absent]

theorem settle_becomeAbsent_step (hquiet : Quiet p s) (hroom : s.queue.length < 31) {r : StepRecord} (hc : (s.pos p).chain = [r])
    (hneeds : (s.pos p).needsPort k = true) :
    settle (becomeAbsent p k s) =
      withReport (failureReport p r .deviceAbsent)
        (stepFreed p true (withNotice .deviceAbsent (some p) (portDown p k (leftPort k ((s.pos p).port k)) s))) := by
  rw [becomeAbsent_setP, settle_portLost_step _ hquiet (.inr rfl) (fun _ h => absurd rfl h) hneeds hc hroom, portGone_absent]
  rfl

/-! ### What a port that becomes READY does at its position (R10, R26, R120) -/

/-- The announce of a keypad whose current has been seen makes it READY (R116). -/
theorem announced_starting (h : (s.pos p).keypad = startingPort false true false n) (d b e : Bool) :
    announced p d b e s =
      portReady p .keypad
        (setP (keyLeft p { (s.pos p).key with display := d, beeper := b } s) p .keypad (startingPort false true true n)) := by
  have hport : (keyLeft p { (s.pos p).key with display := d, beeper := b } s).port p .keypad = startingPort false true false n := by
    rw [State.port_eq, pos_keyLeft]
    exact h
  have hset : (keyLeft p { (s.pos p).key with display := d, beeper := b } s).modPort p .keypad (fun r =>
      { r with readiness := some { inrush := false, currentSeen := true, announceSeen := true } }) =
      setP (keyLeft p { (s.pos p).key with display := d, beeper := b } s) p .keypad (startingPort false true true n) := by
    rw [modPort_set, show ((keyLeft p { (s.pos p).key with display := d, beeper := b } s).pos p).port .keypad = _ from hport]
    rfl
  unfold announced
  rw [h]
  show announceTold p e (keyLeft p { (s.pos p).key with display := d, beeper := b } s) = _
  unfold announceTold
  rw [hport]
  exact congrArg (portReady p .keypad) hset

/-- A step that waits for the port enters ACTIVE. -/
theorem portReady_waited (hline : k = .reader → (s.pos p).cardLine = false) (hwaits : (s.pos p).waitsFor k = true)
    (h : (s.pos p).port k = startingPort i c a n) (hlower : lowerLimit k ≤ n) :
    portReady p k s = activate p (setP s p k (readyPort n)) := by
  have hset : s.modPort p k (fun r => PortRecord.watchUnder (lowerLimit k)
      { r with state := .ready, readiness := none, returnChecks := none, underTime := .stopped }) = setP s p k (readyPort n) := by
    rw [modPort_set, h]
    exact congrArg _ (watchUnder_starting hlower)
  have hstill : ((setP s p k (readyPort n)).pos p).waitsFor k = true := by
    unfold Position.waitsFor
    rw [set_pos, Position.chain_setPort]
    exact hwaits
  have hcard : (if k = .reader then takeCardLine p (setP s p k (readyPort n)) else setP s p k (readyPort n)) =
      setP s p k (readyPort n) := by
    split_ifs with hk
    · exact if_neg (by rw [cardLine_setP, hline hk]; decide)
    · rfl
  unfold portReady
  simp only [hset, hcard, hstill, if_true]

/-- The reader is READY, and the card that was in it is present. -/
def cardTaken (p : Pos) (n : Nat) (s : State) : State :=
  s.modPos p fun v =>
    { v with
      reader := readyPort n, cardPresent := true
      cardLeftTimer := .running (s.settings.live.leftCard.toNat * 1000) }

theorem cardTaken_setP (w : PortRecord) : cardTaken p n (setP s p .reader w) = cardTaken p n s := State.modPos_modPos _ _ _ _

/-- A reader that becomes READY takes up a high card-present line. -/
theorem portReady_card (hidle : (s.pos p).inFlight = false) (hline : (s.pos p).cardLine = true) (hwaiting : (s.pos p).waiting = [])
    (h : (s.pos p).port .reader = startingPort i c a n) (hlower : 15 ≤ n) :
    portReady p .reader s =
      if (s.pos p).items.presence = 1 then offer p [.presence p true 1] (cardTaken p n s) else cardTaken p n s := by
  have hset : s.modPort p .reader (fun r => PortRecord.watchUnder (lowerLimit .reader)
      { r with state := .ready, readiness := none, returnChecks := none, underTime := .stopped }) =
      setP s p .reader (readyPort n) := by
    rw [modPort_set, h]
    exact congrArg _ (watchUnder_starting (k := .reader) hlower)
  let carded : State := s.modPos p fun v => { v with reader := readyPort n, cardPresent := true }
  have hcarded : (setP s p .reader (readyPort n)).modPos p (fun v => { v with cardPresent := true }) = carded :=
    State.modPos_modPos _ _ _ _
  have hpos : carded.pos p = { s.pos p with reader := readyPort n, cardPresent := true } := State.pos_modPos_self _ _ _
  have hhigh : ((setP s p .reader (readyPort n)).pos p).cardLine = true := by
    rw [set_pos, Position.cardLine_setPort]
    exact hline
  have htake : takeCardLine p (setP s p .reader (readyPort n)) = startCardLeft p (presenceChange p true carded) := by
    unfold takeCardLine
    rw [if_pos hhigh, hcarded]
  have hpresence : presenceChange p true carded =
      if (s.pos p).items.presence = 1 then offer p [.presence p true 1] carded else carded := by
    rw [presence_none (by rw [hpos]; exact hwaiting), hpos]
  have htimer : startCardLeft p carded = cardTaken p n s := by
    rw [startCardLeft_eq]
    refine (State.modPos_modPos _ _ _ _).trans (State.modPos_congr ?_)
    exact if_pos (by simpa [Position.inFlight, Position.headProgress] using hidle)
  have hoffered : startCardLeft p (offer p [.presence p true 1] carded) = offer p [.presence p true 1] (startCardLeft p carded) := by
    rw [startCardLeft_eq, startCardLeft_eq]
    refine offer_modPos _ fun v => ?_
    have hsame : ({ v with waiting := v.waiting ++ [.presence p true 1] } : Position).inFlight = v.inFlight := rfl
    rw [hsame]
    split_ifs <;> rfl
  have htaken : startCardLeft p (if (s.pos p).items.presence = 1 then offer p [.presence p true 1] carded else carded) =
      if (s.pos p).items.presence = 1 then offer p [.presence p true 1] (cardTaken p n s) else cardTaken p n s := by
    split_ifs
    · rw [hoffered, htimer]
    · exact htimer
  have hstill : ((if (s.pos p).items.presence = 1 then offer p [.presence p true 1] (cardTaken p n s)
      else cardTaken p n s).pos p).inFlight = false := by
    have htimed : (cardTaken p n s).pos p = _ := State.pos_modPos_self _ _ _
    split_ifs
    · rw [pos_offer_self, htimed]
      exact hidle
    · rw [htimed]
      exact hidle
  unfold portReady
  simp only [hset, if_true, htake, hpresence, htaken]
  exact if_neg (by rw [waits_none hstill]; decide)

end starting

/-! ### The step that waited (R10 to R12) -/

section waiting

variable {p : Pos} {s : State} {r : StepRecord} {n : Nat}

/-- The WAIT CARD arms its reader. -/
theorem activate_waitCard {a t : Nat} (hc : (s.pos p).chain = [r]) (hr : r.params = .waitCard a t) :
    activate p s = s.modPos p fun v =>
      { v with
        chain := [{ r with progress := some (.active (.card (.running (t * 1000)))) }]
        pass := { v.pass with armed := true } } := by
  unfold activate
  rw [hc]
  simp only [hr]
  unfold activateWaitCard
  rw [State.setProgress_eq]
  refine (State.modPos_modPos _ _ _ _).trans (State.modPos_congr ?_)
  simp [Position.setProgress, hc, hr]

/-- The SHOW writes its text to a display whose writer is free, and asks its beep. -/
theorem activate_show {beep : Option Beep} {text : List Byte} (hc : (s.pos p).chain = [r]) (hr : r.params = .showText beep text)
    (hready : (s.pos p).keypad.state = .ready) (hdisplay : (s.pos p).key.display = true)
    (hfree : (s.pos p).key.outstanding = none) :
    activate p s = s.modPos p fun v =>
      { v with
        chain := [{ r with progress := some (.active (.display true)) }]
        key := beepAsked beep (textHanded text v.key) } := by
  have hactivate : activate p s = activateShow p beep text s := by
    unfold activate
    rw [hc]
    simp only [hr]
  rw [hactivate]
  unfold activateShow
  simp only [hdisplay, if_true, hfree, Option.isNone_none]
  rw [handContent_ready hready hdisplay, State.setProgress_eq, State.modPos_modPos, askShowBeep_ready, State.modPos_modPos]
  · refine State.modPos_congr ?_
    simp [Position.setProgress, hc, hr]
  · rw [State.pos_modPos_self]
    unfold Position.setProgress
    split
    · exact hready
    · exact hready

end waiting

/-- Settles O49: the checks with no step in flight, the card line, and the step that waits. -/
theorem startingPortBecomesReady : Obligations.StartingPortBecomesReady := by
  intro s p mA display beeper early hquiet ready absent starting readerIs keypadIs lost upper
  have hlost (k : PortKind) (n : Nat) : withNotice .deviceAbsent (some p) (portDown p k (absentPort k n) s) = lost k n := by
    cases k
    · rw [portDown_reader]
      rfl
    · rw [portDown_keypad]
      rfl
  have hset (k : PortKind) (w : PortRecord) : settle (setP s p k w) = setP s p k w := (set_quiet hquiet k w).idle
  have hreadiness {k : PortKind} {n : Nat} {a : Bool} (h : (s.pos p).port k = startingPort false false a n) :
      readinessRunsOut p k s = becomeAbsent p k s := by
    unfold readinessRunsOut
    rw [show s.port p k = _ from (State.port_eq s p k).trans h]
    rfl
  have hbecomes {k : PortKind} {i c a : Bool} {n : Nat} (hidle : (s.pos p).inFlight = false)
      (h : (s.pos p).port k = startingPort i c a n) : settle (becomeAbsent p k s) = lost k n := by
    rw [settle_becomeAbsent_idle hquiet (needs_none hidle k), leftPort_starting h, hlost]
  simp only [hquiet.portCurrentChange, hquiet.readinessTimeout, hquiet.inrushAllowanceEnd, hquiet.announce, hquiet.announceTimeout]
  refine ⟨fun hidle hline => ⟨fun n a hport hupper => ?readerChecks, fun n a hport hupper => ?readerInrush,
    fun n a hport hupper => ?keypadChecks, fun n hport hlower => ?keypadAnnounce⟩,
    fun hidle hline n a hport hlower hupper => ?cardHigh,
    fun r hc hprogress => ⟨fun n a tries t hline hport hr hlower hupper => ?waitCard,
      fun n beep text hport hlower hr hfree => ?showText, fun k n a hport hk hroom => ?portAbsent⟩⟩
  case readerChecks =>
    rw [currentChanges_starting (k := .reader) hport hupper, seeCurrent_reader (port_set _), hreadiness (k := .reader) hport,
      hbecomes (k := .reader) hidle hport, apply_ite settle, hset]
    refine ⟨congrArg Host.Outcome.next ?_, rfl⟩
    by_cases hlower : 15 ≤ mA
    · rw [if_pos hlower, if_pos hlower, portReady_setP hidle hline hlower, hset]
      rfl
    · rw [if_neg hlower, if_neg hlower]
      rfl
  case readerInrush =>
    rw [inrushEnds_starting (k := .reader) hport hupper, seeCurrent_reader (port_set _), apply_ite settle, hset]
    refine congrArg Host.Outcome.next ?_
    by_cases hlower : 15 ≤ n
    · rw [if_pos hlower, if_pos hlower, portReady_setP hidle hline hlower, hset]
      rfl
    · rw [if_neg hlower, if_neg hlower]
      rfl
  case keypadChecks =>
    rw [currentChanges_starting (k := .keypad) hport hupper, seeCurrent_keypad (port_set _), hreadiness (k := .keypad) hport,
      hbecomes (k := .keypad) hidle hport]
    refine ⟨congrArg Host.Outcome.next ?_, rfl⟩
    by_cases hlower : mA < 8
    · rw [if_neg (Nat.not_le.mpr hlower), if_pos hlower, hset]
      rfl
    · have hdrawn : 8 ≤ mA := Nat.not_lt.mp hlower
      rw [if_pos hdrawn, if_neg hlower, set_set, portReady_setP hidle hline hdrawn, apply_ite settle, hset, hset]
      cases a with
      | true => rfl
      | false => rfl
  case keypadAnnounce =>
    have hflags := hquiet.keyLeft { (s.pos p).key with display := display, beeper := beeper }
    have hends : announceRunsOut p s = becomeAbsent p .keypad s := by
      unfold announceRunsOut
      rw [show s.port p .keypad = _ from (State.port_eq s p .keypad).trans hport]
      rfl
    rw [announced_starting hport, portReady_setP (by rw [pos_keyLeft]; exact hidle) (by rw [pos_keyLeft]; exact hline) hlower,
      (set_quiet hflags _ _).idle, hends, hbecomes (k := .keypad) hidle hport]
    exact ⟨congrArg Host.Outcome.next (State.modPos_modPos _ _ _ _), rfl⟩
  case cardHigh =>
    have hstill := inFlight_setP (k := .reader) hidle (startingPort false false a mA)
    have ht : Quiet p (cardTaken p mA s) := hquiet.modPos _ ⟨rfl, rfl, rfl⟩
    have hitems : ((setP s p .reader (startingPort false false a mA)).pos p).items = (s.pos p).items := by
      rw [set_pos]
      rfl
    rw [currentChanges_starting (k := .reader) hport hupper, seeCurrent_reader (port_set _), if_pos hlower,
      portReady_card hstill ((cardLine_setP _).trans hline) (set_quiet hquiet _ _).noneWaiting (port_set _) hlower]
    refine congrArg Host.Outcome.next ?_
    rw [hitems, cardTaken_setP]
    by_cases hreport : (s.pos p).items.presence = 1
    · rw [if_pos hreport, if_pos (by exact hreport), settle_report ht rfl (by simp)]
      rfl
    · rw [if_neg hreport, if_neg (by exact hreport), ht.idle]
      rfl
  case waitCard =>
    have hwaits : ((setP s p .reader (startingPort false false a mA)).pos p).waitsFor .reader = true := by
      unfold Position.waitsFor
      rw [set_pos, Position.chain_setPort, hc]
      simp [hprogress, hr, StepParams.kind, StepKind.port]
    rw [currentChanges_starting (k := .reader) hport hupper, seeCurrent_reader (port_set _), if_pos hlower,
      portReady_waited (fun _ => (cardLine_setP _).trans hline) hwaits (port_set _) hlower, set_set,
      activate_waitCard (by rw [set_pos, Position.chain_setPort]; exact hc) hr]
    refine congrArg Host.Outcome.next ?_
    unfold setP
    rw [State.modPos_modPos]
    exact settle_of_atRest (atRest_modPos hquiet.rest p _ (by simp [startDue, Position.inFlight, Position.headProgress]))
  case showText =>
    have hwaits : ((setP (keyLeft p { (s.pos p).key with display := true, beeper := beeper } s) p .keypad
        (startingPort false true true n)).pos p).waitsFor .keypad = true := by
      unfold Position.waitsFor
      rw [set_pos, Position.chain_setPort, pos_keyLeft, hc]
      simp [hprogress, hr, StepParams.kind, StepKind.port]
    have hready : (setP (keyLeft p { (s.pos p).key with display := true, beeper := beeper } s) p .keypad (readyPort n)).pos p =
        { s.pos p with keypad := readyPort n, key := { (s.pos p).key with display := true, beeper := beeper } } := by
      rw [set_pos, pos_keyLeft]
      rfl
    rw [announced_starting hport, portReady_waited (k := .keypad) (fun h => nomatch h) hwaits (port_set _) hlower, set_set,
      activate_show (by rw [hready]; exact hc) hr (by rw [hready]; rfl) (by rw [hready]) (by rw [hready]; exact hfree)]
    refine congrArg Host.Outcome.next ?_
    unfold setP keyLeft
    rw [State.modPos_modPos, State.modPos_modPos]
    refine (settle_of_atRest (atRest_modPos hquiet.rest p _
      (by simp [startDue, Position.inFlight, Position.headProgress, Position.setPort]))).trans (State.modPos_congr ?_)
    simp only [Position.setPort, hfree, textHanded, if_true, beepAsked]
    by_cases hbeep : beep ≠ none ∧ beeper = true
    · rw [if_pos hbeep, if_pos hbeep.symm]
      rfl
    · rw [if_neg hbeep, if_neg fun h => hbeep h.symm]
      rfl
  case portAbsent =>
    have hneeds : (s.pos p).needsPort k = true := by
      unfold Position.needsPort
      rw [hc]
      simp [hprogress, hk]
    rw [hreadiness hport, settle_becomeAbsent_step hquiet hroom hc hneeds, leftPort_starting (r := (s.pos p).port k) hport, hlost]

end Sys2Proof.Machine
end

section
/-! SUPPORT and PROOF for O50. The supervision of a switched-on port (R117 to R120): over-time, under-time and return time. -/

namespace Sys2Proof.Machine

section supervised

variable {p : Pos} {s : State} {k : PortKind} {r : PortRecord}

theorem overTrips_running (h : ((s.pos p).port k).overTime.isRunning = true) :
    overTrips p k s = portLost p k .fault (raise .portFault (some p) (setP s p k { state := .fault })) := by
  unfold overTrips
  rw [if_pos (by rw [State.port_eq]; exact h), modPort_set]
  rfl

theorem overTrips_stopped (h : ((s.pos p).port k).overTime = .stopped) : overTrips p k s = s :=
  if_neg (by rw [State.port_eq, h]; decide)

theorem underRunsOut_running (hready : ((s.pos p).port k).state = .ready) (h : ((s.pos p).port k).underTime.isRunning = true) :
    underRunsOut p k s = becomeAbsent p k s := if_pos (by rw [State.port_eq, hready, h]; rfl)

theorem underRunsOut_stopped (h : ((s.pos p).port k).underTime = .stopped) : underRunsOut p k s = s :=
  if_neg (by rw [State.port_eq, h]; simp [Timer.isRunning])

/-- The record of a port that becomes ABSENT for want of current. -/
theorem leftPort_low (h : r.current < lowerLimit k) :
    leftPort k r = { r with
      state := .absent
      readiness := none
      underTime := .stopped
      returnChecks := some { standing := .below, announceSeen := false } } := if_pos h

/-! ### The return (R119) -/

/-- The record of a port that returned. -/
def returnedPort (r : PortRecord) : PortRecord :=
  { r with state := .ready, readiness := none, returnChecks := none, underTime := .stopped }

theorem raise_setP (c : NoticeClass) (who : Option Pos) (w : PortRecord) :
    setP (raise c who s) p k w = raise c who (setP s p k w) := raise_modPos _ _ _ _ _

/-- A port becomes READY with no step in flight; the card line matters at a reader only. -/
theorem portReady_idle (hidle : (s.pos p).inFlight = false) (hline : k = .reader → (s.pos p).cardLine = false)
    (hlower : lowerLimit k ≤ ((s.pos p).port k).current) :
    portReady p k s = setP s p k (returnedPort ((s.pos p).port k)) := by
  have hset : s.modPort p k (fun r => PortRecord.watchUnder (lowerLimit k)
      { r with state := .ready, readiness := none, returnChecks := none, underTime := .stopped }) =
      setP s p k (returnedPort ((s.pos p).port k)) := by
    rw [modPort_set]
    exact congrArg _ (if_neg (Nat.not_lt.mpr hlower))
  have hcard : (if k = .reader then takeCardLine p (setP s p k (returnedPort ((s.pos p).port k)))
      else setP s p k (returnedPort ((s.pos p).port k))) = setP s p k (returnedPort ((s.pos p).port k)) := by
    split_ifs with hk
    · exact if_neg (by rw [cardLine_setP, hline hk]; decide)
    · rfl
  unfold portReady
  simp only [hset, hcard]
  exact if_neg (by rw [waits_none (inFlight_setP hidle _)]; decide)

theorem deviceReturns_eq (hidle : (s.pos p).inFlight = false) (hline : k = .reader → (s.pos p).cardLine = false)
    (hlower : lowerLimit k ≤ ((s.pos p).port k).current) :
    deviceReturns p k s = raise .deviceBack (some p) (setP s p k (returnedPort ((s.pos p).port k))) := by
  unfold deviceReturns
  rw [portReady_idle (by rw [pos_raise]; exact hidle) (by rw [pos_raise]; exact hline) (by rw [pos_raise]; exact hlower), pos_raise,
    raise_setP]

theorem returnRunsOut_absent {a : Bool} (habsent : ((s.pos p).port k).state = .absent)
    (hchecks : ((s.pos p).port k).returnChecks = some { standing := .counting, announceSeen := a }) :
    returnRunsOut p k s =
      if k = .reader ∨ a = true then deviceReturns p k s
      else setP s p k { (s.pos p).port k with returnChecks := some { standing := .reached, announceSeen := a } } := by
  unfold returnRunsOut
  simp only [State.port_eq, hchecks, habsent, modPort_set]
  exact (if_pos rfl).trans (if_congr (by simp) rfl rfl)

theorem returnRunsOut_none (hchecks : ((s.pos p).port k).returnChecks = none) : returnRunsOut p k s = s := by
  unfold returnRunsOut
  simp only [State.port_eq, hchecks]

/-- An announce at an ABSENT keypad counts for the return, but not one that came before the keypad was ABSENT (log 29). -/
theorem announced_absent {standing : Standing} {a : Bool} (habsent : (s.pos p).keypad.state = .absent)
    (hchecks : (s.pos p).keypad.returnChecks = some { standing := standing, announceSeen := a }) (d b early : Bool) :
    announced p d b early s =
      let told := keyLeft p { (s.pos p).key with display := d, beeper := b } s
      let seen := setP told p .keypad
        { (s.pos p).keypad with returnChecks := some { standing := standing, announceSeen := true } }
      if early then told else if standing = .reached then deviceReturns p .keypad seen else seen := by
  have hport : (keyLeft p { (s.pos p).key with display := d, beeper := b } s).port p .keypad = (s.pos p).keypad := by
    rw [State.port_eq, pos_keyLeft]
    rfl
  have hseen : (keyLeft p { (s.pos p).key with display := d, beeper := b } s).modPort p .keypad
      (fun r => { r with returnChecks := some { standing := standing, announceSeen := true } }) =
      setP (keyLeft p { (s.pos p).key with display := d, beeper := b } s) p .keypad
        { (s.pos p).keypad with returnChecks := some { standing := standing, announceSeen := true } } := by
    rw [modPort_set, pos_keyLeft]
    rfl
  unfold announced
  rw [habsent]
  show announceTold p early (keyLeft p { (s.pos p).key with display := d, beeper := b } s) = _
  unfold announceTold
  simp only [hport, habsent, hchecks, hseen]

/-! ### The current (R117, R118) -/

/-- The current of a READY port runs and stops its over-time and its under-time. -/
theorem watched_ready (upper lower mA : Nat) (hon : r.switchedOn = true) (hchecks : r.readiness = none) :
    PortRecord.watchUnder lower (PortRecord.watchOver upper { r with current := mA }) =
      { r with
        current := mA
        overTime := if upper < mA then (if r.overTime.isRunning then r.overTime else .running 10) else .stopped
        underTime := if mA < lower then (if r.underTime.isRunning then r.underTime else .running 500) else .stopped } := by
  have hover : PortRecord.watchOver upper { r with current := mA } =
      { r with
        current := mA
        overTime := if upper < mA then (if r.overTime.isRunning then r.overTime else .running 10) else .stopped } := by
    unfold PortRecord.watchOver PortRecord.inInrush
    simp only [hon, hchecks]
    split_ifs <;> simp_all [Config.overMs]
  rw [hover]
  unfold PortRecord.watchUnder
  split_ifs <;> rfl

theorem currentChanges_ready {mA : Nat} (hready : ((s.pos p).port k).state = .ready)
    (hon : ((s.pos p).port k).switchedOn = true) :
    currentChanges p k mA s =
      setP s p k (PortRecord.watchUnder (lowerLimit k)
        (PortRecord.watchOver ((s.pos p).upperLimit k) { (s.pos p).port k with current := mA })) := by
  have hstate : (PortRecord.watchOver ((s.pos p).upperLimit k) { (s.pos p).port k with current := mA }).state = .ready := by
    unfold PortRecord.watchOver
    split_ifs <;> exact hready
  unfold currentChanges
  rw [State.port_eq, if_pos hon]
  simp only [modPort_set]
  rw [State.port_eq, port_set, hstate]
  simp only [set_set]

end supervised

/-- Settles O50: the trip, the under-time, the return, and the current of a READY port. -/
theorem portIsSupervised : Obligations.PortIsSupervised := by
  intro s p k mA hquiet r lower upper lost portIs tripped gone returned
  have hr : (s.pos p).port k = r := (State.port_eq s p k).symm
  have hlower : lowerLimit k = lower := by cases k <;> rfl
  have hlost (w : PortRecord) : portDown p k w s = lost w := by
    cases k
    · exact portDown_reader w s
    · exact portDown_keypad w s
  have hportIs (w : PortRecord) : setP s p k w = portIs w := (modPort_set fun _ => w).symm
  have hset (w : PortRecord) : settle (setP s p k w) = portIs w := by
    rw [(set_quiet hquiet k w).idle, hportIs]
  have hback (w : PortRecord) {t : State} (ht : Quiet p t) :
      settle (raise .deviceBack (some p) (setP t p k w)) = withNotice .deviceBack (some p) (setP t p k w) :=
    settle_raise (set_quiet ht k w).rest (set_quiet ht k w).room _ _
  simp only [hquiet.overTimeTrip, hquiet.underTimeExpiry, hquiet.returnTimeExpiry, hquiet.announce, hquiet.portCurrentChange]
  refine ⟨fun hrunning hwait => ?trips, fun hstopped => ?_, fun hready hrunning hlow => ?goes, fun hstopped => ?_,
    fun a hidle hline habsent hchecks hhigh => ?returns, fun hchecks => ?_,
    fun d b early standing a hk hidle habsent hchecks hhigh => ?told, fun hready hon hchecks => ?current, fun hoff => ?_⟩
  case trips =>
    have hdown : portGone p k .fault { state := .fault } s =
        if k = .reader ∧ (s.pos p).latchState = .energized then latchOff p (lost { state := .fault }) else lost { state := .fault } := by
      rw [portGone_fault, hlost]
    rw [overTrips_running (by rw [hr]; exact hrunning)]
    refine ⟨fun hidle => ?_, fun x hneeds hc hroom => ?_⟩
    · rw [settle_portLost_idle _ hquiet (by decide) (fun hk _ => hwait hk) hidle, hdown]
    · rw [settle_portLost_step _ hquiet (.inl rfl) (fun hk _ => hwait hk) hneeds hc hroom, hdown]
      rfl
  case goes =>
    have hgone : withNotice .deviceAbsent (some p) (portDown p k (leftPort k ((s.pos p).port k)) s) = gone := by
      rw [hlost, hr, leftPort_low (by rw [hlower]; exact hlow)]
    rw [underRunsOut_running (by rw [hr]; exact hready) (by rw [hr]; exact hrunning)]
    refine ⟨fun hidle => ?_, fun x hneeds hc hroom => ?_⟩
    · rw [settle_becomeAbsent_idle hquiet hidle, hgone]
    · rw [settle_becomeAbsent_step hquiet hroom hc hneeds, hgone]
  case returns =>
    rw [returnRunsOut_absent (by rw [hr]; exact habsent) (by rw [hr]; exact hchecks), apply_ite settle, hset, hr,
      deviceReturns_eq hidle (fun _ => hline) (by rw [hr, hlower]; exact hhigh), hback _ hquiet, hr, hportIs]
    rfl
  case told =>
    subst hk
    have htold := hquiet.keyLeft { (s.pos p).key with display := d, beeper := b }
    have hkeypad : (s.pos p).keypad = r := hr
    have hnow (w : PortRecord) : setP (keyLeft p { (s.pos p).key with display := d, beeper := b } s) p .keypad w =
        s.modPos p fun v => { v with keypad := w, key := { v.key with display := d, beeper := b } } := State.modPos_modPos _ _ _ _
    rw [announced_absent (by rw [hkeypad]; exact habsent) (by rw [hkeypad]; exact hchecks), hkeypad]
    refine congrArg Host.Outcome.next ?_
    cases early with
    | true =>
      rw [if_pos rfl, htold.idle, if_pos rfl, ← hkeypad]
      exact State.modPos_congr rfl
    | false =>
      simp only [Bool.false_eq_true, if_false]
      by_cases hstood : standing = .reached
      · rw [if_pos hstood, if_pos hstood,
          deviceReturns_eq (k := .keypad) (inFlight_setP (by rw [pos_keyLeft]; exact hidle) _) (fun h => nomatch h)
          (by rw [port_set]; exact hhigh hstood), set_set, hback _ htold, port_set, hnow]
        rfl
      · rw [if_neg hstood, if_neg hstood, (set_quiet htold _ _).idle, hnow]
  case current =>
    rw [currentChanges_ready (by rw [hr]; exact hready) (by rw [hr]; exact hon), hset, hr, hlower, watched_ready _ _ _ hon hchecks]
    cases k <;> rfl
  all_goals refine congrArg Host.Outcome.next ?_
  · rw [overTrips_stopped (by rw [hr]; exact hstopped), hquiet.idle]
  · rw [underRunsOut_stopped (by rw [hr]; exact hstopped), hquiet.idle]
  · rw [returnRunsOut_none (by rw [hr]; exact hchecks), hquiet.idle]
  · rw [currentChanges, if_neg (by rw [show (s.port p k).switchedOn = false from hoff]; decide), hquiet.idle]

end Sys2Proof.Machine
end

section
/-! SUPPORT and PROOF for O51. The card-present line (R26, R128, R134, R141): the change of a READY reader, the PRESENCE report it
makes or is merged into, and the step a fall ends. -/

namespace Sys2Proof.Machine

section line

variable {p : Pos} {s : State}

/-! ### PRESENCE reports (R141) -/

theorem isPresence_iff (x : Report) : x.isPresence = true ↔ ∃ q c n, x = .presence q c n := by
  cases x <;> simp [Report.isPresence]

theorem any_isPresence_eq_false {l : List Report} (h : ∀ x ∈ l, ¬ ∃ q c n, x = Report.presence q c n) :
    l.any Report.isPresence = false := by
  rw [List.any_eq_false]
  exact fun x hx => fun hp => h x hx ((isPresence_iff x).mp hp)

theorem mergePresence_other {x : Report} (h : ¬ ∃ q c n, x = Report.presence q c n) (b : Bool) : mergePresence b x = x := by
  cases x with
  | presence q c n => exact absurd ⟨q, c, n, rfl⟩ h
  | _ => rfl

theorem map_mergePresence_other {l : List Report} (h : ∀ x ∈ l, ¬ ∃ q c n, x = Report.presence q c n) (b : Bool) :
    l.map (mergePresence b) = l :=
  (List.map_congr_left fun x hx => mergePresence_other (h x hx) b).trans l.map_id

/-- With no PRESENCE report waiting, a change makes one where item 2 is 1. -/
theorem presenceChange_new (h : ∀ x ∈ (s.pos p).waiting, ¬ ∃ q c n, x = Report.presence q c n) (b : Bool) :
    presenceChange p b s = if (s.pos p).items.presence = 1 then offer p [.presence p b 1] s else s := by
  unfold presenceChange
  exact if_neg (by rw [any_isPresence_eq_false h]; decide)

/-- A change is merged into the PRESENCE report that waits. -/
theorem presenceChange_merged {before after : List Report} {q : Pos} {c : Bool} {n : Nat}
    (hw : (s.pos p).waiting = before ++ .presence q c n :: after)
    (hother : ∀ x ∈ before ++ after, ¬ ∃ q c n, x = Report.presence q c n) (b : Bool) :
    presenceChange p b s =
      s.modPos p fun v => { v with waiting := before ++ .presence q b (min 255 (n + 1)) :: after } := by
  obtain ⟨hbefore, hafter⟩ := List.forall_mem_append.mp hother
  unfold presenceChange
  refine (if_pos (by rw [hw]; simp [Report.isPresence])).trans (State.modPos_congr ?_)
  rw [hw, List.map_append, List.map_cons, map_mergePresence_other hbefore, map_mergePresence_other hafter]
  rfl

/-- A change of the position that keeps its waiting reports and item 2 does not touch the PRESENCE report. -/
theorem presenceChange_modPos {f : Position → Position}
    (hf : ∀ v rs, f { v with waiting := rs } = { f v with waiting := rs })
    (hkeep : ∀ v, (f v).waiting = v.waiting ∧ (f v).items = v.items) (b : Bool) :
    (presenceChange p b s).modPos p f = presenceChange p b (s.modPos p f) := by
  unfold presenceChange
  simp only [State.pos_modPos_self, hkeep]
  split_ifs
  · rw [State.modPos_modPos, State.modPos_modPos]
    refine State.modPos_congr ?_
    rw [hf, (hkeep (s.pos p)).1]
  · exact offer_modPos _ fun v => by rw [hf, (hkeep v).1]
  · rfl

theorem settle_presenceChange (h : Quiet p s) (b : Bool) :
    settle (presenceChange p b s) = if (s.pos p).items.presence = 1 then withReport (.presence p b 1) s else s := by
  rw [presence_none h.noneWaiting, apply_ite settle, settle_report h rfl (by simp), h.idle]

/-- The PRESENCE report goes before the report of the step that ends (log 14). -/
theorem settle_presenceChange_endStep (h : Quiet p s) (hroom : s.queue.length < 31) (b : Bool) {r : StepRecord}
    (hc : (s.pos p).chain = [r]) {o : StepOutcome} {d : OutcomeData} (hdue : r.reportDue o = true) {rep : Report}
    (hreports : completionReports p r o d = [rep]) (hfrees : rep.freesRecord = true) (hfill : ∀ e, rep.filled e = rep) :
    settle (endStep p o d (presenceChange p b s)) =
      withReport rep
        (stepFreed p { r with progress := some (.completing o d false) : StepRecord }.halts
          (if (s.pos p).items.presence = 1 then withReport (.presence p b 1) s else s)) := by
  rw [presence_none h.noneWaiting]
  split
  · rw [settle_offer_endStep h hroom rfl (by simp) hc hdue hreports hfrees, hfill]
  · rw [settle_endStep h.rest h.room h.noneWaiting hc hdue hreports hfrees, hfill]

/-! ### The line moves (R26) -/

/-- Card present follows the line; the card-left timer runs at a rise with no step in flight, and stops at a fall. -/
def cardMoved (p : Pos) (b : Bool) (s : State) : State :=
  s.modPos p fun v =>
    { v with
      cardLine := b
      cardPresent := b
      cardLeftTimer := if b = false then .stopped else if v.inFlight then v.cardLeftTimer
        else .running (s.settings.live.leftCard.toNat * 1000)
      cardLeftRaised := b && v.cardLeftRaised }

theorem pos_cardMoved (b : Bool) :
    ((cardMoved p b s).pos p).waiting = (s.pos p).waiting ∧ ((cardMoved p b s).pos p).chain = (s.pos p).chain ∧
      ((cardMoved p b s).pos p).items = (s.pos p).items := by
  unfold cardMoved
  rw [State.pos_modPos_self]
  exact ⟨rfl, rfl, rfl⟩

theorem Quiet.cardMoved (h : Quiet p s) (b : Bool) : Quiet p (cardMoved p b s) := h.modPos _ ⟨rfl, rfl, rfl⟩

theorem cardRises_ready (hready : (s.pos p).reader.state = .ready) (habsent : (s.pos p).cardPresent = false) :
    cardRises p s = presenceChange p true (cardMoved p true s) := by
  let carded : State := s.modPos p fun v => { v with cardLine := true, cardPresent := true }
  have hcarded : (s.modPos p fun v => { v with cardLine := true }).modPos p (fun v => { v with cardPresent := true }) = carded :=
    State.modPos_modPos _ _ _ _
  have htake : cardRises p s = startCardLeft p (presenceChange p true carded) := by
    unfold cardRises takeCardLine
    simp only [State.pos_modPos_self, hready, habsent, hcarded]
    rfl
  have hsettings : (presenceChange p true carded).settings = s.settings := by
    unfold presenceChange
    simp only
    split_ifs <;> rfl
  rw [htake, startCardLeft_eq, hsettings, presenceChange_modPos]
  · refine congrArg (presenceChange p true) ((State.modPos_modPos _ _ _ _).trans (State.modPos_congr ?_))
    show (if (true && !(s.pos p).inFlight) = true then _ else _) = _
    cases (s.pos p).inFlight <;> rfl
  · intro v rs
    show (if (v.cardPresent && !v.inFlight) = true then _ else _) = _
    split_ifs <;> rfl
  · intro v
    split_ifs <;> exact ⟨rfl, rfl⟩

theorem cardFalls_ready (hready : (s.pos p).reader.state = .ready) (hpresent : (s.pos p).cardPresent = true) :
    cardFalls p s = cardFallEnds p (presenceChange p false (cardMoved p false s)) := by
  have hgone : (s.modPos p fun v => { v with cardLine := false }).modPos p (fun v =>
      { v with cardPresent := false, cardLeftTimer := .stopped, cardLeftRaised := false }) = cardMoved p false s :=
    State.modPos_modPos _ _ _ _
  unfold cardFalls
  simp only [State.pos_modPos_self, hready, hpresent, hgone]
  rfl

theorem cardRises_other (h : (s.pos p).reader.state ≠ .ready) :
    cardRises p s = s.modPos p fun v => { v with cardLine := true } := by
  unfold cardRises
  simp only [State.pos_modPos_self]
  exact if_neg (by simp [h])

theorem cardFalls_other (h : (s.pos p).reader.state ≠ .ready) :
    cardFalls p s = s.modPos p fun v => { v with cardLine := false } := by
  unfold cardFalls
  simp only [State.pos_modPos_self]
  exact if_neg (by simp [h])

/-! ### What a fall ends (R13, R14, R64, R128) -/

theorem work_presenceChange (b : Bool) : ((presenceChange p b s).pos p).work = (s.pos p).work := by
  refine work_of_chain ?_
  unfold presenceChange
  simp only
  split_ifs
  · rw [State.pos_modPos_self]
  · rw [pos_offer_self]
  · rfl

theorem cardFallEnds_none (h : (s.pos p).work = none) : cardFallEnds p s = s := by
  unfold cardFallEnds
  rw [h]

theorem cardFallEnds_latch (h : (s.pos p).work = some .latch) : cardFallEnds p s = endStep p .cardWithdrawn .nothing s := by
  unfold cardFallEnds
  rw [h]

theorem cardFallEnds_removal {t : Timer} (h : (s.pos p).work = some (.removal t)) :
    cardFallEnds p s = endStep p .done .nothing s := by
  unfold cardFallEnds
  rw [h]

theorem cardFallEnds_screenHold {i : Fin 16} {text : List Byte} {flags : Word}
    (h : (s.pos p).work = some (.screenHold i text flags)) :
    cardFallEnds p s =
      endStep p .screened (.card { text := text, flags := flags, entryId := some i, hold := .notHeld }) s := by
  unfold cardFallEnds
  rw [h]

end line

section cardLeft

variable {p : Pos} {s : State}

theorem cardLeftRunsOut_running (h : (s.pos p).cardLeftTimer.isRunning = true) :
    cardLeftRunsOut p s =
      let t := s.modPos p fun v => { v with cardLeftTimer := .stopped, cardLeftRaised := true }
      if (s.pos p).cardLeftRaised then t else raise .cardLeft (some p) t := by
  unfold cardLeftRunsOut
  exact if_pos h

theorem cardLeftRunsOut_stopped (h : (s.pos p).cardLeftTimer = .stopped) : cardLeftRunsOut p s = s :=
  if_neg (by rw [h]; decide)

end cardLeft

section full

variable {p : Pos} {s : State}

/-- At a full queue the moved line, and what it makes of the waiting reports, leave the part at rest. -/
theorem atRest_presenceChange_full (h : AtRest s) (hfull : s.queue.length = 32) (b : Bool) :
    AtRest (presenceChange p b (cardMoved p b s)) := by
  have hmoved : AtRest (cardMoved p b s) := atRest_modPos h p _ (h.2.1 p)
  unfold presenceChange
  simp only
  split_ifs
  · exact atRest_modPos hmoved p _ (hmoved.2.1 p)
  · exact atRest_offer_full hmoved hfull p _
  · exact hmoved

end full

/-- Settles O51: a quiet part, by the reader port and the step in flight, and a full report queue. -/
theorem cardLineFollowed : Obligations.CardLineFollowed := by
  intro s p
  refine ⟨?quiet, ?full⟩
  case quiet =>
    intro hquiet hroom report gone
    have hmoved (b : Bool) : Quiet p (cardMoved p b s) := hquiet.cardMoved b
    have hsettle (b : Bool) : settle (presenceChange p b (cardMoved p b s)) = report b (cardMoved p b s) := by
      rw [settle_presenceChange (hmoved b), (pos_cardMoved b).2.2]
    simp only [hquiet.cardPresentRises, hquiet.cardPresentFalls, hquiet.cardLeftTimeout]
    refine ⟨fun hready habsent => ?_, fun hready hpresent hidle => ?_, fun r w hready hpresent hc hactive => ?ends,
      fun hnot => ⟨?_, ?_⟩, fun hrunning => ?_, fun hstopped => ?_⟩
    · rw [cardRises_ready hready habsent, hsettle]
      rfl
    · have hnone : ((presenceChange p false (cardMoved p false s)).pos p).work = none := by
        rw [work_presenceChange, work_of_chain (pos_cardMoved false).2.1]
        exact work_none hidle
      rw [cardFalls_ready hready hpresent, cardFallEnds_none hnone, hsettle]
      rfl
    case ends =>
      have hwork : ((presenceChange p false (cardMoved p false s)).pos p).work = some w := by
        rw [work_presenceChange, work_of_chain (pos_cardMoved false).2.1]
        exact work_of hc hactive
      have hend {o : StepOutcome} {d : OutcomeData} {rep : Report}
          (hfall : cardFallEnds p (presenceChange p false (cardMoved p false s)) =
            endStep p o d (presenceChange p false (cardMoved p false s)))
          (hdue : r.reportDue o = true) (hreports : completionReports p r o d = [rep]) (hfrees : rep.freesRecord = true)
          (hfill : ∀ e, rep.filled e = rep) {halted : Bool}
          (hhalts : ({ r with progress := some (.completing o d false) } : StepRecord).halts = halted) :
          settle (cardFalls p s) = withReport rep (stepFreed p halted (report false gone)) := by
        rw [cardFalls_ready hready hpresent, hfall, settle_presenceChange_endStep (hmoved false) hroom false
          ((pos_cardMoved false).2.1.trans hc) hdue hreports hfrees hfill, (pos_cardMoved false).2.2, hhalts]
        rfl
      refine ⟨fun ⟨x, t, ms, hr, hw⟩ hnotify => congrArg Host.Outcome.next ?_, fun hr hw => congrArg Host.Outcome.next ?_,
        fun a t i text flags hr hw hlen => congrArg Host.Outcome.next ?_⟩
      · subst hw
        refine hend (cardFallEnds_removal hwork) ?_ ?_ rfl (fun _ => rfl) (halts_done r _)
        · rw [reportDue_done (by rw [hr]; exact fun h => nomatch h)]
          exact hnotify
        · rw [completionReports, hr]
          rfl
      · subst hw
        refine hend (cardFallEnds_latch hwork) (due_fail r (by decide)) ?_ rfl (fun _ => rfl) (halts_eq r _ _ (by decide))
        rw [completionReports, hr]
        rfl
      · subst hw
        refine hend (cardFallEnds_screenHold hwork) (due_fail r (by decide)) ?_ rfl (fun _ => rfl) (halts_eq r _ _ (by decide))
        rw [completionReports_card p r a t hr _ (.inr rfl)]
        exact if_pos hlen
    · rw [cardRises_other hnot, (hquiet.modPos _ ⟨rfl, rfl, rfl⟩).idle]
    · rw [cardFalls_other hnot, (hquiet.modPos _ ⟨rfl, rfl, rfl⟩).idle]
    · have htimed : Quiet p (s.modPos p fun v => { v with cardLeftTimer := .stopped, cardLeftRaised := true }) :=
        hquiet.modPos _ ⟨rfl, rfl, rfl⟩
      rw [cardLeftRunsOut_running hrunning]
      simp only [apply_ite settle, settle_raise htimed.rest htimed.room, htimed.idle]
    · rw [cardLeftRunsOut_stopped hstopped, hquiet.idle]
  case full =>
    intro hp hrest hfull hready hwork b hother changes isPresence moved
    have hnone : ((presenceChange p false (cardMoved p false s)).pos p).work = none := by
      rw [work_presenceChange, work_of_chain (pos_cardMoved false).2.1]
      exact hwork
    have hsettle := settle_of_atRest (atRest_presenceChange_full (p := p) hrest hfull b)
    have hchanges : changes = .next (presenceChange p b (cardMoved p b s)) := by
      cases b with
      | true =>
        have hexec : exec (.cardPresentRises p) s = .next (settle (cardRises p s)) := if_pos hp
        exact hexec.trans (by rw [cardRises_ready hready hother, hsettle])
      | false =>
        have hexec : exec (.cardPresentFalls p) s = .next (settle (cardFalls p s)) := if_pos hp
        exact hexec.trans (by rw [cardFalls_ready hready hother, cardFallEnds_none hnone, hsettle])
    have hmoved (l : List Report) : (cardMoved p b s).modPos p (fun v => { v with waiting := l }) = moved l :=
      State.modPos_modPos _ _ _ _
    have hkept : cardMoved p b s = moved (s.pos p).waiting := State.modPos_congr rfl
    obtain ⟨hwaiting, -, hitems⟩ := pos_cardMoved (p := p) (s := s) b
    rw [hchanges]
    refine ⟨fun before after c n hw hothers => ?_, fun hothers => ?_⟩
    · rw [presenceChange_merged (hwaiting.trans hw) hothers, hmoved]
    · rw [presenceChange_new (by rw [hwaiting]; exact hothers), hitems]
      refine congrArg Host.Outcome.next (if_congr Iff.rfl ?_ hkept)
      have hjoined : (cardMoved p b s).modPos p (fun v => { v with waiting := v.waiting ++ [.presence p b 1] }) =
          moved ((s.pos p).waiting ++ [.presence p b 1]) := (State.modPos_modPos _ _ _ _).trans (State.modPos_congr rfl)
      unfold offer
      rw [hjoined]
      rfl

end Sys2Proof.Machine
end

section
/-! SUPPORT and PROOF for O52. The ceiling and the re-energize timer of a latch (R131, R133), and the grant decision that each
makes (R125, R126). -/

namespace Sys2Proof.Machine

section latch

variable {p : Pos} {s : State}

/-- A class raised leaves a grant decision that grants nothing as it is. -/
theorem grantDecision_raise_passed (c : NoticeClass) (who : Option Pos)
    (h : s.settings.live.latchBudget.toNat ≤ s.energized.length ∨ ∀ x ∈ s.latchWait, PassedOver x s) :
    grantDecision (raise c who s) = raise c who s := by
  refine grantDecision_idle ?_
  rw [settings_raise, energized_raise, latchWait_raise]
  refine h.imp id fun hpassed x hx => not_eligible_of ?_
  unfold PassedOver
  rw [pos_raise]
  exact hpassed x hx

/-- The latch has been driven off at its ceiling, and the overrun counted. -/
def overran (p : Pos) (s : State) : State :=
  (latchOff p s).modPos p fun v => { v with counters := v.counters.set 6 (v.counters[6] + 1) }

theorem atRest_overran (h : AtRest s) (p : Pos) : AtRest (overran p s) := by
  have hoff := atRest_latchOff h p
  exact atRest_modPos hoff p _ (hoff.2.1 p)

theorem ceilingRunsOut_running (h : (s.pos p).ceilingTimer.isRunning = true) (hcount : (s.pos p).counters[6] < 49151) :
    ceilingRunsOut p s = grantDecision (raise .latchOverrun (some p) (overran p s)) := by
  have hcounters : ((raise .latchOverrun (some p) (driveOff p s)).pos p).counters = (s.pos p).counters := by
    rw [pos_raise, driveOff_eq, pos_latchOff_self]
  unfold ceilingRunsOut
  rw [if_pos h, countPos_low .latchOverruns (by rw [hcounters]; exact hcount), raise_modPos, hcounters]
  refine congrArg (fun t => grantDecision (raise .latchOverrun (some p) t)) (State.modPos_congr ?_)
  rw [driveOff_eq, pos_latchOff_self]
  rfl

theorem ceilingRunsOut_stopped (h : (s.pos p).ceilingTimer = .stopped) : ceilingRunsOut p s = s :=
  if_neg (by rw [h]; decide)

theorem reEnergizeRunsOut_stopped (h : (s.pos p).reEnergizeTimer = .stopped) : reEnergizeRunsOut p s = s :=
  if_neg (by rw [h]; decide)

end latch

/-- Settles O52: each timer, where nobody is granted, and where one waiter is. -/
theorem latchTimersRunOut : Obligations.LatchTimersRunOut := by
  intro s p hquiet
  refine ⟨?ceiling, fun hstopped => ?_, ?interval, fun hstopped => ?_⟩
  case ceiling =>
    intro hrunning hcount off
    have hrest : AtRest off := atRest_overran hquiet.rest p
    rw [hquiet.latchCeilingTimeout, ceilingRunsOut_running hrunning hcount]
    refine ⟨fun hnone => congrArg Host.Outcome.next ?_, fun q r rep b hwaiter hroom hbudget honly => congrArg Host.Outcome.next ?_⟩
    · rw [grantDecision_raise_passed (s := overran p s) _ _ hnone]
      exact settle_raise hrest hquiet.room _ _
    · exact settle_raise_grant hrest hroom _ _ hwaiter hbudget honly
  case interval =>
    intro hrunning lapsed
    have hlapsed : Quiet p lapsed := hquiet.modPos _ ⟨rfl, rfl, rfl⟩
    have hruns : reEnergizeRunsOut p s = grantDecision lapsed := if_pos hrunning
    rw [hquiet.reEnergizeTimeout, hruns]
    refine ⟨fun hnone => congrArg Host.Outcome.next ?_, fun q r rep b hwaiter hbudget honly => congrArg Host.Outcome.next ?_⟩
    · rw [grantDecision_idle (s := lapsed) (hnone.imp id fun hpassed x hx => not_eligible_of (hpassed x hx)), hlapsed.idle]
    · exact settle_grant hlapsed.rest hlapsed.room hwaiter hbudget honly
  · rw [hquiet.latchCeilingTimeout, ceilingRunsOut_stopped hstopped, hquiet.idle]
  · rw [hquiet.reEnergizeTimeout, reEnergizeRunsOut_stopped hstopped, hquiet.idle]

end Sys2Proof.Machine
end
